-- ==== Sys2Proof/Word.lean ====
section
/-! DEFINITION. The word types of the block (00_scope.md R10, R11). -/

namespace Sys2Proof

/-- A CMD, DIN or DOUT register: 32 bits (10_state.md R31). -/
abbrev Word := BitVec 32
/-- An image byte, a STATUS register, a channel mask or a slider coordinate: 8 bits (R10). -/
abbrev Byte := BitVec 8
/-- A 16-bit image word (R10). -/
abbrev Half := BitVec 16
/-- A key, switch or gesture code: 16 bits, 0 for no code (R10, D26, D38). -/
abbrev Code := BitVec 16
/-- A channel index, 0 to 7 (00_scope.md R8, NUM_CH). -/
abbrev Chan := Fin 8
/-- A slider index, 0 or 1 (R8, NUM_SL). -/
abbrev SliderIx := Fin 2
/-- A gesture index: tap 0, hold 1, flick-positive 2, flick-negative 3 (10_state.md R42). -/
abbrev Gesture := Fin 4

end Sys2Proof
end

