-- ==== Sys2Proof/Syntax.lean ====
section
/-! DEFINITION. The commands of the block: one constructor of `Instr` per row of the opcode table
(30_encoding.md R112), and the field names a FID can stand for (10_state.md R43, R44). -/

namespace Sys2Proof

/-- The system-block fields, in FID order 0x00 to 0x25 (10_state.md R43). -/
inductive SysField where
  | genClkDiv
  | genPwrMode
  | genEventMode
  | genEventModeLp
  | genRedoAti
  | genAckReset
  | active
  | filtLpLta
  | filtLpCnt
  | filtNpLta
  | filtNpCnt
  | reseed
  | eventMask
  | rateNp
  | rateLp
  | rateUlp
  | timeoutPwr
  | timeout2
  | timeoutLta
  | maAtiBandDisable
  | maAtiLpOnly
  | maAtiBandTighten
  | maFiltDisable
  | maTxFreq
  | maGlobalCap
  | mbReseedSel
  | blocking
  | slider0Sel
  | slider1Sel
  | touchHold
  | timeoutTap
  | timeoutSwipe
  | threshSwipe
  | redoAtiMask
  | generalWord
  | miscAWord
  | miscBWord
  | filterByte
  deriving DecidableEq, Repr

/-- The channel-block fields, in FID order 0x40 to 0x55 (10_state.md R44). -/
inductive ChanField where
  | rxEn
  | txEn
  | eaMeasCap
  | eaAtiMode
  | eaPolarity
  | eaBias
  | eaSenseMode
  | ebSenseFreq
  | ebAtiBase
  | ebAtiTarget
  | localCapSize
  | atiComp
  | threshProx
  | threshTouch
  | threshDeep
  | hystTouch
  | hystDeep
  | assocSel
  | assocWeight
  | engineAWord
  | engineBWord
  | hystByte
  deriving DecidableEq, Repr

/-- A field a command can name; the constructor is its scope (41_field_codec.md R150). -/
inductive RegField where
  | sys (f : SysField)
  | chan (f : ChanField)
  deriving DecidableEq, Repr

/-- The 22 commands (30_encoding.md R112). `ch` is the CH field of the word, 0 to 15: a channel
operand (R114), or the slider index of SLIDER_MODE_GET. The scalar operand is in DIN and record
operands are on the side ports (R111), so neither is part of the command. -/
inductive Instr where
  | fldGet (f : RegField) (ch : Fin 16)
  | fldSet (f : RegField) (ch : Fin 16)
  | atiModeGet (ch : Fin 16)
  | atiModeSet (ch : Fin 16)
  | atiBaseGet (ch : Fin 16)
  | atiBaseSet (ch : Fin 16)
  | atiTargetGet (ch : Fin 16)
  | atiTargetSet (ch : Fin 16)
  | rxEnGet (ch : Fin 16)
  | rxEnSet (ch : Fin 16)
  | chSelGet
  | chSelSet
  | hallEnGet
  | hallEnSet
  | recalStatus
  | recalTrigger
  | countsRead (ch : Fin 16)
  | cfgBuild
  | imgInit
  | snapDecode
  | sliderModeGet (ch : Fin 16)
  | calWait
  deriving DecidableEq, Repr

end Sys2Proof
end

