-- ==== Sys2Proof/WellFormed.lean ====
section
/-! DEFINITION. Which commands are well formed: those some word encodes. The operand types rule out
every other ill-formed term. -/

namespace Sys2Proof

/-- A system field takes CH = 0 (30_encoding.md R114, R115(f)); a channel field takes any CH. -/
def RegField.takesChannel (f : RegField) (ch : Fin 16) : Bool :=
  match f with
  | .sys _ => ch == 0
  | .chan _ => true

/-- The well-formedness of a command. -/
def Instr.wellFormed : Instr → Bool
  | .fldGet f ch => f.takesChannel ch
  | .fldSet f ch => f.takesChannel ch
  | .atiModeGet _ => true
  | .atiModeSet _ => true
  | .atiBaseGet _ => true
  | .atiBaseSet _ => true
  | .atiTargetGet _ => true
  | .atiTargetSet _ => true
  | .rxEnGet _ => true
  | .rxEnSet _ => true
  | .chSelGet => true
  | .chSelSet => true
  | .hallEnGet => true
  | .hallEnSet => true
  | .recalStatus => true
  | .recalTrigger => true
  | .countsRead _ => true
  | .cfgBuild => true
  | .imgInit => true
  | .snapDecode => true
  | .sliderModeGet _ => true
  | .calWait => true

end Sys2Proof
end

