-- ==== Sys2Proof/Decode.lean ====
section
/-! DEFINITION. The command word (30_encoding.md R110 to R115): the decoder, total on 32-bit words
and rejecting by name, and the encoder written from the same tables (R112, R119). -/

namespace Sys2Proof

/-- The FID of a system field (10_state.md R43). -/
def SysField.fid : SysField → Byte
  | .genClkDiv => 0x00#8
  | .genPwrMode => 0x01#8
  | .genEventMode => 0x02#8
  | .genEventModeLp => 0x03#8
  | .genRedoAti => 0x04#8
  | .genAckReset => 0x05#8
  | .active => 0x06#8
  | .filtLpLta => 0x07#8
  | .filtLpCnt => 0x08#8
  | .filtNpLta => 0x09#8
  | .filtNpCnt => 0x0A#8
  | .reseed => 0x0B#8
  | .eventMask => 0x0C#8
  | .rateNp => 0x0D#8
  | .rateLp => 0x0E#8
  | .rateUlp => 0x0F#8
  | .timeoutPwr => 0x10#8
  | .timeout2 => 0x11#8
  | .timeoutLta => 0x12#8
  | .maAtiBandDisable => 0x13#8
  | .maAtiLpOnly => 0x14#8
  | .maAtiBandTighten => 0x15#8
  | .maFiltDisable => 0x16#8
  | .maTxFreq => 0x17#8
  | .maGlobalCap => 0x18#8
  | .mbReseedSel => 0x19#8
  | .blocking => 0x1A#8
  | .slider0Sel => 0x1B#8
  | .slider1Sel => 0x1C#8
  | .touchHold => 0x1D#8
  | .timeoutTap => 0x1E#8
  | .timeoutSwipe => 0x1F#8
  | .threshSwipe => 0x20#8
  | .redoAtiMask => 0x21#8
  | .generalWord => 0x22#8
  | .miscAWord => 0x23#8
  | .miscBWord => 0x24#8
  | .filterByte => 0x25#8

/-- The FID of a channel field (10_state.md R44). -/
def ChanField.fid : ChanField → Byte
  | .rxEn => 0x40#8
  | .txEn => 0x41#8
  | .eaMeasCap => 0x42#8
  | .eaAtiMode => 0x43#8
  | .eaPolarity => 0x44#8
  | .eaBias => 0x45#8
  | .eaSenseMode => 0x46#8
  | .ebSenseFreq => 0x47#8
  | .ebAtiBase => 0x48#8
  | .ebAtiTarget => 0x49#8
  | .localCapSize => 0x4A#8
  | .atiComp => 0x4B#8
  | .threshProx => 0x4C#8
  | .threshTouch => 0x4D#8
  | .threshDeep => 0x4E#8
  | .hystTouch => 0x4F#8
  | .hystDeep => 0x50#8
  | .assocSel => 0x51#8
  | .assocWeight => 0x52#8
  | .engineAWord => 0x53#8
  | .engineBWord => 0x54#8
  | .hystByte => 0x55#8

/-- The FID of a field. -/
def RegField.fid : RegField → Byte
  | .sys f => f.fid
  | .chan f => f.fid

/-- Every system field, in FID order. -/
def SysField.all : List SysField :=
  [.genClkDiv, .genPwrMode, .genEventMode, .genEventModeLp, .genRedoAti, .genAckReset, .active, .filtLpLta,
   .filtLpCnt, .filtNpLta, .filtNpCnt, .reseed, .eventMask, .rateNp, .rateLp, .rateUlp,
   .timeoutPwr, .timeout2, .timeoutLta, .maAtiBandDisable, .maAtiLpOnly, .maAtiBandTighten, .maFiltDisable, .maTxFreq,
   .maGlobalCap, .mbReseedSel, .blocking, .slider0Sel, .slider1Sel, .touchHold, .timeoutTap, .timeoutSwipe,
   .threshSwipe, .redoAtiMask, .generalWord, .miscAWord, .miscBWord, .filterByte]

/-- Every channel field, in FID order. -/
def ChanField.all : List ChanField :=
  [.rxEn, .txEn, .eaMeasCap, .eaAtiMode, .eaPolarity, .eaBias, .eaSenseMode, .ebSenseFreq,
   .ebAtiBase, .ebAtiTarget, .localCapSize, .atiComp, .threshProx, .threshTouch, .threshDeep, .hystTouch,
   .hystDeep, .assocSel, .assocWeight, .engineAWord, .engineBWord, .hystByte]

/-- Every field, in FID order. -/
def RegField.all : List RegField := SysField.all.map .sys ++ ChanField.all.map .chan

/-- The field a FID names, if it names one: the other FIDs are unassigned (R113). -/
def RegField.ofFid (n : Byte) : Option RegField := RegField.all.find? (fun f => f.fid == n)

/-- Why a word is no command: the cases of R115 a decoder can see. Each completes with
IllegalCommand. The two it cannot see, a FID that OTP_HOLD removes (e) and a command from the
wrong issuer (g), are checked by the commands. -/
inductive DecodeError where
  | unassignedOpcode   -- R115(a)
  | reservedBits       -- R115(b)
  | fidNotZero         -- R115(c)
  | channelNotZero     -- R115(d)
  | unassignedFid      -- R115(e)
  | systemFieldChannel -- R115(f)
  deriving DecidableEq, Repr

/-- The OP field, bits [31:24] (R110). -/
def opOf (w : Word) : Byte := w.extractLsb' 24 8
/-- The FID field, bits [23:16] (R110). -/
def fidOf (w : Word) : Byte := w.extractLsb' 16 8
/-- The CH field, bits [15:12], as a number 0 to 15 (R110). -/
def chOf (w : Word) : Fin 16 := (w.extractLsb' 12 4).toFin
/-- The RSV field, bits [11:0] (R110). -/
def rsvOf (w : Word) : BitVec 12 := w.extractLsb' 0 12

/-- A command that takes no FID and no CH: both must be 0 (R115(c), (d)). -/
def plainCommand (w : Word) (i : Instr) : Except DecodeError Instr :=
  if fidOf w ≠ 0 then .error .fidNotZero
  else if chOf w ≠ 0 then .error .channelNotZero
  else .ok i

/-- A command that takes CH and no FID (R115(c)). -/
def channelCommand (w : Word) (mk : Fin 16 → Instr) : Except DecodeError Instr :=
  if fidOf w ≠ 0 then .error .fidNotZero else .ok (mk (chOf w))

/-- A command that takes a FID and CH: the FID must name a field (R113), and a system field takes
CH = 0 (R114). -/
def fieldCommand (w : Word) (mk : RegField → Fin 16 → Instr) : Except DecodeError Instr :=
  match RegField.ofFid (fidOf w) with
  | none => .error .unassignedFid
  | some (.sys f) =>
    if chOf w ≠ 0 then .error .systemFieldChannel else .ok (mk (.sys f) (chOf w))
  | some (.chan f) => .ok (mk (.chan f) (chOf w))

/-- Which of FID and CH a command takes (the FID and CH columns of R112). -/
inductive Form where
  | field (mk : RegField → Fin 16 → Instr)
  | channel (mk : Fin 16 → Instr)
  | plain (i : Instr)

/-- The opcode map (R112). -/
def opcodeTable : List (Byte × Form) :=
  [(0x01#8, .field .fldGet), (0x02#8, .field .fldSet),
   (0x10#8, .channel .atiModeGet), (0x11#8, .channel .atiModeSet),
   (0x12#8, .channel .atiBaseGet), (0x13#8, .channel .atiBaseSet),
   (0x14#8, .channel .atiTargetGet), (0x15#8, .channel .atiTargetSet),
   (0x16#8, .channel .rxEnGet), (0x17#8, .channel .rxEnSet),
   (0x20#8, .plain .chSelGet), (0x21#8, .plain .chSelSet),
   (0x22#8, .plain .hallEnGet), (0x23#8, .plain .hallEnSet),
   (0x24#8, .plain .recalStatus), (0x25#8, .plain .recalTrigger),
   (0x26#8, .channel .countsRead),
   (0x30#8, .plain .cfgBuild), (0x31#8, .plain .imgInit),
   (0x40#8, .plain .snapDecode), (0x41#8, .channel .sliderModeGet),
   (0x50#8, .plain .calWait)]

/-- The command of a word whose reserved bits are 0. -/
def decodeOp (w : Word) : Except DecodeError Instr :=
  match opcodeTable.lookup (opOf w) with
  | none => .error .unassignedOpcode
  | some (.field mk) => fieldCommand w mk
  | some (.channel mk) => channelCommand w mk
  | some (.plain i) => plainCommand w i

/-- The decoder: a command's whole extent is its one word (R111). -/
def decode (w : Word) : Except DecodeError Instr :=
  if rsvOf w ≠ 0 then .error .reservedBits else decodeOp w

/-- The OP byte of a command (R112). -/
def Instr.opcode : Instr → Byte
  | .fldGet _ _ => 0x01#8
  | .fldSet _ _ => 0x02#8
  | .atiModeGet _ => 0x10#8
  | .atiModeSet _ => 0x11#8
  | .atiBaseGet _ => 0x12#8
  | .atiBaseSet _ => 0x13#8
  | .atiTargetGet _ => 0x14#8
  | .atiTargetSet _ => 0x15#8
  | .rxEnGet _ => 0x16#8
  | .rxEnSet _ => 0x17#8
  | .chSelGet => 0x20#8
  | .chSelSet => 0x21#8
  | .hallEnGet => 0x22#8
  | .hallEnSet => 0x23#8
  | .recalStatus => 0x24#8
  | .recalTrigger => 0x25#8
  | .countsRead _ => 0x26#8
  | .cfgBuild => 0x30#8
  | .imgInit => 0x31#8
  | .snapDecode => 0x40#8
  | .sliderModeGet _ => 0x41#8
  | .calWait => 0x50#8

/-- The FID byte of a command: 0 but for FLD_GET and FLD_SET (R110). -/
def Instr.fidByte : Instr → Byte
  | .fldGet f _ => f.fid
  | .fldSet f _ => f.fid
  | .atiModeGet _ | .atiModeSet _ | .atiBaseGet _ | .atiBaseSet _ => 0
  | .atiTargetGet _ | .atiTargetSet _ | .rxEnGet _ | .rxEnSet _ => 0
  | .chSelGet | .chSelSet | .hallEnGet | .hallEnSet => 0
  | .recalStatus | .recalTrigger | .countsRead _ | .cfgBuild | .imgInit => 0
  | .snapDecode | .sliderModeGet _ | .calWait => 0

/-- The CH operand of a command: 0 where it takes none (R110). -/
def Instr.channel : Instr → Fin 16
  | .fldGet _ ch | .fldSet _ ch => ch
  | .atiModeGet ch | .atiModeSet ch | .atiBaseGet ch | .atiBaseSet ch => ch
  | .atiTargetGet ch | .atiTargetSet ch | .rxEnGet ch | .rxEnSet ch => ch
  | .countsRead ch | .sliderModeGet ch => ch
  | .chSelGet | .chSelSet | .hallEnGet | .hallEnSet => 0
  | .recalStatus | .recalTrigger | .cfgBuild | .imgInit | .snapDecode | .calWait => 0

/-- The command word, OP ++ FID ++ CH ++ RSV (R110, R119). -/
def encode (i : Instr) : Word :=
  (i.opcode ++ i.fidByte : BitVec 16) ++ (BitVec.ofFin i.channel ++ 0#12 : BitVec 16)

/-- What the decoder reads from an opcode-table row's bits: a command is one 32-bit word, so the
row's numbering is the word's own. A row wider than a command is none. -/
def decodeTableWord (nbits w : Nat) : Option Instr :=
  if nbits ≤ 32 ∧ w < 2 ^ 32 then
    match decode (BitVec.ofNat 32 w) with
    | .ok i => some i
    | .error _ => none
  else none

end Sys2Proof
end

