-- ==== Sys2Proof/Config.lean ====
section
/-! DEFINITION. The constants of 00_scope.md R8, the open parameters of R9, and the one free value
of the model. -/

namespace Sys2Proof

namespace Config

/-- ATI_TARGET_STEP (R8). -/
def atiTargetStep : Nat := 32
/-- ATI_TARGET_MAX (R8). -/
def atiTargetMax : Nat := 2016
/-- ATI_BASE_VALUES, in percent (R8). -/
def atiBaseValues : List Nat := [75, 100, 150, 200]
/-- ATI_MODE_MAX (R8). -/
def atiModeMax : Nat := 3
/-- RATE_ULP_DIV (R8). -/
def rateUlpDiv : Nat := 16
/-- TIMEOUT_PWR_DIV and TIMEOUT_LTA_DIV (R8). -/
def timeoutDiv : Nat := 512
/-- TOUCH_HOLD_DIV (R8). -/
def touchHoldDiv : Nat := 256
/-- PIN_LIST_MAX: the most entries of a pin list (R8). -/
def pinListMax : Nat := 8
/-- CAL_TIMEOUT_MS: timing only, no rule reads it (R8, 70_reset_and_hazards.md R458). -/
def calTimeoutMs : Nat := 2000
/-- NUM_SL (R8). -/
def numSliders : Nat := 2

end Config

/-- The parameters the source leaves open (R9). No step writes them (10_state.md). -/
structure Params where
  numPorts : Nat
  fwRev : Nat
  otpHold : Bool
  initImage : Vector Byte 136
  fwHoldFixMin : Nat
  touchHoldDefault : Byte
  fwStepMin : Nat
  stepTOld : Nat
  stepTNew : Nat
  stepSOld : Nat
  stepSNew : Nat
  redoOnRecovery : Bool
  imgBase : Nat
  snapBase : Nat
  countsBase : Vector Nat 8
  irqSettleUs : Nat
  deriving DecidableEq, Repr, Inhabited

/-- The constraints R9 puts on the parameters: at least one port, steps of at least 1, and the
newer step coarser than the older. -/
def Params.valid (P : Params) : Bool :=
  1 ≤ P.numPorts && 1 ≤ P.stepTOld && P.stepTOld < P.stepTNew &&
    1 ≤ P.stepSOld && P.stepSOld < P.stepSNew

/-- STEP_T, the unit of the tap and swipe timeouts (R9, D33). -/
def Params.stepT (P : Params) : Nat := if P.fwRev < P.fwStepMin then P.stepTOld else P.stepTNew

/-- STEP_S, the unit of the swipe threshold (R9, D33). -/
def Params.stepS (P : Params) : Nat := if P.fwRev < P.fwStepMin then P.stepSOld else P.stepSNew

namespace Config

/-! The open values: each is a constant with no body, so nothing can be proved of it. -/

/-- NUM_PORTS − 1. -/
opaque portsBeyondFirst : Nat
/-- FW_REV. -/
opaque fwRev : Nat
/-- OTP_HOLD. -/
opaque otpHold : Bool
/-- INIT_IMAGE. -/
opaque initImage : Vector Byte 136
/-- FW_HOLD_FIX_MIN. -/
opaque fwHoldFixMin : Nat
/-- TOUCH_HOLD_DEFAULT. -/
opaque touchHoldDefault : Byte
/-- FW_STEP_MIN. -/
opaque fwStepMin : Nat
/-- STEP_T_OLD − 1. -/
opaque stepTOldLessOne : Nat
/-- STEP_T_NEW − STEP_T_OLD − 1. -/
opaque stepTGapLessOne : Nat
/-- STEP_S_OLD − 1. -/
opaque stepSOldLessOne : Nat
/-- STEP_S_NEW − STEP_S_OLD − 1. -/
opaque stepSGapLessOne : Nat
/-- REDO_ON_RECOVERY (default 1 in R9, not fixed here: 90_conflicts.md C6). -/
opaque redoOnRecovery : Bool
/-- IMG_BASE. -/
opaque imgBase : Nat
/-- SNAP_BASE. -/
opaque snapBase : Nat
/-- COUNTS_BASE(c), for c in 0..7. -/
opaque countsBase : Vector Nat 8
/-- IRQ_SETTLE_US: timing only (70_reset_and_hazards.md R453). -/
opaque irqSettleUs : Nat

/-- The machine's parameters at reset: every open value at its constant, the constraints of R9
met by construction. -/
def params : Params where
  numPorts := portsBeyondFirst + 1
  fwRev := fwRev
  otpHold := otpHold
  initImage := initImage
  fwHoldFixMin := fwHoldFixMin
  touchHoldDefault := touchHoldDefault
  fwStepMin := fwStepMin
  stepTOld := stepTOldLessOne + 1
  stepTNew := (stepTOldLessOne + 1) + (stepTGapLessOne + 1)
  stepSOld := stepSOldLessOne + 1
  stepSNew := (stepSOldLessOne + 1) + (stepSGapLessOne + 1)
  redoOnRecovery := redoOnRecovery
  imgBase := imgBase
  snapBase := snapBase
  countsBase := countsBase
  irqSettleUs := irqSettleUs

/-- FREE VALUE. What DOUT holds when a decoded value does not fit its 32 bits, drawn by the
counter `State.draws`. The spec gives no rule for it (30_encoding.md R117 speaks of narrower
results only). DESIGN CHOICE, safe: notes/assumptions/9.md. -/
opaque freeDout : Nat → Word

end Config

end Sys2Proof
end

