-- ==== Sys2Proof/Machine/Types.lean ====
section
/-! DEFINITION. The plain data the block handles: status codes, the configuration record
(43_configuration.md R250), the snapshot record and the reports (44_event_classifier.md R321,
R323), and the bus answers (20_memory.md R88). -/

namespace Sys2Proof.Machine

/-- The status codes (60_exceptions.md R410). -/
inductive Status where
  | ok
  | outOfRange
  | invalidEnum
  | communicationError
  | recoveryFailed
  | timeout
  | notReady
  | busy
  | illegalCommand
  deriving DecidableEq, Repr

/-- PHASE (10_state.md R32). -/
inductive Phase where
  | unconfigured
  | configured
  | armed
  deriving DecidableEq, Repr

/-- GATE (10_state.md R35). -/
inductive Gate where
  | idle
  | calibrating
  | ready
  deriving DecidableEq, Repr

/-- The slider operating mode, derived and never stored (10_state.md R47). -/
inductive SliderMode where
  | none
  | key
  | raw
  deriving DecidableEq, Repr

/-- The six logical events, in event-id order 0 to 5 (44_event_classifier.md R320). -/
inductive Event where
  | proxDn
  | proxUp
  | touchDn
  | touchUp
  | deepDn
  | deepUp
  deriving DecidableEq, Repr

/-- The kind of an event: the state mask, threshold and hysteresis it shares (R320). -/
inductive EventKind where
  | prox
  | touch
  | deep
  deriving DecidableEq, Repr

/-- KEYCODE or SWCODE: a code per event and channel (10_state.md R40, R41). -/
abbrev CodeTable := Vector (Vector Code 8) 6
/-- SLCODE: a code per slider and gesture (10_state.md R42). -/
abbrev SliderCodes := Vector (Vector Code 4) 2

/-- EvCfg, the configuration of one event of one channel (43_configuration.md R250). -/
structure EvCfg where
  thresh : Option Nat := none
  hyst : Option Nat := none
  key : Code := 0
  sw : Code := 0
  deriving DecidableEq, Repr

/-- ChCfg, the configuration of one channel (R250). -/
structure ChCfg where
  reseedDisable : Bool := false
  blocking : Bool := false
  slider0 : Bool := false
  slider1 : Bool := false
  rxPins : Option (List Nat) := none
  txPins : Option (List Nat) := none
  measCap : Option Bool := none
  localCap : Option Nat := none
  polarity : Option Bool := none
  senseMode : Option Nat := none
  senseFreq : Option Nat := none
  bias : Option Nat := none
  atiMode : Option Nat := none
  atiBase : Option Nat := none
  atiTarget : Option Nat := none
  assocSelect : Option Nat := none
  assocWeight : Option Nat := none
  ev : Vector EvCfg 6 := .replicate 6 {}
  deriving DecidableEq, Repr

/-- SysCfg, the system properties (R250). -/
structure SysCfg where
  filtLpLta : Option Nat := none
  filtLpCnt : Option Nat := none
  filtNpLta : Option Nat := none
  filtNpCnt : Option Nat := none
  rateNp : Option Nat := none
  rateLp : Option Nat := none
  rateUlp : Option Nat := none
  timeoutPwr : Option Nat := none
  timeoutLta : Option Nat := none
  touchHold : Option Nat := none
  timeoutTap : Option Nat := none
  timeoutSwipe : Option Nat := none
  threshSwipe : Option Nat := none
  pwrMode : Option Nat := none
  clkDiv : Option Bool := none
  atiBandDisable : Option Bool := none
  atiLpOnly : Option Bool := none
  atiBandTighten : Option Bool := none
  filtDisable : Option Bool := none
  txFreq : Option Nat := none
  globalCap : Option Bool := none
  reseedSel : Option Nat := none
  deriving DecidableEq, Repr

/-- Cfg, the configuration record on side port CFG (R250). A channel that is `none` is not in the
configuration; a code 0 is no code. -/
structure Cfg where
  hall : Bool := false
  sys : SysCfg := {}
  ch : Vector (Option ChCfg) 8 := .replicate 8 none
  slCode : SliderCodes := .replicate 2 (.replicate 4 0)
  deriving DecidableEq, Repr

/-- SNAP, the decoded status snapshot (44_event_classifier.md R321): the 16 system flags, the
gesture mask (bit 4·i + g), the state masks proximity, direction, touch, deep touch, and the two
slider coordinates. -/
structure Snap where
  sys : Half := 0
  gesture : Byte := 0
  states : Vector Byte 4 := .replicate 4 0
  pos : Vector Byte 2 := .replicate 2 0
  deriving DecidableEq, Repr

/-- The bus's answer to an image write (R88). -/
inductive BusAnswer where
  | ok
  | err
  deriving DecidableEq, Repr

/-- The inputs the environment gives a step on the side ports (30_encoding.md R111,
60_exceptions.md R420). A read's Err is `none`; BUSR's bytes are in bus order, b0 then b1. -/
structure SidePorts where
  cfg : Cfg := {}
  snap : Option Snap := some {}
  busw : BusAnswer := .ok
  busr : Option (Byte × Byte) := some (0, 0)
  deriving DecidableEq, Repr

/-- The logical input devices (R323). -/
inductive Dev where
  | keypad
  | slider0
  | slider1
  deriving DecidableEq, Repr

/-- A level report on EVT (R323). -/
inductive Report where
  | key (dev : Dev) (code : Code) (v : Bool)
  | switch (code : Code) (v : Bool)
  | touch (dev : Dev) (v : Bool)
  | abs (dev : Dev) (p : Byte)
  deriving DecidableEq, Repr

/-- What the block asked of the bus, and the answer (R88): an image write at an offset, the
snapshot read, and a counts read of two bytes. -/
inductive BusTxn where
  | writeImage (off : Nat) (bytes : List Byte) (answer : BusAnswer)
  | readSnap (off : Nat) (answer : Option Snap)
  | readCounts (off : Nat) (answer : Option (Byte × Byte))
  deriving DecidableEq, Repr

/-- Who issues a command (60_exceptions.md R420): a host port by its index (R423), or the interrupt
input. -/
inductive PortId where
  | host (p : Nat)
  | irq
  deriving DecidableEq, Repr

/-- The five registers of a command port (10_state.md R31). -/
structure PortRegs where
  cmd : Word := 0
  din : Word := 0
  dout : Word := 0
  status : Byte := 0
  pending : Bool := false
  deriving DecidableEq, Repr

/-- One move of one agent. `command`, `interrupt`, `complete` and `timeout` are the four steps of
60_exceptions.md R420, the first two with the inputs the environment gives them; `setCmd` and
`setDin` are the host's writes of its registers (10_state.md R31). -/
inductive Turn where
  | setCmd (p : Nat) (v : Word)
  | setDin (p : Nat) (v : Word)
  | command (p : Nat) (side : SidePorts)
  | interrupt (side : SidePorts)
  | complete (p : Nat)
  | timeout (p : Nat)
  deriving DecidableEq, Repr

end Sys2Proof.Machine
end

