-- ==== Sys2Proof/Machine/State.lean ====
section
/-! DEFINITION. The state of the block (10_state.md R30 to R42), the reasons a step can stop, and
the state after reset (70_reset_and_hazards.md R450). -/

namespace Sys2Proof.Machine

/-- The register image as its difference from INIT_IMAGE: cells (offset, byte) in strictly rising
offset order, none equal to INIT_IMAGE's byte (`Memory.wf`, Machine/Ops.lean). An unlisted offset
reads as INIT_IMAGE's byte (10_state.md R33). -/
abbrev Memory := List Host.Cell

/-- The block has no faults: it "has no traps", and each failing command completes with a status
code (60_exceptions.md §1, R410, R417). Nobody raises one. -/
inductive Fault where
  deriving DecidableEq, Repr

/-- Why a step is turned away. -/
inductive Refusal where
  /-- `exec` raises it for an instruction whose meaning is not written yet. Safe. -/
  | notModelled (mnemonic : String)
  /-- `takeTurn` raises it for a turn of a host port that does not exist (10_state.md R30: ports
  0 to NUM_PORTS − 1). Safe: the environment cannot take that turn. -/
  | noSuchPort (p : Nat)
  /-- `takeTurn` raises it for a command of a port whose PENDING is 1 (10_state.md R31, D56,
  93_implementation_defined.md I16: "refuse"). Safe: the environment cannot take that turn. -/
  | portWaiting (p : Nat)
  /-- `takeTurn` raises it for a completion or timeout step that is not enabled
  (45_calibration_sync.md R382, R383). Safe: that step cannot happen. -/
  | stepNotEnabled (p : Nat)
  deriving DecidableEq, Repr

/-- The state. From `ports` to `slcode` it is the tuple of 10_state.md R30; PORT[IRQ] is held by its
three registers that are not fixed (R31). `params` are the parameters of 00_scope.md R9, which no
step writes (notes/assumptions/1.md). From `agenda` on it is the environment and its record: the
turns still to come, the running step's issuer and inputs, the reports sent and the bus transactions
made so far, and the counter of free values. -/
structure State where
  params : Params
  ports : List PortRegs
  irqDin : Word
  irqDout : Word
  irqStatus : Byte
  phase : Phase
  img : Memory
  stale : Bool
  gate : Gate
  chSel : Chan
  hallEn : Bool
  holdSpec : Bool
  keycode : CodeTable
  swcode : CodeTable
  slcode : SliderCodes
  agenda : List Turn
  issuer : PortId
  side : SidePorts
  evt : List Report
  bus : List BusTxn
  draws : Nat
  deriving DecidableEq, Repr

/-- The state right after reset, for given parameters (70_reset_and_hazards.md R450). -/
def State.resetWith (P : Params) : State where
  params := P
  ports := List.replicate P.numPorts {}
  irqDin := 0
  irqDout := 0
  irqStatus := 0
  phase := .unconfigured
  img := []
  stale := true
  gate := .idle
  chSel := 0
  hallEn := false
  holdSpec := false
  keycode := .replicate 6 (.replicate 8 0)
  swcode := .replicate 6 (.replicate 8 0)
  slcode := .replicate 2 (.replicate 4 0)
  agenda := []
  issuer := .host 0
  side := {}
  evt := []
  bus := []
  draws := 0

/-- The state right after reset, at the machine's own parameters. -/
def State.reset : State := State.resetWith Config.params

end Sys2Proof.Machine
end

