-- ==== Sys2Proof/Machine/Ops.lean ====
section
/-! DEFINITION. The named operations over the image memory (20_memory.md) and the port registers
(10_state.md R31), and how a command ends: with a result, with an error (00_scope.md R14, R15), or
with its port waiting. The block has no trap entry and no trap return (60_exceptions.md R417, R418):
`State.raise` is its whole exception mechanism. -/

namespace Sys2Proof

/-- Byte `a` of INIT_IMAGE (R9); 0 beyond the 136 bytes, where no command reads (20_memory.md R83). -/
def Params.initByte (P : Params) (a : Nat) : Byte :=
  if h : a < 136 then P.initImage[a] else 0

namespace Machine

/-! ### The image memory -/

/-- The canonical form of an image memory: offsets strictly rising and inside the image, and no
cell equal to what its offset reads as unlisted. -/
def Memory.wf (P : Params) : Memory → Bool
  | [] => true
  | (a, v) :: rest =>
    a < 136 && v != P.initByte a && rest.all (fun c => a < c.1) && Memory.wf P rest

/-- The byte at an offset. -/
def Memory.read (P : Params) : Memory → Nat → Byte
  | [], a => P.initByte a
  | (k, v) :: rest, a => if a = k then v else Memory.read P rest a

/-- The memory without a cell at an offset. -/
def Memory.erase : Memory → Nat → Memory
  | [], _ => []
  | (k, v) :: rest, a => if a = k then Memory.erase rest a else (k, v) :: Memory.erase rest a

/-- The memory with one more cell, in its place. -/
def Memory.insertCell : Memory → Nat → Byte → Memory
  | [], a, v => [(a, v)]
  | (k, w) :: rest, a, v =>
    if a < k then (a, v) :: (k, w) :: rest else (k, w) :: Memory.insertCell rest a v

/-- Store a byte: a cell equal to INIT_IMAGE's byte is not listed. The image has no offset past 135
(20_memory.md R82), so a store there changes nothing; no command makes one (R83). -/
def Memory.write (P : Params) (m : Memory) (a : Nat) (v : Byte) : Memory :=
  if a < 136 then
    if v = P.initByte a then m.erase a else (m.erase a).insertCell a v
  else m

/-- The 136 image bytes in offset order (43_configuration.md R282). -/
def Memory.bytes (P : Params) (m : Memory) : List Byte := (List.range 136).map (m.read P)

/-! ### Containers: the byte or the big-endian word that holds a field -/

/-- The width of a container (41_field_codec.md R150): 8 or 16 bits. -/
inductive Width where
  | byte
  | word
  deriving DecidableEq, Repr

/-- The number of bytes a container takes. -/
def Width.bytes : Width → Nat
  | .byte => 1
  | .word => 2

/-- MemRead (00_scope.md R13): the container at an offset, big-endian (20_memory.md R80). A byte
container stands in the low eight bits. -/
def Memory.readContainer (P : Params) (m : Memory) (off : Nat) : Width → Half
  | .byte => (m.read P off).setWidth 16
  | .word => m.read P off ++ m.read P (off + 1)

/-- MemWrite (R13). -/
def Memory.writeContainer (P : Params) (m : Memory) (off : Nat) (w : Width) (v : Half) : Memory :=
  match w with
  | .byte => m.write P off (v.setWidth 8)
  | .word => (m.write P off (v.extractLsb' 8 8)).write P (off + 1) (v.setWidth 8)

/-- `2^w − 1` as a mask of w low bits. -/
def lowMask (w : Nat) : Half := BitVec.ofNat 16 (2 ^ w - 1)

/-- Extract bits [hi:lo] of a container (41_field_codec.md R152). -/
def extractBits (v : Half) (hi lo : Nat) : Half := (v >>> lo) &&& lowMask (hi - lo + 1)

/-- Insert field bits at [hi:lo], keeping every other bit (R153). -/
def insertBits (v : Half) (hi lo : Nat) (r : Half) : Half :=
  (v &&& ~~~(lowMask (hi - lo + 1) <<< lo)) ||| ((r &&& lowMask (hi - lo + 1)) <<< lo)

/-- `bit(c)`, a one in lane c of an 8-bit mask (00_scope.md R11). -/
def laneBit (c : Nat) : Byte := 1#8 <<< c

/-- A Bool as a 0 or 1 value. -/
def boolNat (b : Bool) : Nat := if b then 1 else 0

/-! ### Port registers -/

/-- PORT[IRQ].CMD is fixed at SNAP_DECODE (10_state.md R31). -/
def irqCmd : Word := 0x40000000#32

/-- A port's registers. PORT[IRQ]'s CMD and PENDING are fixed (R31). A host port that does not exist
reads as after reset; no step runs a command of one. -/
def State.port (s : State) : PortId → PortRegs
  | .host p => (s.ports[p]?).getD {}
  | .irq => { cmd := irqCmd, din := s.irqDin, dout := s.irqDout, status := s.irqStatus,
              pending := false }

/-- Write a port's registers. Writes to PORT[IRQ]'s CMD and PENDING are discarded: they are fixed. -/
def State.setPort (s : State) (q : PortId) (r : PortRegs) : State :=
  match q with
  | .host p => { s with ports := s.ports.set p r }
  | .irq => { s with irqDin := r.din, irqDout := r.dout, irqStatus := r.status }

/-- `STATUS <- code` on a port. -/
def State.setStatus (s : State) (q : PortId) (c : Byte) : State :=
  s.setPort q { s.port q with status := c }

/-- `DOUT <- v` on a port. -/
def State.setDout (s : State) (q : PortId) (v : Word) : State :=
  s.setPort q { s.port q with dout := v }

/-- `PENDING <- b` on a port. -/
def State.setPending (s : State) (q : PortId) (b : Bool) : State :=
  s.setPort q { s.port q with pending := b }

/-- The issuing port's scalar operand, taken as an unsigned 32-bit integer (30_encoding.md R117). -/
def State.din (s : State) : Nat := (s.port s.issuer).din.toNat

/-! ### How a command ends -/

/-- The number of a status code (60_exceptions.md R410). -/
def Status.code : Status → Byte
  | .ok => 0
  | .outOfRange => 1
  | .invalidEnum => 2
  | .communicationError => 3
  | .recoveryFailed => 4
  | .timeout => 5
  | .notReady => 6
  | .busy => 7
  | .illegalCommand => 8

/-- `return` (00_scope.md R15): the command ends with STATUS OK. -/
def State.complete (s : State) : State := s.setStatus s.issuer Status.ok.code

/-- `raise E` (R14): the command ends with STATUS code(E) and nothing else written. -/
def State.raise (s : State) (e : Status) : State := s.setStatus s.issuer e.code

/-- The word DOUT takes for a value: the value itself, zero-extended (30_encoding.md R117). A value
of 2^32 or more, which only a scaled field under a STEP_T or STEP_S past 2^32/255 has, fits no DOUT
and the spec states none: a free value (notes/assumptions/9.md). -/
def State.doutOf (s : State) (v : Nat) : Word :=
  if v < 2 ^ 32 then BitVec.ofNat 32 v else Config.freeDout s.draws

/-- `DOUT <- zext_32(v); return`. -/
def State.answer (s : State) (v : Nat) : State :=
  (s.setDout s.issuer (s.doutOf v)).complete

/-- End a command that reads: its value, or the error. -/
def State.endGet (s : State) (r : Except Status Nat) : State :=
  match r with
  | .ok v => s.answer v
  | .error e => s.raise e

/-- End a command that writes: the state it made, or the error with that state dropped (R14). -/
def State.endSet (s : State) (r : Except Status State) : State :=
  match r with
  | .ok t => t.complete
  | .error e => s.raise e

/-- Append a transaction to the bus record. -/
def State.logBus (s : State) (t : BusTxn) : State := { s with bus := s.bus ++ [t] }

/-- Send reports on EVT, in order (44_event_classifier.md R323). -/
def State.emit (s : State) (rs : List Report) : State := { s with evt := s.evt ++ rs }

end Machine

end Sys2Proof
end

