-- ==== Sys2Proof/Machine/Flags.lean ====
section
/-! DEFINITION. The flags (10_state.md R49): STALE, GATE, PHASE, HOLD_SPEC and HALL_EN, each written
here and nowhere else but in CFG_BUILD's commit, and the admission of a command by PHASE
(10_state.md R36). No arithmetic writes a flag. -/

namespace Sys2Proof.Machine

/-- `STALE <- 1`: every successful configuration setter (10_state.md R34). -/
def State.markStale (s : State) : State := { s with stale := true }

/-- STALE after a successful full-image write: 0 if REDO_ATI was 1, else as it was
(43_configuration.md R281). -/
def staleAfterWrite (redo stale : Bool) : Bool := if redo then false else stale

/-- `HOLD_SPEC <- 1` (41_field_codec.md R165). -/
def State.markHoldSpec (s : State) : State := { s with holdSpec := true }

/-- `HALL_EN <- b` (42_channel_accessors.md R212). -/
def State.setHallEn (s : State) (b : Bool) : State := { s with hallEn := b }

/-- `GATE <- Calibrating`: IMG_INIT's success and RECAL_TRIGGER (45_calibration_sync.md R380). -/
def State.armGate (s : State) : State := { s with gate := .calibrating }

/-- releaseGate (44_event_classifier.md R343): a full decode releases a gate that is calibrating. -/
def State.releaseGate (s : State) : State :=
  match s.gate with
  | .idle => s
  | .calibrating => { s with gate := .ready }
  | .ready => s

/-- The rows of the admission table (10_state.md R36). -/
inductive Admission where
  /-- the codec, the accessors, the attributes, SLIDER_MODE_GET and RECAL_STATUS -/
  | configured
  /-- COUNTS_READ, RECAL_TRIGGER, CAL_WAIT and SNAP_DECODE -/
  | armed
  /-- CFG_BUILD -/
  | build
  /-- IMG_INIT -/
  | init
  deriving DecidableEq, Repr

/-- The admission table (R36): the status a command completes with in a phase that does not admit
it, or `none`. -/
def Admission.refusal : Admission → Phase → Option Status
  | .configured, .unconfigured => some .notReady
  | .configured, .configured => none
  | .configured, .armed => none
  | .armed, .unconfigured => some .notReady
  | .armed, .configured => some .notReady
  | .armed, .armed => none
  | .build, .unconfigured => none
  | .build, .configured => some .illegalCommand
  | .build, .armed => some .illegalCommand
  | .init, .unconfigured => some .notReady
  | .init, .configured => none
  | .init, .armed => some .illegalCommand

/-- Check 1 and check 2 of 30_encoding.md R116 for a host command: SNAP_DECODE alone may come from
the interrupt input (R115(g)), then admission by PHASE. -/
def State.hostRefusal (s : State) (k : Admission) : Option Status :=
  match s.issuer with
  | .irq => some .illegalCommand
  | .host _ => k.refusal s.phase

/-- The same two checks for SNAP_DECODE, which only the interrupt input may issue (R115(g)). -/
def State.irqRefusal (s : State) (k : Admission) : Option Status :=
  match s.issuer with
  | .host _ => some .illegalCommand
  | .irq => k.refusal s.phase

/-- Run the rest of a command's checks, or end with the refusal that came first (R116). -/
def unlessRefused {α : Type} (r : Option Status) (rest : Except Status α) : Except Status α :=
  match r with
  | some e => .error e
  | none => rest

end Sys2Proof.Machine
end

