-- ==== Sys2Proof/Machine/Operands.lean ====
section
/-! DEFINITION. The operand forms of the commands: the channel operand (30_encoding.md R114), and a
field as an operand, that is, its descriptor, its encoding and decoding and its get and set
(41_field_codec.md R150 to R163). -/

namespace Sys2Proof.Machine

/-! ### The channel operand -/

/-- resolveCh (30_encoding.md R114): 0 to 7 name the channel, 15 is the channel in CH_SEL, and 8 to
14 are OutOfRange. -/
def State.resolveCh (s : State) (ch : Fin 16) : Except Status Chan :=
  if h : ch.val < 8 then .ok ⟨ch.val, h⟩
  else if ch = 15 then .ok s.chSel
  else .error .outOfRange

/-! ### RegField descriptors -/

/-- The divisor of a scaled field (41_field_codec.md R156). -/
inductive Divisor where
  | const (d : Nat)
  | stepT
  | stepS
  deriving DecidableEq, Repr

/-- The divisor's value, fixed from FW_REV before any encode (R156). -/
def Divisor.value (P : Params) : Divisor → Nat
  | .const d => d
  | .stepT => P.stepT
  | .stepS => P.stepS

/-- The kind of a field in one container (R150). -/
inductive Kind where
  | bool
  | uint
  | mask
  | raw
  | scaled (d : Divisor)
  | atiBase
  deriving DecidableEq, Repr

/-- A field's descriptor (R150): the container's offset and width, the bit range inside it, and the
kind. -/
structure Desc where
  off : Nat
  width : Width
  hi : Nat
  lo : Nat
  kind : Kind
  deriving DecidableEq, Repr

/-- `fmax(F) = 2^w(F) − 1` (R150). -/
def Desc.fmax (d : Desc) : Nat := 2 ^ (d.hi - d.lo + 1) - 1

/-- The descriptors of the system fields (10_state.md R43). -/
def sysDesc : SysField → Desc
  | .genClkDiv => ⟨0, .word, 15, 15, .bool⟩
  | .genPwrMode => ⟨0, .word, 12, 11, .uint⟩
  | .genEventMode => ⟨0, .word, 5, 5, .bool⟩
  | .genEventModeLp => ⟨0, .word, 4, 4, .bool⟩
  | .genRedoAti => ⟨0, .word, 2, 2, .bool⟩
  | .genAckReset => ⟨0, .word, 0, 0, .bool⟩
  | .active => ⟨2, .byte, 7, 0, .mask⟩
  | .filtLpLta => ⟨3, .byte, 7, 6, .uint⟩
  | .filtLpCnt => ⟨3, .byte, 5, 4, .uint⟩
  | .filtNpLta => ⟨3, .byte, 3, 2, .uint⟩
  | .filtNpCnt => ⟨3, .byte, 1, 0, .uint⟩
  | .reseed => ⟨4, .byte, 7, 0, .mask⟩
  | .eventMask => ⟨5, .byte, 7, 0, .mask⟩
  | .rateNp => ⟨6, .byte, 7, 0, .scaled (.const 1)⟩
  | .rateLp => ⟨7, .byte, 7, 0, .scaled (.const 1)⟩
  | .rateUlp => ⟨8, .byte, 7, 0, .scaled (.const Config.rateUlpDiv)⟩
  | .timeoutPwr => ⟨9, .byte, 7, 0, .scaled (.const Config.timeoutDiv)⟩
  | .timeout2 => ⟨10, .byte, 7, 0, .uint⟩
  | .timeoutLta => ⟨11, .byte, 7, 0, .scaled (.const Config.timeoutDiv)⟩
  | .maAtiBandDisable => ⟨12, .word, 15, 15, .bool⟩
  | .maAtiLpOnly => ⟨12, .word, 14, 14, .bool⟩
  | .maAtiBandTighten => ⟨12, .word, 13, 13, .bool⟩
  | .maFiltDisable => ⟨12, .word, 12, 12, .bool⟩
  | .maTxFreq => ⟨12, .word, 5, 4, .uint⟩
  | .maGlobalCap => ⟨12, .word, 0, 0, .bool⟩
  | .mbReseedSel => ⟨14, .word, 7, 6, .uint⟩
  | .blocking => ⟨16, .byte, 7, 0, .mask⟩
  | .slider0Sel => ⟨18, .byte, 7, 0, .mask⟩
  | .slider1Sel => ⟨19, .byte, 7, 0, .mask⟩
  | .touchHold => ⟨19, .byte, 7, 0, .scaled (.const Config.touchHoldDiv)⟩
  | .timeoutTap => ⟨20, .byte, 7, 0, .scaled .stepT⟩
  | .timeoutSwipe => ⟨21, .byte, 7, 0, .scaled .stepT⟩
  | .threshSwipe => ⟨22, .byte, 7, 0, .scaled .stepS⟩
  | .redoAtiMask => ⟨23, .byte, 7, 0, .mask⟩
  | .generalWord => ⟨0, .word, 15, 0, .raw⟩
  | .miscAWord => ⟨12, .word, 15, 0, .raw⟩
  | .miscBWord => ⟨14, .word, 15, 0, .raw⟩
  | .filterByte => ⟨3, .byte, 7, 0, .raw⟩

/-- The descriptors of the channel fields, offsets relative to the channel block (10_state.md R44).
LOCAL_CAP_SIZE has none: its two bits are in two words (41_field_codec.md R159). -/
def chanDesc : ChanField → Option Desc
  | .rxEn => some ⟨0, .byte, 7, 0, .mask⟩
  | .txEn => some ⟨1, .byte, 7, 0, .mask⟩
  | .eaMeasCap => some ⟨2, .word, 15, 15, .bool⟩
  | .eaAtiMode => some ⟨2, .word, 9, 8, .uint⟩
  | .eaPolarity => some ⟨2, .word, 7, 7, .bool⟩
  | .eaBias => some ⟨2, .word, 6, 5, .uint⟩
  | .eaSenseMode => some ⟨2, .word, 3, 0, .uint⟩
  | .ebSenseFreq => some ⟨4, .word, 10, 9, .uint⟩
  | .ebAtiBase => some ⟨4, .word, 7, 6, .atiBase⟩
  | .ebAtiTarget => some ⟨4, .word, 5, 0, .scaled (.const Config.atiTargetStep)⟩
  | .localCapSize => none
  | .atiComp => some ⟨6, .word, 15, 0, .uint⟩
  | .threshProx => some ⟨8, .byte, 7, 0, .uint⟩
  | .threshTouch => some ⟨9, .byte, 7, 0, .uint⟩
  | .threshDeep => some ⟨10, .byte, 7, 0, .uint⟩
  | .hystTouch => some ⟨11, .byte, 3, 0, .uint⟩
  | .hystDeep => some ⟨11, .byte, 7, 4, .uint⟩
  | .assocSel => some ⟨12, .byte, 7, 0, .mask⟩
  | .assocWeight => some ⟨13, .byte, 7, 0, .uint⟩
  | .engineAWord => some ⟨2, .word, 15, 0, .raw⟩
  | .engineBWord => some ⟨4, .word, 15, 0, .raw⟩
  | .hystByte => some ⟨11, .byte, 7, 0, .raw⟩

/-- The base of channel c's block (20_memory.md R82). -/
def chanBase (c : Chan) : Nat := 24 + 14 * c.val

/-- `exists(F)` (41_field_codec.md R161): byte 19 is SLIDER1_SEL or TOUCH_HOLD, as OTP_HOLD says. -/
def fieldExists (P : Params) (f : RegField) : Bool :=
  if f = .sys .slider1Sel then !P.otpHold
  else if f = .sys .touchHold then P.otpHold
  else true

/-- A field's descriptor with the absolute offset of its container, `addr(F, c)` (R151); `none` for
the composite LOCAL_CAP_SIZE. -/
def fieldDesc (f : RegField) (c : Chan) : Option Desc :=
  match f with
  | .sys g => some (sysDesc g)
  | .chan g => (chanDesc g).map (fun d => { d with off := chanBase c + d.off })

/-- The offset of channel c's ENGINE_A word. -/
def engineA (c : Chan) : Nat := chanBase c + 2
/-- The offset of channel c's ENGINE_B word. -/
def engineB (c : Chan) : Nat := chanBase c + 4
/-- DBL's bit in ENGINE_A (R159). -/
def dblBit : Nat := 12
/-- EN's bit in ENGINE_B (R159). -/
def enBit : Nat := 13

/-! ### Encode and decode -/

/-- The field bits of an ATI base value (R158). -/
def baseCode (v : Nat) : Except Status Nat :=
  match v with
  | 75 => .ok 0
  | 100 => .ok 1
  | 150 => .ok 2
  | 200 => .ok 3
  | _ => .error .invalidEnum

/-- The ATI base value of two field bits (R158). -/
def baseValue (r : Nat) : Nat :=
  match r with
  | 0 => 75
  | 1 => 100
  | 2 => 150
  | _ => 200

/-- encode (R154): a value in source units becomes field bits, or is refused. -/
def encodeValue (P : Params) (d : Desc) (v : Nat) : Except Status Nat :=
  match d.kind with
  | .bool | .uint | .mask | .raw => if v > d.fmax then .error .outOfRange else .ok v
  | .scaled k => if v > d.fmax * k.value P then .error .outOfRange else .ok (v / k.value P)
  | .atiBase => baseCode v

/-- decode (R155): field bits become a value in source units. -/
def decodeValue (P : Params) (d : Desc) (r : Nat) : Nat :=
  match d.kind with
  | .bool | .uint | .mask | .raw => r
  | .scaled k => r * k.value P
  | .atiBase => baseValue r

/-- The (EN, DBL) bits of a local-capacitance size (R159). -/
def lcapEncode (v : Nat) : Except Status (Bool × Bool) :=
  match v with
  | 0 => .ok (false, false)
  | 1 => .ok (true, false)
  | 2 => .ok (true, true)
  | _ => .error .invalidEnum

/-- The local-capacitance size of the (EN, DBL) bits (R160). -/
def lcapDecode (en dbl : Bool) : Except Status Nat :=
  match en, dbl with
  | false, false => .ok 0
  | true, false => .ok 1
  | true, true => .ok 2
  | false, true => .error .invalidEnum

/-! ### get and set -/

/-- The bits of a field in one container. -/
def readBits (P : Params) (m : Memory) (d : Desc) : Half :=
  extractBits (m.readContainer P d.off d.width) d.hi d.lo

/-- Store field bits by a read-modify-write of the container (R153, R163). -/
def writeBits (P : Params) (m : Memory) (d : Desc) (r : Half) : Memory :=
  m.writeContainer P d.off d.width (insertBits (m.readContainer P d.off d.width) d.hi d.lo r)

/-- get(LOCAL_CAP_SIZE, c) (R160, R162). -/
def getLocalCap (P : Params) (m : Memory) (c : Chan) : Except Status Nat :=
  lcapDecode ((m.readContainer P (engineB c) .word).getLsbD enBit)
    ((m.readContainer P (engineA c) .word).getLsbD dblBit)

/-- Store the two local-capacitance bits (R163): both words are read before either is written. -/
def writeLocalCap (P : Params) (m : Memory) (c : Chan) (en dbl : Bool) : Memory :=
  let a := m.readContainer P (engineA c) .word
  let b := m.readContainer P (engineB c) .word
  (m.writeContainer P (engineA c) .word
      (insertBits a dblBit dblBit (BitVec.ofNat 16 (boolNat dbl)))).writeContainer P
    (engineB c) .word (insertBits b enBit enBit (BitVec.ofNat 16 (boolNat en)))

/-- get(F, c) (R162). -/
def getField (P : Params) (m : Memory) (f : RegField) (c : Chan) : Except Status Nat :=
  match fieldDesc f c with
  | none => getLocalCap P m c
  | some d => .ok (decodeValue P d (readBits P m d).toNat)

/-- The bits of its container that a set of a field stores: the field's own, but for EVENT_MASK,
whose bits 7:4 are reserved within the mask and are kept by every write that is not a raw-FID write
(10_state.md R45, 92_eei_decisions.md D18, D23). DEDUCED, unsafe: notes/assumptions/16.md. -/
def writable (f : RegField) (d : Desc) : Desc :=
  if f = .sys .eventMask then { d with hi := 3 } else d

/-- set(F, c, v) on an image (R163): the value is validated before anything is written. -/
def setField (P : Params) (m : Memory) (f : RegField) (c : Chan) (v : Nat) : Except Status Memory :=
  match fieldDesc f c with
  | none =>
    match lcapEncode v with
    | .error e => .error e
    | .ok (en, dbl) => .ok (writeLocalCap P m c en dbl)
  | some d =>
    match encodeValue P d v with
    | .error e => .error e
    | .ok r => .ok (writeBits P m (writable f d) (BitVec.ofNat 16 r))

/-- The channel of a FLD_GET or FLD_SET: resolved for a channel field, and not used by a system
field (41_field_codec.md R164, R165). -/
def State.fieldChannel (s : State) (f : RegField) (ch : Fin 16) : Except Status Chan :=
  match f with
  | .sys _ => .ok 0
  | .chan _ => s.resolveCh ch

/-- The bits of a system field of an image, as a number. -/
def sysBits (P : Params) (m : Memory) (f : SysField) : Half := readBits P m (sysDesc f)

/-- An image with a system field's bits replaced: the builder's and the forcing's plain
assignments `J.F := r` (43_configuration.md R253, R280). -/
def setSysBits (P : Params) (m : Memory) (f : SysField) (r : Half) : Memory :=
  writeBits P m (sysDesc f) r

end Sys2Proof.Machine
end

