-- ==== Sys2Proof/Machine/Events.lean ====
section
/-! DEFINITION. The fixed event table (44_event_classifier.md R320): for each of the six logical
events its id, kind, state mask, threshold and hysteresis fields and direction. -/

namespace Sys2Proof.Machine

/-- The events in event-id order (R320). -/
def Event.all : List Event := [.proxDn, .proxUp, .touchDn, .touchUp, .deepDn, .deepUp]

/-- The event id e, the index of KEYCODE and SWCODE. -/
def Event.id : Event → Fin 6
  | .proxDn => 0
  | .proxUp => 1
  | .touchDn => 2
  | .touchUp => 3
  | .deepDn => 4
  | .deepUp => 5

/-- The kind of an event, k = e / 2. -/
def Event.kind : Event → EventKind
  | .proxDn | .proxUp => .prox
  | .touchDn | .touchUp => .touch
  | .deepDn | .deepUp => .deep

/-- Whether an event is the "up" variant of its kind. -/
def Event.up : Event → Bool
  | .proxDn | .touchDn | .deepDn => false
  | .proxUp | .touchUp | .deepUp => true

/-- The index into `states[]` of a kind's state mask. `states[1]` is the direction mask. -/
def EventKind.stateIndex : EventKind → Fin 4
  | .prox => 0
  | .touch => 2
  | .deep => 3

/-- A kind's threshold field. -/
def EventKind.thresh : EventKind → ChanField
  | .prox => .threshProx
  | .touch => .threshTouch
  | .deep => .threshDeep

/-- A kind's hysteresis field; proximity has none. -/
def EventKind.hyst : EventKind → Option ChanField
  | .prox => none
  | .touch => some .hystTouch
  | .deep => some .hystDeep

/-- A kind's bit in EVENT_MASK: PROX 0, TOUCH 1, DEEP 2 (10_state.md R43). -/
def EventKind.bit : EventKind → Nat
  | .prox => 0
  | .touch => 1
  | .deep => 2

/-- The eight channels, in order. -/
def channels : List Chan := [0, 1, 2, 3, 4, 5, 6, 7]

/-- The two sliders, in order. -/
def sliders : List SliderIx := [0, 1]

/-- The four gestures, in order: tap, hold, flick-positive, flick-negative. -/
def gestures : List Gesture := [0, 1, 2, 3]

/-- The momentary gestures: tap, flick-positive and flick-negative (44_event_classifier.md R330). -/
def momentary : List Gesture := [0, 2, 3]

end Sys2Proof.Machine
end

