-- ==== Sys2Proof/Machine/Image.lean ====
section
/-! DEFINITION. What the configuration, the classifier and the calibration share about the image:
the slider mode (44_event_classifier.md R322), the forcing of every full-image write and the write
itself (43_configuration.md R280 to R283). -/

namespace Sys2Proof.Machine

/-- A mask field of an image as an 8-bit mask. -/
def maskOf (P : Params) (m : Memory) (f : SysField) : Byte := (sysBits P m f).setWidth 8

/-- The channel-selection mask of a slider: SLIDER0_SEL or SLIDER1_SEL. -/
def sliderSel (P : Params) (m : Memory) (i : SliderIx) : Byte :=
  if i = 0 then maskOf P m .slider0Sel else maskOf P m .slider1Sel

/-- Whether some gesture of a slider has a code. -/
def anyGestureCode (codes : SliderCodes) (i : SliderIx) : Bool :=
  gestures.any (fun g => codes[i][g] != 0)

/-- sliderMode(J, i) (44_event_classifier.md R322), for given gesture codes. -/
def sliderMode (P : Params) (codes : SliderCodes) (m : Memory) (i : SliderIx) : SliderMode :=
  if i = 1 ∧ P.otpHold then .none
  else if sliderSel P m i = 0 then .none
  else if anyGestureCode codes i then .key
  else .raw

/-- The committed mode of a slider: the one the decode and SLIDER_MODE_GET use (R322). -/
def State.sliderMode (s : State) (i : SliderIx) : SliderMode :=
  Machine.sliderMode s.params s.slcode s.img i

/-- anyRaw(J) (43_configuration.md R283). -/
def anyRaw (P : Params) (codes : SliderCodes) (m : Memory) : Bool :=
  sliders.any (fun i => sliderMode P codes m i == .raw)

/-- Whether the touch-hold default is re-applied (R280): OTP_HOLD, no specified value, and a
firmware revision before FW_HOLD_FIX_MIN. -/
def reappliesHold (P : Params) (hs : Bool) : Bool :=
  P.otpHold && !hs && P.fwRev < P.fwHoldFixMin

/-- forceImage(J, redo, hs) (R280), for the gesture codes anyRaw reads (R283). -/
def forceImage (P : Params) (codes : SliderCodes) (j : Memory) (redo hs : Bool) : Memory :=
  let j := setSysBits P j .genEventMode 1
  let j := setSysBits P j .genEventModeLp (BitVec.ofNat 16 (boolNat (anyRaw P codes j)))
  let j := setSysBits P j .genAckReset 1
  let j := setSysBits P j .genRedoAti (BitVec.ofNat 16 (boolNat redo))
  let j := setSysBits P j .redoAtiMask (sysBits P j .active)
  if reappliesHold P hs then j.write P 19 P.touchHoldDefault else j

/-- The image a full-image write of this state sends (R280). -/
def State.forced (s : State) (redo : Bool) : Memory :=
  forceImage s.params s.slcode s.img redo s.holdSpec

/-- The state after fullWrite(redo) (R281): one write of the 136 forced bytes at IMG_BASE (R282),
answered by BUSW. On Ok, IMG is the forced image and STALE is cleared if redo is 1; on Err, nothing
but the bus record changes. The callers look at the answer, `s.side.busw`. -/
def State.fullWrite (s : State) (redo : Bool) : State :=
  let j := s.forced redo
  let t := s.logBus (.writeImage s.params.imgBase (j.bytes s.params) s.side.busw)
  match s.side.busw with
  | .ok => { t with img := j, stale := staleAfterWrite redo t.stale }
  | .err => t

end Sys2Proof.Machine
end

