-- ==== Sys2Proof/Machine/Calibration.lean ====
section
/-! DEFINITION. Calibration synchronisation: CAL_WAIT, RECAL_TRIGGER, RECAL_STATUS, and the steps
that end a wait (45_calibration_sync.md). -/

namespace Sys2Proof.Machine

/-- `PENDING <- 1`: the command ends with its port waiting, and STATUS is written only when the wait
ends (R381, D56). -/
def State.beginWait (s : State) : State := s.setPending s.issuer true

/-- complete(p) (R382). -/
def State.completeWait (s : State) (q : PortId) : State :=
  (s.setPending q false).setStatus q Status.ok.code

/-- timeout(p) (R383). -/
def State.timeoutWait (s : State) (q : PortId) : State :=
  (s.setPending q false).setStatus q Status.timeout.code

/-- CAL_WAIT (OP 0x50, R381). -/
def execCalWait (s : State) : Host.Outcome State Fault Refusal :=
  .next (match s.hostRefusal .armed with
    | some e => s.raise e
    | none => if s.gate = .ready then s.complete else s.beginWait)

/-- The end of RECAL_TRIGGER after its write (R384): GATE keeps Calibrating on Err. -/
def State.endRecal (s : State) : State :=
  match s.side.busw with
  | .ok => s.beginWait
  | .err => s.raise .communicationError

/-- RECAL_TRIGGER (OP 0x25, R384): any nonzero DIN requests a recalibration. -/
def execRecalTrigger (s : State) : Host.Outcome State Fault Refusal :=
  .next (match s.hostRefusal .armed with
    | some e => s.raise e
    | none => if s.din = 0 then s.complete else (s.armGate.fullWrite true).endRecal)

/-- The bit RECAL_STATUS reads: "configuration ready and idle" (R385). -/
def State.calibrated (s : State) : Bool := !s.stale && s.gate == .ready

/-- RECAL_STATUS (OP 0x24, R385). -/
def execRecalStatus (s : State) : Host.Outcome State Fault Refusal :=
  .next (s.endGet (unlessRefused (s.hostRefusal .configured) (.ok (boolNat s.calibrated))))

end Sys2Proof.Machine
end

