-- ==== Sys2Proof/Machine/Codec.lean ====
section
/-! DEFINITION. FLD_GET and FLD_SET (41_field_codec.md R164, R165), and the get and set of one
channel field that the accessors share (42_channel_accessors.md R200). -/

namespace Sys2Proof.Machine

/-- Checks 1 and 2 of a field command: the issuer and `exists(F)` (30_encoding.md R115(e), (g)),
then the phase (R116). -/
def State.fieldRefusal (s : State) (f : RegField) : Option Status :=
  if fieldExists s.params f then s.hostRefusal .configured else some .illegalCommand

/-- FLD_GET's value or error (R164). -/
def State.fldGetResult (s : State) (f : RegField) (ch : Fin 16) : Except Status Nat :=
  unlessRefused (s.fieldRefusal f) (
    match s.fieldChannel f ch with
    | .error e => .error e
    | .ok c => getField s.params s.img f c)

/-- The state a successful set of a field leaves: IMG, and STALE whatever the value (10_state.md
R34). -/
def State.storeField (s : State) (f : RegField) (c : Chan) (v : Nat) : Except Status State :=
  match setField s.params s.img f c v with
  | .error e => .error e
  | .ok m => .ok { s with img := m }.markStale

/-- FLD_SET's next state or error (R165). -/
def State.fldSetResult (s : State) (f : RegField) (ch : Fin 16) : Except Status State :=
  unlessRefused (s.fieldRefusal f) (
    match s.fieldChannel f ch with
    | .error e => .error e
    | .ok c =>
      match s.storeField f c s.din with
      | .error e => .error e
      | .ok t => .ok (if f = .sys .touchHold then t.markHoldSpec else t))

/-- An accessor's GET of one channel field (42_channel_accessors.md R201, R203, R205, R207). -/
def State.chanGetResult (s : State) (f : ChanField) (ch : Fin 16) : Except Status Nat :=
  unlessRefused (s.hostRefusal .configured) (
    match s.resolveCh ch with
    | .error e => .error e
    | .ok c => getField s.params s.img (.chan f) c)

/-- An accessor's SET of one channel field (R202, R204, R206, R208): `bad v` is the status its own
check of DIN refuses v with. -/
def State.chanSetResult (s : State) (f : ChanField) (ch : Fin 16) (bad : Nat → Option Status) :
    Except Status State :=
  unlessRefused (s.hostRefusal .configured) (
    match s.resolveCh ch with
    | .error e => .error e
    | .ok c => unlessRefused (bad s.din) (s.storeField (.chan f) c s.din))

/-- FLD_GET (OP 0x01, R164). -/
def execFldGet (f : RegField) (ch : Fin 16) (s : State) : Host.Outcome State Fault Refusal :=
  .next (s.endGet (s.fldGetResult f ch))

/-- FLD_SET (OP 0x02, R165). -/
def execFldSet (f : RegField) (ch : Fin 16) (s : State) : Host.Outcome State Fault Refusal :=
  .next (s.endSet (s.fldSetResult f ch))

end Sys2Proof.Machine
end

