-- ==== Sys2Proof/Machine/Channel.lean ====
section
/-! DEFINITION. The channel accessors and device attributes (42_channel_accessors.md). -/

namespace Sys2Proof.Machine

/-- A check "DIN > max is OutOfRange". -/
def aboveMax (max v : Nat) : Option Status := if v > max then some .outOfRange else none

/-- ATI_BASE_SET's check: a value off the list is InvalidEnum (R204). -/
def notAtiBase (v : Nat) : Option Status :=
  if v ∈ Config.atiBaseValues then none else some .invalidEnum

/-- ATI_MODE_GET (OP 0x10, R201). -/
def execAtiModeGet (ch : Fin 16) (s : State) : Host.Outcome State Fault Refusal :=
  .next (s.endGet (s.chanGetResult .eaAtiMode ch))

/-- ATI_MODE_SET (OP 0x11, R202). -/
def execAtiModeSet (ch : Fin 16) (s : State) : Host.Outcome State Fault Refusal :=
  .next (s.endSet (s.chanSetResult .eaAtiMode ch (aboveMax Config.atiModeMax)))

/-- ATI_BASE_GET (OP 0x12, R203). -/
def execAtiBaseGet (ch : Fin 16) (s : State) : Host.Outcome State Fault Refusal :=
  .next (s.endGet (s.chanGetResult .ebAtiBase ch))

/-- ATI_BASE_SET (OP 0x13, R204). -/
def execAtiBaseSet (ch : Fin 16) (s : State) : Host.Outcome State Fault Refusal :=
  .next (s.endSet (s.chanSetResult .ebAtiBase ch notAtiBase))

/-- ATI_TARGET_GET (OP 0x14, R205). -/
def execAtiTargetGet (ch : Fin 16) (s : State) : Host.Outcome State Fault Refusal :=
  .next (s.endGet (s.chanGetResult .ebAtiTarget ch))

/-- ATI_TARGET_SET (OP 0x15, R206). -/
def execAtiTargetSet (ch : Fin 16) (s : State) : Host.Outcome State Fault Refusal :=
  .next (s.endSet (s.chanSetResult .ebAtiTarget ch (aboveMax Config.atiTargetMax)))

/-- RX_EN_GET (OP 0x16, R207). -/
def execRxEnGet (ch : Fin 16) (s : State) : Host.Outcome State Fault Refusal :=
  .next (s.endGet (s.chanGetResult .rxEn ch))

/-- RX_EN_SET (OP 0x17, R208). -/
def execRxEnSet (ch : Fin 16) (s : State) : Host.Outcome State Fault Refusal :=
  .next (s.endSet (s.chanSetResult .rxEn ch (aboveMax 255)))

/-- CH_SEL_GET (OP 0x20, R209). -/
def execChSelGet (s : State) : Host.Outcome State Fault Refusal :=
  .next (s.endGet (unlessRefused (s.hostRefusal .configured) (.ok s.chSel.val)))

/-- CH_SEL_SET's next state or error (R210): STALE is not written. -/
def State.chSelSetResult (s : State) : Except Status State :=
  unlessRefused (s.hostRefusal .configured) (
    if h : s.din < 8 then .ok { s with chSel := ⟨s.din, h⟩ } else .error .outOfRange)

/-- CH_SEL_SET (OP 0x21, R210). -/
def execChSelSet (s : State) : Host.Outcome State Fault Refusal :=
  .next (s.endSet s.chSelSetResult)

/-- HALL_EN_GET (OP 0x22, R211). -/
def execHallEnGet (s : State) : Host.Outcome State Fault Refusal :=
  .next (s.endGet (unlessRefused (s.hostRefusal .configured) (.ok (boolNat s.hallEn))))

/-- HALL_EN_SET's next state or error (R212). -/
def State.hallEnSetResult (s : State) : Except Status State :=
  unlessRefused (s.hostRefusal .configured) (
    if s.din > 1 then .error .outOfRange else .ok (s.setHallEn (s.din == 1)).markStale)

/-- HALL_EN_SET (OP 0x23, R212). -/
def execHallEnSet (s : State) : Host.Outcome State Fault Refusal :=
  .next (s.endSet s.hallEnSetResult)

/-- COUNTS_READ's readiness gates, in order (R213): Hall mode, then STALE, then GATE. -/
def State.countsRefusal (s : State) : Option Status :=
  if s.hallEn then some .notReady
  else if s.stale then some .notReady
  else if s.gate ≠ .ready then some .busy
  else none

/-- The checks of COUNTS_READ before the bus read, in the order of R213: the channel it reads, or
the error. -/
def State.countsChannel (s : State) (ch : Fin 16) : Except Status Chan :=
  unlessRefused (s.hostRefusal .armed) (
    match s.resolveCh ch with
    | .error e => .error e
    | .ok c => unlessRefused s.countsRefusal (.ok c))

/-- The bus read of a count (R213): two bytes at COUNTS_BASE(c), little-endian (20_memory.md R81). -/
def State.readCounts (s : State) (c : Chan) : State :=
  let t := s.logBus (.readCounts s.params.countsBase[c] s.side.busr)
  match s.side.busr with
  | none => t.raise .communicationError
  | some (b0, b1) => t.answer (b1 ++ b0 : Half).toNat

/-- COUNTS_READ (OP 0x26, R213). -/
def execCountsRead (ch : Fin 16) (s : State) : Host.Outcome State Fault Refusal :=
  .next (match s.countsChannel ch with
    | .error e => s.raise e
    | .ok c => s.readCounts c)

end Sys2Proof.Machine
end

