-- ==== Sys2Proof/Machine/Classifier.lean ====
section
/-! DEFINITION. The touch event classifier: SNAP_DECODE and SLIDER_MODE_GET
(44_event_classifier.md). -/

namespace Sys2Proof.Machine

/-- The device of a slider (R323). -/
def sliderDev (i : SliderIx) : Dev := if i = 0 then .slider0 else .slider1

/-- The reset-occurred flag, sys bit 15 (R321). -/
def Snap.reset (s : Snap) : Bool := s.sys.getLsbD 15
/-- The calibration-in-progress flag, sys bit 10 (R321). -/
def Snap.atiBusy (s : Snap) : Bool := s.sys.getLsbD 10
/-- Slider i's gesture g, gesture bit 4·i + g (R321). -/
def Snap.gestureBit (s : Snap) (i : SliderIx) (g : Gesture) : Bool :=
  s.gesture.getLsbD (4 * i.val + g.val)
/-- The touch state mask, states[2] (R321). -/
def Snap.touchMask (s : Snap) : Byte := s.states[2]
/-- The direction mask, states[1] (R320). -/
def Snap.dir (s : Snap) : Byte := s.states[1]

/-! ### The three decodes -/

/-- The reports of some gestures of a slider, at given levels; code 0 reports nothing (R323). -/
def gestureLevels (codes : SliderCodes) (i : SliderIx) (gs : List Gesture) (level : Gesture → Bool) :
    List Report :=
  (gs.filter (fun g => codes[i][g] != 0)).map (fun g => .key (sliderDev i) codes[i][g] (level g))

/-- The gesture reports of one slider in Key mode (R330): every mapped code at its bit's level, then
a release of every mapped momentary code if any momentary gesture fired. -/
def keySliderReports (codes : SliderCodes) (sn : Snap) (i : SliderIx) : List Report :=
  gestureLevels codes i gestures (sn.gestureBit i) ++
    if momentary.any (sn.gestureBit i) then gestureLevels codes i momentary (fun _ => false) else []

/-- gestures(s) (R330). -/
def State.gestureReports (s : State) (sn : Snap) : List Report :=
  sliders.flatMap (fun i =>
    if s.sliderMode i = .key then keySliderReports s.slcode sn i else [])

/-- The reports of one slider in Raw mode (R335). -/
def State.rawSliderReports (s : State) (sn : Snap) (i : SliderIx) : List Report :=
  if sn.touchMask &&& sliderSel s.params s.img i ≠ 0 then
    [.touch (sliderDev i) true, .abs (sliderDev i) sn.pos[i]]
  else [.touch (sliderDev i) false]

/-- rawSliders(s) (R335). -/
def State.rawReports (s : State) (sn : Snap) : List Report :=
  sliders.flatMap (fun i => if s.sliderMode i = .raw then s.rawSliderReports sn i else [])

/-- The lanes of an event: the state mask under the direction mask for an "up" variant, under its
complement for a "down" one (R340). -/
def Snap.eventMask (sn : Snap) (e : Event) : Byte :=
  if e.up then sn.states[e.kind.stateIndex] &&& sn.dir
  else sn.states[e.kind.stateIndex] &&& ~~~sn.dir

/-- The keypad report of one event and channel (R340): with HALL_EN, channel 6 reports nothing and
channel 7 only its switch code. -/
def State.keypadReport (s : State) (sn : Snap) (e : Event) (c : Chan) : List Report :=
  let v := (sn.eventMask e).getLsbD c.val
  if s.hallEn ∧ c = 6 then []
  else if s.hallEn ∧ c = 7 then
    if s.swcode[e.id][(7 : Chan)] ≠ 0 then [.switch s.swcode[e.id][(7 : Chan)] v] else []
  else if s.keycode[e.id][c] ≠ 0 then [.key .keypad s.keycode[e.id][c] v]
  else []

/-- keypad(s) (R340): events in order, and channels in order within each. -/
def State.keypadReports (s : State) (sn : Snap) : List Report :=
  Event.all.flatMap (fun e => channels.flatMap (fun c => s.keypadReport sn e c))

/-- The reports of a full decode, in order (R324). -/
def State.decodeReports (s : State) (sn : Snap) : List Report :=
  s.gestureReports sn ++ s.rawReports sn ++ s.keypadReports sn

/-! ### The commands -/

/-- The end of recovery(s) after its rewrite (R325). -/
def State.endRecovery (s : State) : State :=
  match s.side.busw with
  | .ok => s.answer 1
  | .err => s.raise .recoveryFailed

/-- The decode of a snapshot that was read (R324): recovery (R325), calibration in progress (R326),
or the full decode with its reports and the gate release (R343). -/
def State.decodeSnap (s : State) (sn : Snap) : State :=
  if sn.reset then (s.fullWrite s.params.redoOnRecovery).endRecovery
  else if sn.atiBusy then s.answer 2
  else (s.emit (s.decodeReports sn)).releaseGate.answer 0

/-- The snapshot read and the decode (R324, R344). -/
def State.snapDecode (s : State) : State :=
  let t := s.logBus (.readSnap s.params.snapBase s.side.snap)
  match s.side.snap with
  | none => t.raise .communicationError
  | some sn => t.decodeSnap sn

/-- SNAP_DECODE (OP 0x40, R324). -/
def execSnapDecode (s : State) : Host.Outcome State Fault Refusal :=
  .next (match s.irqRefusal .armed with
    | some e => s.raise e
    | none => s.snapDecode)

/-- DOUT's number for a slider mode (R346). -/
def SliderMode.number : SliderMode → Nat
  | .none => 0
  | .key => 1
  | .raw => 2

/-- SLIDER_MODE_GET's value or error (R346): CH is the slider index. -/
def State.sliderModeResult (s : State) (ch : Fin 16) : Except Status Nat :=
  unlessRefused (s.hostRefusal .configured) (
    if h : ch.val < Config.numSliders then .ok (s.sliderMode ⟨ch.val, h⟩).number
    else .error .outOfRange)

/-- SLIDER_MODE_GET (OP 0x41, R346). -/
def execSliderModeGet (ch : Fin 16) (s : State) : Host.Outcome State Fault Refusal :=
  .next (s.endGet (s.sliderModeResult ch))

end Sys2Proof.Machine
end

