-- ==== Sys2Proof/Machine/Configuration.lean ====
section
/-! DEFINITION. CFG_BUILD and IMG_INIT (43_configuration.md R250 to R264, R285). -/

namespace Sys2Proof.Machine

/-- The private copies CFG_BUILD works on: I, K and S (R252). -/
structure Build where
  img : Memory
  key : CodeTable
  sw : CodeTable
  deriving DecidableEq, Repr

/-- A failed check of the build: the status, and the context word for DOUT (R263). -/
structure BuildError where
  status : Status
  context : Word
  deriving DecidableEq, Repr

/-- The context word `(scope << 8) | idx` (R263). -/
def contextWord (scope idx : Nat) : Word :=
  (BitVec.ofNat 32 scope <<< 8) ||| BitVec.ofNat 32 idx

/-- The scope of a system property (R263). -/
def sysScope : Nat := 0xFF

/-- A check's result, its failure marked with the property it belongs to (R263). -/
def inContext {α : Type} (scope idx : Nat) (r : Except Status α) : Except BuildError α :=
  match r with
  | .ok a => .ok a
  | .error e => .error { status := e, context := contextWord scope idx }

/-! ### Pin lists -/

/-- The loop of listToMask (R251). -/
def pinBits : List Nat → Byte → Except Status Byte
  | [], m => .ok m
  | p :: rest, m => if p ≥ 8 then .error .outOfRange else pinBits rest (m ||| laneBit p)

/-- listToMask (R251): the length check comes first. -/
def listToMask (pins : List Nat) : Except Status Byte :=
  if pins.length > Config.pinListMax then .error .outOfRange else pinBits pins 0

/-! ### Steps of the build -/

/-- A property of the record that sets one field: its index and its value if present. -/
structure Property where
  idx : Nat
  field : RegField
  value : Option Nat
  deriving DecidableEq, Repr

/-- `setW` for one property (R252); an absent one leaves its field as it is (R254). -/
def applyProperty (P : Params) (scope : Nat) (c : Chan) (m : Memory) (p : Property) :
    Except BuildError Memory :=
  match p.value with
  | none => .ok m
  | some v => inContext scope p.idx (setField P m p.field c v)

/-- Properties applied in order, up to the first failure (R262). -/
def applyProperties (P : Params) (scope : Nat) (c : Chan) (m : Memory) :
    List Property → Except BuildError Memory
  | [] => .ok m
  | p :: rest =>
    match applyProperty P scope c m p with
    | .error e => .error e
    | .ok m' => applyProperties P scope c m' rest

/-- A Bool property writes 1 or 0 (R254). -/
def flag (b : Option Bool) : Option Nat := b.map boolNat

/-- The system properties in Idx order (R254). touchHold is ignored when OTP_HOLD = 0. -/
def sysProperties (P : Params) (y : SysCfg) : List Property :=
  [⟨0, .sys .filtLpLta, y.filtLpLta⟩,
   ⟨1, .sys .filtLpCnt, y.filtLpCnt⟩,
   ⟨2, .sys .filtNpLta, y.filtNpLta⟩,
   ⟨3, .sys .filtNpCnt, y.filtNpCnt⟩,
   ⟨4, .sys .rateNp, y.rateNp⟩,
   ⟨5, .sys .rateLp, y.rateLp⟩,
   ⟨6, .sys .rateUlp, y.rateUlp⟩,
   ⟨7, .sys .timeoutPwr, y.timeoutPwr⟩,
   ⟨8, .sys .timeoutLta, y.timeoutLta⟩,
   ⟨9, .sys .touchHold, if P.otpHold then y.touchHold else none⟩,
   ⟨10, .sys .timeoutTap, y.timeoutTap⟩,
   ⟨11, .sys .timeoutSwipe, y.timeoutSwipe⟩,
   ⟨12, .sys .threshSwipe, y.threshSwipe⟩,
   ⟨13, .sys .genPwrMode, y.pwrMode⟩,
   ⟨14, .sys .genClkDiv, flag y.clkDiv⟩,
   ⟨15, .sys .maAtiBandDisable, flag y.atiBandDisable⟩,
   ⟨16, .sys .maAtiLpOnly, flag y.atiLpOnly⟩,
   ⟨17, .sys .maAtiBandTighten, flag y.atiBandTighten⟩,
   ⟨18, .sys .maFiltDisable, flag y.filtDisable⟩,
   ⟨19, .sys .maTxFreq, y.txFreq⟩,
   ⟨20, .sys .maGlobalCap, flag y.globalCap⟩,
   ⟨21, .sys .mbReseedSel, y.reseedSel⟩]

/-- The engine, ATI and association properties of a channel in Idx order (R256, R257). -/
def chanProperties (h : ChCfg) : List Property :=
  [⟨6, .chan .eaMeasCap, flag h.measCap⟩,
   ⟨7, .chan .localCapSize, h.localCap⟩,
   ⟨8, .chan .eaPolarity, flag h.polarity⟩,
   ⟨9, .chan .eaSenseMode, h.senseMode⟩,
   ⟨10, .chan .ebSenseFreq, h.senseFreq⟩,
   ⟨11, .chan .eaBias, h.bias⟩,
   ⟨12, .chan .eaAtiMode, h.atiMode⟩,
   ⟨13, .chan .ebAtiBase, h.atiBase⟩,
   ⟨14, .chan .ebAtiTarget, h.atiTarget⟩,
   ⟨15, .chan .assocSel, h.assocSelect⟩,
   ⟨16, .chan .assocWeight, h.assocWeight⟩]

/-- A mask field with lane c set or cleared. -/
def setLane (P : Params) (m : Memory) (f : SysField) (c : Nat) (on : Bool) : Memory :=
  setSysBits P m f
    ((if on then maskOf P m f ||| laneBit c else maskOf P m f &&& ~~~laneBit c).setWidth 16)

/-- The initial clears (R253). -/
def initialClears (P : Params) (m : Memory) : Memory :=
  let m := setSysBits P m .active 0
  let m := setSysBits P m .blocking 0
  let m := setSysBits P m .slider0Sel 0
  let m := if P.otpHold then m else setSysBits P m .slider1Sel 0
  setSysBits P m .eventMask ((maskOf P m .eventMask ||| 0x0F#8).setWidth 16)

/-- The presence flags of a channel, Idx 0 to 2, after its ACTIVE bit (R255). -/
def channelMasks (P : Params) (c : Chan) (h : ChCfg) (m : Memory) : Memory :=
  let m := setLane P m .active c true
  let m := setLane P m .reseed c (!h.reseedDisable)
  let m := if h.blocking then setLane P m .blocking c true else m
  if h.slider0 then setLane P m .slider0Sel c true else m

/-- The slider-1 flag, Idx 3 (R255): InvalidEnum under OTP_HOLD. -/
def channelSlider1 (P : Params) (c : Chan) (h : ChCfg) (m : Memory) : Except Status Memory :=
  if h.slider1 then
    if P.otpHold then .error .invalidEnum else .ok (setLane P m .slider1Sel c true)
  else .ok m

/-- A pin list, Idx 4 or 5 (R255). -/
def channelPins (P : Params) (c : Chan) (f : ChanField) (pins : Option (List Nat)) (m : Memory) :
    Except Status Memory :=
  match pins with
  | none => .ok m
  | some l =>
    match listToMask l with
    | .error e => .error e
    | .ok mask => setField P m (.chan f) c mask.toNat

/-- The property index of step j of event e (R258). -/
def eventIdx (e : Event) (j : Nat) : Nat := 32 + 4 * e.id.val + j

/-- Step j = 0: the threshold (R258). -/
def eventThresh (P : Params) (c : Chan) (e : Event) (v : EvCfg) (m : Memory) :
    Except Status Memory :=
  match v.thresh with
  | none => .ok m
  | some t => setField P m (.chan e.kind.thresh) c t

/-- Step j = 1: the hysteresis; proximity has none (R258). -/
def eventHyst (P : Params) (c : Chan) (e : Event) (v : EvCfg) (m : Memory) :
    Except Status Memory :=
  match v.hyst with
  | none => .ok m
  | some y =>
    match e.kind.hyst with
    | none => .error .invalidEnum
    | some f => setField P m (.chan f) c y

/-- A code table with one entry replaced. -/
def setCode (t : CodeTable) (e : Event) (c : Chan) (v : Code) : CodeTable :=
  t.set e.id (t[e.id].set c v)

/-- Step j = 2: a nonzero key code un-suppresses its kind (R258). -/
def eventKey (P : Params) (c : Chan) (e : Event) (v : EvCfg) (b : Build) : Build :=
  if v.key = 0 then b
  else { b with key := setCode b.key e c v.key,
                img := setLane P b.img .eventMask e.kind.bit false }

/-- Step j = 3: a nonzero switch code stands only on channel 7 (R258). -/
def eventSwitch (P : Params) (c : Chan) (e : Event) (v : EvCfg) (b : Build) :
    Except Status Build :=
  if v.sw = 0 then .ok b
  else if c ≠ 7 then .error .invalidEnum
  else .ok { b with sw := setCode b.sw e 7 v.sw,
                    img := setLane P b.img .eventMask e.kind.bit false }

/-- The four steps of one event of one channel, in order (R258). -/
def buildEvent (P : Params) (c : Chan) (h : ChCfg) (b : Build) (e : Event) :
    Except BuildError Build := do
  let v := h.ev[e.id]
  let m ← inContext c.val (eventIdx e 0) (eventThresh P c e v b.img)
  let m ← inContext c.val (eventIdx e 1) (eventHyst P c e v m)
  let b := eventKey P c e v { b with img := m }
  inContext c.val (eventIdx e 3) (eventSwitch P c e v b)

/-- The events of a channel in order (R258). -/
def buildEvents (P : Params) (c : Chan) (h : ChCfg) (b : Build) :
    List Event → Except BuildError Build
  | [] => .ok b
  | e :: rest =>
    match buildEvent P c h b e with
    | .error x => .error x
    | .ok b' => buildEvents P c h b' rest

/-- One channel of the configuration (R255 to R258). -/
def buildChannel (P : Params) (c : Chan) (h : ChCfg) (b : Build) : Except BuildError Build := do
  let m := channelMasks P c h b.img
  let m ← inContext c.val 3 (channelSlider1 P c h m)
  let m ← inContext c.val 4 (channelPins P c .rxEn h.rxPins m)
  let m ← inContext c.val 5 (channelPins P c .txEn h.txPins m)
  let m ← applyProperties P c.val c m (chanProperties h)
  buildEvents P c h { b with img := m } Event.all

/-- The channels in order; one not in the configuration is left out (R255). -/
def buildChannels (P : Params) (cfg : Cfg) (b : Build) : List Chan → Except BuildError Build
  | [] => .ok b
  | c :: rest =>
    match cfg.ch[c] with
    | none => buildChannels P cfg b rest
    | some h =>
      match buildChannel P c h b with
      | .error x => .error x
      | .ok b' => buildChannels P cfg b' rest

/-- Gesture codes un-suppress gestures, EVENT_MASK bit 3 (R259). -/
def buildGestures (P : Params) (cfg : Cfg) (m : Memory) : Memory :=
  if sliders.any (anyGestureCode cfg.slCode) then setLane P m .eventMask 3 false else m

/-- `hs`: whether the configuration specified a touch-and-hold value (R260). -/
def holdSpecified (P : Params) (cfg : Cfg) : Bool := P.otpHold && cfg.sys.touchHold.isSome

/-- The build from an image and a record (R252 to R261): the image and code tables to commit, or
the first failing check (R262). -/
def cfgBuild (P : Params) (img : Memory) (cfg : Cfg) : Except BuildError Build := do
  let m ← applyProperties P sysScope 0 (initialClears P img) (sysProperties P cfg.sys)
  let zero : CodeTable := .replicate 6 (.replicate 8 0)
  let b ← buildChannels P cfg { img := m, key := zero, sw := zero } channels
  let m := buildGestures P cfg b.img
  .ok { b with img := forceImage P cfg.slCode m true (holdSpecified P cfg) }

/-- The commit (R264). -/
def State.commitBuild (s : State) (cfg : Cfg) (b : Build) : State :=
  { s with
    img := b.img, keycode := b.key, swcode := b.sw, slcode := cfg.slCode,
    hallEn := cfg.hall, holdSpec := holdSpecified s.params cfg, stale := true,
    phase := .configured }

/-- The end of a build: the commit and OK, or the context word in DOUT and the error (R263, R264). -/
def State.endBuild (s : State) (cfg : Cfg) (r : Except BuildError Build) : State :=
  match r with
  | .ok b => (s.commitBuild cfg b).complete
  | .error x => (s.setDout s.issuer x.context).raise x.status

/-- CFG_BUILD (OP 0x30, R264). -/
def execCfgBuild (s : State) : Host.Outcome State Fault Refusal :=
  .next (match s.hostRefusal .build with
    | some e => s.raise e
    | none => s.endBuild s.side.cfg (cfgBuild s.params s.img s.side.cfg))

/-- The end of IMG_INIT after its write (R285). -/
def State.endInit (s : State) : State :=
  match s.side.busw with
  | .ok => { s.armGate with phase := .armed }.complete
  | .err => s.raise .communicationError

/-- IMG_INIT (OP 0x31, R285). -/
def execImgInit (s : State) : Host.Outcome State Fault Refusal :=
  .next (match s.hostRefusal .init with
    | some e => s.raise e
    | none => (s.fullWrite true).endInit)

end Sys2Proof.Machine
end

