-- ==== Sys2Proof/Machine/Dispatch.lean ====
section
/-! DEFINITION. The dispatch: one arm per command. -/

namespace Sys2Proof.Machine

/-- The meaning of a command, run by the issuing port of the state. -/
def exec (i : Instr) (s : State) : Host.Outcome State Fault Refusal :=
  match i with
  | .fldGet f ch => Sys2Proof.Machine.execFldGet f ch s
  | .fldSet f ch => Sys2Proof.Machine.execFldSet f ch s
  | .atiModeGet ch => Sys2Proof.Machine.execAtiModeGet ch s
  | .atiModeSet ch => Sys2Proof.Machine.execAtiModeSet ch s
  | .atiBaseGet ch => Sys2Proof.Machine.execAtiBaseGet ch s
  | .atiBaseSet ch => Sys2Proof.Machine.execAtiBaseSet ch s
  | .atiTargetGet ch => Sys2Proof.Machine.execAtiTargetGet ch s
  | .atiTargetSet ch => Sys2Proof.Machine.execAtiTargetSet ch s
  | .rxEnGet ch => Sys2Proof.Machine.execRxEnGet ch s
  | .rxEnSet ch => Sys2Proof.Machine.execRxEnSet ch s
  | .chSelGet => Sys2Proof.Machine.execChSelGet s
  | .chSelSet => Sys2Proof.Machine.execChSelSet s
  | .hallEnGet => Sys2Proof.Machine.execHallEnGet s
  | .hallEnSet => Sys2Proof.Machine.execHallEnSet s
  | .recalStatus => Sys2Proof.Machine.execRecalStatus s
  | .recalTrigger => Sys2Proof.Machine.execRecalTrigger s
  | .countsRead ch => Sys2Proof.Machine.execCountsRead ch s
  | .cfgBuild => Sys2Proof.Machine.execCfgBuild s
  | .imgInit => Sys2Proof.Machine.execImgInit s
  | .snapDecode => Sys2Proof.Machine.execSnapDecode s
  | .sliderModeGet ch => Sys2Proof.Machine.execSliderModeGet ch s
  | .calWait => Sys2Proof.Machine.execCalWait s

end Sys2Proof.Machine
end

