-- ==== Sys2Proof/Machine/Turns.lean ====
section
/-! DEFINITION. The steps of the model (60_exceptions.md R420): what each agent's turn does. -/

namespace Sys2Proof.Machine

/-- Run the command word of the issuing port: an undecodable word completes with IllegalCommand and
changes no state other than STATUS (30_encoding.md R115). -/
def runWord (w : Word) (s : State) : Host.Outcome State Fault Refusal :=
  match decode w with
  | .error _ => .next (s.raise .illegalCommand)
  | .ok i => exec i s

/-- The state in which port q's command runs, with the inputs the environment gives it. -/
def State.issue (s : State) (q : PortId) (side : SidePorts) : State :=
  { s with issuer := q, side := side }

/-- Fetch and run: the word in the port's CMD (30_encoding.md R110, 10_state.md R31). -/
def State.runPort (s : State) (q : PortId) (side : SidePorts) : Host.Outcome State Fault Refusal :=
  runWord (s.port q).cmd (s.issue q side)

/-- One agent's turn (R420). A host's register write needs its port; a command step needs a port
that is not waiting (R31, D56); a completion step needs a waiting port and GATE = Ready
(45_calibration_sync.md R382); a timeout step needs a waiting port (R383). -/
def takeTurn (t : Turn) (s : State) : Host.Outcome State Fault Refusal :=
  match t with
  | .setCmd p v =>
    if p < s.ports.length then .next (s.setPort (.host p) { s.port (.host p) with cmd := v })
    else .refused (.noSuchPort p)
  | .setDin p v =>
    if p < s.ports.length then .next (s.setPort (.host p) { s.port (.host p) with din := v })
    else .refused (.noSuchPort p)
  | .command p side =>
    if p < s.ports.length then
      if (s.port (.host p)).pending then .refused (.portWaiting p) else s.runPort (.host p) side
    else .refused (.noSuchPort p)
  | .interrupt side => s.runPort .irq side
  | .complete p =>
    if p < s.ports.length then
      if (s.port (.host p)).pending ∧ s.gate = .ready then .next (s.completeWait (.host p))
      else .refused (.stepNotEnabled p)
    else .refused (.noSuchPort p)
  | .timeout p =>
    if p < s.ports.length then
      if (s.port (.host p)).pending then .next (s.timeoutWait (.host p))
      else .refused (.stepNotEnabled p)
    else .refused (.noSuchPort p)

/-- The state with the first turn of its agenda taken off, and the counter of free values moved on
(notes/assumptions/9.md). -/
def State.nextTurn (s : State) (rest : List Turn) : State :=
  { s with agenda := rest, draws := s.draws + 1 }

/-- One step: the agenda's first turn. With no agent to move, nothing happens
(notes/assumptions/3.md). -/
def stepAgenda (s : State) : Host.Outcome State Fault Refusal :=
  match s.agenda with
  | [] => .next s
  | t :: rest => takeTurn t (s.nextTurn rest)

/-- Place a command word for the next step. SNAP_DECODE's word is PORT[IRQ]'s fixed CMD, so the next
turn becomes an interrupt; any other word goes to host port 0's CMD, that port is not waiting, and
the next turn becomes its command. The turn brings the environment's default inputs: an empty
configuration record, a clean snapshot and a bus that answers. -/
def State.placeWord (s : State) (w : Word) : State :=
  if w = irqCmd then { s with agenda := .interrupt {} :: s.agenda }
  else
    { s with
      agenda := .command 0 {} :: s.agenda
      ports := match s.ports with
        | [] => [{ cmd := w }]
        | r :: rest => { r with cmd := w, pending := false } :: rest }

end Sys2Proof.Machine
end

