-- ==== Sys2Proof/Machine/Step.lean ====
section
/-! DEFINITION. The step of the machine, and where the host places the next command. -/

namespace Sys2Proof.Machine

/-- One step (60_exceptions.md R420). -/
def step (s : State) : Host.Outcome State Fault Refusal := stepAgenda s

/-- The state whose next step fetches and runs the opcode-table word `w`. A command is one word
(30_encoding.md R111), so the bits above the row's are 0. -/
def State.withFetchWord (s : State) (nbits w : Nat) : State :=
  s.placeWord (BitVec.ofNat 32 (w % 2 ^ nbits))

end Sys2Proof.Machine
end

