-- ==== Sys2Proof/Machine/Assembler.lean ====
section
/-! DEFINITION. The assembler forms and the pseudo-instructions (30_encoding.md R118 to R120), as
data: a line is a mnemonic and its operands, and stands for a command word and the value `#v` loads
in DIN before it. The text of a line (spaces, comments, number formats, record literals) is not
modelled: no rule of the machine reads it. -/

namespace Sys2Proof.Machine

/-- An operand of a line (R118). -/
inductive AsmOperand where
  /-- `<FIELD>` -/
  | field (f : RegField)
  /-- `ch<n>`, n in 0..15 -/
  | ch (n : Fin 16)
  /-- `ch*`, the selected channel -/
  | chSelected
  /-- `sl<i>` -/
  | sl (i : Fin 16)
  /-- `#<v>` -/
  | imm (v : Word)
  deriving DecidableEq, Repr

/-- The CH field a channel operand sets (R118). -/
def AsmOperand.channel : AsmOperand → Option (Fin 16)
  | .ch n => some n
  | .chSelected => some 15
  | .field _ => none
  | .sl _ => none
  | .imm _ => none

/-- What a line assembles to: the command, and the value loaded in DIN, if any. -/
structure AsmLine where
  instr : Instr
  din : Option Word := none
  deriving DecidableEq, Repr

/-- A line of a command that takes CH and no `#v`: `MNEMONIC ch<n>`, an omitted `ch` meaning 0. -/
def asmGet (mk : Fin 16 → Instr) : List AsmOperand → Option AsmLine
  | [] => some { instr := mk 0 }
  | [a] => a.channel.map (fun n => { instr := mk n })
  | _ => none

/-- A line of a command that takes CH and `#v`: `MNEMONIC ch<n>, #v`. -/
def asmSet (mk : Fin 16 → Instr) : List AsmOperand → Option AsmLine
  | [.imm v] => some { instr := mk 0, din := some v }
  | [a, .imm v] => a.channel.map (fun n => { instr := mk n, din := some v })
  | _ => none

/-- A line of a command with neither (its record, if it takes one, is on a side port). -/
def asmPlain (i : Instr) : List AsmOperand → Option AsmLine
  | [] => some { instr := i }
  | _ => none

/-- A line of a command with `#v` alone. -/
def asmImm (i : Instr) : List AsmOperand → Option AsmLine
  | [.imm v] => some { instr := i, din := some v }
  | _ => none

/-- The forms by opcode (R118), the command named by any instruction of its row. -/
def assembleOps (row : Instr) (ops : List AsmOperand) : Option AsmLine :=
  match row with
  | .fldGet _ _ =>
    match ops with
    | .field f :: rest => asmGet (.fldGet f) rest
    | _ => none
  | .fldSet _ _ =>
    match ops with
    | .field f :: rest => asmSet (.fldSet f) rest
    | _ => none
  | .atiModeGet _ => asmGet .atiModeGet ops
  | .atiModeSet _ => asmSet .atiModeSet ops
  | .atiBaseGet _ => asmGet .atiBaseGet ops
  | .atiBaseSet _ => asmSet .atiBaseSet ops
  | .atiTargetGet _ => asmGet .atiTargetGet ops
  | .atiTargetSet _ => asmSet .atiTargetSet ops
  | .rxEnGet _ => asmGet .rxEnGet ops
  | .rxEnSet _ => asmSet .rxEnSet ops
  | .chSelGet => asmPlain .chSelGet ops
  | .chSelSet => asmImm .chSelSet ops
  | .hallEnGet => asmPlain .hallEnGet ops
  | .hallEnSet => asmImm .hallEnSet ops
  | .recalStatus => asmPlain .recalStatus ops
  | .recalTrigger => asmImm .recalTrigger ops
  | .countsRead _ => asmGet .countsRead ops
  | .cfgBuild => asmPlain .cfgBuild ops
  | .imgInit => asmPlain .imgInit ops
  | .snapDecode => asmPlain .snapDecode ops
  | .sliderModeGet _ =>
    match ops with
    | [.sl i] => some { instr := .sliderModeGet i }
    | _ => none
  | .calWait => asmPlain .calWait ops

/-- The machine word and DIN value of a line (R119). -/
def AsmLine.words (l : AsmLine) : Word × Option Word := (encode l.instr, l.din)

/-- The pseudo-instructions (R120). -/
inductive Pseudo where
  | recal
  | sel (n : Chan)
  | hystSet (ch : Fin 16) (t d : Word)
  | lcapSet (ch : Fin 16) (v : Word)
  | atiSet (ch : Fin 16) (m b t : Word)
  | filtSet (a b c d : Word)
  deriving DecidableEq, Repr

/-- The commands a pseudo-instruction expands to, in order (R120). They are not atomic as a group. -/
def Pseudo.expand : Pseudo → List AsmLine
  | .recal => [⟨.recalTrigger, some 1⟩]
  | .sel n => [⟨.chSelSet, some (BitVec.ofNat 32 n.val)⟩]
  | .hystSet ch t d =>
    [⟨.fldSet (.chan .hystTouch) ch, some t⟩, ⟨.fldSet (.chan .hystDeep) ch, some d⟩]
  | .lcapSet ch v => [⟨.fldSet (.chan .localCapSize) ch, some v⟩]
  | .atiSet ch m b t => [⟨.atiModeSet ch, some m⟩, ⟨.atiBaseSet ch, some b⟩, ⟨.atiTargetSet ch, some t⟩]
  | .filtSet a b c d =>
    [⟨.fldSet (.sys .filtLpLta) 0, some a⟩, ⟨.fldSet (.sys .filtLpCnt) 0, some b⟩,
     ⟨.fldSet (.sys .filtNpLta) 0, some c⟩, ⟨.fldSet (.sys .filtNpCnt) 0, some d⟩]

end Sys2Proof.Machine
end

