-- ==== Sys2Proof/Machine/Observers.lean ====
section
/-! DEFINITION. What stands outside the block and is a function of its two output streams: the event
sink's transition view (44_event_classifier.md R345) and the device's register content (10_state.md
R48(a), 20_memory.md R94). No step of the block reads either. -/

namespace Sys2Proof.Machine

/-! ### The event sink (R345) -/

/-- Which level a report carries: `key(r)` of R345. A Touch report has no code. -/
inductive Level where
  | key (dev : Dev) (code : Code)
  | switch (code : Code)
  | touch (dev : Dev)
  deriving DecidableEq, Repr

/-- The sink's last values: the levels last seen at 1 (every other one is at 0, where each starts),
and the last coordinate of each device that sent one. -/
structure Sink where
  high : List Level := []
  lastAbs : List (Dev × Byte) := []
  deriving DecidableEq, Repr

/-- `last[k]`. -/
def Sink.level (k : Sink) (l : Level) : Bool := k.high.contains l

/-- `last[k] := v`. -/
def Sink.setLevel (k : Sink) (l : Level) (v : Bool) : Sink :=
  let rest := k.high.filter (fun x => x != l)
  { k with high := if v then l :: rest else rest }

/-- `lastAbs[dev] := p`. -/
def Sink.setAbs (k : Sink) (dev : Dev) (p : Byte) : Sink :=
  { k with lastAbs := (dev, p) :: k.lastAbs.filter (fun x => x.1 != dev) }

/-- The level and value of a report, or the coordinate it carries. -/
def Report.content : Report → (Level × Bool) ⊕ (Dev × Byte)
  | .key dev code v => .inl (.key dev code, v)
  | .switch code v => .inl (.switch code, v)
  | .touch dev v => .inl (.touch dev, v)
  | .abs dev p => .inr (dev, p)

/-- Whether a report passes the sink (R345). -/
def Sink.passes (k : Sink) (r : Report) : Bool :=
  match r.content with
  | .inl (l, v) => v != k.level l
  | .inr (dev, p) => k.lastAbs.lookup dev != some p

/-- The sink after a report. -/
def Sink.take (k : Sink) (r : Report) : Sink :=
  match r.content with
  | .inl (l, v) => k.setLevel l v
  | .inr (dev, p) => k.setAbs dev p

/-- The transition view: the reports that pass, in order (R345). -/
def Sink.view (k : Sink) : List Report → List Report
  | [] => []
  | r :: rest => if k.passes r then r :: (k.take r).view rest else (k.take r).view rest

/-- The sink after a list of reports. -/
def Sink.after (k : Sink) : List Report → Sink
  | [] => k
  | r :: rest => (k.take r).after rest

/-! ### The device's registers (10_state.md R48(a)) -/

/-- The device's content after a list of transactions, as far as the block can know it: the last
image written successfully, unknown after a failed write (43_configuration.md R281), and unknown
once a snapshot said that the device has reset. -/
def deviceImage (known : Option (List Byte)) : List BusTxn → Option (List Byte)
  | [] => known
  | .writeImage _ bytes .ok :: rest => deviceImage (some bytes) rest
  | .writeImage _ _ .err :: rest => deviceImage none rest
  | .readSnap _ (some sn) :: rest =>
    deviceImage (if sn.sys.getLsbD 15 then none else known) rest
  | .readSnap _ none :: rest => deviceImage known rest
  | .readCounts _ _ :: rest => deviceImage known rest

/-- The image writes among the transactions. -/
def imageWrites (txns : List BusTxn) : List (List Byte) :=
  txns.filterMap (fun t => match t with
    | .writeImage _ bytes _ => some bytes
    | .readSnap _ _ => none
    | .readCounts _ _ => none)

end Sys2Proof.Machine
end

