-- ==== Sys2Proof/Safety.lean ====
section
/-! DEFINITION. What the claims speak of: image bytes and bits, the existence of a port, the
conditions under which a command runs, the legality of a configuration record, and the invariant of
the block. -/

namespace Sys2Proof.Machine

/-- The image byte at an offset, in a state. -/
def State.byte (s : State) (a : Nat) : Byte := s.img.read s.params a

/-- The big-endian image word at an offset, as a number (20_memory.md R80). -/
def State.wordAt (s : State) (a : Nat) : Nat := 256 * (s.byte a).toNat + (s.byte (a + 1)).toNat

/-- Bit j of the image byte at an offset. -/
def Memory.bit (P : Params) (m : Memory) (a j : Nat) : Bool := (m.read P a).getLsbD j

/-- The command runs on host port p, which exists. -/
abbrev State.onHost (s : State) (p : Nat) : Prop := s.issuer = .host p ∧ p < s.ports.length

/-- A host port's registers with DOUT and STATUS of a command that ended with OK. -/
def PortRegs.answered (r : PortRegs) (v : Word) : PortRegs := { r with dout := v, status := 0 }

/-- The state with host port p's registers replaced and nothing else changed. -/
def State.withHostRegs (s : State) (p : Nat) (r : PortRegs) : State :=
  { s with ports := s.ports.set p r }

/-- The state of a host command on port p that ended with status code `c` and changed nothing else. -/
def State.onlyStatus (s : State) (p : Nat) (c : Byte) : State :=
  s.withHostRegs p { s.port (.host p) with status := c }

/-- The channel a CH operand names in a state (30_encoding.md R114). -/
abbrev State.namesChannel (s : State) (ch : Fin 16) (c : Chan) : Prop :=
  ch.val = c.val ∨ (ch = 15 ∧ c = s.chSel)

/-- The channel a FLD_GET or FLD_SET works on: any for a system field, which takes CH = 0 and no
channel (41_field_codec.md R164, R165). -/
abbrev State.namesField (s : State) (f : RegField) (ch : Fin 16) (c : Chan) : Prop :=
  match f with
  | .sys _ => ch = 0
  | .chan _ => s.namesChannel ch c

/-- The number a field's container holds, read from the image bytes (00_scope.md R13). -/
def Memory.containerAt (P : Params) (m : Memory) (d : Desc) : Nat :=
  match d.width with
  | .byte => (m.read P d.off).toNat
  | .word => 256 * (m.read P d.off).toNat + (m.read P (d.off + 1)).toNat

/-- A field's container in a state. -/
abbrev State.containerAt (s : State) (d : Desc) : Nat := s.img.containerAt s.params d

/-- The bits of a field in one container, as a number (41_field_codec.md R152). -/
def Memory.fieldBits (P : Params) (m : Memory) (d : Desc) : Nat :=
  m.containerAt P d / 2 ^ d.lo % 2 ^ (d.hi - d.lo + 1)

/-- What an image holds for a field of channel c: its bits as a number, or, for LOCAL_CAP_SIZE, the
size its EN and DBL bits stand for, and 3 where they stand for none (R159, R160). -/
def Memory.stored (P : Params) (m : Memory) (f : RegField) (c : Chan) : Nat :=
  match fieldDesc f c with
  | some d => m.fieldBits P d
  | none =>
    match m.bit P (24 + 14 * c.val + 4) 5, m.bit P (24 + 14 * c.val + 2) 4 with
    | false, false => 0
    | true, false => 1
    | true, true => 2
    | false, true => 3

/-- A field's value after a build: a present property's value over its divisor, or what the image
held (43_configuration.md R254: "A property that is none leaves its field as it is"). -/
def builtValue (v : Option Nat) (divisor old : Nat) : Nat :=
  match v with
  | some x => x / divisor
  | none => old

/-- The reserved bits of the image and the PAD byte (10_state.md R43, R45, by byte and bit). -/
def reservedBit (a j : Nat) : Bool :=
  (a == 0 && [6, 5, 2, 1, 0].contains j) || (a == 1 && [7, 6, 3, 1].contains j) ||
  (a == 5 && 4 ≤ j) || (a == 12 && j ≤ 3) || (a == 13 && [7, 6, 3, 2, 1].contains j) ||
  a == 14 || (a == 15 && j ≤ 5) || a == 17 ||
  (24 ≤ a && a < 136 &&
    ((((a - 24) % 14 == 2) && [6, 5, 3, 2].contains j) || (((a - 24) % 14 == 3) && j == 4) ||
      (((a - 24) % 14 == 4) && [7, 6, 4, 3, 0].contains j)))

/-- A field is a raw one: a whole container, reserved bits included (41_field_codec.md R150). -/
def isRawField : RegField → Bool
  | .sys f => (sysDesc f).kind == .raw
  | .chan f => match chanDesc f with
    | some d => d.kind == .raw
    | none => false

/-- A slider that has channels selected and, for slider 1, whose byte is not TOUCH_HOLD
(44_event_classifier.md R322). -/
abbrev State.hasSlider (s : State) (i : SliderIx) : Prop :=
  ¬(i = 1 ∧ s.params.otpHold = true) ∧ s.byte (18 + i.val) ≠ 0

/-- Some gesture of a slider has a code (R322). -/
abbrev State.hasGestureCode (s : State) (i : SliderIx) : Prop := ∃ g : Gesture, s.slcode[i][g] ≠ 0

/-- The command runs on the interrupt input. -/
abbrev State.onIrq (s : State) : Prop := s.issuer = .irq

/-- Byte `a`, bit `j` of the image belongs to a descriptor's bits. -/
def Desc.covers (d : Desc) (a j : Nat) : Bool :=
  match d.width with
  | .byte => a == d.off && d.lo ≤ j && j ≤ d.hi
  | .word => (a == d.off && d.lo ≤ j + 8 && j + 8 ≤ d.hi) ||
      (a == d.off + 1 && d.lo ≤ j && j ≤ d.hi)

/-- The bits of the image that a set of a field of channel c may store (41_field_codec.md R151,
R159, 10_state.md R45): byte `a`, bit `j`. -/
def fieldBit (f : RegField) (c : Chan) (a j : Nat) : Bool :=
  match fieldDesc f c with
  | some d => (writable f d).covers a j
  | none => (a == engineA c && j == 4) || (a == engineB c && j == 5)

/-- Two fields share no bit of the image. -/
def disjointFields (f : RegField) (c : Chan) (g : RegField) (e : Chan) : Prop :=
  ∀ a j : Nat, j < 8 → ¬(fieldBit f c a j = true ∧ fieldBit g e a j = true)

/-- The largest value a field accepts, where it accepts a range (41_field_codec.md R154, R156). -/
def Desc.maxValue (P : Params) (d : Desc) : Nat :=
  match d.kind with
  | .scaled k => d.fmax * k.value P
  | .bool | .uint | .mask | .raw | .atiBase => d.fmax

/-- The values FLD_SET accepts for a field (10_state.md R43, R44). -/
def legalValue (P : Params) (f : RegField) (v : Nat) : Prop :=
  match fieldDesc f 0 with
  | none => v ≤ 2
  | some d =>
    match d.kind with
    | .atiBase => v ∈ Config.atiBaseValues
    | .bool | .uint | .mask | .raw | .scaled _ => v ≤ d.maxValue P

/-- The field bits a legal value is stored as (R154). -/
def Desc.storedAs (P : Params) (d : Desc) (v : Nat) : Nat :=
  match d.kind with
  | .scaled k => v / k.value P
  | .atiBase => Config.atiBaseValues.idxOf v
  | .bool | .uint | .mask | .raw => v

/-- What a set then get of a field returns for v, from an image (41_field_codec.md R157, R168).
EVENT_MASK's bits 7:4 are the image's (10_state.md R45; notes/assumptions/16.md). -/
def readBack (P : Params) (m : Memory) (f : RegField) (v : Nat) : Nat :=
  if f = .sys .eventMask then (m.read P 5).toNat / 16 * 16 + v % 16
  else
    match fieldDesc f 0 with
    | none => v
    | some d =>
      match d.kind with
      | .scaled k => v - v % k.value P
      | .bool | .uint | .mask | .raw | .atiBase => v

/-- Every present value of a property list is legal for its field. -/
def legalProperties (P : Params) (ps : List Property) : Prop :=
  ∀ q ∈ ps, ∀ v, q.value = some v → legalValue P q.field v

/-- A pin list with at most 8 entries, each 0 to 7 (43_configuration.md R251). -/
def legalPins (pins : Option (List Nat)) : Prop :=
  ∀ l, pins = some l → l.length ≤ 8 ∧ ∀ q ∈ l, q < 8

/-- An event's configuration that passes the four steps of R258 on channel c. -/
def legalEvent (c : Chan) (e : Event) (v : EvCfg) : Prop :=
  (∀ t, v.thresh = some t → t ≤ 255) ∧
  (∀ y, v.hyst = some y → e.kind ≠ .prox ∧ y ≤ 15) ∧
  (v.sw ≠ 0 → c = 7)

/-- A channel's configuration that passes the checks of R255 to R258. -/
def legalChannel (P : Params) (c : Chan) (h : ChCfg) : Prop :=
  (h.slider1 = true → P.otpHold = false) ∧ legalPins h.rxPins ∧ legalPins h.txPins ∧
  legalProperties P (chanProperties h) ∧ ∀ e : Event, legalEvent c e h.ev[e.id]

/-- A configuration record that passes every check of CFG_BUILD (R254 to R258). -/
def legalCfg (P : Params) (cfg : Cfg) : Prop :=
  legalProperties P (sysProperties P cfg.sys) ∧
  ∀ (c : Chan) (h : ChCfg), cfg.ch[c] = some h → legalChannel P c h

/-! ### The checks of CFG_BUILD, in the order R262 gives them -/

/-- One check of a record: the context R263 gives its failure, and the status it fails with, if it
fails (43_configuration.md R254 to R258). -/
structure RecordCheck where
  scope : Nat
  idx : Nat
  fails : Option Byte
  deriving DecidableEq, Repr

/-- "> max: OutOfRange". -/
def failsAbove (max : Nat) (v : Option Nat) : Option Byte :=
  match v with
  | some x => if max < x then some 1 else none
  | none => none

/-- "not in the set: InvalidEnum". -/
def failsOutside (legal : List Nat) (v : Option Nat) : Option Byte :=
  match v with
  | some x => if x ∈ legal then none else some 2
  | none => none

/-- A pin list's check (R251). -/
def failsPins (pins : Option (List Nat)) : Option Byte :=
  match pins with
  | some l => if l.length ≤ 8 ∧ ∀ q ∈ l, q < 8 then none else some 1
  | none => none

/-- The system properties' checks (R254). The flags (Idx 14 to 18 and 20) never fail. -/
def systemChecks (P : Params) (y : SysCfg) : List RecordCheck :=
  [⟨0xFF, 0, failsAbove 3 y.filtLpLta⟩, ⟨0xFF, 1, failsAbove 3 y.filtLpCnt⟩,
   ⟨0xFF, 2, failsAbove 3 y.filtNpLta⟩, ⟨0xFF, 3, failsAbove 3 y.filtNpCnt⟩,
   ⟨0xFF, 4, failsAbove 255 y.rateNp⟩, ⟨0xFF, 5, failsAbove 255 y.rateLp⟩,
   ⟨0xFF, 6, failsAbove 4080 y.rateUlp⟩, ⟨0xFF, 7, failsAbove 130560 y.timeoutPwr⟩,
   ⟨0xFF, 8, failsAbove 130560 y.timeoutLta⟩,
   ⟨0xFF, 9, if P.otpHold then failsAbove 65280 y.touchHold else none⟩,
   ⟨0xFF, 10, failsAbove (255 * P.stepT) y.timeoutTap⟩,
   ⟨0xFF, 11, failsAbove (255 * P.stepT) y.timeoutSwipe⟩,
   ⟨0xFF, 12, failsAbove (255 * P.stepS) y.threshSwipe⟩, ⟨0xFF, 13, failsAbove 3 y.pwrMode⟩,
   ⟨0xFF, 19, failsAbove 3 y.txFreq⟩, ⟨0xFF, 21, failsAbove 3 y.reseedSel⟩]

/-- The checks of one event of one channel (R258). Proximity has no hysteresis, so any is refused; a
key code (j = 2) never fails. -/
def eventChecks (c : Chan) (e : Event) (v : EvCfg) : List RecordCheck :=
  [⟨c.val, 32 + 4 * e.id.val, failsAbove 255 v.thresh⟩,
   ⟨c.val, 33 + 4 * e.id.val,
     if e.kind = .prox then failsOutside [] v.hyst else failsAbove 15 v.hyst⟩,
   ⟨c.val, 35 + 4 * e.id.val, if v.sw ≠ 0 ∧ c ≠ 7 then some 2 else none⟩]

/-- The checks of one channel (R255 to R258). The flags (Idx 0, 1, 2, 6 and 8) never fail. -/
def channelChecks (P : Params) (c : Chan) (h : ChCfg) : List RecordCheck :=
  [⟨c.val, 3, if h.slider1 ∧ P.otpHold then some 2 else none⟩,
   ⟨c.val, 4, failsPins h.rxPins⟩, ⟨c.val, 5, failsPins h.txPins⟩,
   ⟨c.val, 7, failsOutside [0, 1, 2] h.localCap⟩, ⟨c.val, 9, failsAbove 15 h.senseMode⟩,
   ⟨c.val, 10, failsAbove 3 h.senseFreq⟩, ⟨c.val, 11, failsAbove 3 h.bias⟩,
   ⟨c.val, 12, failsAbove 3 h.atiMode⟩, ⟨c.val, 13, failsOutside [75, 100, 150, 200] h.atiBase⟩,
   ⟨c.val, 14, failsAbove 2016 h.atiTarget⟩, ⟨c.val, 15, failsAbove 255 h.assocSelect⟩,
   ⟨c.val, 16, failsAbove 255 h.assocWeight⟩] ++
  Event.all.flatMap (fun e => eventChecks c e h.ev[e.id])

/-- Every check of a record, in the order R262 gives them. -/
def recordChecks (P : Params) (cfg : Cfg) : List RecordCheck :=
  systemChecks P cfg.sys ++
    channels.flatMap (fun c => match cfg.ch[c] with
      | some h => channelChecks P c h
      | none => [])

/-- The first failing check of a record (R262). -/
def firstFailure (P : Params) (cfg : Cfg) : Option RecordCheck :=
  (recordChecks P cfg).find? (fun k => k.fails.isSome)

/-- The invariant of the block. -/
structure State.Inv (s : State) : Prop where
  /-- the parameters meet R9's constraints -/
  params_valid : s.params.valid = true
  /-- the host ports are 0 to NUM_PORTS − 1 (10_state.md R30) -/
  ports_length : s.ports.length = s.params.numPorts
  /-- the image memory is in its canonical form -/
  img_wf : s.img.wf s.params = true
  /-- GATE is Idle exactly before PHASE is Armed (45_calibration_sync.md R380) -/
  gate_idle : s.gate = .idle ↔ s.phase ≠ .armed
  /-- a port waits only while Armed (R381, R384) -/
  wait_armed : ∀ r ∈ s.ports, r.pending = true → s.phase = .armed
  /-- every STATUS is a code of 60_exceptions.md R410 -/
  status_code : ∀ r ∈ s.ports, r.status ≤ 8#8
  /-- so is PORT[IRQ]'s -/
  irq_status_code : s.irqStatus ≤ 8#8
  /-- only the channel-7 entries of SWCODE are nonzero (10_state.md R41) -/
  switch_channel : ∀ (e : Fin 6) (c : Fin 8), c ≠ 7 → s.swcode[e][c] = 0
  /-- a touch-and-hold value is specified only under OTP_HOLD (R39, 43_configuration.md R260) -/
  hold_otp : s.holdSpec = true → s.params.otpHold = true
  /-- calibration is stale until the first full-image write (R34, R285) -/
  stale_until_armed : s.phase ≠ .armed → s.stale = true
  /-- no report precedes Armed (44_event_classifier.md R324) -/
  reports_armed : s.phase ≠ .armed → s.evt = []
  /-- the image is INIT_IMAGE until CFG_BUILD (10_state.md R33) -/
  image_initial : s.phase = .unconfigured → s.img = []

end Sys2Proof.Machine
end

