-- ==== Sys2Proof/Certificates/Slice0/Obligations.lean ====
section
/-! DEFINITION. The statements for the provers. -/

open Sys2Proof Sys2Proof.Machine

/-! ### Encoding -/

/-- 30_encoding.md R110, R112, R119: decoding the word of a well-formed command gives it back, with
every operand at every value its encoding admits. -/
def Obligations.EncodeThenDecode : Prop :=
  ∀ i : Instr, i.wellFormed = true → decode (encode i) = .ok i

/-- R110 to R115: a word decodes exactly when its reserved bits are 0, its opcode is in the map, and
its FID and CH are what the opcode takes. -/
def Obligations.DecodableWords : Prop :=
  ∀ w : Word, (∃ i, decode w = .ok i) ↔
    (w.toNat % 0x1000 = 0 ∧
      ((w.toNat / 0x1000000 ∈ [0x01, 0x02] ∧
          ((w.toNat / 0x10000 % 0x100 ≤ 0x25 ∧ w.toNat / 0x1000 % 0x10 = 0) ∨
            (0x40 ≤ w.toNat / 0x10000 % 0x100 ∧ w.toNat / 0x10000 % 0x100 ≤ 0x55))) ∨
        (w.toNat / 0x1000000 ∈ [0x10, 0x11, 0x12, 0x13, 0x14, 0x15, 0x16, 0x17, 0x26, 0x41] ∧
          w.toNat / 0x10000 % 0x100 = 0) ∨
        (w.toNat / 0x1000000 ∈ [0x20, 0x21, 0x22, 0x23, 0x24, 0x25, 0x30, 0x31, 0x40, 0x50] ∧
          w.toNat / 0x10000 % 0x100 = 0 ∧ w.toNat / 0x1000 % 0x10 = 0)))

/-- R110, R112: each command has one word. -/
def Obligations.DecodeThenEncode : Prop :=
  ∀ (w : Word) (i : Instr), decode w = .ok i → i.wellFormed = true ∧ encode i = w

/-- R119 and the command rules: words written out from the spec. -/
def Obligations.WordsOfTheSpecDecode : Prop :=
  decode 0x024F2000#32 = .ok (.fldSet (.chan .hystTouch) 2) ∧
  decode 0x1500F000#32 = .ok (.atiTargetSet 15) ∧
  decode 0x50000000#32 = .ok .calWait ∧
  decode 0x01502000#32 = .ok (.fldGet (.chan .hystDeep) 2) ∧
  decode 0x26007000#32 = .ok (.countsRead 7) ∧
  decode 0x41001000#32 = .ok (.sliderModeGet 1) ∧
  decode 0x30000000#32 = .ok .cfgBuild

/-! ### Steps -/

/-- 60_exceptions.md R420 (step 1): a command step of a port that does not wait runs the command its
CMD decodes to, with the port as issuer and the turn's inputs, after the turn leaves the agenda. -/
def Obligations.StepRunsDecodedCommand : Prop :=
  ∀ (s : State) (p : Nat) (side : SidePorts) (rest : List Turn) (i : Instr),
    s.agenda = .command p side :: rest → p < s.ports.length →
    (s.port (.host p)).pending = false → decode (s.port (.host p)).cmd = .ok i →
    step s = exec i { s with agenda := rest, draws := s.draws + 1, issuer := .host p, side := side }

/-- R413, R420 (step 2): an interrupt runs SNAP_DECODE with PORT[IRQ] as issuer. -/
def Obligations.StepRunsInterrupt : Prop :=
  ∀ (s : State) (side : SidePorts) (rest : List Turn), s.agenda = .interrupt side :: rest →
    step s = exec .snapDecode { s with agenda := rest, draws := s.draws + 1, issuer := .irq, side := side }

/-- 30_encoding.md R115: a word that is no command completes with IllegalCommand and changes no
state other than STATUS. -/
def Obligations.UndecodableWordChangesOnlyStatus : Prop :=
  ∀ (s : State) (p : Nat) (side : SidePorts) (rest : List Turn) (e : DecodeError),
    s.agenda = .command p side :: rest → p < s.ports.length →
    (s.port (.host p)).pending = false → decode (s.port (.host p)).cmd = .error e →
    step s = .next
      { s.onlyStatus p 8 with
        agenda := rest, draws := s.draws + 1, issuer := .host p, side := side }

/-- R115(e), (g), R113: a field that OTP_HOLD removes, SNAP_DECODE from a host port, and any other
command from the interrupt input complete with IllegalCommand, in every phase, and change only
STATUS. -/
def Obligations.WrongFormsAreIllegal : Prop :=
  (∀ (s : State) (p : Nat) (f : RegField) (ch : Fin 16), s.onHost p →
    (f = .sys .slider1Sel ∧ s.params.otpHold = true) ∨
      (f = .sys .touchHold ∧ s.params.otpHold = false) →
    exec (.fldGet f ch) s = .next (s.onlyStatus p 8) ∧
    exec (.fldSet f ch) s = .next (s.onlyStatus p 8)) ∧
  (∀ (s : State) (p : Nat), s.onHost p → exec .snapDecode s = .next (s.onlyStatus p 8)) ∧
  (∀ (s : State) (i : Instr), s.onIrq → i ≠ .snapDecode →
    exec i s = .next { s with irqStatus := 8 })

/-- 10_state.md R31: a host's write of its CMD or DIN changes that register alone; and (D56) a port
that waits issues no command. That such a turn is refused by name is the model's choice
(notes/assumptions/7.md), and the turn of a register write is one of its own
(notes/assumptions/3.md). -/
def Obligations.WaitingPortIssuesNothing : Prop :=
  (∀ (s : State) (p : Nat) (v : Word) (rest : List Turn),
    s.agenda = .setCmd p v :: rest → p < s.ports.length →
    step s = .next
      { s.withHostRegs p { s.port (.host p) with cmd := v } with
        agenda := rest, draws := s.draws + 1 }) ∧
  (∀ (s : State) (p : Nat) (v : Word) (rest : List Turn),
    s.agenda = .setDin p v :: rest → p < s.ports.length →
    step s = .next
      { s.withHostRegs p { s.port (.host p) with din := v } with
        agenda := rest, draws := s.draws + 1 }) ∧
  (∀ (s : State) (p : Nat) (side : SidePorts) (rest : List Turn),
    s.agenda = .command p side :: rest → p < s.ports.length →
    (s.port (.host p)).pending = true → step s = .refused (.portWaiting p))

/-- 45_calibration_sync.md R382: the completion step is enabled exactly when PENDING = 1 and GATE =
Ready; it clears PENDING and writes OK, and changes nothing else. That the model refuses the turn
by name where it is not enabled is its own choice (notes/assumptions/7.md). -/
def Obligations.CompletionStep : Prop :=
  ∀ (s : State) (p : Nat) (rest : List Turn),
    s.agenda = .complete p :: rest → p < s.ports.length →
    ((s.port (.host p)).pending = true → s.gate = .ready →
      step s = .next
        { s.withHostRegs p { s.port (.host p) with pending := false, status := 0 } with
          agenda := rest, draws := s.draws + 1 }) ∧
    (¬((s.port (.host p)).pending = true ∧ s.gate = .ready) → step s = .refused (.stepNotEnabled p))

/-- R383: the timeout step is enabled whenever PENDING = 1, whatever GATE is; it clears PENDING and
writes Timeout, and changes nothing else. That the model refuses the turn by name where it is not
enabled is its own choice (notes/assumptions/7.md). -/
def Obligations.TimeoutStep : Prop :=
  ∀ (s : State) (p : Nat) (rest : List Turn),
    s.agenda = .timeout p :: rest → p < s.ports.length →
    ((s.port (.host p)).pending = true →
      step s = .next
        { s.withHostRegs p { s.port (.host p) with pending := false, status := 5 } with
          agenda := rest, draws := s.draws + 1 }) ∧
    ((s.port (.host p)).pending = false → step s = .refused (.stepNotEnabled p))

/-! ### Reset and whole-machine rules -/

/-- 70_reset_and_hazards.md R450: what reset leaves. PORT[IRQ]'s CMD is fixed at SNAP_DECODE
(10_state.md R31), so it is not in the list of zeros (notes/assumptions/5.md, the model's reading). -/
def Obligations.ResetLeaves : Prop :=
  ∀ P : Params,
    (∀ p : Nat, (State.resetWith P).port (.host p) =
      { cmd := 0, din := 0, dout := 0, status := 0, pending := false }) ∧
    (State.resetWith P).ports.length = P.numPorts ∧
    (State.resetWith P).port .irq =
      { cmd := 0x40000000, din := 0, dout := 0, status := 0, pending := false } ∧
    (State.resetWith P).phase = .unconfigured ∧
    (∀ a : Fin 136, (State.resetWith P).byte a.val = P.initImage[a]) ∧
    (State.resetWith P).stale = true ∧ (State.resetWith P).gate = .idle ∧
    (State.resetWith P).chSel = 0 ∧ (State.resetWith P).hallEn = false ∧
    (State.resetWith P).holdSpec = false ∧
    (∀ (e : Fin 6) (c : Fin 8), (State.resetWith P).keycode[e][c] = 0 ∧
      (State.resetWith P).swcode[e][c] = 0) ∧
    (∀ (i : Fin 2) (g : Fin 4), (State.resetWith P).slcode[i][g] = 0)

/-- The invariant holds after reset. -/
def Obligations.ResetMeetsInvariant : Prop := State.reset.Inv

/-- Every step keeps the invariant: the image memory keeps its canonical form, GATE is Idle exactly
before Armed, ports wait only while Armed, STATUS registers hold codes, SWCODE is 0 off channel 7,
and so on (45_calibration_sync.md R380, 10_state.md R41, 60_exceptions.md R410). -/
def Obligations.StepKeepsInvariant : Prop :=
  ∀ s t : State, s.Inv → step s = .next t → t.Inv

/-- 10_state.md R32: no command moves PHASE back; a step moves it by at most one, by CFG_BUILD or
IMG_INIT alone. Parameters never change (10_state.md, opening). -/
def Obligations.PhaseOnlyAdvances : Prop :=
  ∀ s t : State, step s = .next t →
    t.params = s.params ∧
    (t.phase = s.phase ∨
      ∃ p side rest, s.agenda = .command p side :: rest ∧
        ((s.phase = .unconfigured ∧ t.phase = .configured ∧
            decode (s.port (.host p)).cmd = .ok .cfgBuild) ∨
          (s.phase = .configured ∧ t.phase = .armed ∧
            decode (s.port (.host p)).cmd = .ok .imgInit)))

/-- 45_calibration_sync.md R380: a step changes GATE only as the table says. -/
def Obligations.GateMovesOnlyByTheTable : Prop :=
  ∀ s t : State, step s = .next t → t.gate ≠ s.gate →
    (s.gate = .calibrating ∧ t.gate = .ready ∧ s.phase = .armed ∧
      ∃ side rest sn, s.agenda = .interrupt side :: rest ∧ side.snap = some sn ∧
        sn.sys.getLsbD 15 = false ∧ sn.sys.getLsbD 10 = false) ∨
    (t.gate = .calibrating ∧ t.phase = .armed ∧
      ∃ p side rest, s.agenda = .command p side :: rest ∧
        ((s.phase = .configured ∧ side.busw = .ok ∧
            decode (s.port (.host p)).cmd = .ok .imgInit) ∨
          (s.phase = .armed ∧ (s.port (.host p)).din ≠ 0 ∧
            decode (s.port (.host p)).cmd = .ok .recalTrigger)))

/-- 60_exceptions.md R411: a command that ends with a status other than OK leaves every piece of
block state as it was, apart from STATUS, but for CFG_BUILD's DOUT and RECAL_TRIGGER's GATE. (The
bus record is the model's own.) -/
def Obligations.FailedCommandChangesOnlyStatus : Prop :=
  (∀ (i : Instr) (s t : State) (p : Nat), s.onHost p → exec i s = .next t →
    (t.port (.host p)).pending = false → (t.port (.host p)).status ≠ 0 →
    (s.port (.host p)).pending = false →
    t = { s.withHostRegs p { s.port (.host p) with
            dout := (t.port (.host p)).dout, status := (t.port (.host p)).status } with
          gate := t.gate, bus := t.bus } ∧
    (i ≠ .cfgBuild → (t.port (.host p)).dout = (s.port (.host p)).dout) ∧
    (i ≠ .recalTrigger → t.gate = s.gate)) ∧
  (∀ (i : Instr) (s t : State), s.onIrq → exec i s = .next t → t.irqStatus ≠ 0 →
    t = { s with irqStatus := t.irqStatus, bus := t.bus })

/-- 60_exceptions.md R412: the statuses each command can end with, on the port that issued it. A
command that leaves its port waiting writes no status. -/
def Obligations.StatusesOfEachCommand : Prop :=
  ∀ (i : Instr) (s t : State) (p : Nat), s.onHost p → exec i s = .next t →
    (t.port (.host p)).pending = (s.port (.host p)).pending →
    (t.port (.host p)).status ∈
      (match i with
        | .fldGet _ _ | .fldSet _ _ => [0, 1, 2, 6, 8]
        | .atiModeGet _ | .atiBaseGet _ | .atiTargetGet _ | .rxEnGet _ => [0, 1, 6, 8]
        | .atiModeSet _ | .atiTargetSet _ | .rxEnSet _ => [0, 1, 6, 8]
        | .atiBaseSet _ => [0, 1, 2, 6, 8]
        | .chSelGet | .hallEnGet | .recalStatus => [0, 6, 8]
        | .chSelSet | .hallEnSet => [0, 1, 6, 8]
        | .countsRead _ => [0, 1, 3, 6, 7, 8]
        | .cfgBuild => [0, 1, 2, 8]
        | .imgInit => [0, 3, 6, 8]
        | .snapDecode => [8]
        | .sliderModeGet _ => [0, 1, 6, 8]
        | .calWait => [0, 6, 8]
        | .recalTrigger => [0, 3, 6, 8] : List Byte) ∨
      ((i = .calWait ∨ i = .recalTrigger) ∧ (s.port (.host p)).pending = true)

/-- 30_encoding.md R111, 44_event_classifier.md R323, R326: only SNAP_DECODE, Armed, with a clean
snapshot, sends reports, and a step sends no report back. -/
def Obligations.OnlyCleanSnapshotsSendReports : Prop :=
  ∀ s t : State, step s = .next t →
    t.evt = s.evt ∨
      ∃ side rest sn, s.agenda = .interrupt side :: rest ∧ s.phase = .armed ∧
        side.snap = some sn ∧ sn.sys.getLsbD 15 = false ∧ sn.sys.getLsbD 10 = false ∧
        t.evt = s.evt ++ s.decodeReports sn

/-- 43_configuration.md R281, 20_memory.md R94: the image reaches the device only by IMG_INIT while
Configured, RECAL_TRIGGER with a nonzero DIN while Armed, or SNAP_DECODE of a snapshot with RESET = 1
while Armed; a step makes at most one such write, of 136 bytes, never retried; and a step whose write
was answered Ok leaves IMG as the image it wrote. -/
def Obligations.AtMostOneImageWritePerStep : Prop :=
  ∀ s t : State, step s = .next t →
    imageWrites t.bus = imageWrites s.bus ∨
      ∃ bytes, imageWrites t.bus = imageWrites s.bus ++ [bytes] ∧ bytes.length = 136 ∧
        (t.bus.getLast? = some (.writeImage s.params.imgBase bytes .ok) →
          bytes = t.img.bytes t.params) ∧
        ((∃ p side rest, s.agenda = .command p side :: rest ∧
            ((s.phase = .configured ∧ decode (s.port (.host p)).cmd = .ok .imgInit) ∨
              (s.phase = .armed ∧ (s.port (.host p)).din ≠ 0 ∧
                decode (s.port (.host p)).cmd = .ok .recalTrigger))) ∨
          ∃ side rest sn, s.agenda = .interrupt side :: rest ∧ s.phase = .armed ∧
            side.snap = some sn ∧ sn.sys.getLsbD 15 = true)

/-! ### Checks shared by the commands -/

/-- 10_state.md R36: the admission table, for every command at every phase that does not admit it:
the status, and nothing else changed. -/
def Obligations.AdmissionByPhase : Prop :=
  (∀ (s : State) (p : Nat) (i : Instr), s.onHost p → s.phase = .unconfigured →
    i ≠ .cfgBuild → i ≠ .snapDecode →
    (∀ f ch, i = .fldGet f ch ∨ i = .fldSet f ch → fieldExists s.params f = true) →
    exec i s = .next (s.onlyStatus p 6)) ∧
  (∀ (s : State) (p : Nat) (ch : Fin 16), s.onHost p → s.phase = .configured →
    exec (.countsRead ch) s = .next (s.onlyStatus p 6) ∧
    exec .recalTrigger s = .next (s.onlyStatus p 6) ∧
    exec .calWait s = .next (s.onlyStatus p 6) ∧
    exec .cfgBuild s = .next (s.onlyStatus p 8)) ∧
  (∀ (s : State) (p : Nat), s.onHost p → s.phase = .armed →
    exec .cfgBuild s = .next (s.onlyStatus p 8) ∧
    exec .imgInit s = .next (s.onlyStatus p 8)) ∧
  (∀ s : State, s.onIrq → s.phase ≠ .armed →
    exec .snapDecode s = .next { s with irqStatus := 6 })

/-- 30_encoding.md R114: CH = 15 is the channel in CH_SEL, for every command that takes a channel. -/
def Obligations.SelectedChannel : Prop :=
  ∀ (s : State) (ch : Fin 16), ch.val = s.chSel.val →
    (∀ f : ChanField, exec (.fldGet (.chan f) 15) s = exec (.fldGet (.chan f) ch) s ∧
      exec (.fldSet (.chan f) 15) s = exec (.fldSet (.chan f) ch) s) ∧
    exec (.atiModeGet 15) s = exec (.atiModeGet ch) s ∧
    exec (.atiModeSet 15) s = exec (.atiModeSet ch) s ∧
    exec (.atiBaseGet 15) s = exec (.atiBaseGet ch) s ∧
    exec (.atiBaseSet 15) s = exec (.atiBaseSet ch) s ∧
    exec (.atiTargetGet 15) s = exec (.atiTargetGet ch) s ∧
    exec (.atiTargetSet 15) s = exec (.atiTargetSet ch) s ∧
    exec (.rxEnGet 15) s = exec (.rxEnGet ch) s ∧
    exec (.rxEnSet 15) s = exec (.rxEnSet ch) s ∧
    exec (.countsRead 15) s = exec (.countsRead ch) s

/-! ### The field codec -/

/-- 10_state.md R43, R44, R45, 41_field_codec.md R156, R159, 20_memory.md R83. The rows of the field
tables: what each FID names, and its container's offset and width, bit range, kind and divisor; the
two bits of LOCAL_CAP_SIZE; STEP_T and STEP_S; what field bits decode to (R155, R158). Then: every
field's container lies inside the image and its bits inside the container, a word starts at an even
offset, two named fields, neither raw, share a bit only where they are byte 19's two readings, and no
set of a named field stores into a reserved bit. (EVENT_MASK's part of that last clause:
notes/assumptions/16.md.) -/
def Obligations.FieldLayout : Prop :=
  (∀ r ∈ ([(0x00#8, .genClkDiv, ⟨0, .word, 15, 15, .bool⟩),
     (0x01#8, .genPwrMode, ⟨0, .word, 12, 11, .uint⟩),
     (0x02#8, .genEventMode, ⟨0, .word, 5, 5, .bool⟩),
     (0x03#8, .genEventModeLp, ⟨0, .word, 4, 4, .bool⟩),
     (0x04#8, .genRedoAti, ⟨0, .word, 2, 2, .bool⟩),
     (0x05#8, .genAckReset, ⟨0, .word, 0, 0, .bool⟩),
     (0x06#8, .active, ⟨2, .byte, 7, 0, .mask⟩),
     (0x07#8, .filtLpLta, ⟨3, .byte, 7, 6, .uint⟩),
     (0x08#8, .filtLpCnt, ⟨3, .byte, 5, 4, .uint⟩),
     (0x09#8, .filtNpLta, ⟨3, .byte, 3, 2, .uint⟩),
     (0x0A#8, .filtNpCnt, ⟨3, .byte, 1, 0, .uint⟩),
     (0x0B#8, .reseed, ⟨4, .byte, 7, 0, .mask⟩),
     (0x0C#8, .eventMask, ⟨5, .byte, 7, 0, .mask⟩),
     (0x0D#8, .rateNp, ⟨6, .byte, 7, 0, .scaled (.const 1)⟩),
     (0x0E#8, .rateLp, ⟨7, .byte, 7, 0, .scaled (.const 1)⟩),
     (0x0F#8, .rateUlp, ⟨8, .byte, 7, 0, .scaled (.const 16)⟩),
     (0x10#8, .timeoutPwr, ⟨9, .byte, 7, 0, .scaled (.const 512)⟩),
     (0x11#8, .timeout2, ⟨10, .byte, 7, 0, .uint⟩),
     (0x12#8, .timeoutLta, ⟨11, .byte, 7, 0, .scaled (.const 512)⟩),
     (0x13#8, .maAtiBandDisable, ⟨12, .word, 15, 15, .bool⟩),
     (0x14#8, .maAtiLpOnly, ⟨12, .word, 14, 14, .bool⟩),
     (0x15#8, .maAtiBandTighten, ⟨12, .word, 13, 13, .bool⟩),
     (0x16#8, .maFiltDisable, ⟨12, .word, 12, 12, .bool⟩),
     (0x17#8, .maTxFreq, ⟨12, .word, 5, 4, .uint⟩),
     (0x18#8, .maGlobalCap, ⟨12, .word, 0, 0, .bool⟩),
     (0x19#8, .mbReseedSel, ⟨14, .word, 7, 6, .uint⟩),
     (0x1A#8, .blocking, ⟨16, .byte, 7, 0, .mask⟩),
     (0x1B#8, .slider0Sel, ⟨18, .byte, 7, 0, .mask⟩),
     (0x1C#8, .slider1Sel, ⟨19, .byte, 7, 0, .mask⟩),
     (0x1D#8, .touchHold, ⟨19, .byte, 7, 0, .scaled (.const 256)⟩),
     (0x1E#8, .timeoutTap, ⟨20, .byte, 7, 0, .scaled .stepT⟩),
     (0x1F#8, .timeoutSwipe, ⟨21, .byte, 7, 0, .scaled .stepT⟩),
     (0x20#8, .threshSwipe, ⟨22, .byte, 7, 0, .scaled .stepS⟩),
     (0x21#8, .redoAtiMask, ⟨23, .byte, 7, 0, .mask⟩),
     (0x22#8, .generalWord, ⟨0, .word, 15, 0, .raw⟩),
     (0x23#8, .miscAWord, ⟨12, .word, 15, 0, .raw⟩),
     (0x24#8, .miscBWord, ⟨14, .word, 15, 0, .raw⟩),
     (0x25#8, .filterByte, ⟨3, .byte, 7, 0, .raw⟩)] : List (Byte × SysField × Desc)),
    RegField.ofFid r.1 = some (.sys r.2.1) ∧ ∀ c : Chan, fieldDesc (.sys r.2.1) c = some r.2.2) ∧
  (∀ r ∈ ([(0x40#8, .rxEn, ⟨0, .byte, 7, 0, .mask⟩),
     (0x41#8, .txEn, ⟨1, .byte, 7, 0, .mask⟩),
     (0x42#8, .eaMeasCap, ⟨2, .word, 15, 15, .bool⟩),
     (0x43#8, .eaAtiMode, ⟨2, .word, 9, 8, .uint⟩),
     (0x44#8, .eaPolarity, ⟨2, .word, 7, 7, .bool⟩),
     (0x45#8, .eaBias, ⟨2, .word, 6, 5, .uint⟩),
     (0x46#8, .eaSenseMode, ⟨2, .word, 3, 0, .uint⟩),
     (0x47#8, .ebSenseFreq, ⟨4, .word, 10, 9, .uint⟩),
     (0x48#8, .ebAtiBase, ⟨4, .word, 7, 6, .atiBase⟩),
     (0x49#8, .ebAtiTarget, ⟨4, .word, 5, 0, .scaled (.const 32)⟩),
     (0x4B#8, .atiComp, ⟨6, .word, 15, 0, .uint⟩),
     (0x4C#8, .threshProx, ⟨8, .byte, 7, 0, .uint⟩),
     (0x4D#8, .threshTouch, ⟨9, .byte, 7, 0, .uint⟩),
     (0x4E#8, .threshDeep, ⟨10, .byte, 7, 0, .uint⟩),
     (0x4F#8, .hystTouch, ⟨11, .byte, 3, 0, .uint⟩),
     (0x50#8, .hystDeep, ⟨11, .byte, 7, 4, .uint⟩),
     (0x51#8, .assocSel, ⟨12, .byte, 7, 0, .mask⟩),
     (0x52#8, .assocWeight, ⟨13, .byte, 7, 0, .uint⟩),
     (0x53#8, .engineAWord, ⟨2, .word, 15, 0, .raw⟩),
     (0x54#8, .engineBWord, ⟨4, .word, 15, 0, .raw⟩),
     (0x55#8, .hystByte, ⟨11, .byte, 7, 0, .raw⟩)] : List (Byte × ChanField × Desc)),
    RegField.ofFid r.1 = some (.chan r.2.1) ∧
    ∀ c : Chan, fieldDesc (.chan r.2.1) c =
      some { r.2.2 with off := 24 + 14 * c.val + r.2.2.off }) ∧
  (RegField.ofFid 0x4A = some (.chan .localCapSize) ∧
    ∀ (c : Chan) (a j : Nat), fieldBit (.chan .localCapSize) c a j = true ↔
      (a = 24 + 14 * c.val + 2 ∧ j = 4) ∨ (a = 24 + 14 * c.val + 4 ∧ j = 5)) ∧
  (∀ P : Params,
    (∀ d : Nat, (Divisor.const d).value P = d) ∧
    Divisor.stepT.value P = (if P.fwRev < P.fwStepMin then P.stepTOld else P.stepTNew) ∧
    Divisor.stepS.value P = (if P.fwRev < P.fwStepMin then P.stepSOld else P.stepSNew) ∧
    ∀ (d : Desc) (r : Nat), r < 4 ∨ d.kind ≠ .atiBase → decodeValue P d r =
      (match d.kind with
        | .scaled k => r * k.value P
        | .atiBase => [75, 100, 150, 200].getD r 0
        | .bool | .uint | .mask | .raw => r)) ∧
  (∀ (f : RegField) (c : Chan) (d : Desc), fieldDesc f c = some d →
    d.off + d.width.bytes ≤ 136 ∧ d.lo ≤ d.hi ∧ d.hi < 8 * d.width.bytes ∧
    (d.width = .word → d.off % 2 = 0)) ∧
  (∀ (f g : RegField) (c e : Chan), isRawField f = false → isRawField g = false → f ≠ g →
    ¬(f = .sys .slider1Sel ∧ g = .sys .touchHold) →
    ¬(f = .sys .touchHold ∧ g = .sys .slider1Sel) → disjointFields f c g e) ∧
  (∀ (f : ChanField) (c e : Chan), c ≠ e → disjointFields (.chan f) c (.chan f) e) ∧
  (∀ (f : RegField) (c : Chan) (a j : Nat), isRawField f = false → j < 8 → reservedBit a j = true →
    fieldBit f c a j = false)

/-- 41_field_codec.md R164 (with R152, R155, R162): FLD_GET of a field in one container. DOUT takes
the decoded field bits of the container; where the value fits no 32 bits, what DOUT takes is free
(notes/assumptions/9.md) and the command still completes. For CH 8 to 14 a channel field, whichever
it is, is OutOfRange (30_encoding.md R114). -/
def Obligations.FldGetReadsTheField : Prop :=
  (∀ (s : State) (p : Nat) (f : RegField) (ch : Fin 16) (c : Chan) (d : Desc),
    s.onHost p → fieldExists s.params f = true → s.phase ≠ .unconfigured →
    s.namesField f ch c → fieldDesc f c = some d →
    ∃ v : Word,
      exec (.fldGet f ch) s = .next (s.withHostRegs p ((s.port (.host p)).answered v)) ∧
      (decodeValue s.params d (s.containerAt d / 2 ^ d.lo % 2 ^ (d.hi - d.lo + 1)) < 2 ^ 32 →
        v.toNat =
          decodeValue s.params d (s.containerAt d / 2 ^ d.lo % 2 ^ (d.hi - d.lo + 1)))) ∧
  (∀ (s : State) (p : Nat) (f : ChanField) (ch : Fin 16),
    s.onHost p → s.phase ≠ .unconfigured → 8 ≤ ch.val → ch.val ≤ 14 →
    exec (.fldGet (.chan f) ch) s = .next (s.onlyStatus p 1))

/-- R160: FLD_GET LOCAL_CAP_SIZE decodes EN = ENGINE_B[13] and DBL = ENGINE_A[12]; the pattern
(0, 1) completes with InvalidEnum. -/
def Obligations.FldGetLocalCap : Prop :=
  ∀ (s : State) (p : Nat) (ch : Fin 16) (c : Chan),
    s.onHost p → s.phase ≠ .unconfigured → s.namesChannel ch c →
    exec (.fldGet (.chan .localCapSize) ch) s = .next
      (match (s.byte (24 + 14 * c.val + 4)).getLsbD 5, (s.byte (24 + 14 * c.val + 2)).getLsbD 4 with
        | false, false => s.withHostRegs p ((s.port (.host p)).answered 0)
        | true, false => s.withHostRegs p ((s.port (.host p)).answered 1)
        | true, true => s.withHostRegs p ((s.port (.host p)).answered 2)
        | false, true => s.onlyStatus p 2)

/-- R165 (with R153, R154, R163, R166): FLD_SET of a legal value to a field in one container. The
bits a set of the field may store (all of the field's, but for EVENT_MASK's reserved bits 7:4,
notes/assumptions/16.md) take the encoded value's, every other bit of the image is kept, STALE is
set whatever the value, HOLD_SPEC is set for TOUCH_HOLD only, and nothing else changes but STATUS.
For CH 8 to 14 a channel field, whichever it is, is OutOfRange (30_encoding.md R114), whatever DIN
is. -/
def Obligations.FldSetWritesTheField : Prop :=
  (∀ (s : State) (p : Nat) (f : RegField) (ch : Fin 16) (c : Chan) (d : Desc),
    s.onHost p → fieldExists s.params f = true → s.phase ≠ .unconfigured →
    s.namesField f ch c → fieldDesc f c = some d → legalValue s.params f s.din →
    ∃ (t : State) (w : Nat),
      w = (if f = .sys .eventMask then 4 else d.hi - d.lo + 1) ∧
      exec (.fldSet f ch) s = .next t ∧
      t = { s.onlyStatus p 0 with
            img := t.img, stale := true,
            holdSpec := if f = .sys .touchHold then true else s.holdSpec } ∧
      t.containerAt d / 2 ^ d.lo % 2 ^ w = d.storedAs s.params s.din % 2 ^ w ∧
      ∀ a j : Nat, j < 8 → fieldBit f c a j = false →
        (t.byte a).getLsbD j = (s.byte a).getLsbD j) ∧
  (∀ (s : State) (p : Nat) (f : ChanField) (ch : Fin 16),
    s.onHost p → s.phase ≠ .unconfigured → 8 ≤ ch.val → ch.val ≤ 14 →
    exec (.fldSet (.chan f) ch) s = .next (s.onlyStatus p 1))

/-- R159, R163: FLD_SET LOCAL_CAP_SIZE writes ENGINE_A[12] and ENGINE_B[13] of the channel, both or
neither, and no other bit. -/
def Obligations.FldSetLocalCap : Prop :=
  ∀ (s : State) (p : Nat) (ch : Fin 16) (c : Chan),
    s.onHost p → s.phase ≠ .unconfigured → s.namesChannel ch c →
    (s.din ≤ 2 →
      ∃ m : Memory,
        exec (.fldSet (.chan .localCapSize) ch) s =
          .next { s.onlyStatus p 0 with img := m, stale := true } ∧
        ∀ a j : Nat, j < 8 →
          m.bit s.params a j =
            if a = 24 + 14 * c.val + 4 ∧ j = 5 then decide (1 ≤ s.din)
            else if a = 24 + 14 * c.val + 2 ∧ j = 4 then decide (s.din = 2)
            else (s.byte a).getLsbD j) ∧
    (2 < s.din → exec (.fldSet (.chan .localCapSize) ch) s = .next (s.onlyStatus p 2))

/-- R169: a FLD_SET whose value is not legal completes with InvalidEnum for an enumerated field and
OutOfRange for any other, and leaves IMG, STALE and HOLD_SPEC as they were. -/
def Obligations.FldSetRefusalKeepsState : Prop :=
  ∀ (s : State) (p : Nat) (f : RegField) (ch : Fin 16) (c : Chan),
    s.onHost p → fieldExists s.params f = true → s.phase ≠ .unconfigured →
    s.namesField f ch c → ¬legalValue s.params f s.din →
    exec (.fldSet f ch) s = .next
      (s.onlyStatus p (if f = .chan .localCapSize ∨ f = .chan .ebAtiBase then 2 else 1))

/-- R157, R168: a successful set then get returns v − (v mod d) for a scaled field and v for every
other kind; for EVENT_MASK, whose bits 7:4 a set keeps, v in bits 3:0 and what the image held above
(10_state.md R45, notes/assumptions/16.md). -/
def Obligations.SetThenGet : Prop :=
  ∀ (P : Params) (m m' : Memory) (f : RegField) (c : Chan) (v : Nat),
    setField P m f c v = .ok m' → getField P m' f c = .ok (readBack P m f v)

/-- R168: setting what a successful get read leaves the image unchanged. -/
def Obligations.GetThenSet : Prop :=
  ∀ (P : Params) (m : Memory) (f : RegField) (c : Chan) (v : Nat), P.valid = true →
    getField P m f c = .ok v →
    ∃ m', setField P m f c v = .ok m' ∧ ∀ a, m'.read P a = m.read P a

/-- R166: a successful set changes only the bits of its field; for EVENT_MASK, only bits 3:0 of it
(10_state.md R45, notes/assumptions/16.md). -/
def Obligations.SetTouchesOnlyItsBits : Prop :=
  ∀ (P : Params) (m m' : Memory) (f : RegField) (c : Chan) (v : Nat),
    setField P m f c v = .ok m' →
    ∀ a j : Nat, j < 8 → fieldBit f c a j = false → m'.bit P a j = m.bit P a j

/-- R167: two successful sets of fields that share no bit give the same image in either order. -/
def Obligations.DisjointSetsCommute : Prop :=
  ∀ (P : Params) (m m₁ m₂ : Memory) (f g : RegField) (c e : Chan) (v w : Nat),
    disjointFields f c g e → setField P m f c v = .ok m₁ → setField P m₁ g e w = .ok m₂ →
    ∃ n₁ n₂, setField P m g e w = .ok n₁ ∧ setField P n₁ f c v = .ok n₂ ∧
      ∀ a, n₂.read P a = m₂.read P a

/-- R167, the source's case: touch hysteresis V and deep-touch hysteresis W, set in either order,
make one byte with V in the low nibble and W in the high nibble. -/
def Obligations.HysteresisNibblesMerge : Prop :=
  ∀ (P : Params) (m : Memory) (c : Chan) (v w : Nat), v < 16 → w < 16 →
    ∃ m₁ m₂ n₁ n₂,
      setField P m (.chan .hystTouch) c v = .ok m₁ ∧
      setField P m₁ (.chan .hystDeep) c w = .ok m₂ ∧
      setField P m (.chan .hystDeep) c w = .ok n₁ ∧
      setField P n₁ (.chan .hystTouch) c v = .ok n₂ ∧
      (m₂.read P (24 + 14 * c.val + 11)).toNat = 16 * w + v ∧
      (n₂.read P (24 + 14 * c.val + 11)).toNat = 16 * w + v

/-! ### Accessors and attributes -/

/-- 42_channel_accessors.md R201, R203, R205, R207: the four channel GETs, in every phase and for
every CH. -/
def Obligations.AccessorGets : Prop :=
  ∀ (s : State) (p : Nat) (ch : Fin 16), s.onHost p →
    encode (.atiModeGet ch) = BitVec.ofNat 32 (0x10000000 + 0x1000 * ch.val) ∧
    encode (.atiBaseGet ch) = BitVec.ofNat 32 (0x12000000 + 0x1000 * ch.val) ∧
    encode (.atiTargetGet ch) = BitVec.ofNat 32 (0x14000000 + 0x1000 * ch.val) ∧
    encode (.rxEnGet ch) = BitVec.ofNat 32 (0x16000000 + 0x1000 * ch.val) ∧
    (∀ i ∈ [Instr.atiModeGet ch, .atiBaseGet ch, .atiTargetGet ch, .rxEnGet ch],
      (s.phase = .unconfigured → exec i s = .next (s.onlyStatus p 6)) ∧
      (s.phase ≠ .unconfigured → 8 ≤ ch.val → ch.val ≤ 14 →
        exec i s = .next (s.onlyStatus p 1))) ∧
    (∀ c : Chan, s.phase ≠ .unconfigured → s.namesChannel ch c →
      exec (.atiModeGet ch) s = .next (s.withHostRegs p ((s.port (.host p)).answered
        (BitVec.ofNat 32 (s.wordAt (24 + 14 * c.val + 2) / 2 ^ 8 % 4)))) ∧
      exec (.atiBaseGet ch) s = .next (s.withHostRegs p ((s.port (.host p)).answered
        (BitVec.ofNat 32
          ([75, 100, 150, 200].getD (s.wordAt (24 + 14 * c.val + 4) / 2 ^ 6 % 4) 0)))) ∧
      exec (.atiTargetGet ch) s = .next (s.withHostRegs p ((s.port (.host p)).answered
        (BitVec.ofNat 32 (s.wordAt (24 + 14 * c.val + 4) % 64 * 32)))) ∧
      exec (.rxEnGet ch) s = .next (s.withHostRegs p ((s.port (.host p)).answered
        ((s.byte (24 + 14 * c.val)).setWidth 32))))

/-- R202: ATI_MODE_SET. -/
def Obligations.AtiModeSet : Prop :=
  ∀ (s : State) (p : Nat) (ch : Fin 16), s.onHost p →
    encode (.atiModeSet ch) = BitVec.ofNat 32 (0x11000000 + 0x1000 * ch.val) ∧
    (s.phase = .unconfigured → exec (.atiModeSet ch) s = .next (s.onlyStatus p 6)) ∧
    (s.phase ≠ .unconfigured → 8 ≤ ch.val → ch.val ≤ 14 →
      exec (.atiModeSet ch) s = .next (s.onlyStatus p 1)) ∧
    (∀ c : Chan, s.phase ≠ .unconfigured → s.namesChannel ch c → 3 < s.din →
      exec (.atiModeSet ch) s = .next (s.onlyStatus p 1)) ∧
    (∀ c : Chan, s.phase ≠ .unconfigured → s.namesChannel ch c → s.din ≤ 3 →
      ∃ m : Memory,
        exec (.atiModeSet ch) s = .next { s.onlyStatus p 0 with img := m, stale := true } ∧
        ∀ a : Nat, m.read s.params a =
          if a = 24 + 14 * c.val + 2 then (s.byte a &&& 0xFC#8) ||| BitVec.ofNat 8 s.din
          else s.byte a)

/-- R204: ATI_BASE_SET. -/
def Obligations.AtiBaseSet : Prop :=
  ∀ (s : State) (p : Nat) (ch : Fin 16), s.onHost p →
    encode (.atiBaseSet ch) = BitVec.ofNat 32 (0x13000000 + 0x1000 * ch.val) ∧
    (s.phase = .unconfigured → exec (.atiBaseSet ch) s = .next (s.onlyStatus p 6)) ∧
    (s.phase ≠ .unconfigured → 8 ≤ ch.val → ch.val ≤ 14 →
      exec (.atiBaseSet ch) s = .next (s.onlyStatus p 1)) ∧
    (∀ c : Chan, s.phase ≠ .unconfigured → s.namesChannel ch c →
      s.din ∉ [75, 100, 150, 200] → exec (.atiBaseSet ch) s = .next (s.onlyStatus p 2)) ∧
    (∀ (c : Chan) (k : Fin 4), s.phase ≠ .unconfigured → s.namesChannel ch c →
      s.din = [75, 100, 150, 200].getD k.val 0 →
      ∃ m : Memory,
        exec (.atiBaseSet ch) s = .next { s.onlyStatus p 0 with img := m, stale := true } ∧
        ∀ a : Nat, m.read s.params a =
          if a = 24 + 14 * c.val + 5 then (s.byte a &&& 0x3F#8) ||| BitVec.ofNat 8 (64 * k.val)
          else s.byte a)

/-- R206: ATI_TARGET_SET. -/
def Obligations.AtiTargetSet : Prop :=
  ∀ (s : State) (p : Nat) (ch : Fin 16), s.onHost p →
    encode (.atiTargetSet ch) = BitVec.ofNat 32 (0x15000000 + 0x1000 * ch.val) ∧
    (s.phase = .unconfigured → exec (.atiTargetSet ch) s = .next (s.onlyStatus p 6)) ∧
    (s.phase ≠ .unconfigured → 8 ≤ ch.val → ch.val ≤ 14 →
      exec (.atiTargetSet ch) s = .next (s.onlyStatus p 1)) ∧
    (∀ c : Chan, s.phase ≠ .unconfigured → s.namesChannel ch c → 2016 < s.din →
      exec (.atiTargetSet ch) s = .next (s.onlyStatus p 1)) ∧
    (∀ c : Chan, s.phase ≠ .unconfigured → s.namesChannel ch c → s.din ≤ 2016 →
      ∃ m : Memory,
        exec (.atiTargetSet ch) s = .next { s.onlyStatus p 0 with img := m, stale := true } ∧
        ∀ a : Nat, m.read s.params a =
          if a = 24 + 14 * c.val + 5 then (s.byte a &&& 0xC0#8) ||| BitVec.ofNat 8 (s.din / 32)
          else s.byte a)

/-- R208: RX_EN_SET. -/
def Obligations.RxEnSet : Prop :=
  ∀ (s : State) (p : Nat) (ch : Fin 16), s.onHost p →
    encode (.rxEnSet ch) = BitVec.ofNat 32 (0x17000000 + 0x1000 * ch.val) ∧
    (s.phase = .unconfigured → exec (.rxEnSet ch) s = .next (s.onlyStatus p 6)) ∧
    (s.phase ≠ .unconfigured → 8 ≤ ch.val → ch.val ≤ 14 →
      exec (.rxEnSet ch) s = .next (s.onlyStatus p 1)) ∧
    (∀ c : Chan, s.phase ≠ .unconfigured → s.namesChannel ch c → 255 < s.din →
      exec (.rxEnSet ch) s = .next (s.onlyStatus p 1)) ∧
    (∀ c : Chan, s.phase ≠ .unconfigured → s.namesChannel ch c → s.din ≤ 255 →
      ∃ m : Memory,
        exec (.rxEnSet ch) s = .next { s.onlyStatus p 0 with img := m, stale := true } ∧
        ∀ a : Nat, m.read s.params a =
          if a = 24 + 14 * c.val then BitVec.ofNat 8 s.din else s.byte a)

/-- R209, R210: CH_SEL_GET and CH_SEL_SET; the latter writes no STALE. -/
def Obligations.ChannelSelector : Prop :=
  ∀ (s : State) (p : Nat), s.onHost p →
    encode .chSelGet = 0x20000000#32 ∧ encode .chSelSet = 0x21000000#32 ∧
    (s.phase = .unconfigured →
      exec .chSelGet s = .next (s.onlyStatus p 6) ∧ exec .chSelSet s = .next (s.onlyStatus p 6)) ∧
    (s.phase ≠ .unconfigured →
      exec .chSelGet s = .next
        (s.withHostRegs p ((s.port (.host p)).answered (BitVec.ofNat 32 s.chSel.val))) ∧
      (7 < s.din → exec .chSelSet s = .next (s.onlyStatus p 1)) ∧
      (∀ c : Chan, s.din = c.val →
        exec .chSelSet s = .next { s.onlyStatus p 0 with chSel := c }))

/-- R211, R212: HALL_EN_GET and HALL_EN_SET; the latter writes no image field and sets STALE. -/
def Obligations.HallEnable : Prop :=
  ∀ (s : State) (p : Nat), s.onHost p →
    encode .hallEnGet = 0x22000000#32 ∧ encode .hallEnSet = 0x23000000#32 ∧
    (s.phase = .unconfigured →
      exec .hallEnGet s = .next (s.onlyStatus p 6) ∧
      exec .hallEnSet s = .next (s.onlyStatus p 6)) ∧
    (s.phase ≠ .unconfigured →
      exec .hallEnGet s = .next
        (s.withHostRegs p ((s.port (.host p)).answered (if s.hallEn then 1 else 0))) ∧
      (1 < s.din → exec .hallEnSet s = .next (s.onlyStatus p 1)) ∧
      (s.din ≤ 1 → exec .hallEnSet s = .next
        { s.onlyStatus p 0 with hallEn := decide (s.din = 1), stale := true }))

/-- R213: COUNTS_READ: its checks in their order, then the little-endian value of the two bus bytes,
or CommunicationError. The bus record notes the read. -/
def Obligations.CountsRead : Prop :=
  ∀ (s : State) (p : Nat) (ch : Fin 16), s.onHost p →
    encode (.countsRead ch) = BitVec.ofNat 32 (0x26000000 + 0x1000 * ch.val) ∧
    (s.phase ≠ .armed → exec (.countsRead ch) s = .next (s.onlyStatus p 6)) ∧
    (s.phase = .armed → 8 ≤ ch.val → ch.val ≤ 14 →
      exec (.countsRead ch) s = .next (s.onlyStatus p 1)) ∧
    (∀ c : Chan, s.phase = .armed → s.namesChannel ch c →
      (s.hallEn = true ∨ s.stale = true → exec (.countsRead ch) s = .next (s.onlyStatus p 6)) ∧
      (s.hallEn = false → s.stale = false → s.gate ≠ .ready →
        exec (.countsRead ch) s = .next (s.onlyStatus p 7)) ∧
      (s.hallEn = false → s.stale = false → s.gate = .ready →
        (∀ b0 b1 : Byte, s.side.busr = some (b0, b1) →
          exec (.countsRead ch) s = .next
            { s.withHostRegs p ((s.port (.host p)).answered
                (BitVec.ofNat 32 (256 * b1.toNat + b0.toNat))) with
              bus := s.bus ++ [.readCounts s.params.countsBase[c] (some (b0, b1))] }) ∧
        (s.side.busr = none →
          exec (.countsRead ch) s = .next
            { s.onlyStatus p 3 with
              bus := s.bus ++ [.readCounts s.params.countsBase[c] none] })))

/-! ### Configuration -/

/-- 43_configuration.md R251: a pin list of at most 8 entries below 8 becomes the OR of its bits,
and decoding the mask gives back the set of its entries; any other list is OutOfRange. -/
def Obligations.PinListMask : Prop :=
  ∀ l : List Nat,
    (l.length ≤ 8 → (∀ q ∈ l, q < 8) →
      ∃ m : Byte, listToMask l = .ok m ∧ m = l.foldr (fun q acc => (1#8 <<< q) ||| acc) 0 ∧
        ∀ q : Nat, q < 8 → (m.getLsbD q = true ↔ q ∈ l)) ∧
    (8 < l.length ∨ (∃ q ∈ l, 8 ≤ q) → listToMask l = .error .outOfRange)

/-- R264: a record whose values are all legal (R254 to R258) is built and committed: OK, the built
image and tables, HALL_EN, HOLD_SPEC, STALE = 1 and PHASE = Configured, and nothing else changed. -/
def Obligations.LegalRecordIsCommitted : Prop :=
  ∀ (s : State) (p : Nat), s.onHost p → s.phase = .unconfigured →
    s.params.valid = true → legalCfg s.params s.side.cfg →
    ∃ b : Build, cfgBuild s.params s.img s.side.cfg = .ok b ∧
      exec .cfgBuild s = .next
        { s.onlyStatus p 0 with
          img := b.img, keycode := b.key, swcode := b.sw, slcode := s.side.cfg.slCode,
          hallEn := s.side.cfg.hall,
          holdSpec := s.params.otpHold && s.side.cfg.sys.touchHold.isSome,
          stale := true, phase := .configured }

/-- R262, R263, R264: a record with an illegal value commits nothing: STATUS is the status of the
first failing check in R262's order, DOUT is scope · 256 + idx of that check, and nothing else
changes. A record has a failing check exactly when it is not legal. -/
def Obligations.IllegalRecordCommitsNothing : Prop :=
  (∀ (P : Params) (cfg : Cfg), legalCfg P cfg ↔ firstFailure P cfg = none) ∧
  (∀ (s : State) (p : Nat) (k : RecordCheck), s.onHost p → s.phase = .unconfigured →
    firstFailure s.params s.side.cfg = some k →
    ∃ e : Byte,
      k.fails = some e ∧ (e = 1 ∨ e = 2) ∧
      (k.scope = 0xFF ∧ k.idx ≤ 21 ∨ k.scope ≤ 7 ∧ k.idx ≤ 55) ∧
      exec .cfgBuild s = .next
        (s.withHostRegs p
          { s.port (.host p) with dout := BitVec.ofNat 32 (256 * k.scope + k.idx), status := e }))

/-- R253 to R259, R261, R280, R283: the image of a build. The shared masks: a channel is active, and in the
redo mask, exactly when the record holds it; its RESEED, BLOCKING and slider bits are its flags; an
event kind is suppressed unless some channel gives it a code, and gestures unless some slider code is
given. The fields: a present system property (R254), engine, ATI or association property (R256,
R257), threshold or hysteresis (R258, the up variant winning) stands in its field as its value over
the field's divisor, and a pin list (R251, R255) as the OR of its bits; where the property is absent
the field holds what the image held; the touch-and-hold byte takes its default where R280 re-applies
it. A channel the record does not hold keeps its whole block, and TIMEOUT_2, ATI_COMP and every
reserved bit are kept (10_state.md R45, R255, R257). The output bits are forced: EVENT_MODE, REDO_ATI
and ACK_RESET are 1, and EVENT_MODE_LP is 1 exactly when some slider of the built image has channels
selected and no gesture code in the record, slider 1 only while its byte is not TOUCH_HOLD. -/
def Obligations.BuiltMasks : Prop :=
  ∀ (P : Params) (img : Memory) (cfg : Cfg) (b : Build), cfgBuild P img cfg = .ok b →
    (∀ c : Chan,
      b.img.bit P 2 c.val = cfg.ch[c].isSome ∧
      b.img.bit P 23 c.val = cfg.ch[c].isSome ∧
      b.img.bit P 4 c.val =
        (match cfg.ch[c] with | some h => !h.reseedDisable | none => img.bit P 4 c.val) ∧
      b.img.bit P 16 c.val = (match cfg.ch[c] with | some h => h.blocking | none => false) ∧
      b.img.bit P 18 c.val = (match cfg.ch[c] with | some h => h.slider0 | none => false) ∧
      (P.otpHold = false →
        b.img.bit P 19 c.val = (match cfg.ch[c] with | some h => h.slider1 | none => false))) ∧
    (∀ k : EventKind, b.img.bit P 5 k.bit = false ↔
      ∃ (c : Chan) (h : ChCfg) (e : Event), cfg.ch[c] = some h ∧ e.kind = k ∧
        (h.ev[e.id].key ≠ 0 ∨ h.ev[e.id].sw ≠ 0)) ∧
    (b.img.bit P 5 3 = false ↔ ∃ (i : Fin 2) (g : Fin 4), cfg.slCode[i][g] ≠ 0) ∧
    (∀ r ∈ ([(.filtLpLta, cfg.sys.filtLpLta, 1), (.filtLpCnt, cfg.sys.filtLpCnt, 1),
      (.filtNpLta, cfg.sys.filtNpLta, 1), (.filtNpCnt, cfg.sys.filtNpCnt, 1),
      (.rateNp, cfg.sys.rateNp, 1), (.rateLp, cfg.sys.rateLp, 1),
      (.rateUlp, cfg.sys.rateUlp, 16), (.timeoutPwr, cfg.sys.timeoutPwr, 512),
      (.timeoutLta, cfg.sys.timeoutLta, 512), (.timeoutTap, cfg.sys.timeoutTap, P.stepT),
      (.timeoutSwipe, cfg.sys.timeoutSwipe, P.stepT),
      (.threshSwipe, cfg.sys.threshSwipe, P.stepS), (.genPwrMode, cfg.sys.pwrMode, 1),
      (.genClkDiv, cfg.sys.clkDiv.map Bool.toNat, 1),
      (.maAtiBandDisable, cfg.sys.atiBandDisable.map Bool.toNat, 1),
      (.maAtiLpOnly, cfg.sys.atiLpOnly.map Bool.toNat, 1),
      (.maAtiBandTighten, cfg.sys.atiBandTighten.map Bool.toNat, 1),
      (.maFiltDisable, cfg.sys.filtDisable.map Bool.toNat, 1),
      (.maTxFreq, cfg.sys.txFreq, 1), (.maGlobalCap, cfg.sys.globalCap.map Bool.toNat, 1),
      (.mbReseedSel, cfg.sys.reseedSel, 1)] :
        List (SysField × Option Nat × Nat)),
      b.img.stored P (.sys r.1) 0 = builtValue r.2.1 r.2.2 (img.stored P (.sys r.1) 0)) ∧
    (P.otpHold = true → b.img.read P 19 =
      (match cfg.sys.touchHold with
        | some v => BitVec.ofNat 8 (v / 256)
        | none => if P.fwRev < P.fwHoldFixMin then P.touchHoldDefault else img.read P 19)) ∧
    (∀ (c : Chan) (h : ChCfg), cfg.ch[c] = some h →
      (∀ r ∈ ([(.eaMeasCap, h.measCap.map Bool.toNat, 1), (.localCapSize, h.localCap, 1),
        (.eaPolarity, h.polarity.map Bool.toNat, 1), (.eaSenseMode, h.senseMode, 1),
        (.ebSenseFreq, h.senseFreq, 1), (.eaBias, h.bias, 1), (.eaAtiMode, h.atiMode, 1),
        (.ebAtiBase, h.atiBase.map ([75, 100, 150, 200].idxOf ·), 1),
        (.ebAtiTarget, h.atiTarget, 32), (.assocSel, h.assocSelect, 1),
        (.assocWeight, h.assocWeight, 1),
        (.threshProx, h.ev[1].thresh.or h.ev[0].thresh, 1),
        (.threshTouch, h.ev[3].thresh.or h.ev[2].thresh, 1),
        (.threshDeep, h.ev[5].thresh.or h.ev[4].thresh, 1),
        (.hystTouch, h.ev[3].hyst.or h.ev[2].hyst, 1),
        (.hystDeep, h.ev[5].hyst.or h.ev[4].hyst, 1)] :
          List (ChanField × Option Nat × Nat)),
        b.img.stored P (.chan r.1) c = builtValue r.2.1 r.2.2 (img.stored P (.chan r.1) c)) ∧
      (∀ q : Nat, q < 8 →
        b.img.bit P (24 + 14 * c.val) q =
          (match h.rxPins with
            | some l => decide (q ∈ l) | none => img.bit P (24 + 14 * c.val) q) ∧
        b.img.bit P (24 + 14 * c.val + 1) q =
          (match h.txPins with
            | some l => decide (q ∈ l) | none => img.bit P (24 + 14 * c.val + 1) q))) ∧
    (∀ (c : Chan) (a : Nat), cfg.ch[c] = none → 24 + 14 * c.val ≤ a → a < 24 + 14 * c.val + 14 →
      b.img.read P a = img.read P a) ∧
    b.img.read P 10 = img.read P 10 ∧
    (∀ c : Chan, b.img.stored P (.chan .atiComp) c = img.stored P (.chan .atiComp) c) ∧
    (∀ a j : Nat, j < 8 → reservedBit a j = true → b.img.bit P a j = img.bit P a j) ∧
    b.img.bit P 1 5 = true ∧ b.img.bit P 1 2 = true ∧ b.img.bit P 1 0 = true ∧
    (b.img.bit P 1 4 = true ↔
      (b.img.read P 18 ≠ 0 ∧ ∀ g : Gesture, cfg.slCode[(0 : SliderIx)][g] = 0) ∨
        (P.otpHold = false ∧ b.img.read P 19 ≠ 0 ∧
          ∀ g : Gesture, cfg.slCode[(1 : SliderIx)][g] = 0))

/-- R258: the code tables of a build: each configured channel's codes, and 0 elsewhere; a switch
code stands only on channel 7. -/
def Obligations.BuiltCodeTables : Prop :=
  ∀ (P : Params) (img : Memory) (cfg : Cfg) (b : Build), cfgBuild P img cfg = .ok b →
    ∀ (e : Event) (c : Chan),
      b.key[e.id][c] = (match cfg.ch[c] with | some h => h.ev[e.id].key | none => 0) ∧
      b.sw[e.id][c] = (match cfg.ch[c] with | some h => h.ev[e.id].sw | none => 0) ∧
      (c ≠ 7 → b.sw[e.id][c] = 0)

/-- R280, with R283 and 44_event_classifier.md R322: what the forcing of a full-image write does to
every bit of the image. EVENT_MODE_LP is 1 exactly when some slider is in Raw mode: channels selected
and no gesture code, slider 1 only while its byte is not TOUCH_HOLD. -/
def Obligations.ForcedImage : Prop :=
  ∀ (P : Params) (codes : SliderCodes) (j : Memory) (redo hs : Bool) (a k : Nat), k < 8 →
    (forceImage P codes j redo hs).bit P a k =
      if a = 1 ∧ k = 5 then true
      else if a = 1 ∧ k = 4 then
        decide ((j.read P 18 ≠ 0 ∧ ∀ g : Gesture, codes[(0 : SliderIx)][g] = 0) ∨
          (P.otpHold = false ∧ j.read P 19 ≠ 0 ∧ ∀ g : Gesture, codes[(1 : SliderIx)][g] = 0))
      else if a = 1 ∧ k = 2 then redo
      else if a = 1 ∧ k = 0 then true
      else if a = 23 then j.bit P 2 k
      else if a = 19 ∧ P.otpHold = true ∧ hs = false ∧ P.fwRev < P.fwHoldFixMin then
        P.touchHoldDefault.getLsbD k
      else j.bit P a k

/-- R281: forceImage is idempotent. -/
def Obligations.ForcingIsIdempotent : Prop :=
  ∀ (P : Params) (codes : SliderCodes) (j : Memory) (redo hs : Bool) (a : Nat),
    (forceImage P codes (forceImage P codes j redo hs) redo hs).read P a =
      (forceImage P codes j redo hs).read P a

/-- R285 (with R281, R282): IMG_INIT in every phase. On Ok the 136 forced bytes were written, IMG
holds them, STALE is 0, GATE is Calibrating and PHASE is Armed; on Err nothing but STATUS changes. -/
def Obligations.ImgInit : Prop :=
  ∀ (s : State) (p : Nat), s.onHost p →
    encode .imgInit = 0x31000000#32 ∧
    (s.phase = .unconfigured → exec .imgInit s = .next (s.onlyStatus p 6)) ∧
    (s.phase = .armed → exec .imgInit s = .next (s.onlyStatus p 8)) ∧
    (s.phase = .configured → s.side.busw = .ok →
      exec .imgInit s = .next
        { s.onlyStatus p 0 with
          img := forceImage s.params s.slcode s.img true s.holdSpec, stale := false,
          gate := .calibrating, phase := .armed,
          bus := s.bus ++ [.writeImage s.params.imgBase
            ((forceImage s.params s.slcode s.img true s.holdSpec).bytes s.params) .ok] }) ∧
    (s.phase = .configured → s.side.busw = .err →
      exec .imgInit s = .next
        { s.onlyStatus p 3 with
          bus := s.bus ++ [.writeImage s.params.imgBase
            ((forceImage s.params s.slcode s.img true s.holdSpec).bytes s.params) .err] })

/-! ### The classifier -/

/-- 44_event_classifier.md R324 (with R330, R335, R343): a clean snapshot while Armed. The reports of
gestures, raw sliders and keypad go out in that order, GATE is released, DOUT is 0, and nothing else
of the block changes. The gesture reports are, for each slider in Key mode in order, every mapped code at
its bit's level and then, if a momentary gesture fired, a release of every mapped momentary code; the
raw reports are, for each slider in Raw mode in order, the touch flag, which is 1 when a selected
channel is touched, and the coordinate only then. -/
def Obligations.CleanSnapshotDecodes : Prop :=
  ∀ (s : State) (sn : Snap), s.onIrq → s.phase = .armed → s.side.snap = some sn →
    sn.sys.getLsbD 15 = false → sn.sys.getLsbD 10 = false →
    exec .snapDecode s = .next
      { s with
        irqDout := 0, irqStatus := 0,
        gate := if s.gate = .calibrating then .ready else s.gate,
        evt := s.evt ++ (s.gestureReports sn ++ s.rawReports sn ++ s.keypadReports sn),
        bus := s.bus ++ [.readSnap s.params.snapBase (some sn)] } ∧
    s.gestureReports sn = ([0, 1] : List SliderIx).flatMap (fun i =>
      if s.hasSlider i ∧ s.hasGestureCode i then
        (([0, 1, 2, 3] : List Gesture).filter (fun g => s.slcode[i][g] ≠ 0)).map
          (fun g => .key (if i = 0 then .slider0 else .slider1) s.slcode[i][g]
            (sn.gesture.getLsbD (4 * i.val + g.val))) ++
        (if ∃ g ∈ ([0, 2, 3] : List Gesture), sn.gesture.getLsbD (4 * i.val + g.val) = true then
          (([0, 2, 3] : List Gesture).filter (fun g => s.slcode[i][g] ≠ 0)).map
            (fun g => .key (if i = 0 then .slider0 else .slider1) s.slcode[i][g] false)
        else [])
      else []) ∧
    s.rawReports sn = ([0, 1] : List SliderIx).flatMap (fun i =>
      if s.hasSlider i ∧ ¬s.hasGestureCode i then
        if ∃ c : Chan, (sn.states[2].getLsbD c.val && (s.byte (18 + i.val)).getLsbD c.val) = true then
          [.touch (if i = 0 then .slider0 else .slider1) true,
           .abs (if i = 0 then .slider0 else .slider1) sn.pos[i]]
        else [.touch (if i = 0 then .slider0 else .slider1) false]
      else [])

/-- R325: a snapshot with RESET = 1 while Armed: exactly one full-image rewrite, no report, GATE
unchanged; DOUT is 1 on Ok, and RecoveryFailed with nothing changed on Err. ATI_BUSY is not looked
at. -/
def Obligations.ResetSnapshotRecovers : Prop :=
  ∀ (s : State) (sn : Snap), s.onIrq → s.phase = .armed → s.side.snap = some sn →
    sn.sys.getLsbD 15 = true →
    (s.side.busw = .ok →
      exec .snapDecode s = .next
        { s with
          irqDout := 1, irqStatus := 0,
          img := forceImage s.params s.slcode s.img s.params.redoOnRecovery s.holdSpec,
          stale := if s.params.redoOnRecovery then false else s.stale,
          bus := s.bus ++ [.readSnap s.params.snapBase (some sn), .writeImage s.params.imgBase
            ((forceImage s.params s.slcode s.img s.params.redoOnRecovery s.holdSpec).bytes
              s.params) .ok] }) ∧
    (s.side.busw = .err →
      exec .snapDecode s = .next
        { s with
          irqStatus := 4,
          bus := s.bus ++ [.readSnap s.params.snapBase (some sn), .writeImage s.params.imgBase
            ((forceImage s.params s.slcode s.img s.params.redoOnRecovery s.holdSpec).bytes
              s.params) .err] })

/-- R326, R344: a snapshot with calibration in progress changes STATUS and DOUT (to 2) alone; a
failed snapshot read is CommunicationError and changes STATUS alone. No report, GATE not released. -/
def Obligations.BusyAndFailedSnapshots : Prop :=
  ∀ s : State, s.onIrq → s.phase = .armed →
    (∀ sn : Snap, s.side.snap = some sn → sn.sys.getLsbD 15 = false →
      sn.sys.getLsbD 10 = true →
      exec .snapDecode s = .next
        { s with
          irqDout := 2, irqStatus := 0,
          bus := s.bus ++ [.readSnap s.params.snapBase (some sn)] }) ∧
    (s.side.snap = none →
      exec .snapDecode s = .next
        { s with
          irqStatus := 3, bus := s.bus ++ [.readSnap s.params.snapBase none] })

/-- R340, R341 (with R320, R323): the keypad's reports, as a list: for the events 0 to 5 in order, each
with its state mask and its variant, and for the channels 0 to 7 in order within each, the one report
at the level of its lane or none. While HALL_EN = 1 channel 6 reports nothing and channel 7 its switch
code alone; otherwise a channel reports its key code; code 0 reports nothing. So the reports are
exactly the key reports of nonzero key codes, but for the Hall pair while HALL_EN = 1, and channel
7's nonzero switch codes while HALL_EN = 1. -/
def Obligations.KeypadReports : Prop :=
  (∀ (s : State) (sn : Snap),
    s.keypadReports sn =
      ([(0, 0, false), (1, 0, true), (2, 2, false), (3, 2, true), (4, 3, false), (5, 3, true)] :
          List (Fin 6 × Fin 4 × Bool)).flatMap (fun e =>
        ([0, 1, 2, 3, 4, 5, 6, 7] : List Chan).flatMap (fun c =>
          let v := sn.states[e.2.1].getLsbD c.val &&
            (if e.2.2 then sn.states[(1 : Fin 4)].getLsbD c.val
              else !sn.states[(1 : Fin 4)].getLsbD c.val)
          if s.hallEn = true ∧ c = 6 then []
          else if s.hallEn = true ∧ c = 7 then
            if s.swcode[e.1][c] = 0 then [] else [.switch s.swcode[e.1][c] v]
          else if s.keycode[e.1][c] = 0 then [] else [.key .keypad s.keycode[e.1][c] v]))) ∧
  (∀ (s : State) (sn : Snap) (r : Report),
    r ∈ s.keypadReports sn ↔
      ∃ (e : Event) (c : Chan) (v : Bool),
        v = (sn.states[e.kind.stateIndex].getLsbD c.val &&
              (if e.up then sn.states[(1 : Fin 4)].getLsbD c.val
                else !sn.states[(1 : Fin 4)].getLsbD c.val)) ∧
        ((s.keycode[e.id][c] ≠ 0 ∧ ¬(s.hallEn = true ∧ 6 ≤ c.val) ∧
            r = .key .keypad s.keycode[e.id][c] v) ∨
          (s.swcode[e.id][c] ≠ 0 ∧ s.hallEn = true ∧ c = 7 ∧ r = .switch s.swcode[e.id][c] v)))

/-- R342: for one kind and channel the down and up variants are never both at 1, and both are at 0
when the state bit is 0. -/
def Obligations.UpAndDownExclude : Prop :=
  ∀ (sn : Snap) (d u : Event) (c : Chan), d.kind = u.kind → d.up = false → u.up = true →
    ((sn.eventMask d).getLsbD c.val && (sn.eventMask u).getLsbD c.val) = false ∧
    ((sn.eventMask d).getLsbD c.val || (sn.eventMask u).getLsbD c.val) =
      sn.states[d.kind.stateIndex].getLsbD c.val

/-- R331 (with R322, R330): in one decode of a slider in Key mode, a code mapped to a momentary
gesture ends at 0 when any momentary gesture fired, and at its own bit when it is no other gesture's
code and none fired; a hold code that is no other gesture's ends at its bit. "Ends" is the last
gesture report of the slider's device and the code. A slider in another mode sends no gesture
report. -/
def Obligations.GestureCodesEnd : Prop :=
  (∀ (s : State) (sn : Snap) (i : SliderIx) (g : Gesture), s.hasSlider i → s.slcode[i][g] ≠ 0 →
    let fired := sn.gestureBit i 0 || sn.gestureBit i 2 || sn.gestureBit i 3
    let final := ((s.gestureReports sn).filter
      (fun r => match r with
        | .key dev code _ => dev == sliderDev i && code == s.slcode[i][g]
        | .switch _ _ => false
        | .touch _ _ => false
        | .abs _ _ => false)).getLast?
    (g ≠ 1 → fired = true → final = some (.key (sliderDev i) s.slcode[i][g] false)) ∧
    ((∀ g' : Gesture, g' ≠ g → s.slcode[i][g'] ≠ s.slcode[i][g]) →
      (g = 1 ∨ fired = false) →
      final = some (.key (sliderDev i) s.slcode[i][g] (sn.gestureBit i g)))) ∧
  (∀ (s : State) (sn : Snap) (i : SliderIx), ¬(s.hasSlider i ∧ s.hasGestureCode i) →
    ∀ (code : Code) (v : Bool), .key (sliderDev i) code v ∉ s.gestureReports sn)

/-- R346 (with R322): SLIDER_MODE_GET in every phase and for every slider index. -/
def Obligations.SliderModeGet : Prop :=
  ∀ (s : State) (p : Nat) (ch : Fin 16), s.onHost p →
    encode (.sliderModeGet ch) = BitVec.ofNat 32 (0x41000000 + 0x1000 * ch.val) ∧
    (s.phase = .unconfigured → exec (.sliderModeGet ch) s = .next (s.onlyStatus p 6)) ∧
    (s.phase ≠ .unconfigured → 2 ≤ ch.val →
      exec (.sliderModeGet ch) s = .next (s.onlyStatus p 1)) ∧
    (∀ i : Fin 2, s.phase ≠ .unconfigured → ch.val = i.val →
      exec (.sliderModeGet ch) s = .next (s.withHostRegs p ((s.port (.host p)).answered
        (if (i = 1 ∧ s.params.otpHold = true) ∨ s.byte (18 + i.val) = 0 then 0
          else if ∃ g : Fin 4, s.slcode[i][g] ≠ 0 then 1 else 2))))

/-! ### Calibration -/

/-- 45_calibration_sync.md R381: CAL_WAIT in every phase. While GATE is not Ready the port waits and
its STATUS is not written (D56; notes/assumptions/6.md). -/
def Obligations.CalWait : Prop :=
  ∀ (s : State) (p : Nat), s.onHost p →
    encode .calWait = 0x50000000#32 ∧
    (s.phase ≠ .armed → exec .calWait s = .next (s.onlyStatus p 6)) ∧
    (s.phase = .armed → s.gate = .ready → exec .calWait s = .next (s.onlyStatus p 0)) ∧
    (s.phase = .armed → s.gate ≠ .ready →
      exec .calWait s = .next (s.withHostRegs p { s.port (.host p) with pending := true }))

/-- R384 (with R281): RECAL_TRIGGER in every phase and for every DIN. On Err GATE stays
Calibrating. On Ok the port waits and STATUS is not written until the wait ends (R381, R411; for this
command by the model's reading, notes/assumptions/6.md). -/
def Obligations.RecalTrigger : Prop :=
  ∀ (s : State) (p : Nat), s.onHost p →
    encode .recalTrigger = 0x25000000#32 ∧
    (s.phase ≠ .armed → exec .recalTrigger s = .next (s.onlyStatus p 6)) ∧
    (s.phase = .armed → s.din = 0 → exec .recalTrigger s = .next (s.onlyStatus p 0)) ∧
    (s.phase = .armed → s.din ≠ 0 → s.side.busw = .ok →
      exec .recalTrigger s = .next
        { s.withHostRegs p { s.port (.host p) with pending := true } with
          gate := .calibrating, stale := false,
          img := forceImage s.params s.slcode s.img true s.holdSpec,
          bus := s.bus ++ [.writeImage s.params.imgBase
            ((forceImage s.params s.slcode s.img true s.holdSpec).bytes s.params) .ok] }) ∧
    (s.phase = .armed → s.din ≠ 0 → s.side.busw = .err →
      exec .recalTrigger s = .next
        { s.onlyStatus p 3 with
          gate := .calibrating,
          bus := s.bus ++ [.writeImage s.params.imgBase
            ((forceImage s.params s.slcode s.img true s.holdSpec).bytes s.params) .err] })

/-- R385: RECAL_STATUS reads 1 exactly when STALE = 0 and GATE = Ready. -/
def Obligations.RecalStatus : Prop :=
  ∀ (s : State) (p : Nat), s.onHost p →
    encode .recalStatus = 0x24000000#32 ∧
    (s.phase = .unconfigured → exec .recalStatus s = .next (s.onlyStatus p 6)) ∧
    (s.phase ≠ .unconfigured →
      exec .recalStatus s = .next (s.withHostRegs p ((s.port (.host p)).answered
        (if s.stale = false ∧ s.gate = .ready then 1 else 0))))

/-! ### The sink's view -/

/-- 44_event_classifier.md R345: the sink's view. Every level starts at 0 and no device has a
coordinate. A report that carries the value the sink holds does not pass, one that carries another
value does, and the sink then holds the report's value and keeps every other; the same for a device's
coordinate. A Key, Switch or Touch report carries a level and an Abs report a coordinate (a Touch
report's key is its device, notes/assumptions/12.md). The view of a list is the reports that pass, in
order. -/
def Obligations.SinkDropsRepeats : Prop :=
  ((∀ l : Level, ({} : Sink).level l = false) ∧ ∀ d : Dev, ({} : Sink).lastAbs.lookup d = none) ∧
  (∀ (dev : Dev) (code : Code) (v : Bool) (p : Byte),
    Report.content (.key dev code v) = .inl (.key dev code, v) ∧
    Report.content (.switch code v) = .inl (.switch code, v) ∧
    Report.content (.touch dev v) = .inl (.touch dev, v) ∧
    Report.content (.abs dev p) = .inr (dev, p)) ∧
  (∀ (k : Sink) (r : Report) (l : Level) (v : Bool), r.content = .inl (l, v) →
    (k.passes r = true ↔ v ≠ k.level l) ∧
    (∀ l' : Level, (k.take r).level l' = if l' = l then v else k.level l') ∧
    ∀ d : Dev, (k.take r).lastAbs.lookup d = k.lastAbs.lookup d) ∧
  (∀ (k : Sink) (r : Report) (d : Dev) (p : Byte), r.content = .inr (d, p) →
    (k.passes r = true ↔ k.lastAbs.lookup d ≠ some p) ∧
    (∀ d' : Dev, (k.take r).lastAbs.lookup d' = if d' = d then some p else k.lastAbs.lookup d') ∧
    ∀ l : Level, (k.take r).level l = k.level l) ∧
  (∀ k : Sink, k.view [] = []) ∧
  (∀ (k : Sink) (r : Report) (rest : List Report),
    k.view (r :: rest) = (if k.passes r then [r] else []) ++ (k.take r).view rest)
end

