-- ==== Sys2Proof/Laws/Memory.lean ====
section
/-! SUPPORT. The laws of the image memory: read after write, and that every operation keeps the
canonical form; then the containers and their bit fields. -/

namespace Sys2Proof.Machine

/-! ### Read after write -/

theorem Memory.read_erase (P : Params) (m : Memory) (a b : Nat) :
    (m.erase a).read P b = if b = a then P.initByte b else m.read P b := by
  induction m with
  | nil => simp [Memory.erase, Memory.read]
  | cons c rest ih =>
    obtain ⟨k, v⟩ := c
    by_cases h : a = k
    · subst h
      rw [Memory.erase, if_pos rfl, ih]
      by_cases hb : b = a <;> simp [Memory.read, hb]
    · by_cases hb : b = k
      · subst hb
        simp [Memory.erase, Memory.read, h, Ne.symm h]
      · simp [Memory.erase, Memory.read, h, hb, ih]

theorem Memory.read_insertCell (P : Params) (m : Memory) (a : Nat) (v : Byte) (b : Nat)
    (hm : ∀ c ∈ m, c.1 ≠ a) :
    (m.insertCell a v).read P b = if b = a then v else m.read P b := by
  induction m with
  | nil => simp [Memory.insertCell, Memory.read]
  | cons c rest ih =>
    obtain ⟨k, w⟩ := c
    have hk : k ≠ a := hm (k, w) (by simp)
    have ih' := ih (fun c hc => hm c (by simp [hc]))
    by_cases h : a < k
    · simp [Memory.insertCell, Memory.read, h]
    · simp only [Memory.insertCell, h, if_false, Memory.read, ih']
      by_cases hb : b = k
      · subst hb; simp [hk]
      · simp [hb]

theorem Memory.erase_keys (m : Memory) (a : Nat) : ∀ c ∈ m.erase a, c.1 ≠ a := by
  induction m with
  | nil => simp [Memory.erase]
  | cons c rest ih =>
    obtain ⟨k, v⟩ := c
    by_cases h : a = k
    · rw [Memory.erase, if_pos h]
      exact ih
    · simp only [Memory.erase, h, if_false, List.mem_cons, forall_eq_or_imp]
      exact ⟨fun hh => h hh.symm, ih⟩

/-- A byte reads back as written, and a write leaves every other byte alone (00_scope.md R13). -/
theorem Memory.read_write (P : Params) (m : Memory) (a : Nat) (v : Byte) (b : Nat) (ha : a < 136) :
    (m.write P a v).read P b = if b = a then v else m.read P b := by
  unfold Memory.write
  rw [if_pos ha]
  by_cases hv : v = P.initByte a
  · rw [if_pos hv, Memory.read_erase]
    by_cases hb : b = a <;> simp [hb, hv]
  · rw [if_neg hv, Memory.read_insertCell _ _ _ _ _ (Memory.erase_keys m a), Memory.read_erase]
    by_cases hb : b = a <;> simp [hb]

theorem Memory.read_write_ne (P : Params) (m : Memory) (a : Nat) (v : Byte) (b : Nat) (h : b ≠ a) :
    (m.write P a v).read P b = m.read P b := by
  by_cases ha : a < 136
  · rw [Memory.read_write P m a v b ha, if_neg h]
  · rw [Memory.write, if_neg ha]

/-! ### The canonical form -/

theorem Memory.wf_cons (P : Params) (a : Nat) (v : Byte) (rest : Memory) :
    Memory.wf P ((a, v) :: rest) = true ↔
      a < 136 ∧ v ≠ P.initByte a ∧ (∀ c ∈ rest, a < c.1) ∧ rest.wf P = true := by
  simp [Memory.wf, and_assoc]

theorem Memory.mem_erase (m : Memory) (a : Nat) : ∀ c ∈ m.erase a, c ∈ m := by
  induction m with
  | nil => simp [Memory.erase]
  | cons c rest ih =>
    obtain ⟨k, v⟩ := c
    intro x hx
    by_cases h : a = k
    · rw [Memory.erase, if_pos h] at hx
      exact List.mem_cons_of_mem _ (ih x hx)
    · rw [Memory.erase, if_neg h] at hx
      rcases List.mem_cons.mp hx with hx | hx
      · exact hx ▸ List.mem_cons_self
      · exact List.mem_cons_of_mem _ (ih x hx)

theorem Memory.wf_erase (P : Params) (m : Memory) (a : Nat) (h : m.wf P = true) :
    (m.erase a).wf P = true := by
  induction m with
  | nil => exact h
  | cons c rest ih =>
    obtain ⟨k, v⟩ := c
    obtain ⟨h1, h2, h3, h4⟩ := (Memory.wf_cons P k v rest).mp h
    by_cases hk : a = k
    · rw [Memory.erase, if_pos hk]
      exact ih h4
    · rw [Memory.erase, if_neg hk]
      exact (Memory.wf_cons P k v _).mpr
        ⟨h1, h2, fun c hc => h3 c (Memory.mem_erase rest a c hc), ih h4⟩

theorem Memory.mem_insertCell (m : Memory) (a : Nat) (v : Byte) :
    ∀ c ∈ m.insertCell a v, c = (a, v) ∨ c ∈ m := by
  induction m with
  | nil => simp [Memory.insertCell]
  | cons c rest ih =>
    obtain ⟨k, w⟩ := c
    intro x hx
    by_cases h : a < k
    · rw [Memory.insertCell, if_pos h] at hx
      simpa using hx
    · rw [Memory.insertCell, if_neg h] at hx
      rcases List.mem_cons.mp hx with hx | hx
      · exact .inr (hx ▸ List.mem_cons_self)
      · rcases ih x hx with hx | hx
        · exact .inl hx
        · exact .inr (List.mem_cons_of_mem _ hx)

theorem Memory.wf_insertCell (P : Params) (m : Memory) (a : Nat) (v : Byte) (h : m.wf P = true)
    (ha : a < 136) (hv : v ≠ P.initByte a) (hm : ∀ c ∈ m, c.1 ≠ a) :
    (m.insertCell a v).wf P = true := by
  induction m with
  | nil => simp [Memory.insertCell, Memory.wf, ha, hv]
  | cons c rest ih =>
    obtain ⟨k, w⟩ := c
    obtain ⟨h1, h2, h3, h4⟩ := (Memory.wf_cons P k w rest).mp h
    have hk : k ≠ a := hm (k, w) (by simp)
    by_cases hlt : a < k
    · rw [Memory.insertCell, if_pos hlt]
      refine (Memory.wf_cons P a v _).mpr ⟨ha, hv, ?_, h⟩
      intro c hc
      rcases List.mem_cons.mp hc with hc | hc
      · subst hc; exact hlt
      · exact Nat.lt_trans hlt (h3 c hc)
    · rw [Memory.insertCell, if_neg hlt]
      refine (Memory.wf_cons P k w _).mpr
        ⟨h1, h2, ?_, ih h4 (fun c hc => hm c (by simp [hc]))⟩
      intro c hc
      rcases Memory.mem_insertCell rest a v c hc with hc | hc
      · subst hc
        exact Nat.lt_of_le_of_ne (Nat.le_of_not_lt hlt) hk
      · exact h3 c hc

/-- A store keeps the canonical form. -/
theorem Memory.wf_write (P : Params) (m : Memory) (a : Nat) (v : Byte) (h : m.wf P = true) :
    (m.write P a v).wf P = true := by
  unfold Memory.write
  split
  · split
    · exact Memory.wf_erase P m a h
    · exact Memory.wf_insertCell P _ a v (Memory.wf_erase P m a h) ‹_› ‹_› (Memory.erase_keys m a)
  · exact h

/-- A container store keeps the canonical form. -/
theorem Memory.wf_writeContainer (P : Params) (m : Memory) (off : Nat) (w : Width) (v : Half)
    (h : m.wf P = true) : (m.writeContainer P off w v).wf P = true := by
  cases w with
  | byte => exact Memory.wf_write P m off _ h
  | word => exact Memory.wf_write P _ _ _ (Memory.wf_write P m off _ h)

/-! ### Equal readings are equal memories -/

theorem Memory.read_eq_of_mem (P : Params) (m : Memory) (h : m.wf P = true) (c : Host.Cell)
    (hc : c ∈ m) : m.read P c.1 = c.2 := by
  induction m with
  | nil => simp at hc
  | cons d rest ih =>
    obtain ⟨k, v⟩ := d
    obtain ⟨-, -, h3, h4⟩ := (Memory.wf_cons P k v rest).mp h
    rcases List.mem_cons.mp hc with hc | hc
    · subst hc; simp [Memory.read]
    · have : c.1 ≠ k := Nat.ne_of_gt (h3 c hc)
      rw [Memory.read, if_neg this, ih h4 hc]

theorem Memory.read_below (P : Params) (m : Memory) (a : Nat) (h : ∀ c ∈ m, a < c.1) :
    m.read P a = P.initByte a := by
  induction m with
  | nil => rfl
  | cons d rest ih =>
    obtain ⟨k, v⟩ := d
    have hk : a ≠ k := Nat.ne_of_lt (h (k, v) (by simp))
    rw [Memory.read, if_neg hk, ih (fun c hc => h c (by simp [hc]))]

/-- Two canonical memories that read alike are equal: the form is canonical. -/
theorem Memory.ext_read (P : Params) (m n : Memory) (hm : m.wf P = true) (hn : n.wf P = true)
    (h : ∀ a, m.read P a = n.read P a) : m = n := by
  induction m generalizing n with
  | nil =>
    cases n with
    | nil => rfl
    | cons d rest =>
      obtain ⟨k, v⟩ := d
      obtain ⟨-, h2, -, -⟩ := (Memory.wf_cons P k v rest).mp hn
      exact absurd (by simpa [Memory.read] using (h k).symm) h2
  | cons c mrest ih =>
    obtain ⟨j, u⟩ := c
    obtain ⟨hj1, hj2, hj3, hj4⟩ := (Memory.wf_cons P j u mrest).mp hm
    cases n with
    | nil => exact absurd (by simpa [Memory.read] using h j) hj2
    | cons d nrest =>
      obtain ⟨k, v⟩ := d
      obtain ⟨hk1, hk2, hk3, hk4⟩ := (Memory.wf_cons P k v nrest).mp hn
      have hjk : j = k := by
        rcases Nat.lt_trichotomy j k with hlt | heq | hgt
        · have hr := h j
          rw [Memory.read, if_pos rfl, Memory.read_below P ((k, v) :: nrest) j] at hr
          · exact absurd hr hj2
          · intro c hc
            rcases List.mem_cons.mp hc with hc | hc
            · subst hc; exact hlt
            · exact Nat.lt_trans hlt (hk3 c hc)
        · exact heq
        · have hr := h k
          rw [Memory.read_below P ((j, u) :: mrest) k, Memory.read, if_pos rfl] at hr
          · exact absurd hr.symm hk2
          · intro c hc
            rcases List.mem_cons.mp hc with hc | hc
            · subst hc; exact hgt
            · exact Nat.lt_trans hgt (hj3 c hc)
      subst hjk
      have huv : u = v := by simpa [Memory.read] using h j
      subst huv
      have hrest : mrest = nrest := by
        refine ih nrest hj4 hk4 fun a => ?_
        by_cases ha : a = j
        · subst ha
          rw [Memory.read_below P mrest a hj3, Memory.read_below P nrest a hk3]
        · simpa [Memory.read, ha] using h a
      rw [hrest]

/-! ### Containers -/

/-- What a container store does to every byte (20_memory.md R80). -/
theorem Memory.read_writeContainer_byte (P : Params) (m : Memory) (off : Nat) (v : Half) (a : Nat)
    (h : off < 136) :
    (m.writeContainer P off .byte v).read P a =
      if a = off then v.setWidth 8 else m.read P a :=
  Memory.read_write P m off _ a h

theorem Memory.read_writeContainer_word (P : Params) (m : Memory) (off : Nat) (v : Half) (a : Nat)
    (h : off + 1 < 136) :
    (m.writeContainer P off .word v).read P a =
      if a = off + 1 then v.setWidth 8 else if a = off then v.extractLsb' 8 8 else m.read P a := by
  simp only [Memory.writeContainer]
  rw [Memory.read_write P _ _ _ _ h, Memory.read_write P _ _ _ _ (Nat.lt_of_succ_lt h)]

/-- A byte outside a container is left alone by a store to it. -/
theorem Memory.read_writeContainer_other (P : Params) (m : Memory) (off : Nat) (w : Width) (v : Half)
    (a : Nat) (h : a < off ∨ off + w.bytes ≤ a) :
    (m.writeContainer P off w v).read P a = m.read P a := by
  cases w with
  | byte =>
    exact Memory.read_write_ne P m off _ a (by simp only [Width.bytes] at h; omega)
  | word =>
    simp only [Width.bytes] at h
    rw [Memory.writeContainer, Memory.read_write_ne P _ _ _ _ (by omega),
      Memory.read_write_ne P _ _ _ _ (by omega)]

/-- A word reads back as written. -/
theorem Memory.readContainer_writeContainer_word (P : Params) (m : Memory) (off : Nat) (v : Half)
    (h : off + 1 < 136) : (m.writeContainer P off .word v).readContainer P off .word = v := by
  simp only [Memory.readContainer, Memory.read_writeContainer_word P m off v _ h]
  simp only [if_true, if_neg (show ¬(off = off + 1) by omega)]
  ext i hi
  simp only [← BitVec.getLsbD_eq_getElem, BitVec.getLsbD_append, BitVec.getLsbD_setWidth,
    BitVec.getLsbD_extractLsb']
  by_cases h8 : i < 8
  · simp [h8]
  · have e : 8 + (i - 8) = i := by omega
    have h' : i - 8 < 8 := by omega
    simp [h8, h', e]

/-- A byte container reads back the low eight bits written. -/
theorem Memory.readContainer_writeContainer_byte (P : Params) (m : Memory) (off : Nat) (v : Half)
    (h : off < 136) :
    (m.writeContainer P off .byte v).readContainer P off .byte = (v.setWidth 8).setWidth 16 := by
  simp [Memory.readContainer, Memory.read_writeContainer_byte P m off v _ h]

/-! ### Bit fields -/

theorem getLsbD_lowMask (w i : Nat) : (lowMask w).getLsbD i = (decide (i < 16) && decide (i < w)) := by
  simp [lowMask, BitVec.getLsbD_ofNat, Nat.testBit_two_pow_sub_one]

/-- Bit i of an extracted field is bit lo + i of the container (41_field_codec.md R152). -/
theorem getLsbD_extractBits (v : Half) (hi lo i : Nat) :
    (extractBits v hi lo).getLsbD i = (v.getLsbD (lo + i) && decide (i < hi - lo + 1)) := by
  simp only [extractBits, BitVec.getLsbD_and, BitVec.getLsbD_ushiftRight, getLsbD_lowMask]
  by_cases h : i < 16
  · simp [h]
  · rw [BitVec.getLsbD_of_ge v (lo + i) (by omega)]
    simp

/-- Insert writes the field's bits and keeps every other bit (R153). -/
theorem getLsbD_insertBits (v : Half) (hi lo : Nat) (r : Half) (i : Nat) (hlo : lo ≤ hi)
    (h : i < 16) :
    (insertBits v hi lo r).getLsbD i =
      if lo ≤ i ∧ i ≤ hi then r.getLsbD (i - lo) else v.getLsbD i := by
  simp only [insertBits, BitVec.getLsbD_or, BitVec.getLsbD_and, BitVec.getLsbD_not,
    BitVec.getLsbD_shiftLeft, getLsbD_lowMask]
  by_cases h1 : i < lo
  · have h2 : ¬(lo ≤ i ∧ i ≤ hi) := by omega
    simp [h, h1, h2]
  · by_cases h3 : i ≤ hi
    · have h2 : lo ≤ i ∧ i ≤ hi := by omega
      have h4 : i - lo < hi - lo + 1 := by omega
      have h5 : i - lo < 16 := by omega
      simp [h, h1, h2, h4, h5]
    · have h2 : ¬(lo ≤ i ∧ i ≤ hi) := by omega
      have h4 : ¬(i - lo < hi - lo + 1) := by omega
      simp [h, h1, h2, h4]

/-- What was inserted is what is extracted, within the field's width (R153). -/
theorem extractBits_insertBits (v : Half) (hi lo : Nat) (r : Half) (hlo : lo ≤ hi) (hhi : hi < 16)
    (hr : r.toNat < 2 ^ (hi - lo + 1)) : extractBits (insertBits v hi lo r) hi lo = r := by
  ext i h
  rw [← BitVec.getLsbD_eq_getElem, ← BitVec.getLsbD_eq_getElem, getLsbD_extractBits]
  by_cases h1 : i < hi - lo + 1
  · rw [getLsbD_insertBits v hi lo r (lo + i) hlo (by omega), if_pos (by omega)]
    simp [h1]
  · have : r.getLsbD i = false := by
      rw [BitVec.getLsbD]
      exact Nat.testBit_lt_two_pow (Nat.lt_of_lt_of_le hr (Nat.pow_le_pow_right (by omega) (by omega)))
    simp [h1, this]

/-- Inserting what was extracted changes nothing. -/
theorem insertBits_extractBits (v : Half) (hi lo : Nat) (hlo : lo ≤ hi) :
    insertBits v hi lo (extractBits v hi lo) = v := by
  ext i h
  rw [← BitVec.getLsbD_eq_getElem, ← BitVec.getLsbD_eq_getElem, getLsbD_insertBits v hi lo _ i hlo h]
  split
  · rename_i hb
    rw [getLsbD_extractBits]
    have e : lo + (i - lo) = i := by omega
    have h' : i - lo < hi - lo + 1 := by omega
    simp [e, h']
  · rfl

/-- An extracted field is below 2^w (R152). -/
theorem extractBits_lt (v : Half) (hi lo : Nat) : (extractBits v hi lo).toNat < 2 ^ (hi - lo + 1) := by
  have h2 : (extractBits v hi lo).toNat ≤ (lowMask (hi - lo + 1)).toNat := by
    rw [extractBits, BitVec.toNat_and]
    exact Nat.and_le_right
  have h3 : (lowMask (hi - lo + 1)).toNat ≤ 2 ^ (hi - lo + 1) - 1 := by
    rw [lowMask, BitVec.toNat_ofNat]
    exact Nat.mod_le _ _
  have h4 : 0 < 2 ^ (hi - lo + 1) := Nat.two_pow_pos _
  omega

/-- An extracted field as a number: the container divided by 2^lo, modulo 2^w (R152). -/
theorem extractBits_toNat (v : Half) (hi lo : Nat) (hhi : hi < 16) (hlo : lo ≤ hi) :
    (extractBits v hi lo).toNat = v.toNat / 2 ^ lo % 2 ^ (hi - lo + 1) := by
  have hm : 2 ^ (hi - lo + 1) - 1 < 2 ^ 16 := by
    have : 2 ^ (hi - lo + 1) ≤ 2 ^ 16 := Nat.pow_le_pow_right (by omega) (by omega)
    omega
  rw [extractBits, BitVec.toNat_and, BitVec.toNat_ushiftRight, lowMask, BitVec.toNat_ofNat,
    Nat.mod_eq_of_lt hm, Nat.and_two_pow_sub_one_eq_mod, Nat.shiftRight_eq_div_pow]

end Sys2Proof.Machine
end

