-- ==== Sys2Proof/Laws/State.lean ====
section
/-! SUPPORT. One lemma per field per update of the state: what an operation writes and what it leaves
alone, so that no later proof unfolds a record update. -/

namespace Sys2Proof.Machine

/-! ### Writing a port's registers -/

@[simp] theorem State.setPort_params (s : State) (q : PortId) (r : PortRegs) : (s.setPort q r).params = s.params := by
  cases q <;> rfl
@[simp] theorem State.setPort_phase (s : State) (q : PortId) (r : PortRegs) : (s.setPort q r).phase = s.phase := by
  cases q <;> rfl
@[simp] theorem State.setPort_img (s : State) (q : PortId) (r : PortRegs) : (s.setPort q r).img = s.img := by
  cases q <;> rfl
@[simp] theorem State.setPort_stale (s : State) (q : PortId) (r : PortRegs) : (s.setPort q r).stale = s.stale := by
  cases q <;> rfl
@[simp] theorem State.setPort_gate (s : State) (q : PortId) (r : PortRegs) : (s.setPort q r).gate = s.gate := by
  cases q <;> rfl
@[simp] theorem State.setPort_chSel (s : State) (q : PortId) (r : PortRegs) : (s.setPort q r).chSel = s.chSel := by
  cases q <;> rfl
@[simp] theorem State.setPort_hallEn (s : State) (q : PortId) (r : PortRegs) : (s.setPort q r).hallEn = s.hallEn := by
  cases q <;> rfl
@[simp] theorem State.setPort_holdSpec (s : State) (q : PortId) (r : PortRegs) : (s.setPort q r).holdSpec = s.holdSpec := by
  cases q <;> rfl
@[simp] theorem State.setPort_keycode (s : State) (q : PortId) (r : PortRegs) : (s.setPort q r).keycode = s.keycode := by
  cases q <;> rfl
@[simp] theorem State.setPort_swcode (s : State) (q : PortId) (r : PortRegs) : (s.setPort q r).swcode = s.swcode := by
  cases q <;> rfl
@[simp] theorem State.setPort_slcode (s : State) (q : PortId) (r : PortRegs) : (s.setPort q r).slcode = s.slcode := by
  cases q <;> rfl
@[simp] theorem State.setPort_agenda (s : State) (q : PortId) (r : PortRegs) : (s.setPort q r).agenda = s.agenda := by
  cases q <;> rfl
@[simp] theorem State.setPort_issuer (s : State) (q : PortId) (r : PortRegs) : (s.setPort q r).issuer = s.issuer := by
  cases q <;> rfl
@[simp] theorem State.setPort_side (s : State) (q : PortId) (r : PortRegs) : (s.setPort q r).side = s.side := by
  cases q <;> rfl
@[simp] theorem State.setPort_evt (s : State) (q : PortId) (r : PortRegs) : (s.setPort q r).evt = s.evt := by
  cases q <;> rfl
@[simp] theorem State.setPort_bus (s : State) (q : PortId) (r : PortRegs) : (s.setPort q r).bus = s.bus := by
  cases q <;> rfl
@[simp] theorem State.setPort_draws (s : State) (q : PortId) (r : PortRegs) : (s.setPort q r).draws = s.draws := by
  cases q <;> rfl

@[simp] theorem State.setStatus_params (s : State) (q : PortId) (c : Byte) : (s.setStatus q c).params = s.params := by
  cases q <;> rfl
@[simp] theorem State.setStatus_phase (s : State) (q : PortId) (c : Byte) : (s.setStatus q c).phase = s.phase := by
  cases q <;> rfl
@[simp] theorem State.setStatus_img (s : State) (q : PortId) (c : Byte) : (s.setStatus q c).img = s.img := by
  cases q <;> rfl
@[simp] theorem State.setStatus_stale (s : State) (q : PortId) (c : Byte) : (s.setStatus q c).stale = s.stale := by
  cases q <;> rfl
@[simp] theorem State.setStatus_gate (s : State) (q : PortId) (c : Byte) : (s.setStatus q c).gate = s.gate := by
  cases q <;> rfl
@[simp] theorem State.setStatus_chSel (s : State) (q : PortId) (c : Byte) : (s.setStatus q c).chSel = s.chSel := by
  cases q <;> rfl
@[simp] theorem State.setStatus_hallEn (s : State) (q : PortId) (c : Byte) : (s.setStatus q c).hallEn = s.hallEn := by
  cases q <;> rfl
@[simp] theorem State.setStatus_holdSpec (s : State) (q : PortId) (c : Byte) : (s.setStatus q c).holdSpec = s.holdSpec := by
  cases q <;> rfl
@[simp] theorem State.setStatus_keycode (s : State) (q : PortId) (c : Byte) : (s.setStatus q c).keycode = s.keycode := by
  cases q <;> rfl
@[simp] theorem State.setStatus_swcode (s : State) (q : PortId) (c : Byte) : (s.setStatus q c).swcode = s.swcode := by
  cases q <;> rfl
@[simp] theorem State.setStatus_slcode (s : State) (q : PortId) (c : Byte) : (s.setStatus q c).slcode = s.slcode := by
  cases q <;> rfl
@[simp] theorem State.setStatus_agenda (s : State) (q : PortId) (c : Byte) : (s.setStatus q c).agenda = s.agenda := by
  cases q <;> rfl
@[simp] theorem State.setStatus_issuer (s : State) (q : PortId) (c : Byte) : (s.setStatus q c).issuer = s.issuer := by
  cases q <;> rfl
@[simp] theorem State.setStatus_side (s : State) (q : PortId) (c : Byte) : (s.setStatus q c).side = s.side := by
  cases q <;> rfl
@[simp] theorem State.setStatus_evt (s : State) (q : PortId) (c : Byte) : (s.setStatus q c).evt = s.evt := by
  cases q <;> rfl
@[simp] theorem State.setStatus_bus (s : State) (q : PortId) (c : Byte) : (s.setStatus q c).bus = s.bus := by
  cases q <;> rfl
@[simp] theorem State.setStatus_draws (s : State) (q : PortId) (c : Byte) : (s.setStatus q c).draws = s.draws := by
  cases q <;> rfl

@[simp] theorem State.setDout_params (s : State) (q : PortId) (v : Word) : (s.setDout q v).params = s.params := by
  cases q <;> rfl
@[simp] theorem State.setDout_phase (s : State) (q : PortId) (v : Word) : (s.setDout q v).phase = s.phase := by
  cases q <;> rfl
@[simp] theorem State.setDout_img (s : State) (q : PortId) (v : Word) : (s.setDout q v).img = s.img := by
  cases q <;> rfl
@[simp] theorem State.setDout_stale (s : State) (q : PortId) (v : Word) : (s.setDout q v).stale = s.stale := by
  cases q <;> rfl
@[simp] theorem State.setDout_gate (s : State) (q : PortId) (v : Word) : (s.setDout q v).gate = s.gate := by
  cases q <;> rfl
@[simp] theorem State.setDout_chSel (s : State) (q : PortId) (v : Word) : (s.setDout q v).chSel = s.chSel := by
  cases q <;> rfl
@[simp] theorem State.setDout_hallEn (s : State) (q : PortId) (v : Word) : (s.setDout q v).hallEn = s.hallEn := by
  cases q <;> rfl
@[simp] theorem State.setDout_holdSpec (s : State) (q : PortId) (v : Word) : (s.setDout q v).holdSpec = s.holdSpec := by
  cases q <;> rfl
@[simp] theorem State.setDout_keycode (s : State) (q : PortId) (v : Word) : (s.setDout q v).keycode = s.keycode := by
  cases q <;> rfl
@[simp] theorem State.setDout_swcode (s : State) (q : PortId) (v : Word) : (s.setDout q v).swcode = s.swcode := by
  cases q <;> rfl
@[simp] theorem State.setDout_slcode (s : State) (q : PortId) (v : Word) : (s.setDout q v).slcode = s.slcode := by
  cases q <;> rfl
@[simp] theorem State.setDout_agenda (s : State) (q : PortId) (v : Word) : (s.setDout q v).agenda = s.agenda := by
  cases q <;> rfl
@[simp] theorem State.setDout_issuer (s : State) (q : PortId) (v : Word) : (s.setDout q v).issuer = s.issuer := by
  cases q <;> rfl
@[simp] theorem State.setDout_side (s : State) (q : PortId) (v : Word) : (s.setDout q v).side = s.side := by
  cases q <;> rfl
@[simp] theorem State.setDout_evt (s : State) (q : PortId) (v : Word) : (s.setDout q v).evt = s.evt := by
  cases q <;> rfl
@[simp] theorem State.setDout_bus (s : State) (q : PortId) (v : Word) : (s.setDout q v).bus = s.bus := by
  cases q <;> rfl
@[simp] theorem State.setDout_draws (s : State) (q : PortId) (v : Word) : (s.setDout q v).draws = s.draws := by
  cases q <;> rfl

@[simp] theorem State.setPending_params (s : State) (q : PortId) (b : Bool) : (s.setPending q b).params = s.params := by
  cases q <;> rfl
@[simp] theorem State.setPending_phase (s : State) (q : PortId) (b : Bool) : (s.setPending q b).phase = s.phase := by
  cases q <;> rfl
@[simp] theorem State.setPending_img (s : State) (q : PortId) (b : Bool) : (s.setPending q b).img = s.img := by
  cases q <;> rfl
@[simp] theorem State.setPending_stale (s : State) (q : PortId) (b : Bool) : (s.setPending q b).stale = s.stale := by
  cases q <;> rfl
@[simp] theorem State.setPending_gate (s : State) (q : PortId) (b : Bool) : (s.setPending q b).gate = s.gate := by
  cases q <;> rfl
@[simp] theorem State.setPending_chSel (s : State) (q : PortId) (b : Bool) : (s.setPending q b).chSel = s.chSel := by
  cases q <;> rfl
@[simp] theorem State.setPending_hallEn (s : State) (q : PortId) (b : Bool) : (s.setPending q b).hallEn = s.hallEn := by
  cases q <;> rfl
@[simp] theorem State.setPending_holdSpec (s : State) (q : PortId) (b : Bool) : (s.setPending q b).holdSpec = s.holdSpec := by
  cases q <;> rfl
@[simp] theorem State.setPending_keycode (s : State) (q : PortId) (b : Bool) : (s.setPending q b).keycode = s.keycode := by
  cases q <;> rfl
@[simp] theorem State.setPending_swcode (s : State) (q : PortId) (b : Bool) : (s.setPending q b).swcode = s.swcode := by
  cases q <;> rfl
@[simp] theorem State.setPending_slcode (s : State) (q : PortId) (b : Bool) : (s.setPending q b).slcode = s.slcode := by
  cases q <;> rfl
@[simp] theorem State.setPending_agenda (s : State) (q : PortId) (b : Bool) : (s.setPending q b).agenda = s.agenda := by
  cases q <;> rfl
@[simp] theorem State.setPending_issuer (s : State) (q : PortId) (b : Bool) : (s.setPending q b).issuer = s.issuer := by
  cases q <;> rfl
@[simp] theorem State.setPending_side (s : State) (q : PortId) (b : Bool) : (s.setPending q b).side = s.side := by
  cases q <;> rfl
@[simp] theorem State.setPending_evt (s : State) (q : PortId) (b : Bool) : (s.setPending q b).evt = s.evt := by
  cases q <;> rfl
@[simp] theorem State.setPending_bus (s : State) (q : PortId) (b : Bool) : (s.setPending q b).bus = s.bus := by
  cases q <;> rfl
@[simp] theorem State.setPending_draws (s : State) (q : PortId) (b : Bool) : (s.setPending q b).draws = s.draws := by
  cases q <;> rfl

@[simp] theorem State.completeWait_params (s : State) (q : PortId) : (s.completeWait q).params = s.params := by
  simp [State.completeWait]
@[simp] theorem State.completeWait_phase (s : State) (q : PortId) : (s.completeWait q).phase = s.phase := by
  simp [State.completeWait]
@[simp] theorem State.completeWait_img (s : State) (q : PortId) : (s.completeWait q).img = s.img := by
  simp [State.completeWait]
@[simp] theorem State.completeWait_stale (s : State) (q : PortId) : (s.completeWait q).stale = s.stale := by
  simp [State.completeWait]
@[simp] theorem State.completeWait_gate (s : State) (q : PortId) : (s.completeWait q).gate = s.gate := by
  simp [State.completeWait]
@[simp] theorem State.completeWait_chSel (s : State) (q : PortId) : (s.completeWait q).chSel = s.chSel := by
  simp [State.completeWait]
@[simp] theorem State.completeWait_hallEn (s : State) (q : PortId) : (s.completeWait q).hallEn = s.hallEn := by
  simp [State.completeWait]
@[simp] theorem State.completeWait_holdSpec (s : State) (q : PortId) : (s.completeWait q).holdSpec = s.holdSpec := by
  simp [State.completeWait]
@[simp] theorem State.completeWait_keycode (s : State) (q : PortId) : (s.completeWait q).keycode = s.keycode := by
  simp [State.completeWait]
@[simp] theorem State.completeWait_swcode (s : State) (q : PortId) : (s.completeWait q).swcode = s.swcode := by
  simp [State.completeWait]
@[simp] theorem State.completeWait_slcode (s : State) (q : PortId) : (s.completeWait q).slcode = s.slcode := by
  simp [State.completeWait]
@[simp] theorem State.completeWait_agenda (s : State) (q : PortId) : (s.completeWait q).agenda = s.agenda := by
  simp [State.completeWait]
@[simp] theorem State.completeWait_issuer (s : State) (q : PortId) : (s.completeWait q).issuer = s.issuer := by
  simp [State.completeWait]
@[simp] theorem State.completeWait_side (s : State) (q : PortId) : (s.completeWait q).side = s.side := by
  simp [State.completeWait]
@[simp] theorem State.completeWait_evt (s : State) (q : PortId) : (s.completeWait q).evt = s.evt := by
  simp [State.completeWait]
@[simp] theorem State.completeWait_bus (s : State) (q : PortId) : (s.completeWait q).bus = s.bus := by
  simp [State.completeWait]
@[simp] theorem State.completeWait_draws (s : State) (q : PortId) : (s.completeWait q).draws = s.draws := by
  simp [State.completeWait]

@[simp] theorem State.timeoutWait_params (s : State) (q : PortId) : (s.timeoutWait q).params = s.params := by
  simp [State.timeoutWait]
@[simp] theorem State.timeoutWait_phase (s : State) (q : PortId) : (s.timeoutWait q).phase = s.phase := by
  simp [State.timeoutWait]
@[simp] theorem State.timeoutWait_img (s : State) (q : PortId) : (s.timeoutWait q).img = s.img := by
  simp [State.timeoutWait]
@[simp] theorem State.timeoutWait_stale (s : State) (q : PortId) : (s.timeoutWait q).stale = s.stale := by
  simp [State.timeoutWait]
@[simp] theorem State.timeoutWait_gate (s : State) (q : PortId) : (s.timeoutWait q).gate = s.gate := by
  simp [State.timeoutWait]
@[simp] theorem State.timeoutWait_chSel (s : State) (q : PortId) : (s.timeoutWait q).chSel = s.chSel := by
  simp [State.timeoutWait]
@[simp] theorem State.timeoutWait_hallEn (s : State) (q : PortId) : (s.timeoutWait q).hallEn = s.hallEn := by
  simp [State.timeoutWait]
@[simp] theorem State.timeoutWait_holdSpec (s : State) (q : PortId) : (s.timeoutWait q).holdSpec = s.holdSpec := by
  simp [State.timeoutWait]
@[simp] theorem State.timeoutWait_keycode (s : State) (q : PortId) : (s.timeoutWait q).keycode = s.keycode := by
  simp [State.timeoutWait]
@[simp] theorem State.timeoutWait_swcode (s : State) (q : PortId) : (s.timeoutWait q).swcode = s.swcode := by
  simp [State.timeoutWait]
@[simp] theorem State.timeoutWait_slcode (s : State) (q : PortId) : (s.timeoutWait q).slcode = s.slcode := by
  simp [State.timeoutWait]
@[simp] theorem State.timeoutWait_agenda (s : State) (q : PortId) : (s.timeoutWait q).agenda = s.agenda := by
  simp [State.timeoutWait]
@[simp] theorem State.timeoutWait_issuer (s : State) (q : PortId) : (s.timeoutWait q).issuer = s.issuer := by
  simp [State.timeoutWait]
@[simp] theorem State.timeoutWait_side (s : State) (q : PortId) : (s.timeoutWait q).side = s.side := by
  simp [State.timeoutWait]
@[simp] theorem State.timeoutWait_evt (s : State) (q : PortId) : (s.timeoutWait q).evt = s.evt := by
  simp [State.timeoutWait]
@[simp] theorem State.timeoutWait_bus (s : State) (q : PortId) : (s.timeoutWait q).bus = s.bus := by
  simp [State.timeoutWait]
@[simp] theorem State.timeoutWait_draws (s : State) (q : PortId) : (s.timeoutWait q).draws = s.draws := by
  simp [State.timeoutWait]

@[simp] theorem State.complete_params (s : State) : (s.complete).params = s.params := by
  simp [State.complete]
@[simp] theorem State.complete_phase (s : State) : (s.complete).phase = s.phase := by
  simp [State.complete]
@[simp] theorem State.complete_img (s : State) : (s.complete).img = s.img := by
  simp [State.complete]
@[simp] theorem State.complete_stale (s : State) : (s.complete).stale = s.stale := by
  simp [State.complete]
@[simp] theorem State.complete_gate (s : State) : (s.complete).gate = s.gate := by
  simp [State.complete]
@[simp] theorem State.complete_chSel (s : State) : (s.complete).chSel = s.chSel := by
  simp [State.complete]
@[simp] theorem State.complete_hallEn (s : State) : (s.complete).hallEn = s.hallEn := by
  simp [State.complete]
@[simp] theorem State.complete_holdSpec (s : State) : (s.complete).holdSpec = s.holdSpec := by
  simp [State.complete]
@[simp] theorem State.complete_keycode (s : State) : (s.complete).keycode = s.keycode := by
  simp [State.complete]
@[simp] theorem State.complete_swcode (s : State) : (s.complete).swcode = s.swcode := by
  simp [State.complete]
@[simp] theorem State.complete_slcode (s : State) : (s.complete).slcode = s.slcode := by
  simp [State.complete]
@[simp] theorem State.complete_agenda (s : State) : (s.complete).agenda = s.agenda := by
  simp [State.complete]
@[simp] theorem State.complete_issuer (s : State) : (s.complete).issuer = s.issuer := by
  simp [State.complete]
@[simp] theorem State.complete_side (s : State) : (s.complete).side = s.side := by
  simp [State.complete]
@[simp] theorem State.complete_evt (s : State) : (s.complete).evt = s.evt := by
  simp [State.complete]
@[simp] theorem State.complete_bus (s : State) : (s.complete).bus = s.bus := by
  simp [State.complete]
@[simp] theorem State.complete_draws (s : State) : (s.complete).draws = s.draws := by
  simp [State.complete]

@[simp] theorem State.raise_params (s : State) (e : Status) : (s.raise e).params = s.params := by
  simp [State.raise]
@[simp] theorem State.raise_phase (s : State) (e : Status) : (s.raise e).phase = s.phase := by
  simp [State.raise]
@[simp] theorem State.raise_img (s : State) (e : Status) : (s.raise e).img = s.img := by
  simp [State.raise]
@[simp] theorem State.raise_stale (s : State) (e : Status) : (s.raise e).stale = s.stale := by
  simp [State.raise]
@[simp] theorem State.raise_gate (s : State) (e : Status) : (s.raise e).gate = s.gate := by
  simp [State.raise]
@[simp] theorem State.raise_chSel (s : State) (e : Status) : (s.raise e).chSel = s.chSel := by
  simp [State.raise]
@[simp] theorem State.raise_hallEn (s : State) (e : Status) : (s.raise e).hallEn = s.hallEn := by
  simp [State.raise]
@[simp] theorem State.raise_holdSpec (s : State) (e : Status) : (s.raise e).holdSpec = s.holdSpec := by
  simp [State.raise]
@[simp] theorem State.raise_keycode (s : State) (e : Status) : (s.raise e).keycode = s.keycode := by
  simp [State.raise]
@[simp] theorem State.raise_swcode (s : State) (e : Status) : (s.raise e).swcode = s.swcode := by
  simp [State.raise]
@[simp] theorem State.raise_slcode (s : State) (e : Status) : (s.raise e).slcode = s.slcode := by
  simp [State.raise]
@[simp] theorem State.raise_agenda (s : State) (e : Status) : (s.raise e).agenda = s.agenda := by
  simp [State.raise]
@[simp] theorem State.raise_issuer (s : State) (e : Status) : (s.raise e).issuer = s.issuer := by
  simp [State.raise]
@[simp] theorem State.raise_side (s : State) (e : Status) : (s.raise e).side = s.side := by
  simp [State.raise]
@[simp] theorem State.raise_evt (s : State) (e : Status) : (s.raise e).evt = s.evt := by
  simp [State.raise]
@[simp] theorem State.raise_bus (s : State) (e : Status) : (s.raise e).bus = s.bus := by
  simp [State.raise]
@[simp] theorem State.raise_draws (s : State) (e : Status) : (s.raise e).draws = s.draws := by
  simp [State.raise]

@[simp] theorem State.answer_params (s : State) (v : Nat) : (s.answer v).params = s.params := by
  simp [State.answer, State.complete]
@[simp] theorem State.answer_phase (s : State) (v : Nat) : (s.answer v).phase = s.phase := by
  simp [State.answer, State.complete]
@[simp] theorem State.answer_img (s : State) (v : Nat) : (s.answer v).img = s.img := by
  simp [State.answer, State.complete]
@[simp] theorem State.answer_stale (s : State) (v : Nat) : (s.answer v).stale = s.stale := by
  simp [State.answer, State.complete]
@[simp] theorem State.answer_gate (s : State) (v : Nat) : (s.answer v).gate = s.gate := by
  simp [State.answer, State.complete]
@[simp] theorem State.answer_chSel (s : State) (v : Nat) : (s.answer v).chSel = s.chSel := by
  simp [State.answer, State.complete]
@[simp] theorem State.answer_hallEn (s : State) (v : Nat) : (s.answer v).hallEn = s.hallEn := by
  simp [State.answer, State.complete]
@[simp] theorem State.answer_holdSpec (s : State) (v : Nat) : (s.answer v).holdSpec = s.holdSpec := by
  simp [State.answer, State.complete]
@[simp] theorem State.answer_keycode (s : State) (v : Nat) : (s.answer v).keycode = s.keycode := by
  simp [State.answer, State.complete]
@[simp] theorem State.answer_swcode (s : State) (v : Nat) : (s.answer v).swcode = s.swcode := by
  simp [State.answer, State.complete]
@[simp] theorem State.answer_slcode (s : State) (v : Nat) : (s.answer v).slcode = s.slcode := by
  simp [State.answer, State.complete]
@[simp] theorem State.answer_agenda (s : State) (v : Nat) : (s.answer v).agenda = s.agenda := by
  simp [State.answer, State.complete]
@[simp] theorem State.answer_issuer (s : State) (v : Nat) : (s.answer v).issuer = s.issuer := by
  simp [State.answer, State.complete]
@[simp] theorem State.answer_side (s : State) (v : Nat) : (s.answer v).side = s.side := by
  simp [State.answer, State.complete]
@[simp] theorem State.answer_evt (s : State) (v : Nat) : (s.answer v).evt = s.evt := by
  simp [State.answer, State.complete]
@[simp] theorem State.answer_bus (s : State) (v : Nat) : (s.answer v).bus = s.bus := by
  simp [State.answer, State.complete]
@[simp] theorem State.answer_draws (s : State) (v : Nat) : (s.answer v).draws = s.draws := by
  simp [State.answer, State.complete]

@[simp] theorem State.beginWait_params (s : State) : (s.beginWait).params = s.params := by
  simp [State.beginWait]
@[simp] theorem State.beginWait_phase (s : State) : (s.beginWait).phase = s.phase := by
  simp [State.beginWait]
@[simp] theorem State.beginWait_img (s : State) : (s.beginWait).img = s.img := by
  simp [State.beginWait]
@[simp] theorem State.beginWait_stale (s : State) : (s.beginWait).stale = s.stale := by
  simp [State.beginWait]
@[simp] theorem State.beginWait_gate (s : State) : (s.beginWait).gate = s.gate := by
  simp [State.beginWait]
@[simp] theorem State.beginWait_chSel (s : State) : (s.beginWait).chSel = s.chSel := by
  simp [State.beginWait]
@[simp] theorem State.beginWait_hallEn (s : State) : (s.beginWait).hallEn = s.hallEn := by
  simp [State.beginWait]
@[simp] theorem State.beginWait_holdSpec (s : State) : (s.beginWait).holdSpec = s.holdSpec := by
  simp [State.beginWait]
@[simp] theorem State.beginWait_keycode (s : State) : (s.beginWait).keycode = s.keycode := by
  simp [State.beginWait]
@[simp] theorem State.beginWait_swcode (s : State) : (s.beginWait).swcode = s.swcode := by
  simp [State.beginWait]
@[simp] theorem State.beginWait_slcode (s : State) : (s.beginWait).slcode = s.slcode := by
  simp [State.beginWait]
@[simp] theorem State.beginWait_agenda (s : State) : (s.beginWait).agenda = s.agenda := by
  simp [State.beginWait]
@[simp] theorem State.beginWait_issuer (s : State) : (s.beginWait).issuer = s.issuer := by
  simp [State.beginWait]
@[simp] theorem State.beginWait_side (s : State) : (s.beginWait).side = s.side := by
  simp [State.beginWait]
@[simp] theorem State.beginWait_evt (s : State) : (s.beginWait).evt = s.evt := by
  simp [State.beginWait]
@[simp] theorem State.beginWait_bus (s : State) : (s.beginWait).bus = s.bus := by
  simp [State.beginWait]
@[simp] theorem State.beginWait_draws (s : State) : (s.beginWait).draws = s.draws := by
  simp [State.beginWait]

/-! ### Writing the block's own fields -/

@[simp] theorem State.markStale_params (s : State) : (s.markStale).params = s.params := rfl
@[simp] theorem State.markStale_ports (s : State) : (s.markStale).ports = s.ports := rfl
@[simp] theorem State.markStale_irqDin (s : State) : (s.markStale).irqDin = s.irqDin := rfl
@[simp] theorem State.markStale_irqDout (s : State) : (s.markStale).irqDout = s.irqDout := rfl
@[simp] theorem State.markStale_irqStatus (s : State) : (s.markStale).irqStatus = s.irqStatus := rfl
@[simp] theorem State.markStale_phase (s : State) : (s.markStale).phase = s.phase := rfl
@[simp] theorem State.markStale_img (s : State) : (s.markStale).img = s.img := rfl
@[simp] theorem State.markStale_stale (s : State) : (s.markStale).stale = true := rfl
@[simp] theorem State.markStale_gate (s : State) : (s.markStale).gate = s.gate := rfl
@[simp] theorem State.markStale_chSel (s : State) : (s.markStale).chSel = s.chSel := rfl
@[simp] theorem State.markStale_hallEn (s : State) : (s.markStale).hallEn = s.hallEn := rfl
@[simp] theorem State.markStale_holdSpec (s : State) : (s.markStale).holdSpec = s.holdSpec := rfl
@[simp] theorem State.markStale_keycode (s : State) : (s.markStale).keycode = s.keycode := rfl
@[simp] theorem State.markStale_swcode (s : State) : (s.markStale).swcode = s.swcode := rfl
@[simp] theorem State.markStale_slcode (s : State) : (s.markStale).slcode = s.slcode := rfl
@[simp] theorem State.markStale_agenda (s : State) : (s.markStale).agenda = s.agenda := rfl
@[simp] theorem State.markStale_issuer (s : State) : (s.markStale).issuer = s.issuer := rfl
@[simp] theorem State.markStale_side (s : State) : (s.markStale).side = s.side := rfl
@[simp] theorem State.markStale_evt (s : State) : (s.markStale).evt = s.evt := rfl
@[simp] theorem State.markStale_bus (s : State) : (s.markStale).bus = s.bus := rfl
@[simp] theorem State.markStale_draws (s : State) : (s.markStale).draws = s.draws := rfl
@[simp] theorem State.markStale_port (s : State) (p : PortId) : (s.markStale).port p = s.port p := by
  cases p <;> rfl

@[simp] theorem State.markHoldSpec_params (s : State) : (s.markHoldSpec).params = s.params := rfl
@[simp] theorem State.markHoldSpec_ports (s : State) : (s.markHoldSpec).ports = s.ports := rfl
@[simp] theorem State.markHoldSpec_irqDin (s : State) : (s.markHoldSpec).irqDin = s.irqDin := rfl
@[simp] theorem State.markHoldSpec_irqDout (s : State) : (s.markHoldSpec).irqDout = s.irqDout := rfl
@[simp] theorem State.markHoldSpec_irqStatus (s : State) : (s.markHoldSpec).irqStatus = s.irqStatus := rfl
@[simp] theorem State.markHoldSpec_phase (s : State) : (s.markHoldSpec).phase = s.phase := rfl
@[simp] theorem State.markHoldSpec_img (s : State) : (s.markHoldSpec).img = s.img := rfl
@[simp] theorem State.markHoldSpec_stale (s : State) : (s.markHoldSpec).stale = s.stale := rfl
@[simp] theorem State.markHoldSpec_gate (s : State) : (s.markHoldSpec).gate = s.gate := rfl
@[simp] theorem State.markHoldSpec_chSel (s : State) : (s.markHoldSpec).chSel = s.chSel := rfl
@[simp] theorem State.markHoldSpec_hallEn (s : State) : (s.markHoldSpec).hallEn = s.hallEn := rfl
@[simp] theorem State.markHoldSpec_holdSpec (s : State) : (s.markHoldSpec).holdSpec = true := rfl
@[simp] theorem State.markHoldSpec_keycode (s : State) : (s.markHoldSpec).keycode = s.keycode := rfl
@[simp] theorem State.markHoldSpec_swcode (s : State) : (s.markHoldSpec).swcode = s.swcode := rfl
@[simp] theorem State.markHoldSpec_slcode (s : State) : (s.markHoldSpec).slcode = s.slcode := rfl
@[simp] theorem State.markHoldSpec_agenda (s : State) : (s.markHoldSpec).agenda = s.agenda := rfl
@[simp] theorem State.markHoldSpec_issuer (s : State) : (s.markHoldSpec).issuer = s.issuer := rfl
@[simp] theorem State.markHoldSpec_side (s : State) : (s.markHoldSpec).side = s.side := rfl
@[simp] theorem State.markHoldSpec_evt (s : State) : (s.markHoldSpec).evt = s.evt := rfl
@[simp] theorem State.markHoldSpec_bus (s : State) : (s.markHoldSpec).bus = s.bus := rfl
@[simp] theorem State.markHoldSpec_draws (s : State) : (s.markHoldSpec).draws = s.draws := rfl
@[simp] theorem State.markHoldSpec_port (s : State) (p : PortId) : (s.markHoldSpec).port p = s.port p := by
  cases p <;> rfl

@[simp] theorem State.setHallEn_params (s : State) (b : Bool) : (s.setHallEn b).params = s.params := rfl
@[simp] theorem State.setHallEn_ports (s : State) (b : Bool) : (s.setHallEn b).ports = s.ports := rfl
@[simp] theorem State.setHallEn_irqDin (s : State) (b : Bool) : (s.setHallEn b).irqDin = s.irqDin := rfl
@[simp] theorem State.setHallEn_irqDout (s : State) (b : Bool) : (s.setHallEn b).irqDout = s.irqDout := rfl
@[simp] theorem State.setHallEn_irqStatus (s : State) (b : Bool) : (s.setHallEn b).irqStatus = s.irqStatus := rfl
@[simp] theorem State.setHallEn_phase (s : State) (b : Bool) : (s.setHallEn b).phase = s.phase := rfl
@[simp] theorem State.setHallEn_img (s : State) (b : Bool) : (s.setHallEn b).img = s.img := rfl
@[simp] theorem State.setHallEn_stale (s : State) (b : Bool) : (s.setHallEn b).stale = s.stale := rfl
@[simp] theorem State.setHallEn_gate (s : State) (b : Bool) : (s.setHallEn b).gate = s.gate := rfl
@[simp] theorem State.setHallEn_chSel (s : State) (b : Bool) : (s.setHallEn b).chSel = s.chSel := rfl
@[simp] theorem State.setHallEn_hallEn (s : State) (b : Bool) : (s.setHallEn b).hallEn = b := rfl
@[simp] theorem State.setHallEn_holdSpec (s : State) (b : Bool) : (s.setHallEn b).holdSpec = s.holdSpec := rfl
@[simp] theorem State.setHallEn_keycode (s : State) (b : Bool) : (s.setHallEn b).keycode = s.keycode := rfl
@[simp] theorem State.setHallEn_swcode (s : State) (b : Bool) : (s.setHallEn b).swcode = s.swcode := rfl
@[simp] theorem State.setHallEn_slcode (s : State) (b : Bool) : (s.setHallEn b).slcode = s.slcode := rfl
@[simp] theorem State.setHallEn_agenda (s : State) (b : Bool) : (s.setHallEn b).agenda = s.agenda := rfl
@[simp] theorem State.setHallEn_issuer (s : State) (b : Bool) : (s.setHallEn b).issuer = s.issuer := rfl
@[simp] theorem State.setHallEn_side (s : State) (b : Bool) : (s.setHallEn b).side = s.side := rfl
@[simp] theorem State.setHallEn_evt (s : State) (b : Bool) : (s.setHallEn b).evt = s.evt := rfl
@[simp] theorem State.setHallEn_bus (s : State) (b : Bool) : (s.setHallEn b).bus = s.bus := rfl
@[simp] theorem State.setHallEn_draws (s : State) (b : Bool) : (s.setHallEn b).draws = s.draws := rfl
@[simp] theorem State.setHallEn_port (s : State) (b : Bool) (p : PortId) : (s.setHallEn b).port p = s.port p := by
  cases p <;> rfl

@[simp] theorem State.armGate_params (s : State) : (s.armGate).params = s.params := rfl
@[simp] theorem State.armGate_ports (s : State) : (s.armGate).ports = s.ports := rfl
@[simp] theorem State.armGate_irqDin (s : State) : (s.armGate).irqDin = s.irqDin := rfl
@[simp] theorem State.armGate_irqDout (s : State) : (s.armGate).irqDout = s.irqDout := rfl
@[simp] theorem State.armGate_irqStatus (s : State) : (s.armGate).irqStatus = s.irqStatus := rfl
@[simp] theorem State.armGate_phase (s : State) : (s.armGate).phase = s.phase := rfl
@[simp] theorem State.armGate_img (s : State) : (s.armGate).img = s.img := rfl
@[simp] theorem State.armGate_stale (s : State) : (s.armGate).stale = s.stale := rfl
@[simp] theorem State.armGate_gate (s : State) : (s.armGate).gate = .calibrating := rfl
@[simp] theorem State.armGate_chSel (s : State) : (s.armGate).chSel = s.chSel := rfl
@[simp] theorem State.armGate_hallEn (s : State) : (s.armGate).hallEn = s.hallEn := rfl
@[simp] theorem State.armGate_holdSpec (s : State) : (s.armGate).holdSpec = s.holdSpec := rfl
@[simp] theorem State.armGate_keycode (s : State) : (s.armGate).keycode = s.keycode := rfl
@[simp] theorem State.armGate_swcode (s : State) : (s.armGate).swcode = s.swcode := rfl
@[simp] theorem State.armGate_slcode (s : State) : (s.armGate).slcode = s.slcode := rfl
@[simp] theorem State.armGate_agenda (s : State) : (s.armGate).agenda = s.agenda := rfl
@[simp] theorem State.armGate_issuer (s : State) : (s.armGate).issuer = s.issuer := rfl
@[simp] theorem State.armGate_side (s : State) : (s.armGate).side = s.side := rfl
@[simp] theorem State.armGate_evt (s : State) : (s.armGate).evt = s.evt := rfl
@[simp] theorem State.armGate_bus (s : State) : (s.armGate).bus = s.bus := rfl
@[simp] theorem State.armGate_draws (s : State) : (s.armGate).draws = s.draws := rfl
@[simp] theorem State.armGate_port (s : State) (p : PortId) : (s.armGate).port p = s.port p := by
  cases p <;> rfl

@[simp] theorem State.logBus_params (s : State) (t : BusTxn) : (s.logBus t).params = s.params := rfl
@[simp] theorem State.logBus_ports (s : State) (t : BusTxn) : (s.logBus t).ports = s.ports := rfl
@[simp] theorem State.logBus_irqDin (s : State) (t : BusTxn) : (s.logBus t).irqDin = s.irqDin := rfl
@[simp] theorem State.logBus_irqDout (s : State) (t : BusTxn) : (s.logBus t).irqDout = s.irqDout := rfl
@[simp] theorem State.logBus_irqStatus (s : State) (t : BusTxn) : (s.logBus t).irqStatus = s.irqStatus := rfl
@[simp] theorem State.logBus_phase (s : State) (t : BusTxn) : (s.logBus t).phase = s.phase := rfl
@[simp] theorem State.logBus_img (s : State) (t : BusTxn) : (s.logBus t).img = s.img := rfl
@[simp] theorem State.logBus_stale (s : State) (t : BusTxn) : (s.logBus t).stale = s.stale := rfl
@[simp] theorem State.logBus_gate (s : State) (t : BusTxn) : (s.logBus t).gate = s.gate := rfl
@[simp] theorem State.logBus_chSel (s : State) (t : BusTxn) : (s.logBus t).chSel = s.chSel := rfl
@[simp] theorem State.logBus_hallEn (s : State) (t : BusTxn) : (s.logBus t).hallEn = s.hallEn := rfl
@[simp] theorem State.logBus_holdSpec (s : State) (t : BusTxn) : (s.logBus t).holdSpec = s.holdSpec := rfl
@[simp] theorem State.logBus_keycode (s : State) (t : BusTxn) : (s.logBus t).keycode = s.keycode := rfl
@[simp] theorem State.logBus_swcode (s : State) (t : BusTxn) : (s.logBus t).swcode = s.swcode := rfl
@[simp] theorem State.logBus_slcode (s : State) (t : BusTxn) : (s.logBus t).slcode = s.slcode := rfl
@[simp] theorem State.logBus_agenda (s : State) (t : BusTxn) : (s.logBus t).agenda = s.agenda := rfl
@[simp] theorem State.logBus_issuer (s : State) (t : BusTxn) : (s.logBus t).issuer = s.issuer := rfl
@[simp] theorem State.logBus_side (s : State) (t : BusTxn) : (s.logBus t).side = s.side := rfl
@[simp] theorem State.logBus_evt (s : State) (t : BusTxn) : (s.logBus t).evt = s.evt := rfl
@[simp] theorem State.logBus_bus (s : State) (t : BusTxn) : (s.logBus t).bus = s.bus ++ [t] := rfl
@[simp] theorem State.logBus_draws (s : State) (t : BusTxn) : (s.logBus t).draws = s.draws := rfl
@[simp] theorem State.logBus_port (s : State) (t : BusTxn) (p : PortId) : (s.logBus t).port p = s.port p := by
  cases p <;> rfl

@[simp] theorem State.emit_params (s : State) (rs : List Report) : (s.emit rs).params = s.params := rfl
@[simp] theorem State.emit_ports (s : State) (rs : List Report) : (s.emit rs).ports = s.ports := rfl
@[simp] theorem State.emit_irqDin (s : State) (rs : List Report) : (s.emit rs).irqDin = s.irqDin := rfl
@[simp] theorem State.emit_irqDout (s : State) (rs : List Report) : (s.emit rs).irqDout = s.irqDout := rfl
@[simp] theorem State.emit_irqStatus (s : State) (rs : List Report) : (s.emit rs).irqStatus = s.irqStatus := rfl
@[simp] theorem State.emit_phase (s : State) (rs : List Report) : (s.emit rs).phase = s.phase := rfl
@[simp] theorem State.emit_img (s : State) (rs : List Report) : (s.emit rs).img = s.img := rfl
@[simp] theorem State.emit_stale (s : State) (rs : List Report) : (s.emit rs).stale = s.stale := rfl
@[simp] theorem State.emit_gate (s : State) (rs : List Report) : (s.emit rs).gate = s.gate := rfl
@[simp] theorem State.emit_chSel (s : State) (rs : List Report) : (s.emit rs).chSel = s.chSel := rfl
@[simp] theorem State.emit_hallEn (s : State) (rs : List Report) : (s.emit rs).hallEn = s.hallEn := rfl
@[simp] theorem State.emit_holdSpec (s : State) (rs : List Report) : (s.emit rs).holdSpec = s.holdSpec := rfl
@[simp] theorem State.emit_keycode (s : State) (rs : List Report) : (s.emit rs).keycode = s.keycode := rfl
@[simp] theorem State.emit_swcode (s : State) (rs : List Report) : (s.emit rs).swcode = s.swcode := rfl
@[simp] theorem State.emit_slcode (s : State) (rs : List Report) : (s.emit rs).slcode = s.slcode := rfl
@[simp] theorem State.emit_agenda (s : State) (rs : List Report) : (s.emit rs).agenda = s.agenda := rfl
@[simp] theorem State.emit_issuer (s : State) (rs : List Report) : (s.emit rs).issuer = s.issuer := rfl
@[simp] theorem State.emit_side (s : State) (rs : List Report) : (s.emit rs).side = s.side := rfl
@[simp] theorem State.emit_evt (s : State) (rs : List Report) : (s.emit rs).evt = s.evt ++ rs := rfl
@[simp] theorem State.emit_bus (s : State) (rs : List Report) : (s.emit rs).bus = s.bus := rfl
@[simp] theorem State.emit_draws (s : State) (rs : List Report) : (s.emit rs).draws = s.draws := rfl
@[simp] theorem State.emit_port (s : State) (rs : List Report) (p : PortId) : (s.emit rs).port p = s.port p := by
  cases p <;> rfl

@[simp] theorem State.issue_params (s : State) (q : PortId) (side : SidePorts) : (s.issue q side).params = s.params := rfl
@[simp] theorem State.issue_ports (s : State) (q : PortId) (side : SidePorts) : (s.issue q side).ports = s.ports := rfl
@[simp] theorem State.issue_irqDin (s : State) (q : PortId) (side : SidePorts) : (s.issue q side).irqDin = s.irqDin := rfl
@[simp] theorem State.issue_irqDout (s : State) (q : PortId) (side : SidePorts) : (s.issue q side).irqDout = s.irqDout := rfl
@[simp] theorem State.issue_irqStatus (s : State) (q : PortId) (side : SidePorts) : (s.issue q side).irqStatus = s.irqStatus := rfl
@[simp] theorem State.issue_phase (s : State) (q : PortId) (side : SidePorts) : (s.issue q side).phase = s.phase := rfl
@[simp] theorem State.issue_img (s : State) (q : PortId) (side : SidePorts) : (s.issue q side).img = s.img := rfl
@[simp] theorem State.issue_stale (s : State) (q : PortId) (side : SidePorts) : (s.issue q side).stale = s.stale := rfl
@[simp] theorem State.issue_gate (s : State) (q : PortId) (side : SidePorts) : (s.issue q side).gate = s.gate := rfl
@[simp] theorem State.issue_chSel (s : State) (q : PortId) (side : SidePorts) : (s.issue q side).chSel = s.chSel := rfl
@[simp] theorem State.issue_hallEn (s : State) (q : PortId) (side : SidePorts) : (s.issue q side).hallEn = s.hallEn := rfl
@[simp] theorem State.issue_holdSpec (s : State) (q : PortId) (side : SidePorts) : (s.issue q side).holdSpec = s.holdSpec := rfl
@[simp] theorem State.issue_keycode (s : State) (q : PortId) (side : SidePorts) : (s.issue q side).keycode = s.keycode := rfl
@[simp] theorem State.issue_swcode (s : State) (q : PortId) (side : SidePorts) : (s.issue q side).swcode = s.swcode := rfl
@[simp] theorem State.issue_slcode (s : State) (q : PortId) (side : SidePorts) : (s.issue q side).slcode = s.slcode := rfl
@[simp] theorem State.issue_agenda (s : State) (q : PortId) (side : SidePorts) : (s.issue q side).agenda = s.agenda := rfl
@[simp] theorem State.issue_issuer (s : State) (q : PortId) (side : SidePorts) : (s.issue q side).issuer = q := rfl
@[simp] theorem State.issue_side (s : State) (q : PortId) (side : SidePorts) : (s.issue q side).side = side := rfl
@[simp] theorem State.issue_evt (s : State) (q : PortId) (side : SidePorts) : (s.issue q side).evt = s.evt := rfl
@[simp] theorem State.issue_bus (s : State) (q : PortId) (side : SidePorts) : (s.issue q side).bus = s.bus := rfl
@[simp] theorem State.issue_draws (s : State) (q : PortId) (side : SidePorts) : (s.issue q side).draws = s.draws := rfl
@[simp] theorem State.issue_port (s : State) (q : PortId) (side : SidePorts) (p : PortId) : (s.issue q side).port p = s.port p := by
  cases p <;> rfl

@[simp] theorem State.nextTurn_params (s : State) (rest : List Turn) : (s.nextTurn rest).params = s.params := rfl
@[simp] theorem State.nextTurn_ports (s : State) (rest : List Turn) : (s.nextTurn rest).ports = s.ports := rfl
@[simp] theorem State.nextTurn_irqDin (s : State) (rest : List Turn) : (s.nextTurn rest).irqDin = s.irqDin := rfl
@[simp] theorem State.nextTurn_irqDout (s : State) (rest : List Turn) : (s.nextTurn rest).irqDout = s.irqDout := rfl
@[simp] theorem State.nextTurn_irqStatus (s : State) (rest : List Turn) : (s.nextTurn rest).irqStatus = s.irqStatus := rfl
@[simp] theorem State.nextTurn_phase (s : State) (rest : List Turn) : (s.nextTurn rest).phase = s.phase := rfl
@[simp] theorem State.nextTurn_img (s : State) (rest : List Turn) : (s.nextTurn rest).img = s.img := rfl
@[simp] theorem State.nextTurn_stale (s : State) (rest : List Turn) : (s.nextTurn rest).stale = s.stale := rfl
@[simp] theorem State.nextTurn_gate (s : State) (rest : List Turn) : (s.nextTurn rest).gate = s.gate := rfl
@[simp] theorem State.nextTurn_chSel (s : State) (rest : List Turn) : (s.nextTurn rest).chSel = s.chSel := rfl
@[simp] theorem State.nextTurn_hallEn (s : State) (rest : List Turn) : (s.nextTurn rest).hallEn = s.hallEn := rfl
@[simp] theorem State.nextTurn_holdSpec (s : State) (rest : List Turn) : (s.nextTurn rest).holdSpec = s.holdSpec := rfl
@[simp] theorem State.nextTurn_keycode (s : State) (rest : List Turn) : (s.nextTurn rest).keycode = s.keycode := rfl
@[simp] theorem State.nextTurn_swcode (s : State) (rest : List Turn) : (s.nextTurn rest).swcode = s.swcode := rfl
@[simp] theorem State.nextTurn_slcode (s : State) (rest : List Turn) : (s.nextTurn rest).slcode = s.slcode := rfl
@[simp] theorem State.nextTurn_agenda (s : State) (rest : List Turn) : (s.nextTurn rest).agenda = rest := rfl
@[simp] theorem State.nextTurn_issuer (s : State) (rest : List Turn) : (s.nextTurn rest).issuer = s.issuer := rfl
@[simp] theorem State.nextTurn_side (s : State) (rest : List Turn) : (s.nextTurn rest).side = s.side := rfl
@[simp] theorem State.nextTurn_evt (s : State) (rest : List Turn) : (s.nextTurn rest).evt = s.evt := rfl
@[simp] theorem State.nextTurn_bus (s : State) (rest : List Turn) : (s.nextTurn rest).bus = s.bus := rfl
@[simp] theorem State.nextTurn_draws (s : State) (rest : List Turn) : (s.nextTurn rest).draws = s.draws + 1 := rfl
@[simp] theorem State.nextTurn_port (s : State) (rest : List Turn) (p : PortId) : (s.nextTurn rest).port p = s.port p := by
  cases p <;> rfl

@[simp] theorem State.releaseGate_params (s : State) : s.releaseGate.params = s.params := by
  unfold State.releaseGate; split <;> rfl
@[simp] theorem State.releaseGate_ports (s : State) : s.releaseGate.ports = s.ports := by
  unfold State.releaseGate; split <;> rfl
@[simp] theorem State.releaseGate_irqDin (s : State) : s.releaseGate.irqDin = s.irqDin := by
  unfold State.releaseGate; split <;> rfl
@[simp] theorem State.releaseGate_irqDout (s : State) : s.releaseGate.irqDout = s.irqDout := by
  unfold State.releaseGate; split <;> rfl
@[simp] theorem State.releaseGate_irqStatus (s : State) : s.releaseGate.irqStatus = s.irqStatus := by
  unfold State.releaseGate; split <;> rfl
@[simp] theorem State.releaseGate_phase (s : State) : s.releaseGate.phase = s.phase := by
  unfold State.releaseGate; split <;> rfl
@[simp] theorem State.releaseGate_img (s : State) : s.releaseGate.img = s.img := by
  unfold State.releaseGate; split <;> rfl
@[simp] theorem State.releaseGate_stale (s : State) : s.releaseGate.stale = s.stale := by
  unfold State.releaseGate; split <;> rfl
@[simp] theorem State.releaseGate_chSel (s : State) : s.releaseGate.chSel = s.chSel := by
  unfold State.releaseGate; split <;> rfl
@[simp] theorem State.releaseGate_hallEn (s : State) : s.releaseGate.hallEn = s.hallEn := by
  unfold State.releaseGate; split <;> rfl
@[simp] theorem State.releaseGate_holdSpec (s : State) : s.releaseGate.holdSpec = s.holdSpec := by
  unfold State.releaseGate; split <;> rfl
@[simp] theorem State.releaseGate_keycode (s : State) : s.releaseGate.keycode = s.keycode := by
  unfold State.releaseGate; split <;> rfl
@[simp] theorem State.releaseGate_swcode (s : State) : s.releaseGate.swcode = s.swcode := by
  unfold State.releaseGate; split <;> rfl
@[simp] theorem State.releaseGate_slcode (s : State) : s.releaseGate.slcode = s.slcode := by
  unfold State.releaseGate; split <;> rfl
@[simp] theorem State.releaseGate_agenda (s : State) : s.releaseGate.agenda = s.agenda := by
  unfold State.releaseGate; split <;> rfl
@[simp] theorem State.releaseGate_issuer (s : State) : s.releaseGate.issuer = s.issuer := by
  unfold State.releaseGate; split <;> rfl
@[simp] theorem State.releaseGate_side (s : State) : s.releaseGate.side = s.side := by
  unfold State.releaseGate; split <;> rfl
@[simp] theorem State.releaseGate_evt (s : State) : s.releaseGate.evt = s.evt := by
  unfold State.releaseGate; split <;> rfl
@[simp] theorem State.releaseGate_bus (s : State) : s.releaseGate.bus = s.bus := by
  unfold State.releaseGate; split <;> rfl
@[simp] theorem State.releaseGate_draws (s : State) : s.releaseGate.draws = s.draws := by
  unfold State.releaseGate; split <;> rfl
@[simp] theorem State.releaseGate_port (s : State) (p : PortId) : s.releaseGate.port p = s.port p := by
  unfold State.releaseGate; split <;> cases p <;> rfl
/-- The release moves Calibrating to Ready and nothing else (44_event_classifier.md R343). -/
theorem State.releaseGate_gate (s : State) :
    s.releaseGate.gate = if s.gate = .calibrating then .ready else s.gate := by
  unfold State.releaseGate; split <;> simp_all

/-! ### Reading a port back -/

/-- A port's registers read back as written; PORT[IRQ]'s CMD and PENDING stay fixed (10_state.md R31). -/
@[simp] theorem State.port_setPort_irq (s : State) (r : PortRegs) :
    (s.setPort .irq r).port .irq = { r with cmd := irqCmd, pending := false } := rfl

theorem State.port_setPort_host (s : State) (p : Nat) (r : PortRegs) (h : p < s.ports.length) :
    (s.setPort (.host p) r).port (.host p) = r := by
  simp [State.port, State.setPort, h]

/-- A write to one port leaves every other port's registers alone. -/
theorem State.port_setPort_ne (s : State) (q q' : PortId) (r : PortRegs) (h : q ≠ q') :
    (s.setPort q r).port q' = s.port q' := by
  cases q with
  | irq =>
    cases q' with
    | irq => exact absurd rfl h
    | host p' => rfl
  | host p =>
    cases q' with
    | irq => rfl
    | host p' =>
      have hp : p ≠ p' := fun hh => h (by rw [hh])
      simp [State.port, State.setPort, List.getElem?_set_ne hp]

/-- A write never changes how many host ports there are. -/
@[simp] theorem State.setPort_ports_length (s : State) (q : PortId) (r : PortRegs) :
    (s.setPort q r).ports.length = s.ports.length := by
  cases q <;> simp [State.setPort]

/-- Writing host registers twice keeps the second write. -/
@[simp] theorem State.setPort_setPort (s : State) (q : PortId) (r r' : PortRegs) :
    (s.setPort q r).setPort q r' = s.setPort q r' := by
  cases q <;> simp [State.setPort]

/-- A write to PORT[IRQ] leaves the host ports alone. -/
@[simp] theorem State.setPort_irq_ports (s : State) (r : PortRegs) :
    (s.setPort .irq r).ports = s.ports := rfl

/-- What a write to a port leaves in the list of host ports: the register set written, or an old one. -/
theorem State.mem_setPort_ports (s : State) (q : PortId) (r x : PortRegs)
    (h : x ∈ (s.setPort q r).ports) : x = r ∨ x ∈ s.ports := by
  cases q with
  | irq => exact .inr h
  | host p => exact (List.mem_or_eq_of_mem_set h).symm

end Sys2Proof.Machine
end

