-- ==== Sys2Proof/Laws/Operands.lean ====
section
/-! SUPPORT. The laws of the operand forms: where each field lies, what storing field bits does to
every bit of the image, and the spec lemmas of get and set. -/

namespace Sys2Proof.Machine

/-! ### Where a field lies -/

/-- The bounds a descriptor meets: its container is inside the image and its bits inside the
container. -/
abbrev Desc.inBounds (d : Desc) : Prop :=
  d.off + d.width.bytes ≤ 136 ∧ d.lo ≤ d.hi ∧ d.hi < 8 * d.width.bytes

theorem sysDesc_bounds (f : SysField) : (sysDesc f).inBounds ∧ (sysDesc f).off < 24 := by
  cases f <;> decide

theorem chanDesc_bounds (f : ChanField) (d : Desc) (h : chanDesc f = some d) :
    d.off + d.width.bytes ≤ 14 ∧ d.lo ≤ d.hi ∧ d.hi < 8 * d.width.bytes := by
  cases f <;> simp only [chanDesc, Option.some.injEq, reduceCtorEq] at h <;> subst h <;> decide

/-- Every field's container lies inside the image (20_memory.md R82, R83). -/
theorem fieldDesc_bounds (f : RegField) (c : Chan) (d : Desc) (h : fieldDesc f c = some d) :
    d.inBounds := by
  cases f with
  | sys g =>
    simp only [fieldDesc, Option.some.injEq] at h
    subst h
    exact (sysDesc_bounds g).1
  | chan g =>
    simp only [fieldDesc, Option.map_eq_some_iff] at h
    obtain ⟨k, hk, rfl⟩ := h
    obtain ⟨h1, h2, h3⟩ := chanDesc_bounds g k hk
    refine ⟨?_, h2, h3⟩
    have := c.isLt
    simp only [chanBase]
    omega

/-- Only LOCAL_CAP_SIZE has no descriptor. -/
theorem fieldDesc_eq_none (f : RegField) (c : Chan) :
    fieldDesc f c = none ↔ f = .chan .localCapSize := by
  cases f with
  | sys g => simp [fieldDesc]
  | chan g => cases g <;> simp [fieldDesc, chanDesc]

/-- A field's descriptor in two channels differs only in its offset. -/
theorem fieldDesc_channel (f : RegField) (c e : Chan) (d : Desc) (h : fieldDesc f c = some d) :
    ∃ d', fieldDesc f e = some d' ∧ d'.kind = d.kind ∧ d'.width = d.width ∧ d'.hi = d.hi ∧
      d'.lo = d.lo := by
  cases f with
  | sys g =>
    simp only [fieldDesc, Option.some.injEq] at h
    subst h
    exact ⟨_, rfl, rfl, rfl, rfl, rfl⟩
  | chan g =>
    simp only [fieldDesc, Option.map_eq_some_iff] at h
    obtain ⟨k, hk, rfl⟩ := h
    exact ⟨{ k with off := chanBase e + k.off }, by simp [fieldDesc, hk], rfl, rfl, rfl, rfl⟩

/-! ### What storing field bits does -/

/-- Only EVENT_MASK has bits a set does not store (10_state.md R45). -/
theorem writable_of_ne (f : RegField) (d : Desc) (h : f ≠ .sys .eventMask) : writable f d = d :=
  if_neg h

/-- What a set stores lies in the field's container, from its lowest bit on. -/
theorem writable_shape (f : RegField) (d : Desc) :
    (writable f d).off = d.off ∧ (writable f d).width = d.width ∧ (writable f d).lo = d.lo ∧
      (writable f d).kind = d.kind := by
  unfold writable
  split <;> exact ⟨rfl, rfl, rfl, rfl⟩

/-- The stored bits are field bits, inside the container. -/
theorem writable_bounds (f : RegField) (c : Chan) (d : Desc) (h : fieldDesc f c = some d) :
    (writable f d).inBounds ∧ (writable f d).hi ≤ d.hi := by
  unfold writable
  split
  · rename_i hf
    subst hf
    simp only [fieldDesc, Option.some.injEq] at h
    subst h
    decide
  · exact ⟨fieldDesc_bounds f c d h, Nat.le_refl _⟩

theorem fieldBit_of_desc (f : RegField) (c : Chan) (d : Desc) (h : fieldDesc f c = some d)
    (a j : Nat) : fieldBit f c a j = (writable f d).covers a j := by
  simp only [fieldBit, h]

/-- The position in the container of byte `a`, bit `j`. -/
def Desc.position (d : Desc) (a j : Nat) : Nat :=
  match d.width with
  | .byte => j
  | .word => if a = d.off then j + 8 else j

theorem getLsbD_readContainer_word (P : Params) (m : Memory) (off i : Nat) :
    (m.readContainer P off .word).getLsbD i =
      if i < 8 then m.bit P (off + 1) i else m.bit P off (i - 8) := by
  simp only [Memory.readContainer, Memory.bit, BitVec.getLsbD_append]

theorem getLsbD_readContainer_byte (P : Params) (m : Memory) (off i : Nat) :
    (m.readContainer P off .byte).getLsbD i = m.bit P off i := by
  simp only [Memory.readContainer, Memory.bit, BitVec.getLsbD_setWidth]
  by_cases h : i < 16
  · simp [h]
  · rw [BitVec.getLsbD_of_ge (m.read P off) i (by omega)]; simp

/-- Storing field bits writes the descriptor's bits and keeps every other bit of the image
(41_field_codec.md R153, R166). -/
theorem bit_writeBits (P : Params) (m : Memory) (d : Desc) (r : Half) (hd : d.inBounds) (a j : Nat)
    (hj : j < 8) :
    (writeBits P m d r).bit P a j =
      if d.covers a j then r.getLsbD (d.position a j - d.lo) else m.bit P a j := by
  obtain ⟨off, w, hi, lo, k⟩ := d
  obtain ⟨h1, h2, h3⟩ := hd
  cases w with
  | byte =>
    simp only [Width.bytes] at h1 h2 h3
    simp only [writeBits, Memory.bit, Desc.covers, Desc.position]
    rw [Memory.read_writeContainer_byte P m off _ a (by omega)]
    by_cases ha : a = off
    · subst ha
      rw [if_pos rfl, BitVec.getLsbD_setWidth, getLsbD_insertBits _ _ _ _ _ h2 (by omega),
        getLsbD_readContainer_byte]
      by_cases hb : lo ≤ j ∧ j ≤ hi
      · simp [hj, hb]
      · have : (decide (lo ≤ j) && decide (j ≤ hi)) = false := by simpa using hb
        simp [hj, hb, Memory.bit]
    · simp [ha]
  | word =>
    simp only [Width.bytes] at h1 h2 h3
    simp only [writeBits, Memory.bit, Desc.covers, Desc.position]
    rw [Memory.read_writeContainer_word P m off _ a (by omega)]
    by_cases ha : a = off + 1
    · have hne : ¬a = off := by omega
      rw [if_pos ha, BitVec.getLsbD_setWidth, getLsbD_insertBits _ _ _ _ _ h2 (by omega),
        getLsbD_readContainer_word _ _ _ _]
      by_cases hb : lo ≤ j ∧ j ≤ hi
      · simp [hj, hb, ha]
      · simp [hj, hb, ha, Memory.bit]
    · by_cases ha' : a = off
      · subst ha'
        rw [if_neg ha, if_pos rfl, BitVec.getLsbD_extractLsb',
          getLsbD_insertBits _ _ _ _ _ h2 (by omega), getLsbD_readContainer_word _ _ _ _]
        by_cases hb : lo ≤ j + 8 ∧ j + 8 ≤ hi
        · have hb' : lo ≤ 8 + j ∧ 8 + j ≤ hi := by omega
          simp [hj, hb, Nat.add_comm 8 j]
        · have hb' : ¬(lo ≤ 8 + j ∧ 8 + j ≤ hi) := by omega
          have h8 : ¬(8 + j < 8) := by omega
          simp [hj, hb, hb', Memory.bit]
      · simp [ha, ha']

/-- Storing field bits keeps the canonical form. -/
theorem wf_writeBits (P : Params) (m : Memory) (d : Desc) (r : Half) (h : m.wf P = true) :
    (writeBits P m d r).wf P = true := Memory.wf_writeContainer P m _ _ _ h

/-- Two bytes with the same eight bits are equal. -/
theorem byte_ext (x y : Byte) (h : ∀ j, j < 8 → x.getLsbD j = y.getLsbD j) : x = y := by
  ext i hi
  exact h i hi

theorem Memory.read_ext (P : Params) (m n : Memory) (a : Nat)
    (h : ∀ j, j < 8 → m.bit P a j = n.bit P a j) : m.read P a = n.read P a := byte_ext _ _ h

/-- A container depends only on the bits it holds. -/
theorem readContainer_congr (P : Params) (m n : Memory) (off : Nat) (w : Width)
    (h : ∀ a, off ≤ a → a < off + w.bytes → m.read P a = n.read P a) :
    m.readContainer P off w = n.readContainer P off w := by
  cases w with
  | byte => simp only [Memory.readContainer, h off (Nat.le_refl _) (by simp [Width.bytes])]
  | word =>
    simp only [Memory.readContainer, h off (Nat.le_refl _) (by simp [Width.bytes]),
      h (off + 1) (by omega) (by simp [Width.bytes])]

/-- What was stored is what is read back (R153). -/
theorem readBits_writeBits (P : Params) (m : Memory) (d : Desc) (r : Half) (hd : d.inBounds)
    (hr : r.toNat < 2 ^ (d.hi - d.lo + 1)) : readBits P (writeBits P m d r) d = r := by
  obtain ⟨off, w, hi, lo, k⟩ := d
  obtain ⟨h1, h2, h3⟩ := hd
  cases w with
  | byte =>
    simp only [Width.bytes] at h1 h2 h3 hr
    simp only [readBits, writeBits]
    rw [Memory.readContainer_writeContainer_byte P m off _ (by omega)]
    have hc : ((insertBits (m.readContainer P off .byte) hi lo r).setWidth 8).setWidth 16 =
        insertBits (m.readContainer P off .byte) hi lo r := by
      ext i hi'
      simp only [← BitVec.getLsbD_eq_getElem, BitVec.getLsbD_setWidth]
      by_cases h8 : i < 8
      · simp [hi', h8]
      · rw [getLsbD_insertBits _ _ _ _ _ h2 hi', if_neg (by omega), getLsbD_readContainer_byte,
          Memory.bit, BitVec.getLsbD_of_ge _ i (by omega)]
        simp [h8]
    rw [hc]
    exact extractBits_insertBits _ _ _ _ h2 (by omega) hr
  | word =>
    simp only [Width.bytes] at h1 h2 h3 hr
    simp only [readBits, writeBits]
    rw [Memory.readContainer_writeContainer_word P m off _ (by omega)]
    exact extractBits_insertBits _ _ _ _ h2 (by omega) hr

/-- A field's bits are below 2^w. -/
theorem readBits_lt (P : Params) (m : Memory) (d : Desc) :
    (readBits P m d).toNat < 2 ^ (d.hi - d.lo + 1) := extractBits_lt _ _ _

/-- Storing what was read changes no bit. -/
theorem bit_writeBits_readBits (P : Params) (m : Memory) (d : Desc) (hd : d.inBounds) (a j : Nat)
    (hj : j < 8) : (writeBits P m d (readBits P m d)).bit P a j = m.bit P a j := by
  rw [bit_writeBits P m d _ hd a j hj]
  split
  · rename_i hc
    obtain ⟨off, w, hi, lo, k⟩ := d
    obtain ⟨h1, h2, h3⟩ := hd
    cases w with
    | byte =>
      simp only [Width.bytes] at h3
      simp only [Desc.covers, Bool.and_eq_true, beq_iff_eq, decide_eq_true_eq] at hc
      obtain ⟨⟨rfl, hl⟩, hh⟩ := hc
      simp only [readBits, Desc.position, getLsbD_extractBits]
      have e : lo + (j - lo) = j := by omega
      rw [e, getLsbD_readContainer_byte]
      have : j - lo < hi - lo + 1 := by omega
      simp [this]
    | word =>
      simp only [Width.bytes] at h3
      simp only [Desc.covers, Bool.or_eq_true, Bool.and_eq_true, beq_iff_eq, decide_eq_true_eq] at hc
      simp only [readBits, Desc.position, getLsbD_extractBits]
      rcases hc with ⟨⟨rfl, hl⟩, hh⟩ | ⟨⟨rfl, hl⟩, hh⟩
      · have e : lo + (j + 8 - lo) = j + 8 := by omega
        rw [if_pos rfl, e, getLsbD_readContainer_word _ _ _ _]
        have : j + 8 - lo < hi - lo + 1 := by omega
        simp [this]
      · have e : lo + (j - lo) = j := by omega
        rw [if_neg (by omega), e, getLsbD_readContainer_word _ _ _ _]
        have : j - lo < hi - lo + 1 := by omega
        simp [this, hj]
  · rfl

/-! ### The composite local-capacitance field -/

/-- LOCAL_CAP_SIZE's bits in the two engine words, as a descriptor of each (41_field_codec.md
R159). -/
def dblDesc (c : Chan) : Desc := ⟨engineA c, .word, dblBit, dblBit, .bool⟩
/-- EN's bit, see `dblDesc`. -/
def enDesc (c : Chan) : Desc := ⟨engineB c, .word, enBit, enBit, .bool⟩

theorem dblDesc_bounds (c : Chan) : (dblDesc c).inBounds := by
  revert c; decide
theorem enDesc_bounds (c : Chan) : (enDesc c).inBounds := by
  revert c; decide

/-- The one bit of the image DBL stands in (R159). -/
theorem covers_dblDesc (c : Chan) (a j : Nat) (hj : j < 8) :
    (dblDesc c).covers a j = decide (a = engineA c ∧ j = 4) := by
  have e : (dblDesc c).covers a j =
      ((a == engineA c && decide (12 ≤ j + 8) && decide (j + 8 ≤ 12)) ||
        (a == engineA c + 1 && decide (12 ≤ j) && decide (j ≤ 12))) := rfl
  rw [e, Bool.eq_iff_iff]
  simp only [Bool.or_eq_true, Bool.and_eq_true, beq_iff_eq, decide_eq_true_eq]
  omega

/-- The one bit of the image EN stands in (R159). -/
theorem covers_enDesc (c : Chan) (a j : Nat) (hj : j < 8) :
    (enDesc c).covers a j = decide (a = engineB c ∧ j = 5) := by
  have e : (enDesc c).covers a j =
      ((a == engineB c && decide (13 ≤ j + 8) && decide (j + 8 ≤ 13)) ||
        (a == engineB c + 1 && decide (13 ≤ j) && decide (j ≤ 13))) := rfl
  rw [e, Bool.eq_iff_iff]
  simp only [Bool.or_eq_true, Bool.and_eq_true, beq_iff_eq, decide_eq_true_eq]
  omega

/-- The two engine words do not meet, so writing both is writing each in turn. -/
theorem writeLocalCap_eq (P : Params) (m : Memory) (c : Chan) (en dbl : Bool) :
    writeLocalCap P m c en dbl =
      writeBits P (writeBits P m (dblDesc c) (BitVec.ofNat 16 (boolNat dbl))) (enDesc c)
        (BitVec.ofNat 16 (boolNat en)) := by
  have hc := c.isLt
  have h : (writeBits P m (dblDesc c) (BitVec.ofNat 16 (boolNat dbl))).readContainer P (engineB c)
      .word = m.readContainer P (engineB c) .word := by
    refine readContainer_congr P _ _ _ _ fun a h1 h2 => ?_
    refine Memory.read_writeContainer_other P m _ _ _ _ (.inr ?_)
    simp only [engineB, dblDesc, engineA, Width.bytes] at h1 ⊢
    omega
  simp only [writeLocalCap, writeBits] at h ⊢
  simp only [enDesc, h]
  rfl

/-- What LOCAL_CAP_SIZE's two bits do to the image: EN is bit 5 of ENGINE_B's high byte, DBL bit 4
of ENGINE_A's, and every other bit is kept (R166). -/
theorem bit_writeLocalCap (P : Params) (m : Memory) (c : Chan) (en dbl : Bool) (a j : Nat)
    (hj : j < 8) :
    (writeLocalCap P m c en dbl).bit P a j =
      if a = engineB c ∧ j = 5 then en else if a = engineA c ∧ j = 4 then dbl
      else m.bit P a j := by
  have hb : ∀ b : Bool, (BitVec.ofNat 16 (boolNat b)).getLsbD 0 = b := by decide
  have hAB : engineB c = engineA c + 2 := by simp only [engineA, engineB]
  rw [writeLocalCap_eq, bit_writeBits _ _ _ _ (enDesc_bounds c) _ _ hj,
    bit_writeBits _ _ _ _ (dblDesc_bounds c) _ _ hj]
  simp only [covers_enDesc c a j hj, covers_dblDesc c a j hj, decide_eq_true_eq]
  split
  · rename_i h1
    obtain ⟨rfl, rfl⟩ := h1
    simpa [Desc.position, enDesc, enBit] using hb en
  · split
    · rename_i h2
      obtain ⟨rfl, rfl⟩ := h2
      simpa [Desc.position, dblDesc, dblBit] using hb dbl
    · rfl

/-- get(LOCAL_CAP_SIZE) reads those two bits (R160). -/
theorem getLocalCap_eq (P : Params) (m : Memory) (c : Chan) :
    getLocalCap P m c = lcapDecode (m.bit P (engineB c) 5) (m.bit P (engineA c) 4) := by
  simp only [getLocalCap, enBit, dblBit, getLsbD_readContainer_word _ _ _ _]
  rfl

theorem wf_writeLocalCap (P : Params) (m : Memory) (c : Chan) (en dbl : Bool) (h : m.wf P = true) :
    (writeLocalCap P m c en dbl).wf P = true := by
  rw [writeLocalCap_eq]
  exact wf_writeBits P _ _ _ (wf_writeBits P m _ _ h)

/-! ### encode -/

/-- An encoded value fits the field (41_field_codec.md R153: "encode has already checked the
range"). -/
theorem encodeValue_lt (P : Params) (d : Desc) (v r : Nat) (h : encodeValue P d v = .ok r)
    (hw : d.kind = .atiBase → d.hi - d.lo + 1 = 2) : r < 2 ^ (d.hi - d.lo + 1) := by
  have hp : 0 < 2 ^ (d.hi - d.lo + 1) := Nat.two_pow_pos _
  have hf : d.fmax < 2 ^ (d.hi - d.lo + 1) := by simp only [Desc.fmax]; omega
  unfold encodeValue at h
  split at h
  · split at h
    · cases h
    · cases h; omega
  · split at h
    · cases h
    · cases h; omega
  · split at h
    · cases h
    · cases h; omega
  · split at h
    · cases h
    · cases h; omega
  · rename_i k _
    split at h
    · cases h
    · cases h
      rename_i hle
      exact Nat.lt_of_le_of_lt (Nat.div_le_of_le_mul (by rw [Nat.mul_comm]; omega)) hf
  · rename_i hk
    rw [hw hk]
    unfold baseCode at h
    split at h <;> cases h <;> decide

/-- The ATI base is a two-bit field (R158). -/
theorem fieldDesc_atiBase (f : RegField) (c : Chan) (d : Desc) (h : fieldDesc f c = some d)
    (hk : d.kind = .atiBase) : d.hi - d.lo + 1 = 2 := by
  cases f with
  | sys g =>
    simp only [fieldDesc, Option.some.injEq] at h
    subst h
    cases g <;> simp [sysDesc] at hk
  | chan g =>
    simp only [fieldDesc, Option.map_eq_some_iff] at h
    obtain ⟨k, hk', rfl⟩ := h
    cases g <;> simp only [chanDesc, Option.some.injEq, reduceCtorEq] at hk' <;> subst hk' <;>
      simp at hk ⊢

/-! ### get and set -/

/-- A successful set, said once (R163): LOCAL_CAP_SIZE writes its two bits; any other field stores
its encoded value in the bits a set of it may store. -/
theorem setField_cases (P : Params) (m m' : Memory) (f : RegField) (c : Chan) (v : Nat)
    (h : setField P m f c v = .ok m') :
    (f = .chan .localCapSize ∧ ∃ en dbl, lcapEncode v = .ok (en, dbl) ∧
      m' = writeLocalCap P m c en dbl) ∨
    (∃ d r, fieldDesc f c = some d ∧ encodeValue P d v = .ok r ∧ r < 2 ^ (d.hi - d.lo + 1) ∧
      m' = writeBits P m (writable f d) (BitVec.ofNat 16 r)) := by
  unfold setField at h
  split at h
  · rename_i hd
    split at h
    · cases h
    · rename_i en dbl he
      cases h
      exact .inl ⟨(fieldDesc_eq_none f c).mp hd, en, dbl, he, rfl⟩
  · rename_i d hd
    split at h
    · cases h
    · rename_i r he
      cases h
      exact .inr ⟨d, r, hd, he,
        encodeValue_lt P d v r he (fieldDesc_atiBase f c d hd), rfl⟩

/-- A set keeps the canonical form. -/
theorem wf_setField (P : Params) (m m' : Memory) (f : RegField) (c : Chan) (v : Nat)
    (h : setField P m f c v = .ok m') (hm : m.wf P = true) : m'.wf P = true := by
  rcases setField_cases P m m' f c v h with ⟨-, en, dbl, -, rfl⟩ | ⟨d, r, -, -, -, rfl⟩
  · exact wf_writeLocalCap P m c en dbl hm
  · exact wf_writeBits P m _ _ hm

theorem wf_setSysBits (P : Params) (m : Memory) (f : SysField) (r : Half) (h : m.wf P = true) :
    (setSysBits P m f r).wf P = true := wf_writeBits P m _ r h

/-- A plain assignment to a system field, bit by bit. -/
theorem bit_setSysBits (P : Params) (m : Memory) (f : SysField) (r : Half) (a j : Nat) (hj : j < 8) :
    (setSysBits P m f r).bit P a j =
      if (sysDesc f).covers a j then r.getLsbD ((sysDesc f).position a j - (sysDesc f).lo)
      else m.bit P a j :=
  bit_writeBits P m _ r (sysDesc_bounds f).1 a j hj

/-! ### The channel operand -/

/-- resolveCh answers the channel the operand names (30_encoding.md R114). -/
theorem State.resolveCh_of_names (s : State) (ch : Fin 16) (c : Chan) (h : s.namesChannel ch c) :
    s.resolveCh ch = .ok c := by
  rcases h with h | ⟨rfl, rfl⟩
  · have hlt : ch.val < 8 := h ▸ c.isLt
    rw [State.resolveCh, dif_pos hlt]
    exact congrArg _ (Fin.ext h)
  · rfl

/-- CH 8 to 14 is OutOfRange (R114). -/
theorem State.resolveCh_bad (s : State) (ch : Fin 16) (h1 : 8 ≤ ch.val) (h2 : ch.val ≤ 14) :
    s.resolveCh ch = .error .outOfRange := by
  have hne : ch ≠ 15 := fun h => by subst h; simp at h2
  rw [State.resolveCh, dif_neg (by omega), if_neg hne]

/-- The channel of a field command (41_field_codec.md R164). -/
theorem State.fieldChannel_of_names (s : State) (f : RegField) (ch : Fin 16) (c : Chan)
    (h : s.namesField f ch c) :
    ∃ c', s.fieldChannel f ch = .ok c' ∧ fieldDesc f c' = fieldDesc f c ∧
      (∀ g, f = .chan g → c' = c) := by
  cases f with
  | sys g => exact ⟨0, rfl, rfl, fun g hg => by cases hg⟩
  | chan g => exact ⟨c, s.resolveCh_of_names ch c h, rfl, fun _ _ => rfl⟩

end Sys2Proof.Machine
end

