-- ==== Sys2Proof/Laws/Ops.lean ====
section
/-! SUPPORT. The spec lemmas of how a command ends and of the checks the commands share: one lemma
per shared operation, in the words the claims use. -/

namespace Sys2Proof.Machine

/-! ### How a command ends on a host port -/

/-- `return` on a host port writes STATUS = OK and nothing else (00_scope.md R15). -/
theorem State.complete_onHost (s : State) (p : Nat) (h : s.issuer = .host p) :
    s.complete = s.onlyStatus p 0 := by
  rw [State.complete, h]; rfl

/-- `raise E` on a host port writes STATUS and nothing else (R14). -/
theorem State.raise_onHost (s : State) (p : Nat) (e : Status) (h : s.issuer = .host p) :
    s.raise e = s.onlyStatus p e.code := by
  rw [State.raise, h]; rfl

/-- A result on a host port goes to DOUT, with STATUS = OK (30_encoding.md R117). -/
theorem State.answer_onHost (s : State) (p : Nat) (v : Nat) (h : s.onHost p) :
    s.answer v = s.withHostRegs p ((s.port (.host p)).answered (s.doutOf v)) := by
  simp only [State.answer, State.complete, State.setDout_issuer, h.1]
  rw [State.setStatus, State.setDout, State.port_setPort_host s p _ h.2, State.setPort_setPort]
  rfl

/-- A wait sets PENDING and writes no status (45_calibration_sync.md R381, D56). -/
theorem State.beginWait_onHost (s : State) (p : Nat) (h : s.issuer = .host p) :
    s.beginWait = s.withHostRegs p { s.port (.host p) with pending := true } := by
  rw [State.beginWait, h]; rfl

/-- The end of a build that failed: DOUT and STATUS (43_configuration.md R263). -/
theorem State.endBuild_error_onHost (s : State) (p : Nat) (cfg : Cfg) (x : BuildError)
    (h : s.onHost p) :
    s.endBuild cfg (.error x) = s.withHostRegs p
      { s.port (.host p) with dout := x.context, status := x.status.code } := by
  simp only [State.endBuild, State.raise, State.setDout_issuer, h.1]
  rw [State.setStatus, State.setDout, State.port_setPort_host s p _ h.2, State.setPort_setPort]
  rfl

/-- A value below 2^32 is what DOUT takes (30_encoding.md R117). -/
theorem State.doutOf_lt (s : State) (v : Nat) (h : v < 2 ^ 32) : s.doutOf v = BitVec.ofNat 32 v := by
  rw [State.doutOf, if_pos h]

/-! ### How SNAP_DECODE ends on the interrupt input -/

theorem State.complete_onIrq (s : State) (h : s.issuer = .irq) :
    s.complete = { s with irqStatus := 0 } := by
  cases s; cases h; rfl

theorem State.raise_onIrq (s : State) (e : Status) (h : s.issuer = .irq) :
    s.raise e = { s with irqStatus := e.code } := by
  cases s; cases h; rfl

theorem State.answer_onIrq (s : State) (v : Nat) (h : s.issuer = .irq) :
    s.answer v = { s with irqDout := s.doutOf v, irqStatus := 0 } := by
  cases s; cases h; rfl

/-! ### Admission -/

/-- On a host port the first check is admission by PHASE (30_encoding.md R116). -/
theorem State.hostRefusal_onHost (s : State) (p : Nat) (k : Admission) (h : s.issuer = .host p) :
    s.hostRefusal k = k.refusal s.phase := by
  rw [State.hostRefusal, h]

/-- On the interrupt input a host command is refused (R115(g)). -/
theorem State.hostRefusal_onIrq (s : State) (k : Admission) (h : s.issuer = .irq) :
    s.hostRefusal k = some .illegalCommand := by
  rw [State.hostRefusal, h]

theorem State.irqRefusal_onHost (s : State) (p : Nat) (k : Admission) (h : s.issuer = .host p) :
    s.irqRefusal k = some .illegalCommand := by
  rw [State.irqRefusal, h]

theorem State.irqRefusal_onIrq (s : State) (k : Admission) (h : s.issuer = .irq) :
    s.irqRefusal k = k.refusal s.phase := by
  rw [State.irqRefusal, h]

/-- The row `configured` of the admission table (10_state.md R36). -/
theorem Admission.refusal_configured (ph : Phase) :
    Admission.configured.refusal ph = if ph = .unconfigured then some .notReady else none := by
  cases ph <;> rfl

/-- The row `armed`. -/
theorem Admission.refusal_armed (ph : Phase) :
    Admission.armed.refusal ph = if ph = .armed then none else some .notReady := by
  cases ph <;> rfl

/-- The row `build`. -/
theorem Admission.refusal_build (ph : Phase) :
    Admission.build.refusal ph = if ph = .unconfigured then none else some .illegalCommand := by
  cases ph <;> rfl

/-- The row `init`. -/
theorem Admission.refusal_init (ph : Phase) :
    Admission.init.refusal ph =
      if ph = .configured then none
      else some (if ph = .unconfigured then .notReady else .illegalCommand) := by
  cases ph <;> rfl

@[simp] theorem unlessRefused_none {α : Type} (r : Except Status α) : unlessRefused none r = r := rfl
@[simp] theorem unlessRefused_some {α : Type} (e : Status) (r : Except Status α) :
    unlessRefused (some e) r = .error e := rfl

@[simp] theorem State.endGet_ok (s : State) (v : Nat) : s.endGet (.ok v) = s.answer v := rfl
@[simp] theorem State.endGet_error (s : State) (e : Status) : s.endGet (.error e) = s.raise e := rfl
@[simp] theorem State.endSet_ok (s t : State) : s.endSet (.ok t) = t.complete := rfl
@[simp] theorem State.endSet_error (s : State) (e : Status) : s.endSet (.error e) = s.raise e := rfl

/-! ### The image -/

/-- The forcing keeps the canonical form (43_configuration.md R280). -/
theorem wf_forceImage (P : Params) (codes : SliderCodes) (j : Memory) (redo hs : Bool)
    (h : j.wf P = true) : (forceImage P codes j redo hs).wf P = true := by
  simp only [forceImage]
  have hj := wf_setSysBits P _ .redoAtiMask
    (sysBits P (setSysBits P (setSysBits P (setSysBits P (setSysBits P j .genEventMode 1)
      .genEventModeLp (BitVec.ofNat 16 (boolNat (anyRaw P codes (setSysBits P j .genEventMode 1)))))
      .genAckReset 1) .genRedoAti (BitVec.ofNat 16 (boolNat redo))) .active)
    (wf_setSysBits P _ .genRedoAti (BitVec.ofNat 16 (boolNat redo))
      (wf_setSysBits P _ .genAckReset 1 (wf_setSysBits P _ .genEventModeLp
        (BitVec.ofNat 16 (boolNat (anyRaw P codes (setSysBits P j .genEventMode 1))))
        (wf_setSysBits P j .genEventMode 1 h))))
  split
  · exact Memory.wf_write P _ _ _ hj
  · exact hj

/-- The 136 bytes of an image (43_configuration.md R282). -/
@[simp] theorem Memory.bytes_length (P : Params) (m : Memory) : (m.bytes P).length = 136 := by
  simp [Memory.bytes]

/-- A full-image write, said once (R281): the bus record grows by the write; on Ok the image is the
forced one and STALE follows REDO_ATI; on Err nothing else changes. -/
theorem State.fullWrite_cases (s : State) (redo : Bool) :
    (s.side.busw = .ok ∧ s.fullWrite redo =
      { s with
        img := s.forced redo, stale := staleAfterWrite redo s.stale,
        bus := s.bus ++ [.writeImage s.params.imgBase ((s.forced redo).bytes s.params) .ok] }) ∨
    (s.side.busw = .err ∧ s.fullWrite redo =
      { s with
        bus := s.bus ++ [.writeImage s.params.imgBase ((s.forced redo).bytes s.params) .err] }) := by
  unfold State.fullWrite
  cases h : s.side.busw
  · exact .inl ⟨rfl, rfl⟩
  · exact .inr ⟨rfl, rfl⟩

end Sys2Proof.Machine
end

