-- ==== Sys2Proof/Laws/Step.lean ====
section
/-! SUPPORT. What one step can do, said once: the inversion of a step into its turn, and of a turn
into what it does; then the inversion of every command. -/

namespace Sys2Proof.Machine

/-! ### A step is its turn -/

theorem step_cons (s : State) (t : Turn) (rest : List Turn) (h : s.agenda = t :: rest) :
    step s = takeTurn t (s.nextTurn rest) := by
  unfold step stepAgenda; rw [h]

theorem step_nil (s : State) (h : s.agenda = []) : step s = .next s := by
  unfold step stepAgenda; rw [h]

/-- A step that answers a next state took no turn, or the first one. -/
theorem step_cases (s t : State) (h : step s = .next t) :
    (s.agenda = [] ∧ t = s) ∨
    ∃ turn rest, s.agenda = turn :: rest ∧ takeTurn turn (s.nextTurn rest) = .next t := by
  rcases ha : s.agenda with _ | ⟨turn, rest⟩
  · rw [step_nil s ha] at h
    cases h
    exact .inl ⟨rfl, rfl⟩
  · rw [step_cons s turn rest ha] at h
    exact .inr ⟨turn, rest, rfl, h⟩

/-- An interrupt runs SNAP_DECODE: the word of PORT[IRQ] is fixed (10_state.md R31). -/
theorem takeTurn_interrupt (s : State) (side : SidePorts) :
    takeTurn (.interrupt side) s = exec .snapDecode (s.issue .irq side) := by
  have hd : decode irqCmd = .ok .snapDecode := by decide
  have e : takeTurn (.interrupt side) s = runWord irqCmd (s.issue .irq side) := rfl
  rw [e]
  simp only [runWord, hd]

/-- What a turn that answers a next state did: a host's register write, a command of a port that did
not wait, an interrupt, or the end of a wait (60_exceptions.md R420). -/
theorem takeTurn_cases (turn : Turn) (s t : State) (h : takeTurn turn s = .next t) :
    (∃ p v, turn = .setCmd p v ∧ p < s.ports.length ∧
      t = s.withHostRegs p { s.port (.host p) with cmd := v }) ∨
    (∃ p v, turn = .setDin p v ∧ p < s.ports.length ∧
      t = s.withHostRegs p { s.port (.host p) with din := v }) ∨
    (∃ p side, turn = .command p side ∧ p < s.ports.length ∧ (s.port (.host p)).pending = false ∧
      runWord (s.port (.host p)).cmd (s.issue (.host p) side) = .next t) ∨
    (∃ side, turn = .interrupt side ∧ exec .snapDecode (s.issue .irq side) = .next t) ∨
    (∃ p, turn = .complete p ∧ p < s.ports.length ∧ (s.port (.host p)).pending = true ∧
      s.gate = .ready ∧ t = s.completeWait (.host p)) ∨
    (∃ p, turn = .timeout p ∧ p < s.ports.length ∧ (s.port (.host p)).pending = true ∧
      t = s.timeoutWait (.host p)) := by
  cases turn with
  | setCmd p v =>
    simp only [takeTurn] at h
    split at h
    · rename_i hp; cases h; exact .inl ⟨p, v, rfl, hp, rfl⟩
    · cases h
  | setDin p v =>
    simp only [takeTurn] at h
    split at h
    · rename_i hp; cases h; exact .inr (.inl ⟨p, v, rfl, hp, rfl⟩)
    · cases h
  | command p side =>
    simp only [takeTurn] at h
    split at h
    · rename_i hp
      split at h
      · cases h
      · rename_i hq
        exact .inr (.inr (.inl ⟨p, side, rfl, hp, by simpa using hq, h⟩))
    · cases h
  | interrupt side => exact .inr (.inr (.inr (.inl ⟨side, rfl, takeTurn_interrupt s side ▸ h⟩)))
  | complete p =>
    simp only [takeTurn] at h
    split at h
    · rename_i hp
      split at h
      · rename_i hq
        cases h
        exact .inr (.inr (.inr (.inr (.inl ⟨p, rfl, hp, hq.1, hq.2, rfl⟩))))
      · cases h
    · cases h
  | timeout p =>
    simp only [takeTurn] at h
    split at h
    · rename_i hp
      split at h
      · rename_i hq
        cases h
        exact .inr (.inr (.inr (.inr (.inr ⟨p, rfl, hp, hq, rfl⟩))))
      · cases h
    · cases h

/-- A command turn of an existing port that does not wait runs the port's word. -/
theorem takeTurn_command (s : State) (p : Nat) (side : SidePorts) (hp : p < s.ports.length)
    (hq : (s.port (.host p)).pending = false) :
    takeTurn (.command p side) s = runWord (s.port (.host p)).cmd (s.issue (.host p) side) := by
  simp only [takeTurn, State.runPort, hp, hq, if_true, Bool.false_eq_true, if_false]

/-- The end of a wait by completion writes PENDING and STATUS alone (45_calibration_sync.md R382). -/
theorem State.completeWait_host (s : State) (p : Nat) (hp : p < s.ports.length) :
    s.completeWait (.host p) =
      s.withHostRegs p { s.port (.host p) with pending := false, status := 0 } := by
  simp only [State.completeWait, State.setStatus, State.setPending]
  rw [State.port_setPort_host s p _ hp, State.setPort_setPort]
  rfl

/-- The end of a wait by timeout, likewise (R383). -/
theorem State.timeoutWait_host (s : State) (p : Nat) (hp : p < s.ports.length) :
    s.timeoutWait (.host p) =
      s.withHostRegs p { s.port (.host p) with pending := false, status := 5 } := by
  simp only [State.timeoutWait, State.setStatus, State.setPending]
  rw [State.port_setPort_host s p _ hp, State.setPort_setPort]
  rfl

/-! ### What a command can do -/

/-- A command that reads ends with a value or an error, and writes nothing but its port. -/
theorem State.endGet_cases (s : State) (r : Except Status Nat) :
    (∃ v, r = .ok v ∧ s.endGet r = s.answer v) ∨ (∃ e, r = .error e ∧ s.endGet r = s.raise e) := by
  cases r with
  | ok v => exact .inl ⟨v, rfl, rfl⟩
  | error e => exact .inr ⟨e, rfl, rfl⟩

/-- A command that writes ends with the state it made, or an error. -/
theorem State.endSet_cases (s : State) (r : Except Status State) :
    (∃ t, r = .ok t ∧ s.endSet r = t.complete) ∨ (∃ e, r = .error e ∧ s.endSet r = s.raise e) := by
  cases r with
  | ok t => exact .inl ⟨t, rfl, rfl⟩
  | error e => exact .inr ⟨e, rfl, rfl⟩

theorem unlessRefused_ok {α : Type} (r : Option Status) (x : Except Status α) (a : α)
    (h : unlessRefused r x = .ok a) : r = none ∧ x = .ok a := by
  cases r with
  | none => exact ⟨rfl, h⟩
  | some e => cases h

theorem unlessRefused_error {α : Type} (r : Option Status) (x : Except Status α) (e : Status)
    (h : unlessRefused r x = .error e) : r = some e ∨ (r = none ∧ x = .error e) := by
  cases r with
  | none => exact .inr ⟨rfl, h⟩
  | some e' => cases h; exact .inl rfl

/-- The only refusals admission gives (10_state.md R36). -/
theorem Admission.refusal_cases (k : Admission) (ph : Phase) (e : Status)
    (h : k.refusal ph = some e) : e = .notReady ∨ e = .illegalCommand := by
  cases k <;> cases ph <;> cases h <;> first | exact .inl rfl | exact .inr rfl

/-- A stored field: IMG and STALE change, by a successful set (41_field_codec.md R163). -/
theorem State.storeField_ok (s t : State) (f : RegField) (c : Chan) (v : Nat)
    (h : s.storeField f c v = .ok t) :
    ∃ m, setField s.params s.img f c v = .ok m ∧ t = { s with img := m, stale := true } := by
  unfold State.storeField at h
  split at h
  · cases h
  · rename_i m hm
    cases h
    exact ⟨m, hm, rfl⟩

/-- A successful FLD_SET (R165). -/
theorem State.fldSetResult_ok (s t : State) (f : RegField) (ch : Fin 16)
    (h : s.fldSetResult f ch = .ok t) :
    s.fieldRefusal f = none ∧ ∃ c m, s.fieldChannel f ch = .ok c ∧
      setField s.params s.img f c s.din = .ok m ∧
      t = { s with
            img := m, stale := true,
            holdSpec := if f = .sys .touchHold then true else s.holdSpec } := by
  obtain ⟨hr, hx⟩ := unlessRefused_ok _ _ _ h
  refine ⟨hr, ?_⟩
  split at hx
  · cases hx
  · rename_i c hc
    split at hx
    · cases hx
    · rename_i u hu
      obtain ⟨m, hm, rfl⟩ := s.storeField_ok u f c s.din hu
      refine ⟨c, m, hc, hm, ?_⟩
      cases hx
      split <;> rfl

/-- A successful accessor SET (42_channel_accessors.md R200). -/
theorem State.chanSetResult_ok (s t : State) (f : ChanField) (ch : Fin 16)
    (bad : Nat → Option Status) (h : s.chanSetResult f ch bad = .ok t) :
    s.hostRefusal .configured = none ∧ ∃ c m, s.resolveCh ch = .ok c ∧ bad s.din = none ∧
      setField s.params s.img (.chan f) c s.din = .ok m ∧ t = { s with img := m, stale := true } := by
  obtain ⟨hr, hx⟩ := unlessRefused_ok _ _ _ h
  refine ⟨hr, ?_⟩
  split at hx
  · cases hx
  · rename_i c hc
    obtain ⟨hb, hs⟩ := unlessRefused_ok _ _ _ hx
    obtain ⟨m, hm, rfl⟩ := s.storeField_ok t (.chan f) c s.din hs
    exact ⟨c, m, hc, hb, hm, rfl⟩

/-- A field that exists by OTP_HOLD: TOUCH_HOLD only where OTP_HOLD = 1 (41_field_codec.md R161). -/
theorem State.fieldRefusal_none (s : State) (f : RegField) (h : s.fieldRefusal f = none) :
    fieldExists s.params f = true ∧ s.hostRefusal .configured = none := by
  unfold State.fieldRefusal at h
  split at h
  · exact ⟨‹_›, h⟩
  · cases h

/-- SNAP_DECODE after admission, said once (44_event_classifier.md R324): a failed read, a recovery,
a calibration in progress, or a full decode. -/
theorem State.snapDecode_cases (s : State) :
    (s.side.snap = none ∧ s.snapDecode =
      (s.logBus (.readSnap s.params.snapBase none)).raise .communicationError) ∨
    ∃ sn, s.side.snap = some sn ∧
      ((sn.sys.getLsbD 15 = true ∧ s.snapDecode =
          ((s.logBus (.readSnap s.params.snapBase (some sn))).fullWrite
            s.params.redoOnRecovery).endRecovery) ∨
        (sn.sys.getLsbD 15 = false ∧ sn.sys.getLsbD 10 = true ∧ s.snapDecode =
          (s.logBus (.readSnap s.params.snapBase (some sn))).answer 2) ∨
        (sn.sys.getLsbD 15 = false ∧ sn.sys.getLsbD 10 = false ∧ s.snapDecode =
          ((s.logBus (.readSnap s.params.snapBase (some sn))).emit
            (s.decodeReports sn)).releaseGate.answer 0)) := by
  rcases hs : s.side.snap with _ | sn
  · exact .inl ⟨rfl, by simp only [State.snapDecode, hs]⟩
  · refine .inr ⟨sn, rfl, ?_⟩
    simp only [State.snapDecode, hs, State.decodeSnap, Snap.reset, Snap.atiBusy]
    cases sn.sys.getLsbD 15
    · cases sn.sys.getLsbD 10
      · exact .inr (.inr ⟨rfl, rfl, rfl⟩)
      · exact .inr (.inl ⟨rfl, rfl, rfl⟩)
    · exact .inl ⟨rfl, rfl⟩

/-- What a command that answers a next state did to the block. The alternatives: an error; a result;
a stored field; the selector; the Hall switch; a counts read; a committed or failed build; IMG_INIT;
RECAL_TRIGGER; a wait; a decode. -/
inductive Ran (s : State) : Instr → State → Prop where
  | error (i : Instr) (e : Status) (he : e ≠ .ok) : Ran s i (s.raise e)
  | result (i : Instr) (v : Nat) : Ran s i (s.answer v)
  | nothing (i : Instr) : Ran s i s.complete
  | stored (i : Instr) (f : RegField) (c : Chan) (v : Nat) (m : Memory) (hs : Bool)
      (hp : s.phase ≠ .unconfigured) (hm : setField s.params s.img f c v = .ok m)
      (hh : hs = s.holdSpec ∨ (hs = true ∧ s.params.otpHold = true)) :
      Ran s i { s with img := m, stale := true, holdSpec := hs }.complete
  | selected (c : Chan) : Ran s .chSelSet { s with chSel := c }.complete
  | hall (b : Bool) : Ran s .hallEnSet { s with hallEn := b, stale := true }.complete
  | counts (ch : Fin 16) (c : Chan) (v : Nat) (x : Option (Byte × Byte)) (hp : s.phase = .armed) :
      Ran s (.countsRead ch) ((s.logBus (.readCounts s.params.countsBase[c] x)).answer v)
  | countsError (ch : Fin 16) (c : Chan) (x : Option (Byte × Byte)) (hp : s.phase = .armed) :
      Ran s (.countsRead ch)
        ((s.logBus (.readCounts s.params.countsBase[c] x)).raise .communicationError)
  | built (b : Build) (p : Nat) (hi : s.issuer = .host p) (hp : s.phase = .unconfigured)
      (hb : cfgBuild s.params s.img s.side.cfg = .ok b) :
      Ran s .cfgBuild (s.commitBuild s.side.cfg b).complete
  | notBuilt (x : BuildError) (hp : s.phase = .unconfigured)
      (hb : cfgBuild s.params s.img s.side.cfg = .error x) :
      Ran s .cfgBuild (s.endBuild s.side.cfg (.error x))
  | init (p : Nat) (hi : s.issuer = .host p) (hp : s.phase = .configured) :
      Ran s .imgInit (s.fullWrite true).endInit
  | recal (p : Nat) (hi : s.issuer = .host p) (hp : s.phase = .armed) (hd : s.din ≠ 0) :
      Ran s .recalTrigger (s.armGate.fullWrite true).endRecal
  | waits (p : Nat) (hi : s.issuer = .host p) (hp : s.phase = .armed) (hg : s.gate ≠ .ready) :
      Ran s .calWait s.beginWait
  | decoded (hi : s.issuer = .irq) (hp : s.phase = .armed) : Ran s .snapDecode s.snapDecode

/-- An error of an image operation or a check is not OK. -/
theorem encodeValue_error (P : Params) (d : Desc) (v : Nat) (e : Status)
    (h : encodeValue P d v = .error e) :
    (d.kind ≠ .atiBase ∧ e = .outOfRange) ∨ (d.kind = .atiBase ∧ e = .invalidEnum) := by
  unfold encodeValue at h
  split at h
  case h_6 hk =>
    unfold baseCode at h
    split at h <;> cases h
    exact .inr ⟨hk, rfl⟩
  all_goals
    rename_i hk
    split at h <;> cases h
    exact .inl ⟨by simp [hk], rfl⟩

theorem lcapEncode_error (v : Nat) (e : Status) (h : lcapEncode v = .error e) :
    e = .invalidEnum := by
  unfold lcapEncode at h
  split at h <;> cases h
  rfl

/-- The statuses a set can fail with (41_field_codec.md R163). -/
theorem setField_error (P : Params) (m : Memory) (f : RegField) (c : Chan) (v : Nat) (e : Status)
    (h : setField P m f c v = .error e) : e = .outOfRange ∨ e = .invalidEnum := by
  unfold setField at h
  split at h
  · split at h
    · rename_i x hx
      cases h
      exact .inr (lcapEncode_error v _ hx)
    · cases h
  · rename_i d _
    split at h
    · rename_i x hx
      cases h
      rcases encodeValue_error P d v _ hx with ⟨-, h⟩ | ⟨-, h⟩
      · exact .inl h
      · exact .inr h
    · cases h

/-- A get fails only on the local-capacitance pattern (0, 1) (R160). -/
theorem getField_error (P : Params) (m : Memory) (f : RegField) (c : Chan) (e : Status)
    (h : getField P m f c = .error e) : f = .chan .localCapSize ∧ e = .invalidEnum := by
  unfold getField at h
  split at h
  · rename_i hd
    refine ⟨(fieldDesc_eq_none f c).mp hd, ?_⟩
    unfold getLocalCap lcapDecode at h
    split at h <;> cases h
    rfl
  · cases h

theorem State.resolveCh_error (s : State) (ch : Fin 16) (e : Status)
    (h : s.resolveCh ch = .error e) : e = .outOfRange := by
  unfold State.resolveCh at h
  split at h
  · cases h
  · split at h <;> cases h
    rfl

theorem State.fieldChannel_error (s : State) (f : RegField) (ch : Fin 16) (e : Status)
    (h : s.fieldChannel f ch = .error e) : e = .outOfRange := by
  cases f with
  | sys g => cases h
  | chan g => exact s.resolveCh_error ch e h

/-- The refusals of a host command before its own checks (30_encoding.md R116). -/
theorem State.hostRefusal_some (s : State) (k : Admission) (e : Status)
    (h : s.hostRefusal k = some e) : e = .notReady ∨ e = .illegalCommand := by
  unfold State.hostRefusal at h
  split at h
  · cases h; exact .inr rfl
  · exact Admission.refusal_cases k _ e h

theorem State.fieldRefusal_some (s : State) (f : RegField) (e : Status)
    (h : s.fieldRefusal f = some e) : e = .notReady ∨ e = .illegalCommand := by
  unfold State.fieldRefusal at h
  split at h
  · exact s.hostRefusal_some .configured e h
  · cases h; exact .inr rfl

/-- The statuses FLD_GET can fail with (60_exceptions.md R412). -/
theorem State.fldGetResult_error (s : State) (f : RegField) (ch : Fin 16) (e : Status)
    (h : s.fldGetResult f ch = .error e) :
    e = .notReady ∨ e = .illegalCommand ∨ e = .outOfRange ∨ e = .invalidEnum := by
  rcases unlessRefused_error _ _ _ h with h | ⟨-, h⟩
  · rcases s.fieldRefusal_some f e h with h | h <;> simp [h]
  · split at h
    · rename_i x hx
      cases h
      simp [s.fieldChannel_error f ch _ hx]
    · simp [(getField_error _ _ _ _ _ h).2]

/-- The statuses FLD_SET can fail with. -/
theorem State.fldSetResult_error (s : State) (f : RegField) (ch : Fin 16) (e : Status)
    (h : s.fldSetResult f ch = .error e) :
    e = .notReady ∨ e = .illegalCommand ∨ e = .outOfRange ∨ e = .invalidEnum := by
  rcases unlessRefused_error _ _ _ h with h | ⟨-, h⟩
  · rcases s.fieldRefusal_some f e h with h | h <;> simp [h]
  · split at h
    · rename_i x hx
      cases h
      simp [s.fieldChannel_error f ch _ hx]
    · split at h
      · rename_i x hx
        cases h
        unfold State.storeField at hx
        split at hx <;> cases hx
        rename_i hm
        rcases setField_error _ _ _ _ _ _ hm with h | h <;> simp [h]
      · cases h

/-- An accessor GET of a field in one container fails only on its phase, issuer or channel. -/
theorem State.chanGetResult_error (s : State) (f : ChanField) (ch : Fin 16) (e : Status)
    (hf : f ≠ .localCapSize) (h : s.chanGetResult f ch = .error e) :
    e = .notReady ∨ e = .illegalCommand ∨ e = .outOfRange := by
  rcases unlessRefused_error _ _ _ h with h | ⟨-, h⟩
  · rcases s.hostRefusal_some .configured e h with h | h <;> simp [h]
  · split at h
    · rename_i x hx
      cases h
      simp [s.resolveCh_error ch _ hx]
    · exact absurd (RegField.chan.inj (getField_error _ _ _ _ _ h).1) hf

/-- An accessor SET fails as its own check says, where that check refuses everything the codec
refuses. -/
theorem State.chanSetResult_error (s : State) (f : ChanField) (ch : Fin 16)
    (bad : Nat → Option Status) (e : Status) (h : s.chanSetResult f ch bad = .error e) :
    e = .notReady ∨ e = .illegalCommand ∨ e = .outOfRange ∨ bad s.din = some e ∨
      (bad s.din = none ∧ ∃ c, setField s.params s.img (.chan f) c s.din = .error e) := by
  rcases unlessRefused_error _ _ _ h with h | ⟨-, h⟩
  · rcases s.hostRefusal_some .configured e h with h | h <;> simp [h]
  · split at h
    · rename_i x hx
      cases h
      simp [s.resolveCh_error ch _ hx]
    · rename_i c hc
      rcases unlessRefused_error _ _ _ h with h | ⟨hb, h⟩
      · simp [h]
      · unfold State.storeField at h
        split at h <;> cases h
        rename_i hm
        exact .inr (.inr (.inr (.inr ⟨hb, c, hm⟩)))

/-- COUNTS_READ's checks (42_channel_accessors.md R213). -/
theorem State.countsChannel_ok (s : State) (ch : Fin 16) (c : Chan)
    (h : s.countsChannel ch = .ok c) :
    s.hostRefusal .armed = none ∧ s.resolveCh ch = .ok c ∧ s.countsRefusal = none := by
  obtain ⟨hr, hx⟩ := unlessRefused_ok _ _ _ h
  split at hx
  · cases hx
  · rename_i c' hc
    obtain ⟨hb, hs⟩ := unlessRefused_ok _ _ _ hx
    cases hs
    exact ⟨hr, hc, hb⟩

theorem State.countsChannel_error (s : State) (ch : Fin 16) (e : Status)
    (h : s.countsChannel ch = .error e) :
    e = .notReady ∨ e = .illegalCommand ∨ e = .outOfRange ∨ e = .busy := by
  rcases unlessRefused_error _ _ _ h with h | ⟨-, h⟩
  · rcases s.hostRefusal_some .armed e h with h | h <;> simp [h]
  · split at h
    · rename_i x hx
      cases h
      simp [s.resolveCh_error ch _ hx]
    · rcases unlessRefused_error _ _ _ h with h | ⟨-, h⟩
      · unfold State.countsRefusal at h
        split at h
        · cases h; simp
        · split at h
          · cases h; simp
          · split at h <;> cases h
            simp
      · cases h

/-- The phase and issuer of an admitted host command. -/
theorem State.hostRefusal_none (s : State) (k : Admission) (h : s.hostRefusal k = none) :
    (∃ p, s.issuer = .host p) ∧ k.refusal s.phase = none := by
  unfold State.hostRefusal at h
  split at h
  · cases h
  · rename_i p hp
    exact ⟨⟨p, hp⟩, h⟩

theorem Admission.configured_none (ph : Phase) (h : Admission.configured.refusal ph = none) :
    ph ≠ .unconfigured := by
  rintro rfl; cases h

theorem Admission.armed_none (ph : Phase) (h : Admission.armed.refusal ph = none) :
    ph = .armed := by
  cases ph <;> first | rfl | cases h

theorem Admission.build_none (ph : Phase) (h : Admission.build.refusal ph = none) :
    ph = .unconfigured := by
  cases ph <;> first | rfl | cases h

theorem Admission.init_none (ph : Phase) (h : Admission.init.refusal ph = none) :
    ph = .configured := by
  cases ph <;> first | rfl | cases h

theorem Ran.ofGet (s : State) (i : Instr) (r : Except Status Nat)
    (he : ∀ e, r = .error e → e ≠ .ok) : Ran s i (s.endGet r) := by
  cases r with
  | ok v => exact .result i v
  | error e => exact .error i e (he e rfl)

theorem Ran.ofChanSet (s : State) (i : Instr) (f : ChanField) (ch : Fin 16)
    (bad : Nat → Option Status) (hb : ∀ v, bad v ≠ some .ok) :
    Ran s i (s.endSet (s.chanSetResult f ch bad)) := by
  cases hr : s.chanSetResult f ch bad with
  | ok t =>
    obtain ⟨h1, c, m, -, -, hm, rfl⟩ := s.chanSetResult_ok t f ch bad hr
    exact .stored i (.chan f) c s.din m s.holdSpec
      (Admission.configured_none _ (s.hostRefusal_none _ h1).2) hm (.inl rfl)
  | error e =>
    refine .error i e fun he => ?_
    subst he
    rcases s.chanSetResult_error f ch bad _ hr with h | h | h | h | ⟨-, c, h⟩
    · cases h
    · cases h
    · cases h
    · exact hb _ h
    · rcases setField_error _ _ _ _ _ _ h with h | h <;> cases h

theorem aboveMax_ne_ok (max v : Nat) : aboveMax max v ≠ some .ok := by
  unfold aboveMax
  split <;> intro h <;> cases h

theorem notAtiBase_ne_ok (v : Nat) : notAtiBase v ≠ some .ok := by
  unfold notAtiBase
  split <;> intro h <;> cases h

/-- The inversion of the commands: what `exec` answers is one of the alternatives of `Ran`. -/
theorem exec_ran (i : Instr) (s t : State) (h : exec i s = .next t) : Ran s i t := by
  have hget : ∀ (f : ChanField) (ch : Fin 16) (e : Status), f ≠ .localCapSize →
      s.chanGetResult f ch = .error e → e ≠ .ok := by
    intro f ch e hf he hok
    subst hok
    rcases s.chanGetResult_error f ch _ hf he with h | h | h <;> cases h
  have hhost : ∀ (k : Admission) (e : Status), s.hostRefusal k = some e → e ≠ .ok := by
    intro k e he hok
    subst hok
    rcases s.hostRefusal_some k _ he with h | h <;> cases h
  cases i with
  | fldGet f ch =>
    cases h
    refine Ran.ofGet s _ _ fun e he hok => ?_
    subst hok
    rcases s.fldGetResult_error f ch _ he with h | h | h | h <;> cases h
  | fldSet f ch =>
    cases h
    cases hr : s.fldSetResult f ch with
    | ok u =>
      obtain ⟨h1, c, m, -, hm, rfl⟩ := s.fldSetResult_ok u f ch hr
      obtain ⟨hx, h1⟩ := s.fieldRefusal_none f h1
      refine .stored _ f c s.din m _
        (Admission.configured_none _ (s.hostRefusal_none _ h1).2) hm ?_
      by_cases hf : f = .sys .touchHold
      · subst hf
        exact .inr ⟨rfl, by simpa [fieldExists] using hx⟩
      · exact .inl (if_neg hf)
    | error e =>
      refine .error _ e fun hok => ?_
      subst hok
      rcases s.fldSetResult_error f ch _ hr with h | h | h | h <;> cases h
  | atiModeGet ch => cases h; exact Ran.ofGet s _ _ fun e he => hget _ ch e (by decide) he
  | atiModeSet ch => cases h; exact Ran.ofChanSet s _ _ ch _ (aboveMax_ne_ok _)
  | atiBaseGet ch => cases h; exact Ran.ofGet s _ _ fun e he => hget _ ch e (by decide) he
  | atiBaseSet ch => cases h; exact Ran.ofChanSet s _ _ ch _ notAtiBase_ne_ok
  | atiTargetGet ch => cases h; exact Ran.ofGet s _ _ fun e he => hget _ ch e (by decide) he
  | atiTargetSet ch => cases h; exact Ran.ofChanSet s _ _ ch _ (aboveMax_ne_ok _)
  | rxEnGet ch => cases h; exact Ran.ofGet s _ _ fun e he => hget _ ch e (by decide) he
  | rxEnSet ch => cases h; exact Ran.ofChanSet s _ _ ch _ (aboveMax_ne_ok _)
  | chSelGet =>
    cases h
    refine Ran.ofGet s _ _ fun e he => ?_
    rcases unlessRefused_error _ _ _ he with he | ⟨-, he⟩
    · exact hhost _ e he
    · cases he
  | chSelSet =>
    cases h
    cases hr : s.chSelSetResult with
    | ok u =>
      obtain ⟨-, hx⟩ := unlessRefused_ok _ _ _ hr
      split at hx <;> cases hx
      exact .selected _
    | error e =>
      refine .error _ e ?_
      rcases unlessRefused_error _ _ _ hr with he | ⟨-, he⟩
      · exact hhost _ e he
      · split at he <;> cases he
        decide
  | hallEnGet =>
    cases h
    refine Ran.ofGet s _ _ fun e he => ?_
    rcases unlessRefused_error _ _ _ he with he | ⟨-, he⟩
    · exact hhost _ e he
    · cases he
  | hallEnSet =>
    cases h
    cases hr : s.hallEnSetResult with
    | ok u =>
      obtain ⟨-, hx⟩ := unlessRefused_ok _ _ _ hr
      split at hx <;> cases hx
      exact .hall _
    | error e =>
      refine .error _ e ?_
      rcases unlessRefused_error _ _ _ hr with he | ⟨-, he⟩
      · exact hhost _ e he
      · split at he <;> cases he
        decide
  | recalStatus =>
    cases h
    refine Ran.ofGet s _ _ fun e he => ?_
    rcases unlessRefused_error _ _ _ he with he | ⟨-, he⟩
    · exact hhost _ e he
    · cases he
  | recalTrigger =>
    cases h
    cases hr : s.hostRefusal .armed with
    | some e => exact .error _ e (hhost _ e hr)
    | none =>
      obtain ⟨⟨p, hi⟩, hp⟩ := s.hostRefusal_none _ hr
      by_cases hd : s.din = 0
      · simp only [hd, if_true]; exact .nothing _
      · simp only [hd, if_false]; exact .recal p hi (Admission.armed_none _ hp) hd
  | countsRead ch =>
    cases h
    cases hr : s.countsChannel ch with
    | error e =>
      refine .error _ e fun hok => ?_
      subst hok
      rcases s.countsChannel_error ch _ hr with h | h | h | h <;> cases h
    | ok c =>
      obtain ⟨h1, -, -⟩ := s.countsChannel_ok ch c hr
      have hp := Admission.armed_none _ (s.hostRefusal_none _ h1).2
      simp only [State.readCounts]
      rcases s.side.busr with _ | ⟨b0, b1⟩
      · exact .countsError ch c none hp
      · exact .counts ch c _ (some (b0, b1)) hp
  | cfgBuild =>
    cases h
    cases hr : s.hostRefusal .build with
    | some e => exact .error _ e (hhost _ e hr)
    | none =>
      obtain ⟨⟨p, hi⟩, hp⟩ := s.hostRefusal_none _ hr
      cases hb : cfgBuild s.params s.img s.side.cfg with
      | ok b => exact .built b p hi (Admission.build_none _ hp) hb
      | error x => exact .notBuilt x (Admission.build_none _ hp) hb
  | imgInit =>
    cases h
    cases hr : s.hostRefusal .init with
    | some e => exact .error _ e (hhost _ e hr)
    | none =>
      obtain ⟨⟨p, hi⟩, hp⟩ := s.hostRefusal_none _ hr
      exact .init p hi (Admission.init_none _ hp)
  | snapDecode =>
    cases h
    cases hr : s.irqRefusal .armed with
    | some e =>
      refine .error _ e fun hok => ?_
      subst hok
      unfold State.irqRefusal at hr
      split at hr
      · cases hr
      · rcases Admission.refusal_cases _ _ _ hr with h | h <;> cases h
    | none =>
      unfold State.irqRefusal at hr
      split at hr
      · cases hr
      · rename_i hi
        exact .decoded hi (Admission.armed_none _ hr)
  | sliderModeGet ch =>
    cases h
    refine Ran.ofGet s _ _ fun e he => ?_
    rcases unlessRefused_error _ _ _ he with he | ⟨-, he⟩
    · exact hhost _ e he
    · split at he <;> cases he
      decide
  | calWait =>
    cases h
    cases hr : s.hostRefusal .armed with
    | some e => exact .error _ e (hhost _ e hr)
    | none =>
      obtain ⟨⟨p, hi⟩, hp⟩ := s.hostRefusal_none _ hr
      by_cases hg : s.gate = .ready
      · simp only [hg, if_true]; exact .nothing _
      · simp only [hg, if_false]; exact .waits p hi (Admission.armed_none _ hp) hg

end Sys2Proof.Machine
end

