-- ==== Sys2Proof/Laws/Configuration.lean ====
section
/-! SUPPORT. The laws of CFG_BUILD: what a property list, a channel and a whole build keep, and the
errors each can fail with. -/

namespace Sys2Proof.Machine

/-! ### Results in a context -/

/-- A check that passes in its context passes (43_configuration.md R263). -/
theorem inContext_ok {α : Type} (scope idx : Nat) (r : Except Status α) (a : α) :
    inContext scope idx r = .ok a ↔ r = .ok a := by
  cases r <;> simp [inContext]

/-- A check that fails in its context gives its status and that context. -/
theorem inContext_error {α : Type} (scope idx : Nat) (r : Except Status α) (x : BuildError) :
    inContext scope idx r = .error x ↔
      ∃ e, r = .error e ∧ x = { status := e, context := contextWord scope idx } := by
  cases r with
  | ok a => simp [inContext]
  | error e => simp [inContext, eq_comm]

/-- Two checks in order: both pass, for the composite to pass. -/
theorem except_bind_ok {ε α β : Type} (x : Except ε α) (f : α → Except ε β) (b : β) :
    (x >>= f) = .ok b ↔ ∃ a, x = .ok a ∧ f a = .ok b := by
  cases x with
  | ok a => exact ⟨fun h => ⟨a, rfl, h⟩, fun ⟨a', h1, h2⟩ => by cases h1; exact h2⟩
  | error e => exact ⟨fun h => (by cases h), fun ⟨_, h, _⟩ => (by cases h)⟩

/-- Two checks in order: the first failure is the failure (R262). -/
theorem except_bind_error {ε α β : Type} (x : Except ε α) (f : α → Except ε β) (e : ε) :
    (x >>= f) = .error e ↔ x = .error e ∨ ∃ a, x = .ok a ∧ f a = .error e := by
  cases x with
  | ok a =>
    exact ⟨fun h => .inr ⟨a, rfl, h⟩, fun h => by
      rcases h with h | ⟨a', h1, h2⟩
      · cases h
      · cases h1; exact h2⟩
  | error e' =>
    exact ⟨fun h => .inl (by cases h; rfl), fun h => by
      rcases h with h | ⟨_, h, _⟩
      · cases h; rfl
      · cases h⟩

/-! ### Property lists -/

/-- A property list keeps what each of its sets keeps. -/
theorem applyProperties_keeps (P : Params) (scope : Nat) (c : Chan) (Q : Memory → Prop)
    (ps : List Property) (m m' : Memory)
    (hstep : ∀ q ∈ ps, ∀ v n n', q.value = some v → setField P n q.field c v = .ok n' → Q n → Q n')
    (h : applyProperties P scope c m ps = .ok m') (hm : Q m) : Q m' := by
  induction ps generalizing m with
  | nil => cases h; exact hm
  | cons q rest ih =>
    simp only [applyProperties] at h
    split at h
    · cases h
    · rename_i n hn
      refine ih n (fun q' hq' => hstep q' (List.mem_cons_of_mem _ hq')) h ?_
      unfold applyProperty at hn
      split at hn
      · cases hn; exact hm
      · rename_i v hv
        exact hstep q List.mem_cons_self v m n hv ((inContext_ok _ _ _ _).mp hn) hm

/-- A property list fails with the status of one of its sets, and that property's context. -/
theorem applyProperties_error (P : Params) (scope : Nat) (c : Chan) (ps : List Property)
    (m : Memory) (x : BuildError) (h : applyProperties P scope c m ps = .error x) :
    ∃ q ∈ ps, x.context = contextWord scope q.idx ∧
      ∃ n v, q.value = some v ∧ setField P n q.field c v = .error x.status := by
  induction ps generalizing m with
  | nil => cases h
  | cons q rest ih =>
    simp only [applyProperties] at h
    split at h
    · rename_i y hy
      cases h
      unfold applyProperty at hy
      split at hy
      · cases hy
      · rename_i v hv
        obtain ⟨e, he, rfl⟩ := (inContext_error _ _ _ _).mp hy
        exact ⟨q, List.mem_cons_self, rfl, m, v, hv, he⟩
    · rename_i n hn
      obtain ⟨q', h1, h2⟩ := ih n h
      exact ⟨q', List.mem_cons_of_mem _ h1, h2⟩

/-! ### Events, channels and the whole build -/

/-- One event of one channel, said once: a threshold, a hysteresis, a key code, a switch code
(43_configuration.md R258). -/
theorem buildEvent_ok (P : Params) (c : Chan) (h : ChCfg) (b b' : Build) (e : Event)
    (hb : buildEvent P c h b e = .ok b') :
    ∃ m₁ m₂, eventThresh P c e h.ev[e.id] b.img = .ok m₁ ∧
      eventHyst P c e h.ev[e.id] m₁ = .ok m₂ ∧
      eventSwitch P c e h.ev[e.id] (eventKey P c e h.ev[e.id] { b with img := m₂ }) = .ok b' := by
  simp only [buildEvent, except_bind_ok, inContext_ok] at hb
  obtain ⟨m₁, h1, m₂, h2, h3⟩ := hb
  exact ⟨m₁, m₂, h1, h2, h3⟩

theorem buildEvents_keeps (P : Params) (c : Chan) (h : ChCfg) (Q : Build → Prop) (es : List Event)
    (b b' : Build)
    (hstep : ∀ e ∈ es, ∀ n n', buildEvent P c h n e = .ok n' → Q n → Q n')
    (hb : buildEvents P c h b es = .ok b') (hq : Q b) : Q b' := by
  induction es generalizing b with
  | nil => cases hb; exact hq
  | cons e rest ih =>
    simp only [buildEvents] at hb
    split at hb
    · cases hb
    · rename_i n hn
      exact ih n (fun e' he' => hstep e' (List.mem_cons_of_mem _ he')) hb
        (hstep e List.mem_cons_self b n hn hq)

theorem buildChannels_keeps (P : Params) (cfg : Cfg) (Q : Build → Prop) (cs : List Chan)
    (b b' : Build)
    (hstep : ∀ c ∈ cs, ∀ h n n', cfg.ch[c] = some h → buildChannel P c h n = .ok n' → Q n → Q n')
    (hb : buildChannels P cfg b cs = .ok b') (hq : Q b) : Q b' := by
  induction cs generalizing b with
  | nil => cases hb; exact hq
  | cons c rest ih =>
    simp only [buildChannels] at hb
    split at hb
    · exact ih b (fun c' hc' => hstep c' (List.mem_cons_of_mem _ hc')) hb hq
    · rename_i h hh
      split at hb
      · cases hb
      · rename_i n hn
        exact ih n (fun c' hc' => hstep c' (List.mem_cons_of_mem _ hc')) hb
          (hstep c List.mem_cons_self h b n hh hn hq)

/-- One channel, said once (R255 to R258). -/
theorem buildChannel_ok (P : Params) (c : Chan) (h : ChCfg) (b b' : Build)
    (hb : buildChannel P c h b = .ok b') :
    ∃ m₁ m₂ m₃ m₄, channelSlider1 P c h (channelMasks P c h b.img) = .ok m₁ ∧
      channelPins P c .rxEn h.rxPins m₁ = .ok m₂ ∧ channelPins P c .txEn h.txPins m₂ = .ok m₃ ∧
      applyProperties P c.val c m₃ (chanProperties h) = .ok m₄ ∧
      buildEvents P c h { b with img := m₄ } Event.all = .ok b' := by
  simp only [buildChannel, except_bind_ok, inContext_ok] at hb
  obtain ⟨m₁, h1, m₂, h2, m₃, h3, m₄, h4, h5⟩ := hb
  exact ⟨m₁, m₂, m₃, m₄, h1, h2, h3, h4, h5⟩

/-- The whole build, said once (R252 to R261). -/
theorem cfgBuild_ok (P : Params) (img : Memory) (cfg : Cfg) (b : Build)
    (hb : cfgBuild P img cfg = .ok b) :
    ∃ m b₁, applyProperties P sysScope 0 (initialClears P img) (sysProperties P cfg.sys) = .ok m ∧
      buildChannels P cfg
        { img := m, key := .replicate 6 (.replicate 8 0), sw := .replicate 6 (.replicate 8 0) }
        channels = .ok b₁ ∧
      b = { b₁ with
            img := forceImage P cfg.slCode (buildGestures P cfg b₁.img) true
              (holdSpecified P cfg) } := by
  simp only [cfgBuild, except_bind_ok] at hb
  obtain ⟨m, h1, b₁, h2, h3⟩ := hb
  cases h3
  exact ⟨m, b₁, h1, h2, rfl⟩

/-! ### The canonical form -/

theorem wf_setLane (P : Params) (m : Memory) (f : SysField) (c : Nat) (on : Bool)
    (h : m.wf P = true) : (setLane P m f c on).wf P = true := wf_setSysBits P m f _ h

theorem wf_initialClears (P : Params) (m : Memory) (h : m.wf P = true) :
    (initialClears P m).wf P = true := by
  simp only [initialClears]
  have h3 := wf_setSysBits P _ .slider0Sel 0 (wf_setSysBits P _ .blocking 0
    (wf_setSysBits P m .active 0 h))
  split
  · exact wf_setSysBits P _ _ _ h3
  · exact wf_setSysBits P _ _ _ (wf_setSysBits P _ _ _ h3)

theorem wf_channelMasks (P : Params) (c : Chan) (h : ChCfg) (m : Memory) (hm : m.wf P = true) :
    (channelMasks P c h m).wf P = true := by
  simp only [channelMasks]
  have h2 := wf_setLane P _ .reseed c (!h.reseedDisable) (wf_setLane P m .active c true hm)
  cases h.blocking <;> cases h.slider0 <;>
    simp only [Bool.false_eq_true, if_false, if_true] <;>
    first
    | exact wf_setLane P _ _ _ _ (wf_setLane P _ _ _ _ h2)
    | exact wf_setLane P _ _ _ _ h2
    | exact h2

theorem wf_channelSlider1 (P : Params) (c : Chan) (h : ChCfg) (m m' : Memory)
    (hs : channelSlider1 P c h m = .ok m') (hm : m.wf P = true) : m'.wf P = true := by
  unfold channelSlider1 at hs
  split at hs
  · split at hs <;> cases hs
    exact wf_setLane P m _ _ _ hm
  · cases hs; exact hm

theorem wf_channelPins (P : Params) (c : Chan) (f : ChanField) (pins : Option (List Nat))
    (m m' : Memory) (hs : channelPins P c f pins m = .ok m') (hm : m.wf P = true) :
    m'.wf P = true := by
  unfold channelPins at hs
  split at hs
  · cases hs; exact hm
  · split at hs
    · cases hs
    · exact wf_setField P m m' _ _ _ hs hm

theorem wf_buildEvent (P : Params) (c : Chan) (h : ChCfg) (b b' : Build) (e : Event)
    (hb : buildEvent P c h b e = .ok b') (hm : b.img.wf P = true) : b'.img.wf P = true := by
  obtain ⟨m₁, m₂, h1, h2, h3⟩ := buildEvent_ok P c h b b' e hb
  have w1 : m₁.wf P = true := by
    unfold eventThresh at h1
    split at h1
    · cases h1; exact hm
    · exact wf_setField P _ _ _ _ _ h1 hm
  have w2 : m₂.wf P = true := by
    unfold eventHyst at h2
    split at h2
    · cases h2; exact w1
    · split at h2
      · cases h2
      · exact wf_setField P _ _ _ _ _ h2 w1
  have w3 : (eventKey P c e h.ev[e.id] { b with img := m₂ }).img.wf P = true := by
    unfold eventKey
    split
    · exact w2
    · exact wf_setLane P m₂ .eventMask e.kind.bit false w2
  unfold eventSwitch at h3
  split at h3
  · cases h3; exact w3
  · split at h3
    · cases h3
    · cases h3; exact wf_setLane P _ .eventMask e.kind.bit false w3

theorem wf_buildChannel (P : Params) (c : Chan) (h : ChCfg) (b b' : Build)
    (hb : buildChannel P c h b = .ok b') (hm : b.img.wf P = true) : b'.img.wf P = true := by
  obtain ⟨m₁, m₂, m₃, m₄, h1, h2, h3, h4, h5⟩ := buildChannel_ok P c h b b' hb
  have w1 := wf_channelSlider1 P c h _ m₁ h1 (wf_channelMasks P c h b.img hm)
  have w3 := wf_channelPins P c _ _ m₂ m₃ h3 (wf_channelPins P c _ _ m₁ m₂ h2 w1)
  have w4 : m₄.wf P = true := applyProperties_keeps P _ c (fun n => n.wf P = true) _ _ _
    (fun q _ v n n' _ hs hn => wf_setField P n n' _ _ _ hs hn) h4 w3
  exact buildEvents_keeps P c h (fun n => n.img.wf P = true) _ _ _
    (fun e _ n n' hn hw => wf_buildEvent P c h n n' e hn hw) h5 w4

/-- A build keeps the canonical form of the image. -/
theorem wf_cfgBuild (P : Params) (img : Memory) (cfg : Cfg) (b : Build)
    (hb : cfgBuild P img cfg = .ok b) (hm : img.wf P = true) : b.img.wf P = true := by
  obtain ⟨m, b₁, h1, h2, rfl⟩ := cfgBuild_ok P img cfg b hb
  have w1 : m.wf P = true := applyProperties_keeps P _ 0 (fun n => n.wf P = true) _ _ _
    (fun q _ v n n' _ hs hn => wf_setField P n n' _ _ _ hs hn) h1 (wf_initialClears P img hm)
  have w2 : b₁.img.wf P = true := buildChannels_keeps P cfg (fun n => n.img.wf P = true) _ _ _
    (fun c _ h n n' _ hn hw => wf_buildChannel P c h n n' hn hw) h2 w1
  refine wf_forceImage P _ _ _ _ ?_
  unfold buildGestures
  split
  · exact wf_setLane P _ _ _ _ w2
  · exact w2

/-! ### The code tables -/

/-- What setting one code does to the table. -/
theorem setCode_get (t : CodeTable) (e e' : Event) (c c' : Chan) (v : Code) :
    (setCode t e c v)[e'.id][c'] = if e' = e ∧ c' = c then v else t[e'.id][c'] := by
  have hid : ∀ x y : Event, x.id = y.id → x = y := by
    intro x y; cases x <;> cases y <;> decide
  by_cases he : e' = e
  · subst he
    by_cases hc : c' = c
    · subst hc; simp [setCode]
    · have : c.val ≠ c'.val := fun h => hc (Fin.ext h.symm)
      simp [setCode, hc, this]
  · have : e.id.val ≠ e'.id.val := fun h => he (hid _ _ (Fin.ext h.symm))
    simp [setCode, he, this]

/-- One event writes its own codes alone: the key code on its channel, the switch code on channel 7
(43_configuration.md R258). -/
theorem buildEvent_codes (P : Params) (c : Chan) (h : ChCfg) (b b' : Build) (e : Event)
    (hb : buildEvent P c h b e = .ok b') :
    (∀ e' c', b'.key[e'.id][c'] =
      if e' = e ∧ c' = c ∧ h.ev[e.id].key ≠ 0 then h.ev[e.id].key else b.key[e'.id][c']) ∧
    (∀ e' c', b'.sw[e'.id][c'] =
      if e' = e ∧ c' = c ∧ h.ev[e.id].sw ≠ 0 then h.ev[e.id].sw else b.sw[e'.id][c']) ∧
    (h.ev[e.id].sw ≠ 0 → c = 7) := by
  obtain ⟨m₁, m₂, -, -, h3⟩ := buildEvent_ok P c h b b' e hb
  generalize h.ev[e.id] = v at *
  have hk : ∀ e' c', (eventKey P c e v { b with img := m₂ }).key[e'.id][c'] =
      if e' = e ∧ c' = c ∧ v.key ≠ 0 then v.key else b.key[e'.id][c'] := by
    intro e' c'
    unfold eventKey
    split
    · rename_i hz; simp [hz]
    · rename_i hz
      simp only [setCode_get]
      by_cases hx : e' = e ∧ c' = c <;> simp_all
  have hs : (eventKey P c e v { b with img := m₂ }).sw = b.sw := by
    unfold eventKey; split <;> rfl
  unfold eventSwitch at h3
  split at h3
  · rename_i hz
    cases h3
    refine ⟨hk, fun e' c' => ?_, fun h => absurd hz h⟩
    rw [hs]; simp [hz]
  · rename_i hz
    split at h3
    · cases h3
    · rename_i hc
      have hc : c = 7 := by simpa using hc
      subst hc
      cases h3
      refine ⟨hk, fun e' c' => ?_, fun _ => rfl⟩
      simp only [setCode_get, hs]
      by_cases hx : e' = e ∧ c' = 7 <;> simp_all

/-! ### The errors of a build -/

/-- A build error that R263 allows: OutOfRange or InvalidEnum, with a scope and an index. -/
def BuildError.fits (x : BuildError) (scope lo hi : Nat) : Prop :=
  (x.status = .outOfRange ∨ x.status = .invalidEnum) ∧
    ∃ idx, lo ≤ idx ∧ idx ≤ hi ∧ x.context = contextWord scope idx

theorem pinBits_error (l : List Nat) (m : Byte) (e : Status) (h : pinBits l m = .error e) :
    e = .outOfRange := by
  induction l generalizing m with
  | nil => cases h
  | cons p rest ih =>
    rw [pinBits] at h
    split at h
    · cases h; rfl
    · exact ih _ h

theorem listToMask_error (l : List Nat) (e : Status) (h : listToMask l = .error e) :
    e = .outOfRange := by
  unfold listToMask at h
  split at h
  · cases h; rfl
  · exact pinBits_error l 0 e h

theorem channelPins_error (P : Params) (c : Chan) (f : ChanField) (pins : Option (List Nat))
    (m : Memory) (e : Status) (h : channelPins P c f pins m = .error e) :
    e = .outOfRange ∨ e = .invalidEnum := by
  unfold channelPins at h
  split at h
  · cases h
  · split at h
    · rename_i x hx
      cases h
      exact .inl (listToMask_error _ _ hx)
    · exact setField_error _ _ _ _ _ _ h

theorem eventThresh_error (P : Params) (c : Chan) (e : Event) (v : EvCfg) (m : Memory) (x : Status)
    (h : eventThresh P c e v m = .error x) : x = .outOfRange ∨ x = .invalidEnum := by
  unfold eventThresh at h
  split at h
  · cases h
  · exact setField_error _ _ _ _ _ _ h

theorem eventHyst_error (P : Params) (c : Chan) (e : Event) (v : EvCfg) (m : Memory) (x : Status)
    (h : eventHyst P c e v m = .error x) : x = .outOfRange ∨ x = .invalidEnum := by
  unfold eventHyst at h
  split at h
  · cases h
  · split at h
    · cases h; exact .inr rfl
    · exact setField_error _ _ _ _ _ _ h

theorem eventSwitch_error (P : Params) (c : Chan) (e : Event) (v : EvCfg) (b : Build) (x : Status)
    (h : eventSwitch P c e v b = .error x) : x = .invalidEnum := by
  unfold eventSwitch at h
  split at h
  · cases h
  · split at h <;> cases h
    rfl

/-- An event's failing check is one of its four steps (43_configuration.md R258). -/
theorem buildEvent_error (P : Params) (c : Chan) (h : ChCfg) (b : Build) (e : Event)
    (x : BuildError) (hb : buildEvent P c h b e = .error x) : x.fits c.val 32 55 := by
  have hi : ∀ j : Nat, j < 4 → 32 ≤ eventIdx e j ∧ eventIdx e j ≤ 55 := by
    intro j hj
    have := e.id.isLt
    unfold eventIdx
    omega
  simp only [buildEvent, except_bind_error, inContext_error] at hb
  rcases hb with ⟨s, hs, rfl⟩ | ⟨m₁, -, ⟨s, hs, rfl⟩ | ⟨m₂, -, s, hs, rfl⟩⟩
  · exact ⟨eventThresh_error _ _ _ _ _ _ hs, _, (hi 0 (by decide)).1, (hi 0 (by decide)).2, rfl⟩
  · exact ⟨eventHyst_error _ _ _ _ _ _ hs, _, (hi 1 (by decide)).1, (hi 1 (by decide)).2, rfl⟩
  · exact ⟨.inr (eventSwitch_error _ _ _ _ _ _ hs), _, (hi 3 (by decide)).1, (hi 3 (by decide)).2,
      rfl⟩

theorem buildEvents_error (P : Params) (c : Chan) (h : ChCfg) (es : List Event) (b : Build)
    (x : BuildError) (hb : buildEvents P c h b es = .error x) : x.fits c.val 32 55 := by
  induction es generalizing b with
  | nil => cases hb
  | cons e rest ih =>
    simp only [buildEvents] at hb
    split at hb
    · rename_i y hy
      cases hb
      exact buildEvent_error P c h b e _ hy
    · exact ih _ hb

/-- A channel's failing check names the channel and an index 3 to 55 (R263). -/
theorem buildChannel_error (P : Params) (c : Chan) (h : ChCfg) (b : Build) (x : BuildError)
    (hb : buildChannel P c h b = .error x) : x.fits c.val 3 55 := by
  simp only [buildChannel, except_bind_error, inContext_error] at hb
  rcases hb with ⟨s, hs, rfl⟩ | ⟨m₁, -, ⟨s, hs, rfl⟩ | ⟨m₂, -, ⟨s, hs, rfl⟩ | ⟨m₃, -, hb⟩⟩⟩
  · refine ⟨.inr ?_, 3, by decide, by decide, rfl⟩
    unfold channelSlider1 at hs
    split at hs
    · split at hs <;> cases hs
      rfl
    · cases hs
  · exact ⟨channelPins_error _ _ _ _ _ _ hs, 4, by decide, by decide, rfl⟩
  · exact ⟨channelPins_error _ _ _ _ _ _ hs, 5, by decide, by decide, rfl⟩
  · rcases hb with hb | ⟨m₄, -, hb⟩
    · obtain ⟨q, hq, hc, n, v, -, hs⟩ := applyProperties_error _ _ _ _ _ _ hb
      have hi : 3 ≤ q.idx ∧ q.idx ≤ 55 := by
        have hm : q.idx ∈ (chanProperties h).map Property.idx := List.mem_map_of_mem hq
        have hl : (chanProperties h).map Property.idx = [6, 7, 8, 9, 10, 11, 12, 13, 14, 15, 16] := rfl
        simp only [hl, List.mem_cons, List.not_mem_nil, or_false] at hm
        omega
      exact ⟨setField_error _ _ _ _ _ _ hs, q.idx, hi.1, hi.2, hc⟩
    · obtain ⟨h1, idx, h2, h3, h4⟩ := buildEvents_error P c h _ _ x hb
      exact ⟨h1, idx, by omega, h3, h4⟩

theorem buildChannels_error (P : Params) (cfg : Cfg) (cs : List Chan) (b : Build) (x : BuildError)
    (hb : buildChannels P cfg b cs = .error x) : ∃ c : Chan, x.fits c.val 3 55 := by
  induction cs generalizing b with
  | nil => cases hb
  | cons c rest ih =>
    simp only [buildChannels] at hb
    split at hb
    · exact ih _ hb
    · rename_i h _
      split at hb
      · rename_i y hy
        cases hb
        exact ⟨c, buildChannel_error P c h b _ hy⟩
      · exact ih _ hb

/-- The failing check of a build, in the form of R263. -/
theorem cfgBuild_error (P : Params) (img : Memory) (cfg : Cfg) (x : BuildError)
    (hb : cfgBuild P img cfg = .error x) :
    x.fits 0xFF 0 21 ∨ ∃ c : Chan, x.fits c.val 3 55 := by
  simp only [cfgBuild, except_bind_error] at hb
  rcases hb with hb | ⟨m, -, hb | ⟨b, -, hb⟩⟩
  · left
    obtain ⟨q, hq, hc, n, v, -, hs⟩ := applyProperties_error _ _ _ _ _ _ hb
    have hi : q.idx ≤ 21 := by
      have hm : q.idx ∈ (sysProperties P cfg.sys).map Property.idx := List.mem_map_of_mem hq
      have hl : (sysProperties P cfg.sys).map Property.idx = List.range 22 := rfl
      rw [hl, List.mem_range] at hm
      omega
    exact ⟨setField_error _ _ _ _ _ _ hs, q.idx, Nat.zero_le _, hi, hc⟩
  · exact .inr (buildChannels_error P cfg _ _ x hb)
  · cases hb

/-- A context word as a number: scope · 256 + index (R263). -/
theorem contextWord_eq (scope idx : Nat) (hi : idx < 256) (hs : scope < 256) :
    contextWord scope idx = BitVec.ofNat 32 (256 * scope + idx) := by
  apply BitVec.eq_of_toNat_eq
  have h1 : (256 * scope + idx) % 2 ^ 32 = 256 * scope + idx := Nat.mod_eq_of_lt (by omega)
  have h2 : scope % 2 ^ 32 = scope := Nat.mod_eq_of_lt (by omega)
  have h3 : idx % 2 ^ 32 = idx := Nat.mod_eq_of_lt (by omega)
  rw [contextWord, BitVec.toNat_or, BitVec.toNat_shiftLeft, BitVec.toNat_ofNat, BitVec.toNat_ofNat,
    BitVec.toNat_ofNat, h1, h2, h3]
  have h4 : scope <<< 8 % 2 ^ 32 = scope <<< 8 := by
    rw [Nat.shiftLeft_eq]; exact Nat.mod_eq_of_lt (by omega)
  rw [h4, ← Nat.shiftLeft_add_eq_or_of_lt hi, Nat.shiftLeft_eq]
  omega

end Sys2Proof.Machine
end

