-- ==== Sys2Proof/Laws/Fields.lean ====
section
/-! SUPPORT. The laws of fields as bits of the image: which bits a set stores, that fields lie apart,
and what an image holds for a field after a set. -/

namespace Sys2Proof.Machine

/-! ### A container as a number -/

/-- A container as a number, from its bytes (20_memory.md R80). -/
theorem readContainer_toNat (P : Params) (m : Memory) (d : Desc) :
    (m.readContainer P d.off d.width).toNat = m.containerAt P d := by
  unfold Memory.containerAt
  cases d.width with
  | byte =>
    have := (m.read P d.off).isLt
    simp only [Memory.readContainer, BitVec.toNat_setWidth]
    omega
  | word =>
    have := (m.read P (d.off + 1)).isLt
    simp only [Memory.readContainer, BitVec.toNat_append]
    rw [← Nat.shiftLeft_add_eq_or_of_lt this, Nat.shiftLeft_eq]
    omega

/-- A field's bits as a number (41_field_codec.md R152). -/
theorem readBits_toNat (P : Params) (m : Memory) (d : Desc) (h : d.inBounds) :
    (readBits P m d).toNat = m.fieldBits P d := by
  unfold readBits
  rw [extractBits_toNat _ _ _ ?_ h.2.1, readContainer_toNat, Memory.fieldBits]
  obtain ⟨-, -, h3⟩ := h
  cases hw : d.width <;> simp only [hw, Width.bytes] at h3 <;> omega

/-- A field is at most 16 bits wide. -/
theorem Desc.inBounds.width_le {d : Desc} (h : d.inBounds) : d.hi - d.lo + 1 ≤ 16 := by
  obtain ⟨-, -, h3⟩ := h
  cases hw : d.width <;> simp only [hw, Width.bytes] at h3 <;> omega

/-- Field bits of at most 16 bits survive the half word they are carried in. -/
theorem toNat_ofNat_half (r n : Nat) (hn : n ≤ 16) (h : r < 2 ^ n) : (BitVec.ofNat 16 r).toNat = r := by
  rw [BitVec.toNat_ofNat]
  exact Nat.mod_eq_of_lt (Nat.lt_of_lt_of_le h (Nat.pow_le_pow_right (by omega) hn))

/-! ### Fields that lie apart -/

/-- The descriptors of the bits a set of a field stores: one, or LOCAL_CAP_SIZE's two. -/
def storeDescs (f : RegField) (c : Chan) : List Desc :=
  match fieldDesc f c with
  | some d => [writable f d]
  | none => [dblDesc c, enDesc c]

/-- LOCAL_CAP_SIZE's two bits (41_field_codec.md R159). -/
theorem fieldBit_localCap (c : Chan) (a j : Nat) :
    fieldBit (.chan .localCapSize) c a j =
      decide ((a = engineA c ∧ j = 4) ∨ (a = engineB c ∧ j = 5)) := by
  simp [fieldBit, fieldDesc, chanDesc, Bool.decide_or, Bool.decide_and, beq_eq_decide]

/-- A field's bits are those of its descriptors. -/
theorem fieldBit_eq_any (f : RegField) (c : Chan) (a j : Nat) (hj : j < 8) :
    fieldBit f c a j = (storeDescs f c).any (fun d => d.covers a j) := by
  cases h : fieldDesc f c with
  | some d => simp [storeDescs, h, fieldBit_of_desc f c d h]
  | none =>
    rw [(fieldDesc_eq_none f c).mp h, fieldBit_localCap]
    have : storeDescs (.chan .localCapSize) c = [dblDesc c, enDesc c] := rfl
    simp [this, covers_dblDesc c a j hj, covers_enDesc c a j hj]

/-- Two descriptors lie apart: their containers do not meet, or they share one and their bit ranges
do not meet. -/
def Desc.apart (d k : Desc) : Bool :=
  d.off + d.width.bytes ≤ k.off || k.off + k.width.bytes ≤ d.off ||
    (d.off == k.off && d.width == k.width && (d.hi < k.lo || k.hi < d.lo))

/-- A bit a descriptor covers is in its container. -/
theorem Desc.covers_range (d : Desc) (a j : Nat) (h : d.covers a j = true) :
    d.off ≤ a ∧ a < d.off + d.width.bytes := by
  obtain ⟨off, w, hi, lo, k⟩ := d
  cases w <;>
    simp only [Desc.covers, Width.bytes, Bool.or_eq_true, Bool.and_eq_true, beq_iff_eq,
      decide_eq_true_eq] at h ⊢ <;> omega

theorem Desc.not_covers_of_apart (d k : Desc) (h : d.apart k = true) (a j : Nat) :
    ¬(d.covers a j = true ∧ k.covers a j = true) := by
  rintro ⟨h1, h2⟩
  have r1 := d.covers_range a j h1
  have r2 := k.covers_range a j h2
  simp only [Desc.apart, Bool.or_eq_true, Bool.and_eq_true, beq_iff_eq, decide_eq_true_eq] at h
  rcases h with (h | h) | ⟨⟨ho, hw⟩, h⟩
  · omega
  · omega
  · obtain ⟨off, w, hi, lo, kd⟩ := d
    obtain ⟨off', w', hi', lo', kd'⟩ := k
    simp only at ho hw h
    subst ho hw
    cases w <;>
      simp only [Desc.covers, Bool.or_eq_true, Bool.and_eq_true, beq_iff_eq,
        decide_eq_true_eq] at h1 h2 <;> omega

/-- Fields whose descriptors lie apart share no bit. -/
theorem disjointFields_of_apart (f : RegField) (c : Chan) (g : RegField) (e : Chan)
    (h : ∀ d ∈ storeDescs f c, ∀ k ∈ storeDescs g e, d.apart k = true) : disjointFields f c g e := by
  intro a j hj ⟨h1, h2⟩
  rw [fieldBit_eq_any f c a j hj, List.any_eq_true] at h1
  rw [fieldBit_eq_any g e a j hj, List.any_eq_true] at h2
  obtain ⟨d, hd, h1⟩ := h1
  obtain ⟨k, hk, h2⟩ := h2
  exact d.not_covers_of_apart k (h d hd k hk) a j ⟨h1, h2⟩

theorem disjointFields_symm (f : RegField) (c : Chan) (g : RegField) (e : Chan)
    (h : disjointFields f c g e) : disjointFields g e f c :=
  fun a j hj hb => h a j hj ⟨hb.2, hb.1⟩

theorem mem_sysField_all (f : SysField) : f ∈ SysField.all := by cases f <;> decide
theorem mem_chanField_all (f : ChanField) : f ∈ ChanField.all := by cases f <;> decide

/-- Two different named system fields share no bit, but for byte 19's two readings. -/
theorem disjoint_sys (f g : SysField) (c e : Chan) (hf : isRawField (.sys f) = false)
    (hg : isRawField (.sys g) = false) (hne : f ≠ g) (h1 : ¬(f = .slider1Sel ∧ g = .touchHold))
    (h2 : ¬(f = .touchHold ∧ g = .slider1Sel)) : disjointFields (.sys f) c (.sys g) e := by
  have key : ∀ f ∈ SysField.all, ∀ g ∈ SysField.all, isRawField (.sys f) = false →
      isRawField (.sys g) = false → f ≠ g → ¬(f = .slider1Sel ∧ g = .touchHold) →
      ¬(f = .touchHold ∧ g = .slider1Sel) →
      ∀ d ∈ storeDescs (.sys f) 0, ∀ k ∈ storeDescs (.sys g) 0, d.apart k = true := by
    decide +kernel
  exact disjointFields_of_apart _ _ _ _ (key f (mem_sysField_all f) g (mem_sysField_all g) hf hg hne h1 h2)

/-- The stored bits of a system field lie below the channel blocks, those of a channel field in its
channel's block (20_memory.md R82). -/
theorem storeDescs_sys_range (f : SysField) (c : Chan) :
    ∀ d ∈ storeDescs (.sys f) c, d.off + d.width.bytes ≤ 24 := by
  cases f <;> simp [storeDescs, fieldDesc, writable, sysDesc, Width.bytes]

theorem storeDescs_chan_range (f : ChanField) (c : Chan) :
    ∀ d ∈ storeDescs (.chan f) c, chanBase c ≤ d.off ∧ d.off + d.width.bytes ≤ chanBase c + 14 := by
  revert c; cases f <;> decide

/-- A system field and a channel field share no bit. -/
theorem disjoint_sys_chan (f : SysField) (g : ChanField) (c e : Chan) :
    disjointFields (.sys f) c (.chan g) e := by
  refine disjointFields_of_apart _ _ _ _ fun d hd k hk => ?_
  have h1 := storeDescs_sys_range f c d hd
  have h2 := (storeDescs_chan_range g e k hk).1
  simp only [chanBase] at h2
  simp only [Desc.apart, Bool.or_eq_true, decide_eq_true_eq]
  omega

/-- Channel fields of different channels share no bit. -/
theorem disjoint_channels (f g : ChanField) (c e : Chan) (h : c ≠ e) :
    disjointFields (.chan f) c (.chan g) e := by
  refine disjointFields_of_apart _ _ _ _ fun d hd k hk => ?_
  have h1 := storeDescs_chan_range f c d hd
  have h2 := storeDescs_chan_range g e k hk
  have hne : c.val ≠ e.val := fun h' => h (Fin.ext h')
  simp only [chanBase] at h1 h2
  simp only [Desc.apart, Bool.or_eq_true, decide_eq_true_eq]
  omega

/-- Two different named channel fields share no bit. -/
theorem disjoint_chan (f g : ChanField) (c e : Chan) (hf : isRawField (.chan f) = false)
    (hg : isRawField (.chan g) = false) (hne : f ≠ g) : disjointFields (.chan f) c (.chan g) e := by
  by_cases hc : c = e
  · subst hc
    have key : ∀ f ∈ ChanField.all, ∀ g ∈ ChanField.all, isRawField (.chan f) = false →
        isRawField (.chan g) = false → f ≠ g → ∀ c : Chan,
        ∀ d ∈ storeDescs (.chan f) c, ∀ k ∈ storeDescs (.chan g) c, d.apart k = true := by
      decide +kernel
    exact disjointFields_of_apart _ _ _ _
      (key f (mem_chanField_all f) g (mem_chanField_all g) hf hg hne c)
  · exact disjoint_channels f g c e hc

/-! ### What a set stores -/

/-- The number the image holds for a field after a set of a legal value (41_field_codec.md R154). -/
def storedValue (P : Params) (f : RegField) (v : Nat) : Nat :=
  match fieldDesc f 0 with
  | some d => d.storedAs P v
  | none => v

/-- An encoded value is what the field stores (R154). -/
theorem encodeValue_eq (P : Params) (d : Desc) (v r : Nat) (h : encodeValue P d v = .ok r) :
    r = d.storedAs P v := by
  unfold encodeValue at h
  unfold Desc.storedAs
  cases hk : d.kind with
  | atiBase =>
    simp only [hk] at h
    unfold baseCode at h
    split at h <;> cases h <;> rfl
  | scaled k => simp only [hk] at h; split at h <;> cases h; rfl
  | bool => simp only [hk] at h; split at h <;> cases h; rfl
  | uint => simp only [hk] at h; split at h <;> cases h; rfl
  | mask => simp only [hk] at h; split at h <;> cases h; rfl
  | raw => simp only [hk] at h; split at h <;> cases h; rfl

theorem storedValue_of_desc (P : Params) (f : RegField) (c : Chan) (d : Desc) (v : Nat)
    (h : fieldDesc f c = some d) : storedValue P f v = d.storedAs P v := by
  obtain ⟨d', h0, hk, -, -, -⟩ := fieldDesc_channel f c 0 d h
  simp only [storedValue, h0, Desc.storedAs, hk]

/-- A set writes its field's bits, always the same ones for one value, and keeps every other bit of
the image (41_field_codec.md R163, R166). It succeeds whatever the image. -/
theorem setField_bits (P : Params) (f : RegField) (c : Chan) (v : Nat) (m₀ m₀' : Memory)
    (h : setField P m₀ f c v = .ok m₀') :
    ∃ g : Nat → Nat → Bool, ∀ m, ∃ m', setField P m f c v = .ok m' ∧
      ∀ a j, j < 8 → m'.bit P a j = if fieldBit f c a j then g a j else m.bit P a j := by
  rcases setField_cases P m₀ m₀' f c v h with ⟨rfl, en, dbl, he, rfl⟩ | ⟨d, r, hd, he, hr, rfl⟩
  · refine ⟨fun a j => if a = engineB c ∧ j = 5 then en else dbl,
      fun m => ⟨writeLocalCap P m c en dbl, ?_, fun a j hj => ?_⟩⟩
    · have hd0 : fieldDesc (.chan .localCapSize) c = none := rfl
      simp only [setField, hd0, he]
    · rw [bit_writeLocalCap _ _ _ _ _ _ _ hj, fieldBit_localCap]
      by_cases h1 : a = engineB c ∧ j = 5 <;> by_cases h2 : a = engineA c ∧ j = 4 <;> simp [h1, h2]
  · refine ⟨fun a j => (BitVec.ofNat 16 r).getLsbD
        ((writable f d).position a j - (writable f d).lo),
      fun m => ⟨writeBits P m (writable f d) (BitVec.ofNat 16 r), by simp only [setField, hd, he],
        fun a j hj => ?_⟩⟩
    rw [bit_writeBits _ _ _ _ (writable_bounds f c d hd).1 _ _ hj, fieldBit_of_desc f c d hd]

/-- The frame of a set (R166). -/
theorem bit_setField_other (P : Params) (m m' : Memory) (f : RegField) (c : Chan) (v : Nat)
    (h : setField P m f c v = .ok m') (a j : Nat) (hj : j < 8) (hb : fieldBit f c a j = false) :
    m'.bit P a j = m.bit P a j := by
  obtain ⟨g, hg⟩ := setField_bits P f c v m m' h
  obtain ⟨n, hn, hbits⟩ := hg m
  rw [h] at hn
  cases hn
  rw [hbits a j hj, hb]
  rfl

/-- What an image holds for a field depends only on that field's bits. -/
theorem stored_congr (P : Params) (m n : Memory) (f : RegField) (c : Chan) (hf : f ≠ .sys .eventMask)
    (h : ∀ a j, j < 8 → fieldBit f c a j = true → m.bit P a j = n.bit P a j) :
    m.stored P f c = n.stored P f c := by
  unfold Memory.stored
  cases hd : fieldDesc f c with
  | none =>
    have hf' := (fieldDesc_eq_none f c).mp hd
    subst hf'
    have h1 := h (24 + 14 * c.val + 4) 5 (by omega) (by simp [fieldBit_localCap, engineB, chanBase])
    have h2 := h (24 + 14 * c.val + 2) 4 (by omega) (by simp [fieldBit_localCap, engineA, chanBase])
    simp only [h1, h2]
  | some d =>
    have hb := fieldDesc_bounds f c d hd
    have hw := writable_of_ne f d hf
    simp only
    rw [← readBits_toNat P m d hb, ← readBits_toNat P n d hb]
    congr 1
    ext i hi
    simp only [← BitVec.getLsbD_eq_getElem, readBits, getLsbD_extractBits]
    by_cases hi' : i < d.hi - d.lo + 1
    · simp only [hi', decide_true, Bool.and_true]
      have hcov : ∀ a j, j < 8 → d.covers a j = true → m.bit P a j = n.bit P a j := by
        intro a j hj hc
        exact h a j hj (by rw [fieldBit_of_desc f c d hd, hw]; exact hc)
      obtain ⟨off, w, hi₀, lo, k⟩ := d
      obtain ⟨-, h2, h3⟩ := hb
      cases w with
      | byte =>
        simp only [Width.bytes] at h2 h3 hi'
        simp only [getLsbD_readContainer_byte]
        refine (hcov off (lo + i) (by omega) ?_)
        simp only [Desc.covers, beq_self_eq_true, Bool.true_and, Bool.and_eq_true, decide_eq_true_eq]
        omega
      | word =>
        simp only [Width.bytes] at h2 h3 hi'
        simp only [getLsbD_readContainer_word]
        split
        · refine (hcov (off + 1) (lo + i) (by omega) ?_)
          simp only [Desc.covers, Bool.or_eq_true, Bool.and_eq_true, beq_iff_eq, decide_eq_true_eq]
          exact .inr ⟨⟨trivial, by omega⟩, by omega⟩
        · refine (hcov off (lo + i - 8) (by omega) ?_)
          simp only [Desc.covers, Bool.or_eq_true, Bool.and_eq_true, beq_iff_eq, decide_eq_true_eq]
          exact .inl ⟨⟨trivial, by omega⟩, by omega⟩
    · simp [hi']

/-- A set makes the image hold its value's code (R154, R163). -/
theorem stored_setField (P : Params) (m m' : Memory) (f : RegField) (c : Chan) (v : Nat)
    (hf : f ≠ .sys .eventMask) (h : setField P m f c v = .ok m') :
    m'.stored P f c = storedValue P f v := by
  rcases setField_cases P m m' f c v h with ⟨rfl, en, dbl, he, rfl⟩ | ⟨d, r, hd, he, hr, rfl⟩
  · have hd0 : ∀ c, fieldDesc (.chan .localCapSize) c = none := fun _ => rfl
    have b1 := bit_writeLocalCap P m c en dbl (engineB c) 5 (by omega)
    have b2 := bit_writeLocalCap P m c en dbl (engineA c) 4 (by omega)
    rw [if_pos ⟨rfl, rfl⟩] at b1
    rw [if_neg (by omega), if_pos ⟨rfl, rfl⟩] at b2
    simp only [engineA, engineB, chanBase] at b1 b2
    simp only [Memory.stored, storedValue, hd0, b1, b2]
    unfold lcapEncode at he
    split at he <;> cases he <;> rfl
  · have hb := fieldDesc_bounds f c d hd
    have hr' := toNat_ofNat_half r _ hb.width_le hr
    rw [writable_of_ne f d hf, storedValue_of_desc P f c d v hd, ← encodeValue_eq P d v r he]
    simp only [Memory.stored, hd]
    rw [← readBits_toNat P _ d hb, readBits_writeBits P m d _ hb (by rw [hr']; exact hr), hr']

/-- A set of a field that shares no bit leaves what the image holds for another. -/
theorem stored_setField_other (P : Params) (m m' : Memory) (f g : RegField) (c e : Chan) (v : Nat)
    (hg : g ≠ .sys .eventMask) (hdis : disjointFields f c g e) (h : setField P m f c v = .ok m') :
    m'.stored P g e = m.stored P g e := by
  refine stored_congr P m' m g e hg fun a j hj hb => ?_
  refine bit_setField_other P m m' f c v h a j hj ?_
  by_contra hc
  exact hdis a j hj ⟨by simpa using hc, hb⟩

end Sys2Proof.Machine
end

