-- ==== Sys2Proof/Laws/Build.lean ====
section
/-! SUPPORT. What a build writes, phase by phase (43_configuration.md R252 to R261), and which check
of a record a failing build stops at (R262). -/

namespace Sys2Proof.Machine

/-! ### The shared masks -/

/-- The bits a build's plain assignments write: ACTIVE, RESEED, the event kinds and gestures of
EVENT_MASK, BLOCKING and the slider masks (R253, R255, R258, R259). -/
def sharedBit (P : Params) (a j : Nat) : Bool :=
  a == 2 || a == 4 || (a == 5 && decide (j < 4)) || a == 16 || a == 18 || (a == 19 && !P.otpHold)

/-- A plain assignment to a whole-byte system field, bit by bit. -/
theorem bit_setSysBits_byte (P : Params) (m : Memory) (f : SysField) (r : Half) (off : Nat)
    (k : Kind) (hf : sysDesc f = ⟨off, .byte, 7, 0, k⟩) (a j : Nat) (hj : j < 8) :
    (setSysBits P m f r).bit P a j = if a = off then r.getLsbD j else m.bit P a j := by
  rw [bit_setSysBits _ _ _ _ _ _ hj, hf]
  by_cases hx : a = off
  · subst hx
    simp [Desc.covers, Desc.position, show j ≤ 7 by omega]
  · simp [Desc.covers, hx]

/-- A whole-byte system field as a mask. -/
theorem getLsbD_maskOf (P : Params) (m : Memory) (f : SysField) (off : Nat) (k : Kind)
    (hf : sysDesc f = ⟨off, .byte, 7, 0, k⟩) (j : Nat) (hj : j < 8) :
    (maskOf P m f).getLsbD j = m.bit P off j := by
  simp only [maskOf, sysBits, readBits, hf, BitVec.getLsbD_setWidth, getLsbD_extractBits]
  rw [getLsbD_readContainer_byte]
  simp [hj]

/-- Setting a lane of a mask changes that bit alone. -/
theorem bit_setLane (P : Params) (m : Memory) (f : SysField) (off : Nat) (k : Kind)
    (hf : sysDesc f = ⟨off, .byte, 7, 0, k⟩) (c : Nat) (on : Bool) (a j : Nat)
    (hj : j < 8) :
    (setLane P m f c on).bit P a j = if a = off ∧ j = c then on else m.bit P a j := by
  rw [setLane, bit_setSysBits_byte P m f _ off k hf a j hj]
  by_cases ha : a = off
  · subst ha
    rw [if_pos rfl, BitVec.getLsbD_setWidth]
    by_cases hc : j = c
    · subst hc
      cases on <;> simp [laneBit, hj, show j < 16 by omega]
    · have : (1#8 <<< c).getLsbD j = false := by
        rw [BitVec.getLsbD_shiftLeft]
        by_cases hlt : j < c
        · simp [hlt]
        · have : j - c ≠ 0 := by omega
          simp [BitVec.getLsbD_one, this]
      rw [← getLsbD_maskOf P m f a k hf j hj]
      cases on
      · simp only [Bool.false_eq_true, if_false, BitVec.getLsbD_and, BitVec.getLsbD_not, laneBit, this,
          hj, hc, and_false, show j < 16 by omega, decide_true, Bool.true_and, Bool.not_false,
          Bool.and_true]
      · simp only [if_true, if_false, BitVec.getLsbD_or, laneBit, this, hc, and_false,
          show j < 16 by omega, decide_true, Bool.true_and, Bool.or_false]
  · simp [ha]

/-- A lane of a shared mask is a shared bit, so setting it leaves the others. -/
theorem bit_setLane_other (P : Params) (m : Memory) (f : SysField) (off : Nat) (k : Kind)
    (hf : sysDesc f = ⟨off, .byte, 7, 0, k⟩) (c : Nat) (on : Bool) (hs : sharedBit P off c = true)
    (a j : Nat) (hj : j < 8) (h : sharedBit P a j = false) :
    (setLane P m f c on).bit P a j = m.bit P a j := by
  rw [bit_setLane P m f off k hf c on a j hj, if_neg]
  rintro ⟨rfl, rfl⟩
  rw [hs] at h
  cases h

/-- The initial clears leave every bit that is not a shared one (R253). -/
theorem bit_initialClears_other (P : Params) (m : Memory) (a j : Nat) (hj : j < 8)
    (h : sharedBit P a j = false) : (initialClears P m).bit P a j = m.bit P a j := by
  simp only [sharedBit, Bool.or_eq_false_iff, beq_eq_false_iff_ne, ne_eq, Bool.and_eq_false_imp,
    beq_iff_eq, decide_eq_false_iff_not, Bool.not_eq_eq_eq_not, Bool.not_false] at h
  obtain ⟨⟨⟨⟨⟨h2, h4⟩, h5⟩, h16⟩, h18⟩, h19⟩ := h
  have clears : ∀ n : Memory, n = (if P.otpHold then
        setSysBits P (setSysBits P (setSysBits P m .active 0) .blocking 0) .slider0Sel 0
      else setSysBits P (setSysBits P (setSysBits P (setSysBits P m .active 0) .blocking 0)
        .slider0Sel 0) .slider1Sel 0) → n.bit P a j = m.bit P a j := by
    rintro n rfl
    split
    · rw [bit_setSysBits_byte _ _ _ _ 18 _ rfl a j hj, if_neg h18,
        bit_setSysBits_byte _ _ _ _ 16 _ rfl a j hj, if_neg h16,
        bit_setSysBits_byte _ _ _ _ 2 _ rfl a j hj, if_neg h2]
    · rename_i ho
      rw [bit_setSysBits_byte _ _ _ _ 19 _ rfl a j hj, if_neg (fun ha => ho (h19 ha)),
        bit_setSysBits_byte _ _ _ _ 18 _ rfl a j hj, if_neg h18,
        bit_setSysBits_byte _ _ _ _ 16 _ rfl a j hj, if_neg h16,
        bit_setSysBits_byte _ _ _ _ 2 _ rfl a j hj, if_neg h2]
  simp only [initialClears]
  rw [bit_setSysBits_byte _ _ _ _ 5 _ rfl a j hj]
  by_cases ha : a = 5
  · have hj4 := h5 ha
    rw [if_pos ha, BitVec.getLsbD_setWidth, BitVec.getLsbD_or, getLsbD_maskOf _ _ _ 5 _ rfl j hj,
      ← ha, clears _ rfl]
    have : ∀ i, i < 8 → ¬i < 4 → (0x0F#8).getLsbD i = false := by decide
    simp [this j hj hj4, show j < 16 by omega]
  · rw [if_neg ha, clears _ rfl]

/-- The presence flags leave every bit that is not a shared one (R255). -/
theorem bit_channelMasks_other (P : Params) (c : Chan) (h : ChCfg) (m : Memory) (a j : Nat)
    (hj : j < 8) (hs : sharedBit P a j = false) :
    (channelMasks P c h m).bit P a j = m.bit P a j := by
  have l : ∀ (n : Memory) (f : SysField) (off : Nat) (k : Kind) (on : Bool),
      sysDesc f = ⟨off, .byte, 7, 0, k⟩ → sharedBit P off c.val = true →
      (setLane P n f c on).bit P a j = n.bit P a j :=
    fun n f off k on hf hsb => bit_setLane_other P n f off k hf c on hsb a j hj hs
  simp only [channelMasks]
  split <;> split <;>
    simp only [l _ .slider0Sel 18 _ true rfl rfl, l _ .blocking 16 _ true rfl rfl,
      l _ .reseed 4 _ _ rfl rfl, l _ .active 2 _ true rfl rfl]

/-- The slider-1 flag leaves every bit that is not a shared one (R255). -/
theorem bit_channelSlider1_other (P : Params) (c : Chan) (h : ChCfg) (m m' : Memory)
    (hm : channelSlider1 P c h m = .ok m') (a j : Nat) (hj : j < 8)
    (hs : sharedBit P a j = false) : m'.bit P a j = m.bit P a j := by
  unfold channelSlider1 at hm
  split at hm
  · split at hm
    · cases hm
    · rename_i ho
      cases hm
      exact bit_setLane_other P m .slider1Sel 19 _ rfl c true (by simp [sharedBit, ho]) a j hj hs
  · cases hm; rfl

/-- Gesture codes leave every bit that is not a shared one (R259). -/
theorem bit_buildGestures_other (P : Params) (cfg : Cfg) (m : Memory) (a j : Nat) (hj : j < 8)
    (hs : sharedBit P a j = false) : (buildGestures P cfg m).bit P a j = m.bit P a j := by
  unfold buildGestures
  split
  · exact bit_setLane_other P m .eventMask 5 _ rfl 3 false rfl a j hj hs
  · rfl

/-- The bits the forcing writes (R280). -/
def forcedBit (a j : Nat) : Bool :=
  (a == 1 && (j == 0 || j == 2 || j == 4 || j == 5)) || a == 23

/-- The forcing leaves every bit it does not name, and byte 19 unless the default is re-applied. -/
theorem bit_forceImage_other (P : Params) (codes : SliderCodes) (m : Memory) (redo hs : Bool)
    (a j : Nat) (hj : j < 8) (h : forcedBit a j = false) :
    (forceImage P codes m redo hs).bit P a j =
      if a = 19 ∧ reappliesHold P hs = true then P.touchHoldDefault.getLsbD j
      else m.bit P a j := by
  simp only [forcedBit, Bool.or_eq_false_iff, beq_eq_false_iff_ne, ne_eq, Bool.and_eq_false_imp,
    beq_iff_eq] at h
  obtain ⟨h1, h23⟩ := h
  have word : ∀ (n : Memory) (f : SysField) (r : Half) (k : Nat) (kd : Kind),
      sysDesc f = ⟨0, .word, k, k, kd⟩ → k < 8 → ¬(a = 1 ∧ j = k) →
      (setSysBits P n f r).bit P a j = n.bit P a j := by
    intro n f r k kd hf hk hne
    rw [bit_setSysBits _ _ _ _ _ _ hj, hf]
    have : (⟨0, .word, k, k, kd⟩ : Desc).covers a j = false := by
      rw [Bool.eq_false_iff]
      simp only [Desc.covers, ne_eq, Bool.or_eq_true, Bool.and_eq_true, beq_iff_eq,
        decide_eq_true_eq]
      omega
    rw [this]
    rfl
  have n0 : ¬(a = 1 ∧ j = 0) := fun ⟨x, y⟩ => by simpa [y] using h1 x
  have n2 : ¬(a = 1 ∧ j = 2) := fun ⟨x, y⟩ => by simpa [y] using h1 x
  have n4 : ¬(a = 1 ∧ j = 4) := fun ⟨x, y⟩ => by simpa [y] using h1 x
  have n5 : ¬(a = 1 ∧ j = 5) := fun ⟨x, y⟩ => by simpa [y] using h1 x
  have inner : ∀ (x y z w v : Half), (setSysBits P (setSysBits P (setSysBits P (setSysBits P
      (setSysBits P m .genEventMode x) .genEventModeLp y) .genAckReset z) .genRedoAti w)
      .redoAtiMask v).bit P a j = m.bit P a j := by
    intro x y z w v
    rw [bit_setSysBits_byte _ _ _ _ 23 _ rfl a j hj, if_neg h23,
      word _ .genRedoAti _ 2 _ rfl (by omega) n2, word _ .genAckReset _ 0 _ rfl (by omega) n0,
      word _ .genEventModeLp _ 4 _ rfl (by omega) n4, word _ .genEventMode _ 5 _ rfl (by omega) n5]
  simp only [forceImage]
  cases hr : reappliesHold P hs with
  | true =>
    simp only [if_true, and_true]
    rw [Memory.bit, Memory.read_write _ _ _ _ _ (by decide)]
    split
    · rfl
    · exact inner _ _ _ _ _
  | false => simpa using inner _ _ _ _ _

/-! ### Property lists -/

/-- A property list leaves every bit that none of its fields has. -/
theorem bit_applyProperties_other (P : Params) (scope : Nat) (c : Chan) (ps : List Property)
    (m m' : Memory) (h : applyProperties P scope c m ps = .ok m') (a j : Nat) (hj : j < 8)
    (hb : ∀ q ∈ ps, fieldBit q.field c a j = false) : m'.bit P a j = m.bit P a j :=
  applyProperties_keeps P scope c (fun n => n.bit P a j = m.bit P a j) ps m m'
    (fun q hq v n n' _ hs hn => (bit_setField_other P n n' q.field c v hs a j hj (hb q hq)).trans hn)
    h rfl

/-- What an image holds for a field after one property: the property's value, or what it held. -/
def afterProperty (P : Params) (f : RegField) (v : Option Nat) (old : Nat) : Nat :=
  match v with
  | some x => storedValue P f x
  | none => old

/-- A property list leaves what the image holds for a field apart from all of its fields. -/
theorem stored_applyProperties_other (P : Params) (scope : Nat) (c e : Chan) (ps : List Property)
    (m m' : Memory) (h : applyProperties P scope c m ps = .ok m') (f : RegField)
    (hf : f ≠ .sys .eventMask) (hd : ∀ q ∈ ps, disjointFields q.field c f e) :
    m'.stored P f e = m.stored P f e :=
  applyProperties_keeps P scope c (fun n => n.stored P f e = m.stored P f e) ps m m'
    (fun q hq v n n' _ hs hn =>
      (stored_setField_other P n n' q.field f c e v hf (hd q hq) hs).trans hn) h rfl

/-- A property list whose fields lie apart stores every present value and leaves the field of every
absent one (R254). -/
theorem stored_applyProperties (P : Params) (scope : Nat) (c : Chan) (ps : List Property)
    (m m' : Memory) (h : applyProperties P scope c m ps = .ok m')
    (hm : ∀ q ∈ ps, q.field ≠ .sys .eventMask)
    (hp : ps.Pairwise (fun x y => disjointFields x.field c y.field c)) (q : Property) (hq : q ∈ ps) :
    m'.stored P q.field c = afterProperty P q.field q.value (m.stored P q.field c) := by
  induction ps generalizing m with
  | nil => cases hq
  | cons x rest ih =>
    simp only [applyProperties] at h
    split at h
    · cases h
    · rename_i n hn
      obtain ⟨hx, hrest⟩ := List.pairwise_cons.mp hp
      have hn' : ∀ f : RegField, f ≠ .sys .eventMask → disjointFields x.field c f c →
          n.stored P f c = m.stored P f c := by
        intro f hf hd
        unfold applyProperty at hn
        split at hn
        · cases hn; rfl
        · exact stored_setField_other P m n x.field f c c _ hf hd ((inContext_ok _ _ _ _).mp hn)
      rcases List.mem_cons.mp hq with rfl | hq'
      · rw [stored_applyProperties_other P scope c c rest n m' h q.field (hm q hq)
          (fun y hy => disjointFields_symm _ _ _ _ (hx y hy))]
        unfold applyProperty at hn
        split at hn
        · rename_i hv
          cases hn
          rw [hv]
          rfl
        · rename_i v hv
          rw [stored_setField P m n q.field c v (hm q hq) ((inContext_ok _ _ _ _).mp hn), hv]
          rfl
      · rw [ih n h (fun y hy => hm y (List.mem_cons_of_mem _ hy)) hrest hq',
          hn' q.field (hm q hq) (hx q hq')]

/-- The fields of the system properties lie apart. -/
theorem sysProperties_apart (P : Params) (y : SysCfg) :
    (∀ q ∈ sysProperties P y, q.field ≠ .sys .eventMask) ∧
    (sysProperties P y).Pairwise (fun x y => disjointFields x.field 0 y.field 0) := by
  have hl : (sysProperties P y).map Property.field =
      ([.filtLpLta, .filtLpCnt, .filtNpLta, .filtNpCnt, .rateNp, .rateLp, .rateUlp, .timeoutPwr,
        .timeoutLta, .touchHold, .timeoutTap, .timeoutSwipe, .threshSwipe, .genPwrMode, .genClkDiv,
        .maAtiBandDisable, .maAtiLpOnly, .maAtiBandTighten, .maFiltDisable, .maTxFreq, .maGlobalCap,
        .mbReseedSel] : List SysField).map RegField.sys := rfl
  constructor
  · intro q hq
    have : q.field ∈ (sysProperties P y).map Property.field := List.mem_map_of_mem hq
    rw [hl] at this
    intro he
    rw [he] at this
    revert this
    decide
  · have : ((sysProperties P y).map Property.field).Pairwise
        (fun f g => disjointFields f 0 g 0) := by
      rw [hl, List.pairwise_map]
      refine List.Pairwise.imp (R := fun f g => isRawField (.sys f) = false ∧
        isRawField (.sys g) = false ∧ f ≠ g ∧ ¬(f = .slider1Sel ∧ g = .touchHold) ∧
        ¬(f = .touchHold ∧ g = .slider1Sel)) ?_ (by decide)
      intro f g ⟨h1, h2, h3, h4, h5⟩
      exact disjoint_sys f g 0 0 h1 h2 h3 h4 h5
    exact List.pairwise_map.mp this

/-- The fields of a channel's properties, and the ones a channel's events write. -/
theorem chanProperties_fields (h : ChCfg) : (chanProperties h).map Property.field =
    ([.eaMeasCap, .localCapSize, .eaPolarity, .eaSenseMode, .ebSenseFreq, .eaBias, .eaAtiMode,
      .ebAtiBase, .ebAtiTarget, .assocSel, .assocWeight] : List ChanField).map RegField.chan := rfl

/-- A property of a channel is of a channel field, apart from any other named channel field. -/
theorem chanProperties_mem (h : ChCfg) (q : Property) (hq : q ∈ chanProperties h) :
    ∃ f : ChanField, q.field = .chan f ∧ isRawField (.chan f) = false ∧
      f ∈ ([.eaMeasCap, .localCapSize, .eaPolarity, .eaSenseMode, .ebSenseFreq, .eaBias, .eaAtiMode,
        .ebAtiBase, .ebAtiTarget, .assocSel, .assocWeight] : List ChanField) := by
  have : q.field ∈ (chanProperties h).map Property.field := List.mem_map_of_mem hq
  rw [chanProperties_fields, List.mem_map] at this
  obtain ⟨f, hf, he⟩ := this
  exact ⟨f, he.symm, (by decide : ∀ g ∈ ([.eaMeasCap, .localCapSize, .eaPolarity, .eaSenseMode,
    .ebSenseFreq, .eaBias, .eaAtiMode, .ebAtiBase, .ebAtiTarget, .assocSel, .assocWeight] :
    List ChanField), isRawField (.chan g) = false) f hf, hf⟩

theorem chanProperties_apart (h : ChCfg) (c : Chan) :
    (∀ q ∈ chanProperties h, q.field ≠ .sys .eventMask) ∧
    (chanProperties h).Pairwise (fun x y => disjointFields x.field c y.field c) := by
  constructor
  · intro q hq
    obtain ⟨f, hf, -⟩ := chanProperties_mem h q hq
    simp [hf]
  · have : ((chanProperties h).map Property.field).Pairwise
        (fun f g => disjointFields f c g c) := by
      rw [chanProperties_fields, List.pairwise_map]
      refine List.Pairwise.imp (R := fun f g => isRawField (.chan f) = false ∧
        isRawField (.chan g) = false ∧ f ≠ g) ?_ (by decide)
      intro f g ⟨h1, h2, h3⟩
      exact disjoint_chan f g c c h1 h2 h3
    exact List.pairwise_map.mp this

/-! ### Pin lists -/

theorem pinBits_bits (l : List Nat) (m m' : Byte) (h : pinBits l m = .ok m') (q : Nat) (hq : q < 8) :
    m'.getLsbD q = (m.getLsbD q || decide (q ∈ l)) := by
  induction l generalizing m with
  | nil => cases h; simp
  | cons p rest ih =>
    rw [pinBits] at h
    split at h
    · cases h
    · rw [ih _ h, BitVec.getLsbD_or, laneBit, BitVec.getLsbD_shiftLeft]
      by_cases hqp : q = p
      · subst hqp; simp [hq]
      · by_cases hlt : q < p
        · simp [hlt, hqp]
        · have : q - p ≠ 0 := by omega
          simp [hqp, BitVec.getLsbD_one, this]

/-- Bit q of a pin list's mask says whether q is in the list (R251). -/
theorem listToMask_bits (l : List Nat) (m : Byte) (h : listToMask l = .ok m) (q : Nat) (hq : q < 8) :
    m.getLsbD q = decide (q ∈ l) := by
  unfold listToMask at h
  split at h
  · cases h
  · rw [pinBits_bits l 0 m h q hq]; simp

/-- A pin list stands in its field as the OR of its bits; an absent one leaves the field (R255). -/
theorem bit_channelPins (P : Params) (c : Chan) (f : ChanField) (off : Nat)
    (hf : chanDesc f = some ⟨off, .byte, 7, 0, .mask⟩) (pins : Option (List Nat)) (m m' : Memory)
    (h : channelPins P c f pins m = .ok m') (a j : Nat) (hj : j < 8) :
    m'.bit P a j = pins.elim (m.bit P a j)
      (fun l => if a = chanBase c + off then decide (j ∈ l) else m.bit P a j) := by
  unfold channelPins at h
  split at h
  · cases h; rfl
  · split at h
    · cases h
    · rename_i l _ mask hl
      have hd : fieldDesc (.chan f) c = some ⟨chanBase c + off, .byte, 7, 0, .mask⟩ := by
        simp [fieldDesc, hf]
      simp only [setField, hd] at h
      split at h
      · cases h
      · rename_i r hr
        cases h
        have hr' : r = mask.toNat := encodeValue_eq P _ _ _ hr
        rw [writable_of_ne _ _ (by simp),
          bit_writeBits _ _ _ _ (fieldDesc_bounds _ c _ hd) _ _ hj]
        by_cases ha : a = chanBase c + off
        · subst ha
          have hm : (BitVec.ofNat 16 mask.toNat).getLsbD j = mask.getLsbD j := by
            rw [BitVec.getLsbD_ofNat, BitVec.testBit_toNat]
            simp [show j < 16 by omega]
          simp only [Desc.covers, Desc.position, beq_self_eq_true, Nat.zero_le, decide_true,
            show j ≤ 7 by omega, Bool.and_self, if_true, Nat.sub_zero, hr', hm,
            listToMask_bits l mask hl j hj, Option.elim]
        · simp [Desc.covers, ha]

/-! ### Events -/

/-- The value an event's configuration gives a field of its channel, if it gives one (R258). -/
def EvCfg.writes (v : EvCfg) (e : Event) (f : ChanField) : Option Nat :=
  if f = e.kind.thresh then v.thresh else if some f = e.kind.hyst then v.hyst else none

/-- The threshold and hysteresis steps, bit by bit: what the fields have not is kept. -/
theorem bit_buildEvent_other (P : Params) (c : Chan) (h : ChCfg) (b b' : Build) (e : Event)
    (hb : buildEvent P c h b e = .ok b') (a j : Nat) (hj : j < 8) (hs : sharedBit P a j = false)
    (h1 : fieldBit (.chan e.kind.thresh) c a j = false)
    (h2 : ∀ f, e.kind.hyst = some f → fieldBit (.chan f) c a j = false) :
    b'.img.bit P a j = b.img.bit P a j := by
  obtain ⟨m₁, m₂, e1, e2, e3⟩ := buildEvent_ok P c h b b' e hb
  have hk : sharedBit P 5 e.kind.bit = true := by cases e <;> rfl
  have w1 : m₁.bit P a j = b.img.bit P a j := by
    unfold eventThresh at e1
    split at e1
    · cases e1; rfl
    · exact bit_setField_other P _ _ _ _ _ e1 a j hj h1
  have w2 : m₂.bit P a j = m₁.bit P a j := by
    unfold eventHyst at e2
    split at e2
    · cases e2; rfl
    · split at e2
      · cases e2
      · rename_i f hf
        exact bit_setField_other P _ _ _ _ _ e2 a j hj (h2 f hf)
  have w3 : (eventKey P c e h.ev[e.id] { b with img := m₂ }).img.bit P a j = m₂.bit P a j := by
    unfold eventKey
    split
    · rfl
    · exact bit_setLane_other P m₂ .eventMask 5 _ rfl e.kind.bit false hk a j hj hs
  rw [← w1, ← w2, ← w3]
  unfold eventSwitch at e3
  split at e3
  · cases e3; rfl
  · split at e3
    · cases e3
    · cases e3
      exact bit_setLane_other P _ .eventMask 5 _ rfl e.kind.bit false hk a j hj hs

/-- A channel's bits are no shared ones. -/
theorem not_sharedBit_of_chan (P : Params) (f : ChanField) (c : Chan) (a j : Nat) (hj : j < 8)
    (h : fieldBit (.chan f) c a j = true) : sharedBit P a j = false := by
  rw [fieldBit_eq_any _ _ _ _ hj, List.any_eq_true] at h
  obtain ⟨d, hd, hc⟩ := h
  have h1 := (storeDescs_chan_range f c d hd).1
  have h2 := (d.covers_range a j hc).1
  simp only [chanBase] at h1
  have : ∀ n, n < 24 → (a == n) = false := fun n hn => beq_false_of_ne (by omega)
  simp [sharedBit, this]

theorem isRawField_event (k : EventKind) : isRawField (.chan k.thresh) = false ∧
    ∀ f, k.hyst = some f → isRawField (.chan f) = false ∧ f ≠ k.thresh := by
  cases k <;> simp [EventKind.thresh, EventKind.hyst, isRawField, chanDesc]

/-- What an image holds for a channel field after one event (R258). -/
theorem stored_buildEvent (P : Params) (c : Chan) (h : ChCfg) (b b' : Build) (e : Event)
    (hb : buildEvent P c h b e = .ok b') (f : ChanField) (hf : isRawField (.chan f) = false) :
    b'.img.stored P (.chan f) c =
      afterProperty P (.chan f) (h.ev[e.id].writes e f) (b.img.stored P (.chan f) c) := by
  obtain ⟨m₁, m₂, e1, e2, e3⟩ := buildEvent_ok P c h b b' e hb
  generalize h.ev[e.id] = v at *
  obtain ⟨rt, rh⟩ := isRawField_event e.kind
  have hk : sharedBit P 5 e.kind.bit = true := by cases e <;> rfl
  have lane : ∀ n : Memory, (setLane P n .eventMask e.kind.bit false).stored P (.chan f) c =
      n.stored P (.chan f) c := fun n => stored_congr P _ _ _ _ (by simp) fun a j hj hbit =>
    bit_setLane_other P n .eventMask 5 _ rfl _ false hk a j hj
      (not_sharedBit_of_chan P f c a j hj hbit)
  have w3 : b'.img.stored P (.chan f) c = m₂.stored P (.chan f) c := by
    have w : (eventKey P c e v { b with img := m₂ }).img.stored P (.chan f) c =
        m₂.stored P (.chan f) c := by
      unfold eventKey
      split
      · rfl
      · exact lane m₂
    rw [← w]
    unfold eventSwitch at e3
    split at e3
    · cases e3; rfl
    · split at e3
      · cases e3
      · cases e3; exact lane _
  have w1 : m₁.stored P (.chan f) c =
      if f = e.kind.thresh then afterProperty P (.chan f) v.thresh (b.img.stored P (.chan f) c)
      else b.img.stored P (.chan f) c := by
    unfold eventThresh at e1
    split at e1
    · rename_i hv
      cases e1
      simp [afterProperty, hv]
    · rename_i t hv
      split
      · rename_i hfe
        subst hfe
        rw [stored_setField P _ _ _ _ _ (by simp) e1, hv]
        rfl
      · rename_i hfe
        exact stored_setField_other P _ _ _ _ _ _ _ (by simp)
          (disjoint_chan _ _ c c rt hf (fun h' => hfe h'.symm)) e1
  have w2 : m₂.stored P (.chan f) c =
      if some f = e.kind.hyst then afterProperty P (.chan f) v.hyst (m₁.stored P (.chan f) c)
      else m₁.stored P (.chan f) c := by
    unfold eventHyst at e2
    split at e2
    · rename_i hv
      cases e2
      simp [afterProperty, hv]
    · rename_i y hv
      split at e2
      · cases e2
      · rename_i g hg
        split
        · rename_i hfe
          rw [hg] at hfe
          cases hfe
          rw [stored_setField P _ _ _ _ _ (by simp) e2, hv]
          rfl
        · rename_i hfe
          refine stored_setField_other P _ _ _ _ _ _ _ (by simp)
            (disjoint_chan _ _ c c (rh g hg).1 hf (fun h' => hfe ?_)) e2
          rw [hg, h']
  rw [w3, w2, w1, EvCfg.writes]
  by_cases ht : f = e.kind.thresh
  · have hne : some f ≠ e.kind.hyst := fun h' => (rh f h'.symm).2 ht
    rw [if_neg hne, if_pos ht, if_pos ht]
  · rw [if_neg ht, if_neg ht]
    split <;> rfl

/-- What an image holds for a channel field after a channel's events: each in turn (R258). -/
theorem stored_buildEvents (P : Params) (c : Chan) (h : ChCfg) (es : List Event) (b b' : Build)
    (hb : buildEvents P c h b es = .ok b') (f : ChanField) (hf : isRawField (.chan f) = false) :
    b'.img.stored P (.chan f) c =
      es.foldl (fun old e => afterProperty P (.chan f) (h.ev[e.id].writes e f) old)
        (b.img.stored P (.chan f) c) := by
  induction es generalizing b with
  | nil => cases hb; rfl
  | cons e rest ih =>
    simp only [buildEvents] at hb
    split at hb
    · cases hb
    · rename_i n hn
      rw [List.foldl_cons, ih n hb, stored_buildEvent P c h b n e hn f hf]

/-- The six fields events write. -/
theorem bit_buildEvents_other (P : Params) (c : Chan) (h : ChCfg) (es : List Event) (b b' : Build)
    (hb : buildEvents P c h b es = .ok b') (a j : Nat) (hj : j < 8) (hs : sharedBit P a j = false)
    (hf : ∀ f ∈ ([.threshProx, .threshTouch, .threshDeep, .hystTouch, .hystDeep] : List ChanField),
      fieldBit (.chan f) c a j = false) : b'.img.bit P a j = b.img.bit P a j := by
  refine buildEvents_keeps P c h (fun n => n.img.bit P a j = b.img.bit P a j) es b b' ?_ hb rfl
  intro e _ n n' hn hq
  refine (bit_buildEvent_other P c h n n' e hn a j hj hs (hf _ ?_) fun f hf' => hf _ ?_).trans hq
  · cases e <;> decide
  · cases e <;> simp only [Event.kind, EventKind.hyst, Option.some.injEq, reduceCtorEq] at hf' <;>
      subst hf' <;> decide

/-! ### Channels -/

/-- The channel fields a build writes: all but ATI_COMP and the raw ones. -/
def builtFields : List ChanField :=
  [.rxEn, .txEn, .eaMeasCap, .localCapSize, .eaPolarity, .eaSenseMode, .ebSenseFreq, .eaBias,
   .eaAtiMode, .ebAtiBase, .ebAtiTarget, .assocSel, .assocWeight, .threshProx, .threshTouch,
   .threshDeep, .hystTouch, .hystDeep]

theorem fieldBit_rxEn (c : Chan) (a j : Nat) (h : fieldBit (.chan .rxEn) c a j = false) (hj : j < 8) :
    a ≠ chanBase c + 0 := by
  rintro rfl
  simp [fieldBit, fieldDesc, chanDesc, writable, Desc.covers] at h
  omega

theorem fieldBit_txEn (c : Chan) (a j : Nat) (h : fieldBit (.chan .txEn) c a j = false) (hj : j < 8) :
    a ≠ chanBase c + 1 := by
  rintro rfl
  simp [fieldBit, fieldDesc, chanDesc, writable, Desc.covers] at h
  omega

/-- One channel leaves every bit that is no shared one and of none of its built fields (R255). -/
theorem bit_buildChannel_other (P : Params) (c : Chan) (h : ChCfg) (b b' : Build)
    (hb : buildChannel P c h b = .ok b') (a j : Nat) (hj : j < 8) (hs : sharedBit P a j = false)
    (hf : ∀ f ∈ builtFields, fieldBit (.chan f) c a j = false) :
    b'.img.bit P a j = b.img.bit P a j := by
  obtain ⟨m₁, m₂, m₃, m₄, e1, e2, e3, e4, e5⟩ := buildChannel_ok P c h b b' hb
  have hrx := fieldBit_rxEn c a j (hf _ (by decide)) hj
  have htx := fieldBit_txEn c a j (hf _ (by decide)) hj
  have p2 := bit_channelPins P c .rxEn 0 rfl h.rxPins m₁ m₂ e2 a j hj
  have p3 := bit_channelPins P c .txEn 1 rfl h.txPins m₂ m₃ e3 a j hj
  rw [bit_buildEvents_other P c h _ _ _ e5 a j hj hs
      (fun f hf' => hf f ((by decide : ∀ g ∈ ([.threshProx, .threshTouch, .threshDeep, .hystTouch,
        .hystDeep] : List ChanField), g ∈ builtFields) f hf')),
    bit_applyProperties_other P _ c _ m₃ m₄ e4 a j hj (fun q hq => by
      obtain ⟨f, hqf, -, hmem⟩ := chanProperties_mem h q hq
      rw [hqf]
      exact hf f ((by decide : ∀ g ∈ ([.eaMeasCap, .localCapSize, .eaPolarity, .eaSenseMode,
        .ebSenseFreq, .eaBias, .eaAtiMode, .ebAtiBase, .ebAtiTarget, .assocSel, .assocWeight] :
        List ChanField), g ∈ builtFields) f hmem)), p3]
  have q2 : m₂.bit P a j = m₁.bit P a j := by
    rw [p2]
    cases h.rxPins with
    | none => rfl
    | some l => exact if_neg hrx
  have q3 : h.txPins.elim (m₂.bit P a j)
      (fun l => if a = chanBase c + 1 then decide (j ∈ l) else m₂.bit P a j) = m₂.bit P a j := by
    cases h.txPins with
    | none => rfl
    | some l => exact if_neg htx
  rw [q3, q2, bit_channelSlider1_other P c h _ m₁ e1 a j hj hs,
    bit_channelMasks_other P c h _ a j hj hs]

/-- The bytes of a channel's block (20_memory.md R82). -/
abbrev inBlock (c : Chan) (a : Nat) : Prop := 24 + 14 * c.val ≤ a ∧ a < 24 + 14 * c.val + 14

/-- A bit of a channel field is in its channel's block. -/
theorem inBlock_of_fieldBit (f : ChanField) (c : Chan) (a j : Nat) (hj : j < 8)
    (h : fieldBit (.chan f) c a j = true) : inBlock c a := by
  rw [fieldBit_eq_any _ _ _ _ hj, List.any_eq_true] at h
  obtain ⟨d, hd, hc⟩ := h
  have h1 := storeDescs_chan_range f c d hd
  have h2 := d.covers_range a j hc
  simp only [chanBase] at h1
  exact ⟨by omega, by omega⟩

/-- One channel leaves every bit outside its block that is no shared one. -/
theorem bit_buildChannel_outside (P : Params) (c : Chan) (h : ChCfg) (b b' : Build)
    (hb : buildChannel P c h b = .ok b') (a j : Nat) (hj : j < 8) (hs : sharedBit P a j = false)
    (ha : ¬inBlock c a) : b'.img.bit P a j = b.img.bit P a j := by
  refine bit_buildChannel_other P c h b b' hb a j hj hs fun f _ => ?_
  by_contra hc
  exact ha (inBlock_of_fieldBit f c a j hj (by simpa using hc))

/-- The channels of a record leave every bit outside the channel blocks that is no shared one. -/
theorem bit_buildChannels_outside (P : Params) (cfg : Cfg) (cs : List Chan) (b b' : Build)
    (hb : buildChannels P cfg b cs = .ok b') (a j : Nat) (hj : j < 8) (hs : sharedBit P a j = false)
    (ha : ∀ c ∈ cs, ∀ h, cfg.ch[c] = some h → ¬inBlock c a) :
    b'.img.bit P a j = b.img.bit P a j :=
  buildChannels_keeps P cfg (fun n => n.img.bit P a j = b.img.bit P a j) cs b b'
    (fun c hc h n n' hh hn hq =>
      (bit_buildChannel_outside P c h n n' hn a j hj hs (ha c hc h hh)).trans hq) hb rfl

/-- No bit of a channel block is a shared one. -/
theorem not_sharedBit_of_inBlock (P : Params) (c : Chan) (a j : Nat) (h : inBlock c a) :
    sharedBit P a j = false := by
  have : ∀ n, n < 24 → (a == n) = false := fun n hn => beq_false_of_ne (by omega)
  simp [sharedBit, this]

theorem not_inBlock_of_ne (c e : Chan) (a : Nat) (h : c ≠ e) (ha : inBlock c a) : ¬inBlock e a := by
  have hne : c.val ≠ e.val := fun h' => h (Fin.ext h')
  omega

/-- A channel the record holds gets its block from its own step alone: before it the block is as the
channels found it, and after it as they leave it (R255). -/
theorem buildChannels_block (P : Params) (cfg : Cfg) (cs : List Chan) (hnd : cs.Nodup) (b b' : Build)
    (hb : buildChannels P cfg b cs = .ok b') (c : Chan) (hc : c ∈ cs) (h : ChCfg)
    (hh : cfg.ch[c] = some h) :
    ∃ n n', buildChannel P c h n = .ok n' ∧ ∀ a j, j < 8 → inBlock c a →
      n.img.bit P a j = b.img.bit P a j ∧ b'.img.bit P a j = n'.img.bit P a j := by
  induction cs generalizing b with
  | nil => cases hc
  | cons x rest ih =>
    obtain ⟨hx, hrest⟩ := List.nodup_cons.mp hnd
    simp only [buildChannels] at hb
    rcases List.mem_cons.mp hc with rfl | hc'
    · rw [hh] at hb
      simp only at hb
      split at hb
      · cases hb
      · rename_i n hn
        refine ⟨b, n, hn, fun a j hj ha => ⟨rfl, ?_⟩⟩
        refine bit_buildChannels_outside P cfg rest n b' hb a j hj
          (not_sharedBit_of_inBlock P c a j ha) fun e he _ _ => ?_
        exact not_inBlock_of_ne c e a (fun h' => hx (h' ▸ he)) ha
    · split at hb
      · exact ih hrest b hb hc'
      · rename_i k hk
        split at hb
        · cases hb
        · rename_i n₀ hn₀
          obtain ⟨n, n', h1, h2⟩ := ih hrest n₀ hb hc'
          refine ⟨n, n', h1, fun a j hj ha => ⟨?_, (h2 a j hj ha).2⟩⟩
          rw [(h2 a j hj ha).1]
          exact bit_buildChannel_outside P x k b n₀ hn₀ a j hj (not_sharedBit_of_inBlock P c a j ha)
            (not_inBlock_of_ne c x a (fun h' => hx (h' ▸ hc')) ha)

/-- A bit of a system field lies below the channel blocks. -/
theorem below_of_fieldBit_sys (f : SysField) (c : Chan) (a j : Nat) (hj : j < 8)
    (h : fieldBit (.sys f) c a j = true) : a < 24 := by
  rw [fieldBit_eq_any _ _ _ _ hj, List.any_eq_true] at h
  obtain ⟨d, hd, hc⟩ := h
  have h1 := storeDescs_sys_range f c d hd
  have h2 := d.covers_range a j hc
  omega

/-- A system property is of a system field. -/
theorem sysProperties_sys (P : Params) (y : SysCfg) (q : Property) (hq : q ∈ sysProperties P y) :
    ∃ f, q.field = .sys f := by
  have : ∀ g ∈ (sysProperties P y).map Property.field, ∃ f, g = .sys f := by simp [sysProperties]
  exact this _ (List.mem_map_of_mem hq)

theorem not_forcedBit_of_inBlock (c : Chan) (a j : Nat) (h : inBlock c a) : forcedBit a j = false := by
  have : ∀ n, n < 24 → (a == n) = false := fun n hn => beq_false_of_ne (by omega)
  simp [forcedBit, this]

/-- Outside the blocks of the channels a record holds, a build leaves every bit as the system
properties left it, but for the shared bits, the forced ones and a re-applied byte 19. -/
theorem bit_cfgBuild_outside (P : Params) (img : Memory) (cfg : Cfg) (b : Build)
    (h : cfgBuild P img cfg = .ok b) :
    ∃ m, applyProperties P sysScope 0 (initialClears P img) (sysProperties P cfg.sys) = .ok m ∧
      ∀ a j, j < 8 → sharedBit P a j = false → forcedBit a j = false →
        (∀ c h, cfg.ch[c] = some h → ¬inBlock c a) →
        b.img.bit P a j =
          if a = 19 ∧ reappliesHold P (holdSpecified P cfg) = true then P.touchHoldDefault.getLsbD j
          else m.bit P a j := by
  obtain ⟨m, b₀, h1, h2, rfl⟩ := cfgBuild_ok P img cfg b h
  refine ⟨m, h1, fun a j hj hs hf hb => ?_⟩
  rw [bit_forceImage_other P _ _ _ _ a j hj hf]
  split
  · rfl
  · rw [bit_buildGestures_other P cfg _ a j hj hs]
    exact bit_buildChannels_outside P cfg channels _ b₀ h2 a j hj hs
      (fun c _ h hh => hb c h hh)

/-- The block of a channel a record holds comes from that channel's own step, which finds it as the
image had it (R255). -/
theorem cfgBuild_block (P : Params) (img : Memory) (cfg : Cfg) (b : Build)
    (hb : cfgBuild P img cfg = .ok b) (c : Chan) (h : ChCfg) (hc : cfg.ch[c] = some h) :
    ∃ n n', buildChannel P c h n = .ok n' ∧ ∀ a j, j < 8 → inBlock c a →
      n.img.bit P a j = img.bit P a j ∧ b.img.bit P a j = n'.img.bit P a j := by
  obtain ⟨m, b₀, h1, h2, rfl⟩ := cfgBuild_ok P img cfg b hb
  obtain ⟨n, n', e1, e2⟩ := buildChannels_block P cfg channels (by decide) _ b₀ h2 c
    ((by decide : ∀ c : Chan, c ∈ channels) c) h hc
  refine ⟨n, n', e1, fun a j hj ha => ?_⟩
  obtain ⟨k1, k2⟩ := e2 a j hj ha
  have ns := not_sharedBit_of_inBlock P c a j ha
  constructor
  · rw [k1, bit_applyProperties_other P _ 0 _ _ m h1 a j hj, bit_initialClears_other P img a j hj ns]
    intro q hq
    obtain ⟨f, hf⟩ := sysProperties_sys P _ q hq
    rw [hf]
    by_contra hx
    have := below_of_fieldBit_sys f 0 a j hj (by simpa using hx)
    omega
  · rw [← k2, bit_forceImage_other P _ _ _ _ a j hj (not_forcedBit_of_inBlock c a j ha),
      if_neg (by omega), bit_buildGestures_other P cfg _ a j hj ns]

end Sys2Proof.Machine
end

