-- ==== Sys2Proof/Laws/Checks.lean ====
section
/-! SUPPORT. Which check of a record a build stops at: each phase of CFG_BUILD follows its list of
checks (43_configuration.md R254 to R258, R262, R263). -/

namespace Sys2Proof.Machine

/-- A check fails. -/
abbrev RecordCheck.failing (k : RecordCheck) : Bool := k.fails.isSome

/-- A result follows a list of checks: it stops at the first failing one, with that check's status and
context, and is a success when none fails. -/
def Follows {α : Type} (r : Except BuildError α) (ks : List RecordCheck) : Prop :=
  match ks.find? RecordCheck.failing with
  | none => ∃ a, r = .ok a
  | some k => ∃ e : Status, r = .error { status := e, context := contextWord k.scope k.idx } ∧
      k.fails = some e.code ∧ (e = .outOfRange ∨ e = .invalidEnum)

theorem follows_ok {α : Type} (a : α) : Follows (.ok a : Except BuildError α) [] := ⟨a, rfl⟩

/-- Two phases in order follow their checks in order (R262). -/
theorem follows_bind {α β : Type} {r : Except BuildError α} {f : α → Except BuildError β}
    {ks ls : List RecordCheck} (h1 : Follows r ks) (h2 : ∀ a, r = .ok a → Follows (f a) ls) :
    Follows (r >>= f) (ks ++ ls) := by
  unfold Follows at h1 ⊢
  rw [List.find?_append]
  cases hk : ks.find? RecordCheck.failing with
  | none =>
    rw [hk] at h1
    obtain ⟨a, rfl⟩ := h1
    exact h2 a rfl
  | some k =>
    rw [hk] at h1
    obtain ⟨e, rfl, h⟩ := h1
    exact ⟨e, rfl, h⟩

/-- One check in its context (R263). -/
theorem follows_inContext {α : Type} (scope idx : Nat) (r : Except Status α) (o : Option Byte)
    (h : match o with
      | none => ∃ a, r = .ok a
      | some b => ∃ e : Status, r = .error e ∧ b = e.code ∧ (e = .outOfRange ∨ e = .invalidEnum)) :
    Follows (inContext scope idx r) [⟨scope, idx, o⟩] := by
  cases o with
  | none =>
    obtain ⟨a, rfl⟩ := h
    exact ⟨a, rfl⟩
  | some b =>
    obtain ⟨e, rfl, rfl, he⟩ := h
    exact ⟨e, rfl, rfl, he⟩

/-- Lists with the same first failing check are followed alike. -/
theorem follows_congr {α : Type} {r : Except BuildError α} {ks ls : List RecordCheck}
    (h : ks.find? RecordCheck.failing = ls.find? RecordCheck.failing) (hk : Follows r ks) :
    Follows r ls := by
  unfold Follows at *
  rwa [← h]

/-! ### One property -/

/-- The status a set of a field to a value fails with, if it fails: it is the value's alone
(41_field_codec.md R154). -/
def valueFails (P : Params) (f : RegField) (v : Nat) : Option Byte :=
  match fieldDesc f 0 with
  | none => if v ≤ 2 then none else some 2
  | some d =>
    match d.kind with
    | .atiBase => if v ∈ Config.atiBaseValues then none else some 2
    | .bool | .uint | .mask | .raw | .scaled _ => if d.maxValue P < v then some 1 else none

/-- encode fails exactly on the values that do (R154). -/
theorem encodeValue_outcome (P : Params) (f : RegField) (c : Chan) (d : Desc) (v : Nat)
    (hd : fieldDesc f c = some d) :
    match valueFails P f v with
    | none => ∃ r, encodeValue P d v = .ok r
    | some b => ∃ e : Status, encodeValue P d v = .error e ∧ b = e.code ∧
        (e = .outOfRange ∨ e = .invalidEnum) := by
  obtain ⟨d', h0, hk, -, hhi, hlo⟩ := fieldDesc_channel f c 0 d hd
  have hmax : d'.maxValue P = d.maxValue P := by simp [Desc.maxValue, hk, Desc.fmax, hhi, hlo]
  simp only [valueFails, h0, hk, hmax]
  unfold encodeValue
  cases hkd : d.kind with
  | atiBase =>
    by_cases hv : v ∈ Config.atiBaseValues
    · simp only [hv, if_true]
      simp only [Config.atiBaseValues, List.mem_cons, List.not_mem_nil, or_false] at hv
      rcases hv with rfl | rfl | rfl | rfl <;> exact ⟨_, rfl⟩
    · simp only [hv, if_false]
      refine ⟨.invalidEnum, ?_, rfl, .inr rfl⟩
      simp only [Config.atiBaseValues, List.mem_cons, List.not_mem_nil, or_false, not_or] at hv
      unfold baseCode
      split <;> first | rfl | (exfalso; omega)
  | scaled k =>
    have e1 : d.maxValue P = d.fmax * k.value P := by simp [Desc.maxValue, hkd]
    simp only [e1]
    by_cases hv : d.fmax * k.value P < v
    · simp only [hv, if_true]; exact ⟨.outOfRange, rfl, rfl, .inl rfl⟩
    · simp only [hv, if_false]; exact ⟨_, rfl⟩
  | bool | uint | mask | raw =>
    have e1 : d.maxValue P = d.fmax := by simp [Desc.maxValue, hkd]
    simp only [e1]
    by_cases hv : d.fmax < v
    · simp only [hv, if_true]; exact ⟨.outOfRange, rfl, rfl, .inl rfl⟩
    · simp only [hv, if_false]; exact ⟨_, rfl⟩

/-- A set fails exactly on the values that do (R163). -/
theorem setField_outcome (P : Params) (m : Memory) (f : RegField) (c : Chan) (v : Nat) :
    match valueFails P f v with
    | none => ∃ m', setField P m f c v = .ok m'
    | some b => ∃ e : Status, setField P m f c v = .error e ∧ b = e.code ∧
        (e = .outOfRange ∨ e = .invalidEnum) := by
  cases hd : fieldDesc f c with
  | none =>
    have hf := (fieldDesc_eq_none f c).mp hd
    subst hf
    have h0 : ∀ c, fieldDesc (.chan .localCapSize) c = none := fun _ => rfl
    simp only [valueFails, setField, h0]
    match v with
    | 0 => exact ⟨_, rfl⟩
    | 1 => exact ⟨_, rfl⟩
    | 2 => exact ⟨_, rfl⟩
    | n + 3 =>
      rw [if_neg (by omega)]
      exact ⟨.invalidEnum, rfl, rfl, .inr rfl⟩
  | some d =>
    have := encodeValue_outcome P f c d v hd
    simp only [setField, hd]
    cases hv : valueFails P f v with
    | none =>
      rw [hv] at this
      obtain ⟨r, hr⟩ := this
      exact ⟨_, by rw [hr]⟩
    | some b =>
      rw [hv] at this
      obtain ⟨e, he, h⟩ := this
      exact ⟨e, by rw [he], h⟩

/-- The check a property makes. -/
def Property.check (P : Params) (scope : Nat) (q : Property) : RecordCheck :=
  ⟨scope, q.idx, q.value.bind (valueFails P q.field)⟩

theorem follows_applyProperty (P : Params) (scope : Nat) (c : Chan) (m : Memory) (q : Property) :
    Follows (applyProperty P scope c m q) [q.check P scope] := by
  unfold applyProperty Property.check
  cases hv : q.value with
  | none => exact ⟨m, rfl⟩
  | some v => exact follows_inContext _ _ _ _ (setField_outcome P m q.field c v)

/-- A property list follows its properties' checks (R262). -/
theorem follows_applyProperties (P : Params) (scope : Nat) (c : Chan) (ps : List Property)
    (m : Memory) : Follows (applyProperties P scope c m ps) (ps.map (·.check P scope)) := by
  induction ps generalizing m with
  | nil => exact follows_ok m
  | cons q rest ih =>
    have hb : applyProperties P scope c m (q :: rest) =
        (applyProperty P scope c m q >>= fun n => applyProperties P scope c n rest) := by
      simp only [applyProperties]
      cases applyProperty P scope c m q <;> rfl
    rw [hb]
    exact follows_bind (follows_applyProperty P scope c m q) fun a _ => ih a

theorem failsAbove_eq (max : Nat) (v : Option Nat) (g : Nat → Option Byte)
    (h : ∀ x, g x = if max < x then some 1 else none) : v.bind g = failsAbove max v := by
  cases v <;> simp [failsAbove, h]

theorem failsOutside_eq (l : List Nat) (v : Option Nat) (g : Nat → Option Byte)
    (h : ∀ x, g x = if x ∈ l then none else some 2) : v.bind g = failsOutside l v := by
  cases v <;> simp [failsOutside, h]

/-- A flag's set never fails (R254). -/
theorem flag_passes (P : Params) (f : RegField) (b : Option Bool)
    (h : valueFails P f 0 = none ∧ valueFails P f 1 = none) :
    (flag b).bind (valueFails P f) = none := by
  cases b with
  | none => rfl
  | some x => cases x <;> simp [flag, boolNat, h.1, h.2]

/-- The system checks are those of the system properties, but for the ones that never fail (R254). -/
theorem find_system (P : Params) (y : SysCfg) :
    ((sysProperties P y).map (·.check P sysScope)).find? RecordCheck.failing =
      (systemChecks P y).find? RecordCheck.failing := by
  have a : ∀ (f : SysField) (max : Nat) (v : Option Nat),
      (∀ x, valueFails P (.sys f) x = if max < x then some 1 else none) →
      v.bind (valueFails P (.sys f)) = failsAbove max v := fun f max v => failsAbove_eq max v _
  have b : ∀ (f : SysField) (v : Option Bool),
      (∀ x, valueFails P (.sys f) x = if 1 < x then some 1 else none) →
      (flag v).bind (valueFails P (.sys f)) = none := fun f v hf =>
    flag_passes P _ v ⟨by rw [hf]; rfl, by rw [hf]; rfl⟩
  have ht : failsAbove 65280 (if P.otpHold then y.touchHold else none) =
      if P.otpHold then failsAbove 65280 y.touchHold else none := by
    cases P.otpHold <;> rfl
  simp only [sysProperties, List.map_cons, List.map_nil, Property.check,
    a .filtLpLta 3 _ (fun _ => rfl), a .filtLpCnt 3 _ (fun _ => rfl),
    a .filtNpLta 3 _ (fun _ => rfl), a .filtNpCnt 3 _ (fun _ => rfl),
    a .rateNp 255 _ (fun _ => rfl), a .rateLp 255 _ (fun _ => rfl), a .rateUlp 4080 _ (fun _ => rfl),
    a .timeoutPwr 130560 _ (fun _ => rfl), a .timeoutLta 130560 _ (fun _ => rfl),
    a .touchHold 65280 _ (fun _ => rfl), a .timeoutTap (255 * P.stepT) _ (fun _ => rfl),
    a .timeoutSwipe (255 * P.stepT) _ (fun _ => rfl), a .threshSwipe (255 * P.stepS) _ (fun _ => rfl),
    a .genPwrMode 3 _ (fun _ => rfl), b .genClkDiv _ (fun _ => rfl),
    b .maAtiBandDisable _ (fun _ => rfl), b .maAtiLpOnly _ (fun _ => rfl),
    b .maAtiBandTighten _ (fun _ => rfl), b .maFiltDisable _ (fun _ => rfl),
    a .maTxFreq 3 _ (fun _ => rfl), b .maGlobalCap _ (fun _ => rfl),
    a .mbReseedSel 3 _ (fun _ => rfl),
    systemChecks, ht, List.find?_cons, RecordCheck.failing, Option.isSome_none, sysScope]

/-- The system properties follow the system checks (R254). -/
theorem follows_system (P : Params) (y : SysCfg) (m : Memory) :
    Follows (applyProperties P sysScope 0 m (sysProperties P y)) (systemChecks P y) :=
  follows_congr (find_system P y) (follows_applyProperties P sysScope 0 (sysProperties P y) m)

/-! ### Channels -/

theorem pinBits_outcome (l : List Nat) (m : Byte) :
    if ∀ q ∈ l, q < 8 then ∃ m', pinBits l m = .ok m' else pinBits l m = .error .outOfRange := by
  induction l generalizing m with
  | nil => exact ⟨m, rfl⟩
  | cons p rest ih =>
    rw [pinBits]
    by_cases hp : p ≥ 8
    · rw [if_pos hp, if_neg (fun h => absurd (h p List.mem_cons_self) (by omega))]
    · rw [if_neg hp]
      have := ih (m ||| laneBit p)
      by_cases hr : ∀ q ∈ rest, q < 8
      · rw [if_pos hr] at this
        rw [if_pos (fun q hq => by
          rcases List.mem_cons.mp hq with rfl | hq'
          · omega
          · exact hr q hq')]
        exact this
      · rw [if_neg hr] at this
        rw [if_neg (fun h => hr fun q hq => h q (List.mem_cons_of_mem _ hq))]
        exact this

/-- A pin list fails exactly on the lists R251 refuses. -/
theorem channelPins_outcome (P : Params) (c : Chan) (f : ChanField) (off : Nat)
    (hf : chanDesc f = some ⟨off, .byte, 7, 0, .mask⟩) (pins : Option (List Nat)) (m : Memory) :
    match failsPins pins with
    | none => ∃ m', channelPins P c f pins m = .ok m'
    | some b => ∃ e : Status, channelPins P c f pins m = .error e ∧ b = e.code ∧
        (e = .outOfRange ∨ e = .invalidEnum) := by
  cases pins with
  | none => exact ⟨m, rfl⟩
  | some l =>
    simp only [failsPins]
    by_cases hl : l.length ≤ 8 ∧ ∀ q ∈ l, q < 8
    · simp only [if_pos hl]
      obtain ⟨mask, hm⟩ : ∃ mask, listToMask l = .ok mask := by
        have := pinBits_outcome l 0
        rw [if_pos hl.2] at this
        obtain ⟨mask, h⟩ := this
        exact ⟨mask, by rw [listToMask, if_neg (by simp only [Config.pinListMax]; omega), h]⟩
      have hd : fieldDesc (.chan f) 0 = some ⟨chanBase 0 + off, .byte, 7, 0, .mask⟩ := by
        simp [fieldDesc, hf]
      have hv : valueFails P (.chan f) mask.toNat = none := by
        have := mask.isLt
        have hn : ¬255 < mask.toNat := by omega
        simp only [valueFails, hd]
        exact if_neg hn
      have hs := setField_outcome P m (.chan f) c mask.toNat
      rw [hv] at hs
      obtain ⟨m', h⟩ := hs
      exact ⟨m', by simp only [channelPins, hm, h]⟩
    · simp only [if_neg hl]
      refine ⟨.outOfRange, ?_, rfl, .inl rfl⟩
      have hm : listToMask l = .error .outOfRange := by
        rw [listToMask]
        split
        · rfl
        · rename_i hlen
          have := pinBits_outcome l 0
          rwa [if_neg (fun h => hl ⟨by simp only [Config.pinListMax] at hlen; omega, h⟩)] at this
      simp only [channelPins, hm]

theorem channelSlider1_outcome (P : Params) (c : Chan) (h : ChCfg) (m : Memory) :
    match (if h.slider1 ∧ P.otpHold then some 2 else none : Option Byte) with
    | none => ∃ m', channelSlider1 P c h m = .ok m'
    | some b => ∃ e : Status, channelSlider1 P c h m = .error e ∧ b = e.code ∧
        (e = .outOfRange ∨ e = .invalidEnum) := by
  unfold channelSlider1
  cases h.slider1 <;> cases P.otpHold
  · exact ⟨_, rfl⟩
  · exact ⟨_, rfl⟩
  · exact ⟨_, rfl⟩
  · exact ⟨.invalidEnum, rfl, rfl, .inr rfl⟩

/-- One event follows its checks (R258). -/
theorem follows_buildEvent (P : Params) (c : Chan) (h : ChCfg) (b : Build) (e : Event) :
    Follows (buildEvent P c h b e) (eventChecks c e h.ev[e.id]) := by
  have above : ∀ (f : ChanField) (max : Nat) (m : Memory) (v : Nat),
      (∀ x, valueFails P (.chan f) x = if max < x then some 1 else none) →
      match failsAbove max (some v) with
      | none => ∃ m', setField P m (.chan f) c v = .ok m'
      | some b => ∃ e : Status, setField P m (.chan f) c v = .error e ∧ b = e.code ∧
          (e = .outOfRange ∨ e = .invalidEnum) := by
    intro f max m v hf
    have := setField_outcome P m (.chan f) c v
    rwa [hf] at this
  unfold buildEvent eventChecks
  generalize h.ev[e.id] = v
  have hidx : ∀ j, eventIdx e j = 32 + 4 * e.id.val + j := fun j => rfl
  refine follows_bind (ks := [_]) (follows_inContext _ _ _ _ ?_) fun m _ =>
    follows_bind (ks := [_]) ?_ fun m _ => ?_
  · unfold eventThresh
    cases v.thresh with
    | none => exact ⟨_, rfl⟩
    | some t => exact above e.kind.thresh 255 _ t (by cases e <;> exact fun _ => rfl)
  · rw [show eventIdx e 1 = 33 + 4 * e.id.val by rw [hidx]; omega]
    refine follows_inContext _ _ _ _ ?_
    unfold eventHyst
    cases v.hyst with
    | none => cases e <;> exact ⟨_, rfl⟩
    | some y =>
      cases e with
      | proxDn | proxUp => exact ⟨.invalidEnum, rfl, rfl, .inr rfl⟩
      | touchDn | touchUp => exact above .hystTouch 15 _ y (fun _ => rfl)
      | deepDn | deepUp => exact above .hystDeep 15 _ y (fun _ => rfl)
  · rw [show eventIdx e 3 = 35 + 4 * e.id.val by rw [hidx]; omega]
    refine follows_inContext _ _ _ _ ?_
    unfold eventSwitch
    by_cases hs : v.sw = 0
    · simp only [hs, ne_eq, not_true_eq_false, false_and, if_false]
      exact ⟨_, rfl⟩
    · by_cases hc : c = 7
      · subst hc
        simp only [ne_eq, not_true_eq_false, and_false, if_false, hs]
        exact ⟨_, rfl⟩
      · simp only [ne_eq, hs, hc, not_false_eq_true, and_self, if_true, if_false]
        exact ⟨.invalidEnum, rfl, rfl, .inr rfl⟩

theorem follows_buildEvents (P : Params) (c : Chan) (h : ChCfg) (es : List Event) (b : Build) :
    Follows (buildEvents P c h b es) (es.flatMap (fun e => eventChecks c e h.ev[e.id])) := by
  induction es generalizing b with
  | nil => exact follows_ok b
  | cons e rest ih =>
    have hb : buildEvents P c h b (e :: rest) =
        (buildEvent P c h b e >>= fun n => buildEvents P c h n rest) := by
      simp only [buildEvents]
      cases buildEvent P c h b e <;> rfl
    rw [hb, List.flatMap_cons]
    exact follows_bind (follows_buildEvent P c h b e) fun a _ => ih a

/-- The checks of a channel's properties of R256 and R257. -/
def propertyChecks (c : Chan) (h : ChCfg) : List RecordCheck :=
  [⟨c.val, 7, failsOutside [0, 1, 2] h.localCap⟩, ⟨c.val, 9, failsAbove 15 h.senseMode⟩,
   ⟨c.val, 10, failsAbove 3 h.senseFreq⟩, ⟨c.val, 11, failsAbove 3 h.bias⟩,
   ⟨c.val, 12, failsAbove 3 h.atiMode⟩, ⟨c.val, 13, failsOutside [75, 100, 150, 200] h.atiBase⟩,
   ⟨c.val, 14, failsAbove 2016 h.atiTarget⟩, ⟨c.val, 15, failsAbove 255 h.assocSelect⟩,
   ⟨c.val, 16, failsAbove 255 h.assocWeight⟩]

/-- They are those of the properties, but for the ones that never fail. -/
theorem find_chanProperties (P : Params) (c : Chan) (h : ChCfg) :
    ((chanProperties h).map (·.check P c.val)).find? RecordCheck.failing =
      (propertyChecks c h).find? RecordCheck.failing := by
  have a : ∀ (f : ChanField) (max : Nat) (v : Option Nat),
      (∀ x, valueFails P (.chan f) x = if max < x then some 1 else none) →
      v.bind (valueFails P (.chan f)) = failsAbove max v := fun f max v => failsAbove_eq max v _
  have b : ∀ (f : ChanField) (v : Option Bool),
      (∀ x, valueFails P (.chan f) x = if 1 < x then some 1 else none) →
      (flag v).bind (valueFails P (.chan f)) = none := fun f v hf =>
    flag_passes P _ v ⟨by rw [hf]; rfl, by rw [hf]; rfl⟩
  have l : h.localCap.bind (valueFails P (.chan .localCapSize)) =
      failsOutside [0, 1, 2] h.localCap := failsOutside_eq _ _ _ fun x => by
    have : x ≤ 2 ↔ x ∈ [0, 1, 2] := by simp only [List.mem_cons, List.not_mem_nil, or_false]; omega
    have hv : valueFails P (.chan .localCapSize) x = if x ≤ 2 then none else some 2 := rfl
    rw [hv]
    simp only [this]
  have o : h.atiBase.bind (valueFails P (.chan .ebAtiBase)) =
      failsOutside [75, 100, 150, 200] h.atiBase := failsOutside_eq _ _ _ fun _ => rfl
  simp only [chanProperties, List.map_cons, List.map_nil, Property.check,
    b .eaMeasCap _ (fun _ => rfl), l, b .eaPolarity _ (fun _ => rfl),
    a .eaSenseMode 15 _ (fun _ => rfl), a .ebSenseFreq 3 _ (fun _ => rfl), a .eaBias 3 _ (fun _ => rfl),
    a .eaAtiMode 3 _ (fun _ => rfl), o, a .ebAtiTarget 2016 _ (fun _ => rfl),
    a .assocSel 255 _ (fun _ => rfl), a .assocWeight 255 _ (fun _ => rfl), propertyChecks,
    List.find?_cons, RecordCheck.failing, Option.isSome_none]

theorem follows_chanProperties (P : Params) (c : Chan) (h : ChCfg) (m : Memory) :
    Follows (applyProperties P c.val c m (chanProperties h)) (propertyChecks c h) :=
  follows_congr (find_chanProperties P c h) (follows_applyProperties P c.val c (chanProperties h) m)

/-- One channel follows its checks (R255 to R258). -/
theorem follows_buildChannel (P : Params) (c : Chan) (h : ChCfg) (b : Build) :
    Follows (buildChannel P c h b) (channelChecks P c h) := by
  unfold buildChannel channelChecks
  simp only [List.cons_append, List.nil_append]
  refine follows_bind (ks := [_])
    (follows_inContext _ _ _ _ (channelSlider1_outcome P c h _)) fun m _ => ?_
  refine follows_bind (ks := [_])
    (follows_inContext _ _ _ _ (channelPins_outcome P c .rxEn 0 rfl h.rxPins m)) fun m _ => ?_
  refine follows_bind (ks := [_])
    (follows_inContext _ _ _ _ (channelPins_outcome P c .txEn 1 rfl h.txPins m)) fun m _ => ?_
  exact follows_bind (follows_chanProperties P c h m)
    fun m' _ => follows_buildEvents P c h Event.all _

theorem follows_buildChannels (P : Params) (cfg : Cfg) (cs : List Chan) (b : Build) :
    Follows (buildChannels P cfg b cs)
      (cs.flatMap (fun c => match cfg.ch[c] with
        | some h => channelChecks P c h
        | none => [])) := by
  induction cs generalizing b with
  | nil => exact follows_ok b
  | cons c rest ih =>
    rw [List.flatMap_cons]
    cases hc : cfg.ch[c] with
    | none =>
      simp only [buildChannels, hc]
      exact ih b
    | some h =>
      have hb : buildChannels P cfg b (c :: rest) =
          (buildChannel P c h b >>= fun n => buildChannels P cfg n rest) := by
        simp only [buildChannels, hc]
        cases buildChannel P c h b <;> rfl
      rw [hb]
      exact follows_bind (follows_buildChannel P c h b) fun a _ => ih a

/-- A build follows the record's checks: it stops at the first failing one, and it succeeds when none
fails (R262). -/
theorem follows_cfgBuild (P : Params) (img : Memory) (cfg : Cfg) :
    Follows (cfgBuild P img cfg) (recordChecks P cfg) := by
  unfold cfgBuild recordChecks
  refine follows_bind (follows_system P cfg.sys _) fun m _ => ?_
  rw [← List.append_nil (List.flatMap _ channels)]
  exact follows_bind (follows_buildChannels P cfg channels _) fun b _ => follows_ok _

end Sys2Proof.Machine
end

