-- ==== Sys2Proof/Laws/PerInstr.lean ====
section
/-! SUPPORT. Statements made once per command, one lemma per constructor of `Instr`. -/

namespace Sys2Proof.Laws.EncodedReserved

/-- The word of a command has its opcode in OP, its field in FID, its operand in CH and 0 in the
reserved bits (30_encoding.md R110, R119). -/
def Statement (i : Instr) : Prop :=
  opOf (encode i) = i.opcode ∧ fidOf (encode i) = i.fidByte ∧ chOf (encode i) = i.channel ∧
    rsvOf (encode i) = 0

/-- The four fields of a word put together from four parts. -/
theorem fields (a b : Byte) (c : Fin 16) :
    opOf ((a ++ b : BitVec 16) ++ (BitVec.ofFin c ++ 0#12 : BitVec 16)) = a ∧
    fidOf ((a ++ b : BitVec 16) ++ (BitVec.ofFin c ++ 0#12 : BitVec 16)) = b ∧
    chOf ((a ++ b : BitVec 16) ++ (BitVec.ofFin c ++ 0#12 : BitVec 16)) = c ∧
    rsvOf ((a ++ b : BitVec 16) ++ (BitVec.ofFin c ++ 0#12 : BitVec 16)) = 0 := by
  have hc : ((BitVec.ofFin c : BitVec 4)).toFin = c := rfl
  refine ⟨?_, ?_, ?_, ?_⟩
  · ext i hi
    simp only [opOf, BitVec.getElem_extractLsb', BitVec.getLsbD_append]
    rw [if_neg (by omega), if_neg (by omega), ← BitVec.getLsbD_eq_getElem]
    congr 1; omega
  · ext i hi
    simp only [fidOf, BitVec.getElem_extractLsb', BitVec.getLsbD_append]
    rw [if_neg (by omega), if_pos (by omega), ← BitVec.getLsbD_eq_getElem]
    congr 1; omega
  · unfold chOf
    have : BitVec.extractLsb' 12 4 ((a ++ b : BitVec 16) ++ (BitVec.ofFin c ++ 0#12 : BitVec 16)) =
        BitVec.ofFin c := by
      ext i hi
      simp only [BitVec.getElem_extractLsb', BitVec.getLsbD_append]
      rw [if_pos (by omega), if_neg (by omega), ← BitVec.getLsbD_eq_getElem]
      congr 1; omega
    rw [this]
  · ext i hi
    simp only [rsvOf, BitVec.getElem_extractLsb', BitVec.getLsbD_append]
    rw [if_pos (by omega), if_pos (by omega)]
    simp

theorem fldGet (f : RegField) (ch : Fin 16) : Statement (.fldGet f ch) := fields _ _ _
theorem fldSet (f : RegField) (ch : Fin 16) : Statement (.fldSet f ch) := fields _ _ _
theorem atiModeGet (ch : Fin 16) : Statement (.atiModeGet ch) := fields _ _ _
theorem atiModeSet (ch : Fin 16) : Statement (.atiModeSet ch) := fields _ _ _
theorem atiBaseGet (ch : Fin 16) : Statement (.atiBaseGet ch) := fields _ _ _
theorem atiBaseSet (ch : Fin 16) : Statement (.atiBaseSet ch) := fields _ _ _
theorem atiTargetGet (ch : Fin 16) : Statement (.atiTargetGet ch) := fields _ _ _
theorem atiTargetSet (ch : Fin 16) : Statement (.atiTargetSet ch) := fields _ _ _
theorem rxEnGet (ch : Fin 16) : Statement (.rxEnGet ch) := fields _ _ _
theorem rxEnSet (ch : Fin 16) : Statement (.rxEnSet ch) := fields _ _ _
theorem chSelGet : Statement .chSelGet := fields _ _ _
theorem chSelSet : Statement .chSelSet := fields _ _ _
theorem hallEnGet : Statement .hallEnGet := fields _ _ _
theorem hallEnSet : Statement .hallEnSet := fields _ _ _
theorem recalStatus : Statement .recalStatus := fields _ _ _
theorem recalTrigger : Statement .recalTrigger := fields _ _ _
theorem countsRead (ch : Fin 16) : Statement (.countsRead ch) := fields _ _ _
theorem cfgBuild : Statement .cfgBuild := fields _ _ _
theorem imgInit : Statement .imgInit := fields _ _ _
theorem snapDecode : Statement .snapDecode := fields _ _ _
theorem sliderModeGet (ch : Fin 16) : Statement (.sliderModeGet ch) := fields _ _ _
theorem calWait : Statement .calWait := fields _ _ _

end Sys2Proof.Laws.EncodedReserved
end

