-- ==== Sys2Proof/Laws/Sliders.lean ====
section
/-! SUPPORT. The laws of the classifier's inputs: when a slider is in Key or Raw mode, when one of its
channels is touched, and the lanes of an event (44_event_classifier.md R322, R335, R340). -/

namespace Sys2Proof.Machine

/-- A whole-byte system field as a mask is its byte. -/
theorem maskOf_eq (P : Params) (m : Memory) (f : SysField) (off : Nat) (k : Kind)
    (hf : sysDesc f = ⟨off, .byte, 7, 0, k⟩) : maskOf P m f = m.read P off := by
  refine byte_ext _ _ fun j hj => ?_
  simp only [maskOf, sysBits, readBits, hf, BitVec.getLsbD_setWidth, getLsbD_extractBits]
  rw [getLsbD_readContainer_byte, Memory.bit]
  simp [hj]

/-- A slider's selection mask is byte 18 or 19 (10_state.md R43). -/
theorem sliderSel_eq (P : Params) (m : Memory) (i : SliderIx) :
    sliderSel P m i = m.read P (18 + i.val) := by
  have : i = 0 ∨ i = 1 := by revert i; decide
  rcases this with rfl | rfl
  · exact maskOf_eq P m .slider0Sel 18 _ rfl
  · exact maskOf_eq P m .slider1Sel 19 _ rfl

theorem anyGestureCode_iff (codes : SliderCodes) (i : SliderIx) :
    anyGestureCode codes i = true ↔ ∃ g : Gesture, codes[i][g] ≠ 0 := by
  simp only [anyGestureCode, List.any_eq_true, bne_iff_ne, ne_eq]
  exact ⟨fun ⟨g, _, h⟩ => ⟨g, h⟩, fun ⟨g, h⟩ => ⟨g, (by decide : ∀ g : Gesture, g ∈ gestures) g, h⟩⟩

/-- A slider is in Key mode when it has channels and some gesture has a code (R322). -/
theorem sliderMode_key (P : Params) (codes : SliderCodes) (m : Memory) (i : SliderIx) :
    sliderMode P codes m i = .key ↔
      (¬(i = 1 ∧ P.otpHold = true) ∧ m.read P (18 + i.val) ≠ 0) ∧ ∃ g : Gesture, codes[i][g] ≠ 0 := by
  unfold sliderMode
  rw [← anyGestureCode_iff, sliderSel_eq]
  split
  · rename_i h; simp [h]
  · rename_i h
    split
    · rename_i h0; simp [h0]
    · rename_i h0; split <;> simp_all

/-- A slider is in Raw mode when it has channels and no gesture has a code (R322). -/
theorem sliderMode_raw (P : Params) (codes : SliderCodes) (m : Memory) (i : SliderIx) :
    sliderMode P codes m i = .raw ↔
      (¬(i = 1 ∧ P.otpHold = true) ∧ m.read P (18 + i.val) ≠ 0) ∧
        ¬∃ g : Gesture, codes[i][g] ≠ 0 := by
  unfold sliderMode
  rw [← anyGestureCode_iff, sliderSel_eq]
  split
  · rename_i h; simp [h]
  · rename_i h
    split
    · rename_i h0; simp [h0]
    · rename_i h0; split <;> simp_all

/-- Some slider is in Raw mode (43_configuration.md R283), over the two selection bytes and the codes. -/
theorem anyRaw_iff (P : Params) (codes : SliderCodes) (m : Memory) :
    anyRaw P codes m = true ↔
      (m.read P 18 ≠ 0 ∧ ∀ g : Gesture, codes[(0 : SliderIx)][g] = 0) ∨
        (P.otpHold = false ∧ m.read P 19 ≠ 0 ∧ ∀ g : Gesture, codes[(1 : SliderIx)][g] = 0) := by
  simp only [anyRaw, sliders, List.any_cons, List.any_nil, Bool.or_false, Bool.or_eq_true,
    beq_iff_eq, sliderMode_raw]
  simp
  tauto

/-- A lane of an event's mask: the state bit, under the direction bit or its complement (R340). -/
theorem Snap.getLsbD_eventMask (sn : Snap) (e : Event) (c : Chan) :
    (sn.eventMask e).getLsbD c.val =
      (sn.states[e.kind.stateIndex].getLsbD c.val &&
        if e.up then sn.states[(1 : Fin 4)].getLsbD c.val
        else !sn.states[(1 : Fin 4)].getLsbD c.val) := by
  have hd : sn.dir = sn.states[(1 : Fin 4)] := rfl
  unfold Snap.eventMask
  rw [hd]
  split
  · rw [BitVec.getLsbD_and]
  · rw [BitVec.getLsbD_and, BitVec.getLsbD_not, decide_eq_true c.isLt, Bool.true_and]

/-- The same of the committed modes. -/
theorem State.sliderMode_key (s : State) (i : SliderIx) :
    s.sliderMode i = .key ↔ s.hasSlider i ∧ s.hasGestureCode i :=
  Machine.sliderMode_key s.params s.slcode s.img i

theorem State.sliderMode_raw (s : State) (i : SliderIx) :
    s.sliderMode i = .raw ↔ s.hasSlider i ∧ ¬s.hasGestureCode i :=
  Machine.sliderMode_raw s.params s.slcode s.img i

/-- A selected channel is touched exactly when the touch mask and the selection meet (R335). -/
theorem mask_meets (x y : Byte) :
    x &&& y ≠ 0 ↔ ∃ c : Chan, (x.getLsbD c.val && y.getLsbD c.val) = true := by
  constructor
  · intro h
    by_contra hn
    refine h (byte_ext _ _ fun j hj => ?_)
    have := fun hb => hn ⟨⟨j, hj⟩, hb⟩
    simpa [BitVec.getLsbD_and] using this
  · rintro ⟨c, hc⟩ h
    rw [← BitVec.getLsbD_and, h] at hc
    simp at hc

/-- The raw reports of one slider (R335). -/
theorem State.rawSliderReports_eq (s : State) (sn : Snap) (i : SliderIx) :
    s.rawSliderReports sn i =
      if ∃ c : Chan, (sn.touchMask.getLsbD c.val && (s.byte (18 + i.val)).getLsbD c.val) = true then
        [.touch (sliderDev i) true, .abs (sliderDev i) sn.pos[i]]
      else [.touch (sliderDev i) false] := by
  unfold State.rawSliderReports
  rw [sliderSel_eq, ← State.byte]
  by_cases h : sn.touchMask &&& s.byte (18 + i.val) ≠ 0
  · rw [if_pos h, if_pos ((mask_meets _ _).mp h)]
  · rw [if_neg h, if_neg (fun hc => h ((mask_meets _ _).mpr hc))]

end Sys2Proof.Machine
end

