-- ==== Sys2Proof/Tests/Slice0.lean ====
section
/-! SUPPORT. Tests: the ill-formed terms WellFormed refuses, the words of the spec, one or two small
steps per command with results from 95_test_vectors.md, and the witnesses of the statements'
hypotheses. -/

namespace Sys2Proof.Tests

open Sys2Proof.Machine

/-! ### Small machines and states -/

/-- The parameters of 95_test_vectors.md: INIT_IMAGE all 0, OTP_HOLD = 0, two ports. -/
def P0 : Params where
  numPorts := 2
  fwRev := 5
  otpHold := false
  initImage := .replicate 136 0
  fwHoldFixMin := 3
  touchHoldDefault := 0x14
  fwStepMin := 3
  stepTOld := 2
  stepTNew := 4
  stepSOld := 1
  stepSNew := 2
  redoOnRecovery := true
  imgBase := 0x80
  snapBase := 2
  countsBase := .replicate 8 7
  irqSettleUs := 100

/-- The same with OTP_HOLD = 1. -/
def P1 : Params := { P0 with otpHold := true }

/-- The same, before FW_HOLD_FIX_MIN. -/
def P2 : Params := { P1 with fwHoldFixMin := 10 }

/-- A state in which host port 0 runs a command with a DIN. -/
def st (ph : Phase) (din : Nat) : State :=
  { State.resetWith P0 with
    phase := ph, issuer := .host 0, ports := [{ din := BitVec.ofNat 32 din }, {}],
    gate := if ph = .armed then .calibrating else .idle, stale := ph ≠ .armed }

/-- The same with one image cell. -/
def st1 (ph : Phase) (din a : Nat) (v : Byte) : State := { st ph din with img := [(a, v)] }

/-- A ready state: Armed, GATE = Ready, STALE = 0. -/
def rdy (din : Nat) : State := { st .armed din with gate := .ready }

/-- An Armed state in which the interrupt input runs SNAP_DECODE on a snapshot. -/
def irq (sn : Option Snap) : State :=
  { st .armed 0 with issuer := .irq, side := { snap := sn } }

/-- An Armed interrupt state with slider 0 in Key mode and slider 1 in Raw mode. -/
def twoSliders (sn : Snap) : State :=
  { irq (some sn) with
    img := [(18, 1), (19, 2)], slcode := #v[#v[0x101, 0, 0x102, 0], #v[0, 0, 0, 0]] }

/-- A state whose next turn is a command of port 0. -/
def cmd (s : State) (w : Word) (din : Word) : State :=
  { s with ports := [{ cmd := w, din := din }, {}], agenda := [.command 0 {}] }

/-- A configuration record with one channel. -/
def one (c : Chan) (h : ChCfg) : Cfg :=
  { ch := (Vector.replicate 8 none : Vector (Option ChCfg) 8).set c (some h) }

/-- An event's configuration alone. -/
def evAt (e : Fin 6) (v : EvCfg) : Vector EvCfg 6 := (Vector.replicate 6 {}).set e v

/-- A build from reset. -/
def build (P : Params) (cfg : Cfg) : State :=
  { State.resetWith P with side := { cfg := cfg } }

/-- The next state of an outcome. -/
def after (o : Host.Outcome State Fault Refusal) : State :=
  match o with
  | .next t => t
  | .fault _ => State.resetWith P0
  | .refused _ => State.resetWith P0

/-- Port 0's STATUS and DOUT after an outcome, as numbers. -/
def ends (o : Host.Outcome State Fault Refusal) : Nat × Nat :=
  (((after o).port (.host 0)).status.toNat, ((after o).port (.host 0)).dout.toNat)

/-- PORT[IRQ]'s STATUS and DOUT after an outcome, as numbers. -/
def irqEnds (o : Host.Outcome State Fault Refusal) : Nat × Nat :=
  ((after o).irqStatus.toNat, (after o).irqDout.toNat)

/-- Some image bytes after an outcome. -/
def bytesAt (o : Host.Outcome State Fault Refusal) (l : List Nat) : List Nat :=
  l.map (fun a => ((after o).byte a).toNat)

/-! ### WellFormed refuses an ill-formed term for each of its checks -/

theorem test_wf_refuses_get_channel : Instr.wellFormed (.fldGet (.sys .active) 1) = false := by decide
theorem test_wf_refuses_set_channel : Instr.wellFormed (.fldSet (.sys .rateNp) 15) = false := by decide
theorem test_wf_takes_channel : Instr.wellFormed (.fldSet (.chan .rxEn) 15) = true := by decide

/-! ### Words of the spec (30_encoding.md R110, R112, R119; 95_test_vectors.md) -/

theorem test_decode_fldGet : decode 0x010F0000#32 = .ok (.fldGet (.sys .rateUlp) 0) := by decide
theorem test_decode_fldSet : decode 0x024F2000#32 = .ok (.fldSet (.chan .hystTouch) 2) := by decide
theorem test_decode_atiModeGet : decode 0x10001000#32 = .ok (.atiModeGet 1) := by decide
theorem test_decode_atiModeSet : decode 0x1100F000#32 = .ok (.atiModeSet 15) := by decide
theorem test_decode_atiBaseGet : decode 0x1200F000#32 = .ok (.atiBaseGet 15) := by decide
theorem test_decode_atiBaseSet : decode 0x13000000#32 = .ok (.atiBaseSet 0) := by decide
theorem test_decode_atiTargetGet : decode 0x14004000#32 = .ok (.atiTargetGet 4) := by decide
theorem test_decode_atiTargetSet : decode 0x1500F000#32 = .ok (.atiTargetSet 15) := by decide
theorem test_decode_rxEnGet : decode 0x16005000#32 = .ok (.rxEnGet 5) := by decide
theorem test_decode_rxEnSet : decode 0x17005000#32 = .ok (.rxEnSet 5) := by decide
theorem test_decode_chSelGet : decode 0x20000000#32 = .ok (.chSelGet) := by decide
theorem test_decode_chSelSet : decode 0x21000000#32 = .ok (.chSelSet) := by decide
theorem test_decode_hallEnGet : decode 0x22000000#32 = .ok (.hallEnGet) := by decide
theorem test_decode_hallEnSet : decode 0x23000000#32 = .ok (.hallEnSet) := by decide
theorem test_decode_recalStatus : decode 0x24000000#32 = .ok (.recalStatus) := by decide
theorem test_decode_recalTrigger : decode 0x25000000#32 = .ok (.recalTrigger) := by decide
theorem test_decode_countsRead : decode 0x26007000#32 = .ok (.countsRead 7) := by decide
theorem test_decode_cfgBuild : decode 0x30000000#32 = .ok (.cfgBuild) := by decide
theorem test_decode_imgInit : decode 0x31000000#32 = .ok (.imgInit) := by decide
theorem test_decode_snapDecode : decode 0x40000000#32 = .ok (.snapDecode) := by decide
theorem test_decode_sliderModeGet : decode 0x41001000#32 = .ok (.sliderModeGet 1) := by decide
theorem test_decode_calWait : decode 0x50000000#32 = .ok (.calWait) := by decide

theorem test_reject_opcode : decode 0x03000000#32 = .error .unassignedOpcode := by decide
theorem test_reject_reserved : decode 0x01060001#32 = .error .reservedBits := by decide
theorem test_reject_fid : decode 0x20010000#32 = .error .fidNotZero := by decide
theorem test_reject_channel : decode 0x20001000#32 = .error .channelNotZero := by decide
theorem test_reject_unassigned_fid : decode 0x01260000#32 = .error .unassignedFid := by decide
theorem test_reject_last_fid : decode 0x01560000#32 = .error .unassignedFid := by decide
theorem test_reject_system_channel : decode 0x01061000#32 = .error .systemFieldChannel := by decide

theorem test_encode_hyst_touch : encode (.fldSet (.chan .hystTouch) 2) = 0x024F2000#32 := by decide
theorem test_table_word : decodeTableWord 32 0x40000000 = some .snapDecode := by decide

/-! ### Reset -/

theorem test_reset_memory_wf : State.reset.img.wf State.reset.params = true := rfl
theorem test_reset_port : (State.resetWith P0).port (.host 1) = {} := by decide
theorem test_placed_word_runs : ∀ w ∈ [0x01060000, 0x30000000, 0x31000000, 0x50000000, 0x40000000],
    (match step ((State.resetWith P0).withFetchWord 32 w) with
      | .next _ => true
      | .fault _ => false
      | .refused _ => false) = true := by decide

/-! ### One or two steps per command (95_test_vectors.md; the vector stands in the name) -/

theorem test_F4_fldGet :
    ends (exec (.fldGet (.sys .timeoutPwr) 0) (st1 .configured 0 9 1)) = (0, 512) := by decide
theorem test_F17_fldGet :
    ends (exec (.fldGet (.chan .localCapSize) 0) (st1 .configured 0 26 0x10)) = (2, 0) := by decide
theorem test_F1_fldSet :
    bytesAt (exec (.fldSet (.sys .rateUlp) 0) (st .configured 4080)) [7, 8, 9] = [0, 255, 0] := by decide
/-- 10_state.md R45: EVENT_MASK's bits 7:4 are kept (notes/assumptions/16.md). -/
theorem test_fldSet_eventMask :
    bytesAt (exec (.fldSet (.sys .eventMask) 0) (st1 .configured 0xA5 5 0x3F)) [4, 5, 6] =
      [0, 0x35, 0] := by decide
theorem test_F14_fldSet :
    bytesAt (exec (.fldSet (.chan .localCapSize) 0) (st .configured 2)) [26, 27, 28] = [0x10, 0, 0x20] := by decide
theorem test_A4_atiModeGet :
    ends (exec (.atiModeGet 1) (st1 .configured 0 40 2)) = (0, 2) := by decide
theorem test_A1_atiModeSet :
    bytesAt (exec (.atiModeSet 0) (st .configured 3)) [26, 27] = [3, 0] := by decide
theorem test_A3_atiModeSet :
    ends (exec (.atiModeSet 8) (st .configured 1)) = (1, 0) := by decide
theorem test_P1_atiBaseGet :
    ends (exec (.atiBaseGet 4) (st1 .configured 0 85 0x9F)) = (0, 150) := by decide
theorem test_W3_atiBaseSet :
    bytesAt (exec (.atiBaseSet 0) (st .configured 200)) [28, 29] = [0, 0xC0] := by decide
theorem test_W3_atiBaseSet_bad :
    ends (exec (.atiBaseSet 0) (st .configured 0xFFFFFFFF)) = (2, 0) := by decide
theorem test_P1_atiTargetGet :
    ends (exec (.atiTargetGet 4) (st1 .configured 0 85 0x9F)) = (0, 992) := by decide
theorem test_W2_atiTargetSet :
    bytesAt (exec (.atiTargetSet 4) (st1 .configured 1000 85 0x80)) [84, 85] = [0, 0x9F] := by decide
theorem test_W2_atiTargetSet_bad :
    ends (exec (.atiTargetSet 0) (st .configured 2017)) = (1, 0) := by decide
theorem test_A6_rxEnGet :
    ends (exec (.rxEnGet 5) (st1 .configured 0 94 0x81)) = (0, 0x81) := by decide
theorem test_A6_rxEnSet :
    bytesAt (exec (.rxEnSet 5) (st .configured 0x81)) [93, 94, 95] = [0, 0x81, 0] := by decide
theorem test_A7_rxEnSet_bad :
    ends (exec (.rxEnSet 5) (st .configured 256)) = (1, 0) := by decide
theorem test_A9_chSelGet :
    ends (exec .chSelGet { st .configured 0 with chSel := 7 }) = (0, 7) := by decide
theorem test_A8_chSelSet :
    (after (exec .chSelSet (st .configured 7))).chSel = 7 := by decide
theorem test_A8_chSelSet_bad :
    ends (exec .chSelSet (st .configured 15)) = (1, 0) := by decide
theorem test_A10_hallEnGet :
    ends (exec .hallEnGet { st .configured 0 with hallEn := true }) = (0, 1) := by decide
theorem test_A10_hallEnSet :
    ((after (exec .hallEnSet (rdy 1))).hallEn, (after (exec .hallEnSet (rdy 1))).stale) = (true, true) := by decide
theorem test_A11_hallEnSet_bad :
    ends (exec .hallEnSet (st .configured 2)) = (1, 0) := by decide
theorem test_S11_recalStatus :
    ends (exec .recalStatus (st .configured 0)) = (0, 0) := by decide
theorem test_S12_recalStatus :
    ends (exec .recalStatus (rdy 0)) = (0, 1) := by decide
theorem test_S7_recalTrigger :
    ((after (exec .recalTrigger (rdy 0))).gate, ends (exec .recalTrigger (rdy 0))) = (.ready, (0, 0)) := by decide
theorem test_S8_recalTrigger :
    ((after (exec .recalTrigger (rdy 5))).gate,
      ((after (exec .recalTrigger (rdy 5))).port (.host 0)).pending) = (.calibrating, true) := by decide
theorem test_A17_countsRead :
    ends (exec (.countsRead 0) { rdy 0 with side := { busr := some (0x34, 0x12) } }) = (0, 0x1234) := by decide
theorem test_A16_countsRead :
    ends (exec (.countsRead 0) (st .armed 0)) = (7, 0) := by decide
theorem test_G2_cfgBuild :
    bytesAt (exec .cfgBuild (build P0 (one 2 { ev := evAt 0 { thresh := some 10, key := 0x100 } })))
      [0, 1, 2, 4, 5, 23, 60] = [0, 0x25, 4, 4, 0x0E, 4, 10] := by decide +kernel
theorem test_G6_cfgBuild :
    ends (exec .cfgBuild (build P0 (one 5 { ev := evAt 2 { sw := 7 } }))) = (2, 0x52B) := by decide
theorem test_G18_imgInit :
    let s := after (exec .imgInit (st .configured 0))
    (s.phase, s.gate, s.stale, s.bus.length) = (.armed, .calibrating, false, 1) := by decide
theorem test_G19_imgInit :
    let s := after (exec .imgInit { st .configured 0 with side := { busw := .err } })
    (s.phase, s.gate, s.stale, ends (.next s)) = (.configured, .idle, true, (3, 0)) := by decide
theorem test_K2_snapDecode :
    (after (exec .snapDecode
      { irq (some { states := #v[4, 4, 0, 0] }) with
        keycode := (Vector.replicate 6 (Vector.replicate 8 0)).set 0
          ((Vector.replicate 8 0).set 2 0x100) })).evt = [.key .keypad 0x100 false] := by decide
/-- 44_event_classifier.md R330, R335, by hand: slider 0 in Key mode, its tap fired; slider 1 in Raw
mode, its channel 1 touched. -/
theorem test_snapDecode_sliders :
    (after (exec .snapDecode (twoSliders
      { gesture := 1, states := #v[0, 0, 2, 0], pos := #v[9, 77] }))).evt =
      [.key .slider0 0x101 true, .key .slider0 0x102 false, .key .slider0 0x101 false,
       .key .slider0 0x102 false, .touch .slider1 true, .abs .slider1 77] := by decide
/-- R335: no selected channel touched, so no coordinate. -/
theorem test_snapDecode_rawUntouched :
    (after (exec .snapDecode (twoSliders { states := #v[0, 0, 1, 0], pos := #v[9, 77] }))).evt =
      [.key .slider0 0x101 false, .key .slider0 0x102 false, .touch .slider1 false] := by decide
theorem test_K15_snapDecode :
    irqEnds (exec .snapDecode (irq (some { sys := 0x8400 }))) = (0, 1) := by decide
theorem test_K22_sliderModeGet :
    ends (exec (.sliderModeGet 1) (st1 .configured 0 19 0x30)) = (0, 2) := by decide
theorem test_K24_sliderModeGet :
    ends (exec (.sliderModeGet 2) (st .configured 0)) = (1, 0) := by decide
theorem test_S2_calWait :
    ((after (exec .calWait (st .armed 0))).port (.host 0)).pending = true := by decide
theorem test_S6_calWait :
    (ends (exec .calWait (rdy 0)), ((after (exec .calWait (rdy 0))).port (.host 0)).pending) =
      ((0, 0), false) := by decide

/-! ### The witnesses of the statements' hypotheses -/

theorem witness_EncodeThenDecode :
    Instr.wellFormed (.fldSet (.sys .redoAtiMask) 0) = true ∧
      Instr.wellFormed (.fldGet (.chan .hystByte) 15) = true := by decide
theorem witness_DecodeThenEncode :
    decode 0x0255F000#32 = .ok (.fldSet (.chan .hystByte) 15) := by decide
theorem witness_StepRunsDecodedCommand :
    let s := cmd (st .configured 0) 0x21000000 7
    s.agenda = .command 0 {} :: [] ∧ 0 < s.ports.length ∧ (s.port (.host 0)).pending = false ∧
      decode (s.port (.host 0)).cmd = .ok .chSelSet := by decide
theorem witness_StepRunsInterrupt :
    ({ st .armed 0 with agenda := [.interrupt {}] } : State).agenda = .interrupt {} :: [] := by decide
theorem witness_UndecodableWordChangesOnlyStatus :
    let s := cmd (st .configured 0) 0x03000000 7
    s.agenda = .command 0 {} :: [] ∧ 0 < s.ports.length ∧ (s.port (.host 0)).pending = false ∧
      decode (s.port (.host 0)).cmd = .error .unassignedOpcode := by decide
theorem witness_WrongFormsAreIllegal :
    (st .configured 0).onHost 0 ∧ (st .configured 0).params.otpHold = false ∧
      ({ st .configured 0 with params := P1 } : State).onHost 0 ∧
      ({ st .configured 0 with params := P1 } : State).params.otpHold = true ∧
      (irq none).onIrq ∧ Instr.calWait ≠ .snapDecode := by decide
theorem witness_WaitingPortIssuesNothing :
    let s : State := { st .armed 0 with
      ports := [{ pending := true }], agenda := [.command 0 {}] }
    let u : State := { st .configured 0 with agenda := [.setCmd 1 0xFFFFFFFF, .setDin 1 7] }
    let v : State := { st .configured 0 with agenda := [.setDin 1 7] }
    (s.agenda = .command 0 {} :: [] ∧ 0 < s.ports.length ∧ (s.port (.host 0)).pending = true) ∧
    (u.agenda = .setCmd 1 0xFFFFFFFF :: [.setDin 1 7] ∧ 1 < u.ports.length) ∧
    (v.agenda = .setDin 1 7 :: [] ∧ 1 < v.ports.length) := by decide
theorem witness_CompletionStep :
    let s : State := { rdy 0 with ports := [{ pending := true }, {}], agenda := [.complete 0] }
    let u : State := { s with gate := .calibrating }
    let v : State := { rdy 0 with agenda := [.complete 1] }
    (s.agenda = .complete 0 :: [] ∧ 0 < s.ports.length ∧ (s.port (.host 0)).pending = true ∧
      s.gate = .ready) ∧
    (u.agenda = .complete 0 :: [] ∧ 0 < u.ports.length ∧
      ¬((u.port (.host 0)).pending = true ∧ u.gate = .ready)) ∧
    (v.agenda = .complete 1 :: [] ∧ 1 < v.ports.length ∧
      ¬((v.port (.host 1)).pending = true ∧ v.gate = .ready)) := by decide
theorem witness_TimeoutStep :
    let s : State := { st .armed 0 with ports := [{ pending := true }, {}], agenda := [.timeout 0] }
    let v : State := { st .armed 0 with agenda := [.timeout 1] }
    (s.agenda = .timeout 0 :: [] ∧ 0 < s.ports.length ∧ (s.port (.host 0)).pending = true) ∧
    (v.agenda = .timeout 1 :: [] ∧ 1 < v.ports.length ∧ (v.port (.host 1)).pending = false) := by decide
/-- The invariant holds in a state that reset does not reach in one step: Armed, a port waiting. -/
theorem inv_armed :
    State.Inv { st .armed 0 with ports := [{ pending := true }, {}], agenda := [.interrupt {}] } where
  params_valid := by decide
  ports_length := by decide
  img_wf := by decide
  gate_idle := by decide
  wait_armed := by decide
  status_code := by decide
  irq_status_code := by decide
  switch_channel := by decide
  hold_otp := by decide
  stale_until_armed := by decide
  reports_armed := by decide
  image_initial := by decide

theorem witness_StepKeepsInvariant :
    ∃ s t : State, s.Inv ∧ step s = .next t ∧ t.gate ≠ s.gate :=
  ⟨_, _, inv_armed, rfl, by decide⟩
theorem witness_PhaseOnlyAdvances :
    (∃ t, step (cmd (State.resetWith P0) 0x30000000 0) = .next t ∧ t.phase = .configured) ∧
    (∃ t, step (cmd (st .configured 0) 0x31000000 0) = .next t ∧ t.phase = .armed) :=
  ⟨⟨_, rfl, by decide⟩, ⟨_, rfl, by decide⟩⟩
theorem witness_GateMovesOnlyByTheTable :
    (∃ t, step (cmd (st .configured 0) 0x31000000 0) = .next t ∧ t.gate ≠ .idle) ∧
    (∃ t, step (cmd (rdy 0) 0x25000000 1) = .next t ∧ t.gate ≠ .ready) ∧
    (∃ t, step { st .armed 0 with agenda := [.interrupt {}] } = .next t ∧ t.gate ≠ .calibrating) :=
  ⟨⟨_, rfl, by decide⟩, ⟨_, rfl, by decide⟩, ⟨_, rfl, by decide⟩⟩
theorem witness_FailedCommandChangesOnlyStatus :
    (∃ t, (st .configured 2017).onHost 0 ∧
      exec (.atiTargetSet 0) (st .configured 2017) = .next t ∧
      (t.port (.host 0)).pending = false ∧ (t.port (.host 0)).status ≠ 0 ∧
      ((st .configured 2017).port (.host 0)).pending = false) ∧
    (∃ t, (irq none).onIrq ∧ exec .snapDecode (irq none) = .next t ∧ t.irqStatus ≠ 0) :=
  ⟨⟨_, by decide, rfl, by decide, by decide, by decide⟩, ⟨_, by decide, rfl, by decide⟩⟩
theorem witness_StatusesOfEachCommand :
    (∃ t, (st .armed 0).onHost 0 ∧ exec (.countsRead 0) (st .armed 0) = .next t ∧
      (t.port (.host 0)).pending = ((st .armed 0).port (.host 0)).pending) ∧
    (∃ t, (rdy 0).onHost 0 ∧ exec .calWait (rdy 0) = .next t ∧
      (t.port (.host 0)).pending = ((rdy 0).port (.host 0)).pending) :=
  ⟨⟨_, by decide, rfl, by decide⟩, ⟨_, by decide, rfl, by decide⟩⟩
theorem witness_OnlyCleanSnapshotsSendReports :
    ∃ t, step { st1 .armed 0 18 1 with agenda := [.interrupt {}] } = .next t ∧ t.evt ≠ [] :=
  ⟨_, rfl, by decide⟩
theorem witness_AtMostOneImageWritePerStep :
    (∃ t, step (cmd (st .configured 0) 0x31000000 0) = .next t ∧ (imageWrites t.bus).length = 1) ∧
    (∃ t, step (cmd (rdy 0) 0x25000000 1) = .next t ∧ (imageWrites t.bus).length = 1) ∧
    (∃ t, step { st .armed 0 with agenda := [.interrupt { snap := some { sys := 0x8000 } }] } =
      .next t ∧ (imageWrites t.bus).length = 1) :=
  ⟨⟨_, rfl, by decide⟩, ⟨_, rfl, by decide⟩, ⟨_, rfl, by decide⟩⟩
theorem witness_AdmissionByPhase :
    ((st .unconfigured 0).onHost 0 ∧ (st .unconfigured 0).phase = .unconfigured ∧
      Instr.fldGet (.sys .slider1Sel) 0 ≠ .cfgBuild ∧
      Instr.fldGet (.sys .slider1Sel) 0 ≠ .snapDecode ∧
      fieldExists (st .unconfigured 0).params (.sys .slider1Sel) = true) ∧
    ((st .configured 0).onHost 0 ∧ (st .configured 0).phase = .configured) ∧
    ((st .armed 0).onHost 0 ∧ (st .armed 0).phase = .armed) ∧
    (({ irq none with phase := .configured } : State).onIrq ∧
      ({ irq none with phase := .configured } : State).phase ≠ .armed) := by decide
theorem witness_AdmissionByPhase_fields :
    ∀ f ch, Instr.fldGet (.sys .slider1Sel) 0 = .fldGet f ch ∨
      Instr.fldGet (.sys .slider1Sel) 0 = .fldSet f ch →
      fieldExists (st .unconfigured 0).params f = true := by
  intro f ch h
  rcases h with h | h <;> cases h
  decide
theorem witness_SelectedChannel :
    (0 : Fin 16).val = (st .configured 0).chSel.val ∧
    (7 : Fin 16).val = ({ st .configured 0 with chSel := 7 } : State).chSel.val := by decide
theorem witness_FieldLayout :
    fieldDesc (.chan .assocWeight) 7 = some ⟨135, .byte, 7, 0, .uint⟩ ∧
    isRawField (.chan .assocWeight) = false ∧ isRawField (.sys .genClkDiv) = false ∧
    RegField.chan .assocWeight ≠ .sys .genClkDiv ∧
    ¬(RegField.chan .assocWeight = .sys .slider1Sel ∧ RegField.sys .genClkDiv = .sys .touchHold) ∧
    ¬(RegField.chan .assocWeight = .sys .touchHold ∧ RegField.sys .genClkDiv = .sys .slider1Sel) ∧
    isRawField (.chan .localCapSize) = false ∧ isRawField (.chan .ebAtiBase) = false ∧
    RegField.chan .localCapSize ≠ .chan .ebAtiBase ∧ (0 : Chan) ≠ 7 ∧
    (3 < 4 ∨ Kind.uint ≠ .atiBase) ∧
    isRawField (.sys .eventMask) = false ∧ reservedBit 5 4 = true ∧ reservedBit 5 7 = true ∧
    reservedBit 126 7 = true ∧ reservedBit 126 5 = false := by
  decide
theorem witness_FldGetReadsTheField :
    ((st1 .configured 0 8 255).onHost 0 ∧
      fieldExists (st1 .configured 0 8 255).params (.sys .rateUlp) = true ∧
      (st1 .configured 0 8 255).phase ≠ .unconfigured ∧
      (st1 .configured 0 8 255).namesField (.sys .rateUlp) 0 0 ∧
      fieldDesc (.sys .rateUlp) 0 = some ⟨8, .byte, 7, 0, .scaled (.const Config.rateUlpDiv)⟩ ∧
      decodeValue P0 ⟨8, .byte, 7, 0, .scaled (.const Config.rateUlpDiv)⟩
        ((st1 .configured 0 8 255).containerAt
          ⟨8, .byte, 7, 0, .scaled (.const Config.rateUlpDiv)⟩ / 2 ^ 0 % 2 ^ (7 - 0 + 1)) < 2 ^ 32) ∧
    ((st .armed 0).onHost 0 ∧ fieldExists (st .armed 0).params (.chan .atiComp) = true ∧
      (st .armed 0).phase ≠ .unconfigured ∧ (st .armed 0).namesField (.chan .atiComp) 15 0 ∧
      fieldDesc (.chan .atiComp) 0 = some ⟨30, .word, 15, 0, .uint⟩) := by decide
theorem witness_FldGetLocalCap :
    (st1 .configured 0 26 0x10).onHost 0 ∧ (st1 .configured 0 26 0x10).phase ≠ .unconfigured ∧
      (st1 .configured 0 26 0x10).namesChannel 0 0 ∧
      ((st1 .configured 0 26 0x10).byte 28).getLsbD 5 = false ∧
      ((st1 .configured 0 26 0x10).byte 26).getLsbD 4 = true := by decide
/-- 4080, the largest legal RATE_ULP, is legal (10_state.md R43). -/
theorem legal_rateUlp : legalValue P0 (.sys .rateUlp) 4080 := by
  show 4080 ≤ Desc.maxValue P0 ⟨8, .byte, 7, 0, .scaled (.const Config.rateUlpDiv)⟩
  decide
/-- 4081 is not. -/
theorem illegal_rateUlp : ¬legalValue P0 (.sys .rateUlp) 4081 := by
  show ¬4081 ≤ Desc.maxValue P0 ⟨8, .byte, 7, 0, .scaled (.const Config.rateUlpDiv)⟩
  decide
theorem witness_FldSetWritesTheField :
    (st .configured 4080).onHost 0 ∧
      fieldExists (st .configured 4080).params (.sys .rateUlp) = true ∧
      (st .configured 4080).phase ≠ .unconfigured ∧
      (st .configured 4080).namesField (.sys .rateUlp) 0 0 ∧
      fieldDesc (.sys .rateUlp) 0 = some ⟨8, .byte, 7, 0, .scaled (.const Config.rateUlpDiv)⟩ ∧
      legalValue (st .configured 4080).params (.sys .rateUlp) (st .configured 4080).din :=
  ⟨by decide, by decide, by decide, by decide, by decide, legal_rateUlp⟩
theorem witness_FldSetWritesTheField_hold :
    ({ st .configured 0 with params := P1 } : State).onHost 0 ∧
      fieldExists P1 (.sys .touchHold) = true ∧
      ({ st .configured 0 with params := P1 } : State).phase ≠ .unconfigured ∧
      fieldDesc (.sys .touchHold) 0 =
        some ⟨19, .byte, 7, 0, .scaled (.const Config.touchHoldDiv)⟩ ∧
      legalValue P1 (.sys .touchHold) 0 :=
  ⟨by decide, by decide, by decide, by decide, Nat.zero_le _⟩
/-- 255 is a legal EVENT_MASK value (10_state.md R43). -/
theorem legal_eventMask : legalValue P0 (.sys .eventMask) 255 := by
  show 255 ≤ Desc.maxValue P0 ⟨5, .byte, 7, 0, .mask⟩
  decide
theorem witness_FldSetWritesTheField_eventMask :
    (st .configured 255).onHost 0 ∧ fieldExists P0 (.sys .eventMask) = true ∧
      (st .configured 255).namesField (.sys .eventMask) 0 0 ∧
      fieldDesc (.sys .eventMask) 0 = some ⟨5, .byte, 7, 0, .mask⟩ ∧
      legalValue (st .configured 255).params (.sys .eventMask) (st .configured 255).din ∧
      fieldBit (.sys .eventMask) 0 5 4 = false ∧ fieldBit (.sys .eventMask) 0 5 3 = true :=
  ⟨by decide, by decide, by decide, by decide, legal_eventMask, by decide, by decide⟩
theorem witness_FldSetAndGet_channels_8_to_14 :
    (st .configured 0).onHost 0 ∧ (st .configured 0).phase ≠ .unconfigured ∧
      8 ≤ (8 : Fin 16).val ∧ (8 : Fin 16).val ≤ 14 ∧ 8 ≤ (14 : Fin 16).val ∧
      (14 : Fin 16).val ≤ 14 := by decide
theorem witness_FldSetLocalCap :
    (st .configured 2).onHost 0 ∧ (st .configured 2).phase ≠ .unconfigured ∧
      (st .configured 2).namesChannel 7 7 ∧ (st .configured 2).din ≤ 2 ∧
      (st .configured 3).onHost 0 ∧ (st .configured 3).phase ≠ .unconfigured ∧
      (st .configured 3).namesChannel 15 0 ∧ 2 < (st .configured 3).din := by decide
theorem witness_FldSetRefusalKeepsState :
    (st .configured 4081).onHost 0 ∧
      fieldExists (st .configured 4081).params (.sys .rateUlp) = true ∧
      (st .configured 4081).phase ≠ .unconfigured ∧
      (st .configured 4081).namesField (.sys .rateUlp) 0 0 ∧
      ¬legalValue (st .configured 4081).params (.sys .rateUlp) (st .configured 4081).din :=
  ⟨by decide, by decide, by decide, by decide, illegal_rateUlp⟩
theorem witness_FldSetRefusalKeepsState_enum :
    (st .configured 3).onHost 0 ∧ (st .configured 3).phase ≠ .unconfigured ∧
      (st .configured 3).namesField (.chan .localCapSize) 0 0 ∧
      ¬legalValue (st .configured 3).params (.chan .localCapSize) (st .configured 3).din :=
  ⟨by decide, by decide, by decide, fun h => absurd (show 3 ≤ 2 from h) (by decide)⟩
theorem witness_SetThenGet :
    (∃ m', setField P0 [] (.sys .rateUlp) 0 4079 = .ok m') ∧
      ∃ m', setField P0 [(5, 0x5A)] (.sys .eventMask) 0 255 = .ok m' := ⟨⟨_, rfl⟩, ⟨_, rfl⟩⟩
theorem witness_GetThenSet :
    P0.valid = true ∧ getField P0 [(8, 255)] (.sys .rateUlp) 0 = .ok 4080 ∧
      getField P0 [(26, 0x10), (28, 0x20)] (.chan .localCapSize) 0 = .ok 2 := by decide
theorem witness_SetTouchesOnlyItsBits :
    (∃ m', setField P0 [] (.chan .localCapSize) 7 2 = .ok m') ∧
      fieldBit (.chan .localCapSize) 7 126 6 = false ∧
      fieldBit (.chan .localCapSize) 7 126 4 = false := ⟨⟨_, rfl⟩, by decide, by decide⟩
theorem witness_DisjointSetsCommute :
    disjointFields (.chan .hystTouch) 0 (.chan .hystDeep) 0 ∧
      ∃ m₁ m₂, setField P0 [] (.chan .hystTouch) 0 15 = .ok m₁ ∧
        setField P0 m₁ (.chan .hystDeep) 0 15 = .ok m₂ := by
  refine ⟨?_, _, _, rfl, rfl⟩
  intro a j _ ⟨h1, h2⟩
  simp [fieldBit, fieldDesc, chanDesc, writable, Desc.covers] at h1 h2
  omega
theorem witness_HysteresisNibblesMerge : (15 : Nat) < 16 ∧ (0 : Nat) < 16 := by decide
theorem witness_AccessorGets :
    ((st .unconfigured 0).onHost 0 ∧ (st .unconfigured 0).phase = .unconfigured) ∧
    ((st .configured 0).onHost 0 ∧ (st .configured 0).phase ≠ .unconfigured ∧
      8 ≤ (8 : Fin 16).val ∧ (14 : Fin 16).val ≤ 14) ∧
    ((st .configured 0).namesChannel 7 7 ∧ (st .configured 0).namesChannel 15 0 ∧
      Instr.rxEnGet 7 ∈ [Instr.atiModeGet 7, .atiBaseGet 7, .atiTargetGet 7, .rxEnGet 7]) := by decide
theorem witness_AtiModeSet :
    ((st .unconfigured 0).onHost 0 ∧ (st .unconfigured 0).phase = .unconfigured) ∧
    ((st .configured 0).onHost 0 ∧ (st .configured 0).phase ≠ .unconfigured ∧
      8 ≤ (8 : Fin 16).val ∧ (8 : Fin 16).val ≤ 14 ∧ 8 ≤ (14 : Fin 16).val ∧
      (14 : Fin 16).val ≤ 14) ∧
    ((st .configured 4).onHost 0 ∧ (st .configured 4).phase ≠ .unconfigured ∧
      (st .configured 4).namesChannel 7 7 ∧ 3 < (st .configured 4).din) ∧
    ((st .configured 3).onHost 0 ∧ (st .configured 3).phase ≠ .unconfigured ∧
      (st .configured 3).namesChannel 7 7 ∧ (st .configured 3).din ≤ 3) := by decide
theorem witness_AtiBaseSet :
    ((st .unconfigured 0).onHost 0 ∧ (st .unconfigured 0).phase = .unconfigured) ∧
    ((st .configured 0).onHost 0 ∧ (st .configured 0).phase ≠ .unconfigured ∧
      8 ≤ (8 : Fin 16).val ∧ (8 : Fin 16).val ≤ 14 ∧ 8 ≤ (14 : Fin 16).val ∧
      (14 : Fin 16).val ≤ 14) ∧
    ((st .configured 201).onHost 0 ∧ (st .configured 201).phase ≠ .unconfigured ∧
      (st .configured 201).namesChannel 7 7 ∧ (st .configured 201).din ∉ [75, 100, 150, 200]) ∧
    ((st .configured 200).onHost 0 ∧ (st .configured 200).phase ≠ .unconfigured ∧
      (st .configured 200).namesChannel 7 7 ∧ (st .configured 200).din = [75, 100, 150, 200].getD (3 : Fin 4).val 0) := by decide
theorem witness_AtiTargetSet :
    ((st .unconfigured 0).onHost 0 ∧ (st .unconfigured 0).phase = .unconfigured) ∧
    ((st .configured 0).onHost 0 ∧ (st .configured 0).phase ≠ .unconfigured ∧
      8 ≤ (8 : Fin 16).val ∧ (8 : Fin 16).val ≤ 14 ∧ 8 ≤ (14 : Fin 16).val ∧
      (14 : Fin 16).val ≤ 14) ∧
    ((st .configured 2017).onHost 0 ∧ (st .configured 2017).phase ≠ .unconfigured ∧
      (st .configured 2017).namesChannel 7 7 ∧ 2016 < (st .configured 2017).din) ∧
    ((st .configured 2016).onHost 0 ∧ (st .configured 2016).phase ≠ .unconfigured ∧
      (st .configured 2016).namesChannel 7 7 ∧ (st .configured 2016).din ≤ 2016) := by decide
theorem witness_RxEnSet :
    ((st .unconfigured 0).onHost 0 ∧ (st .unconfigured 0).phase = .unconfigured) ∧
    ((st .configured 0).onHost 0 ∧ (st .configured 0).phase ≠ .unconfigured ∧
      8 ≤ (8 : Fin 16).val ∧ (8 : Fin 16).val ≤ 14 ∧ 8 ≤ (14 : Fin 16).val ∧
      (14 : Fin 16).val ≤ 14) ∧
    ((st .configured 256).onHost 0 ∧ (st .configured 256).phase ≠ .unconfigured ∧
      (st .configured 256).namesChannel 7 7 ∧ 255 < (st .configured 256).din) ∧
    ((st .configured 255).onHost 0 ∧ (st .configured 255).phase ≠ .unconfigured ∧
      (st .configured 255).namesChannel 7 7 ∧ (st .configured 255).din ≤ 255) := by decide
theorem witness_ChannelSelector :
    ((st .unconfigured 0).onHost 0 ∧ (st .unconfigured 0).phase = .unconfigured) ∧
    ((st .configured 8).onHost 0 ∧ (st .configured 8).phase ≠ .unconfigured ∧
      7 < (st .configured 8).din) ∧
    ((st .configured 7).onHost 0 ∧ (st .configured 7).phase ≠ .unconfigured ∧
      (st .configured 7).din = (7 : Chan).val) := by decide
theorem witness_HallEnable :
    ((st .unconfigured 0).onHost 0 ∧ (st .unconfigured 0).phase = .unconfigured) ∧
    ((st .configured 2).onHost 0 ∧ (st .configured 2).phase ≠ .unconfigured ∧
      1 < (st .configured 2).din) ∧
    ((st .configured 1).onHost 0 ∧ (st .configured 1).phase ≠ .unconfigured ∧
      (st .configured 1).din ≤ 1) := by decide
theorem witness_CountsRead :
    ((st .configured 0).onHost 0 ∧ (st .configured 0).phase ≠ .armed) ∧
    ((st .armed 0).onHost 0 ∧ (st .armed 0).phase = .armed ∧ 8 ≤ (8 : Fin 16).val ∧
      (14 : Fin 16).val ≤ 14) ∧
    ((st .armed 0).namesChannel 7 7 ∧ ({ st .armed 0 with hallEn := true } : State).hallEn = true ∧
      ({ rdy 0 with stale := true } : State).stale = true) ∧
    ((st .armed 0).hallEn = false ∧ (st .armed 0).stale = false ∧ (st .armed 0).gate ≠ .ready) ∧
    ((rdy 0).onHost 0 ∧ (rdy 0).phase = .armed ∧ (rdy 0).namesChannel 15 0 ∧
      (rdy 0).hallEn = false ∧ (rdy 0).stale = false ∧ (rdy 0).gate = .ready ∧
      (rdy 0).side.busr = some (0, 0) ∧
      ({ rdy 0 with side := { busr := none } } : State).side.busr = none) := by decide
theorem witness_PinListMask :
    ([0, 1, 2, 3, 4, 5, 6, 7].length ≤ 8 ∧ (∀ q ∈ [0, 1, 2, 3, 4, 5, 6, 7], q < 8)) ∧
    8 < [0, 0, 0, 0, 0, 0, 0, 0, 0].length ∧ (∃ q ∈ [8], 8 ≤ q) := by decide

/-- A record with a system property at its bound and one channel (43_configuration.md R250). -/
def okCfg : Cfg :=
  { one 7 { localCap := some 2, rxPins := some [7], ev := evAt 5 { hyst := some 15, sw := 1 } } with
    sys := { rateUlp := some 4080 } }

theorem legal_okCfg : legalCfg P0 okCfg := by
  refine ⟨?_, ?_⟩
  · intro q hq v hv
    have h6 : ∀ q ∈ sysProperties P0 okCfg.sys, q.value = none ∨
        q = ⟨6, .sys .rateUlp, some 4080⟩ := by decide
    rcases h6 q hq with h | rfl
    · rw [h] at hv; cases hv
    · cases hv; exact legal_rateUlp
  · intro c h hc
    have hc7 : ∀ c : Chan, okCfg.ch[c] = none ∨ (c = 7 ∧ okCfg.ch[c] = some
        { localCap := some 2, rxPins := some [7], ev := evAt 5 { hyst := some 15, sw := 1 } }) := by
      decide
    rcases hc7 c with h0 | ⟨rfl, h0⟩
    · rw [h0] at hc; cases hc
    · rw [h0] at hc
      cases hc
      refine ⟨by decide, ?_, ?_, ?_, ?_⟩
      · intro l hl; cases hl; exact ⟨by decide, by decide⟩
      · intro l hl; cases hl
      · intro q hq v hv
        have h7 : ∀ q ∈ chanProperties
            { localCap := some 2, rxPins := some [7], ev := evAt 5 { hyst := some 15, sw := 1 } },
            q.value = none ∨ q = ⟨7, .chan .localCapSize, some 2⟩ := by decide
        rcases h7 q hq with h | rfl
        · rw [h] at hv; cases hv
        · cases hv; exact Nat.le_refl 2
      · intro e
        cases e <;> refine ⟨fun t ht => ?_, fun y hy => ?_, fun _ => rfl⟩ <;> first | cases ht | cases hy
        exact ⟨by decide, by decide⟩

theorem witness_LegalRecordIsCommitted :
    (build P0 okCfg).onHost 0 ∧ (build P0 okCfg).phase = .unconfigured ∧
      (build P0 okCfg).params.valid = true ∧
      legalCfg (build P0 okCfg).params (build P0 okCfg).side.cfg :=
  ⟨by decide, by decide, by decide, legal_okCfg⟩

/-- The same with RATE_ULP past its bound (95_test_vectors.md G4). -/
def badCfg : Cfg := { sys := { rateUlp := some 4081 } }

/-- A legal system part, and the failing check on channel 5 (95_test_vectors.md G6). -/
def badSwitch : Cfg := one 5 { ev := evAt 2 { sw := 7 } }

theorem witness_IllegalRecordCommitsNothing :
    (build P0 badCfg).onHost 0 ∧ (build P0 badCfg).phase = .unconfigured ∧
      firstFailure P0 badCfg = some ⟨0xFF, 6, some 1⟩ ∧
      (build P0 badSwitch).onHost 0 ∧ (build P0 badSwitch).phase = .unconfigured ∧
      firstFailure P0 badSwitch = some ⟨5, 43, some 2⟩ := by decide +kernel

theorem witness_BuiltMasks :
    (∃ b, cfgBuild P0 [] okCfg = .ok b) ∧ P0.otpHold = false ∧ okCfg.ch[(7 : Chan)] ≠ none ∧
      okCfg.ch[(0 : Chan)] = none ∧ 24 + 14 * (0 : Chan).val ≤ 24 ∧ 37 < 24 + 14 * (0 : Chan).val + 14 ∧
      reservedBit 5 7 = true := ⟨⟨_, rfl⟩, by decide⟩
theorem witness_BuiltMasks_hold :
    (∃ b, cfgBuild P1 [] okCfg = .ok b) ∧ P1.otpHold = true := ⟨⟨_, rfl⟩, by decide⟩
/-- Channel 3 is slider 0's, with the codes given. -/
def sliderCfg (codes : Vector Code 4) : Cfg :=
  { one 3 { slider0 := true } with slCode := #v[codes, #v[0, 0, 0, 0]] }

theorem witness_BuiltMasks_raw :
    (∃ b, cfgBuild P0 [] (sliderCfg #v[0, 0, 0, 0]) = .ok b ∧ b.img.read P0 18 ≠ 0 ∧
      ∀ g : Gesture, (sliderCfg #v[0, 0, 0, 0]).slCode[(0 : SliderIx)][g] = 0) ∧
    (∃ b, cfgBuild P0 [] (sliderCfg #v[0, 0, 0, 0x200]) = .ok b ∧ b.img.read P0 18 ≠ 0 ∧
      (sliderCfg #v[0, 0, 0, 0x200]).slCode[(0 : SliderIx)][(3 : Gesture)] ≠ 0) :=
  ⟨⟨_, rfl, by decide +kernel, by decide⟩, ⟨_, rfl, by decide +kernel, by decide⟩⟩
theorem witness_BuiltCodeTables : ∃ b, cfgBuild P0 [] okCfg = .ok b ∧ (0 : Chan) ≠ 7 := ⟨_, rfl, by decide⟩
theorem witness_ForcedImage : (0 : Nat) < 8 ∧ (7 : Nat) < 8 := by decide
theorem witness_ImgInit :
    ((st .unconfigured 0).onHost 0 ∧ (st .unconfigured 0).phase = .unconfigured) ∧
    ((st .armed 0).onHost 0 ∧ (st .armed 0).phase = .armed) ∧
    ((st .configured 0).onHost 0 ∧ (st .configured 0).phase = .configured ∧
      (st .configured 0).side.busw = .ok ∧
      ({ st .configured 0 with side := { busw := .err } } : State).side.busw = .err) := by decide
theorem witness_CleanSnapshotDecodes :
    let s := twoSliders { sys := 0x1800 }
    s.onIrq ∧ s.phase = .armed ∧ s.side.snap = some { sys := 0x1800 } ∧
      (0x1800 : Half).getLsbD 15 = false ∧ (0x1800 : Half).getLsbD 10 = false ∧
      s.hasSlider 0 ∧ s.hasGestureCode 0 ∧ s.hasSlider 1 ∧ ¬s.hasGestureCode 1 := by decide
theorem witness_ResetSnapshotRecovers :
    (irq (some { sys := 0x8400 })).onIrq ∧ (irq (some { sys := 0x8400 })).phase = .armed ∧
      (irq (some { sys := 0x8400 })).side.snap = some { sys := 0x8400 } ∧
      (0x8400 : Half).getLsbD 15 = true ∧ (irq (some { sys := 0x8400 })).side.busw = .ok ∧
      ({ irq none with side := { snap := some { sys := 0x8000 }, busw := .err } } : State).side.busw =
        .err := by decide
theorem witness_BusyAndFailedSnapshots :
    ((irq (some { sys := 0x400 })).onIrq ∧ (irq (some { sys := 0x400 })).phase = .armed ∧
      (irq (some { sys := 0x400 })).side.snap = some { sys := 0x400 } ∧
      (0x400 : Half).getLsbD 15 = false ∧ (0x400 : Half).getLsbD 10 = true) ∧
    ((irq none).onIrq ∧ (irq none).phase = .armed ∧ (irq none).side.snap = none) := by decide
theorem witness_UpAndDownExclude :
    Event.deepDn.kind = Event.deepUp.kind ∧ Event.deepDn.up = false ∧ Event.deepUp.up = true := by decide
theorem witness_GestureCodesEnd :
    let s := twoSliders {}
    s.hasSlider 0 ∧ s.slcode[(0 : SliderIx)][(0 : Gesture)] ≠ 0 ∧
      (∀ g' : Gesture, g' ≠ 0 →
        s.slcode[(0 : SliderIx)][g'] ≠ s.slcode[(0 : SliderIx)][(0 : Gesture)]) ∧
      ((0 : Gesture) ≠ 1 ∧ (({ gesture := 1 } : Snap).gestureBit 0 0 ||
        ({ gesture := 1 } : Snap).gestureBit 0 2 || ({ gesture := 1 } : Snap).gestureBit 0 3) = true) ∧
      (({ gesture := 2 } : Snap).gestureBit 0 0 || ({ gesture := 2 } : Snap).gestureBit 0 2 ||
        ({ gesture := 2 } : Snap).gestureBit 0 3) = false ∧
      ¬(s.hasSlider 1 ∧ s.hasGestureCode 1) := by decide
theorem witness_GestureCodesEnd_hold :
    let s : State := { twoSliders {} with slcode := #v[#v[1, 2, 3, 4], #v[1, 2, 3, 4]] }
    s.hasSlider 1 ∧ s.slcode[(1 : SliderIx)][(1 : Gesture)] ≠ 0 ∧
      (∀ g' : Gesture, g' ≠ 1 →
        s.slcode[(1 : SliderIx)][g'] ≠ s.slcode[(1 : SliderIx)][(1 : Gesture)]) := by decide
theorem witness_SliderModeGet :
    ((st .unconfigured 0).onHost 0 ∧ (st .unconfigured 0).phase = .unconfigured) ∧
    ((st .configured 0).onHost 0 ∧ (st .configured 0).phase ≠ .unconfigured ∧
      2 ≤ (2 : Fin 16).val ∧ 2 ≤ (15 : Fin 16).val ∧ (1 : Fin 16).val = (1 : Fin 2).val) := by decide
theorem witness_CalWait :
    ((st .configured 0).onHost 0 ∧ (st .configured 0).phase ≠ .armed) ∧
    ((rdy 0).onHost 0 ∧ (rdy 0).phase = .armed ∧ (rdy 0).gate = .ready) ∧
    ((st .armed 0).onHost 0 ∧ (st .armed 0).phase = .armed ∧ (st .armed 0).gate ≠ .ready) := by decide
theorem witness_RecalTrigger :
    ((st .configured 0).onHost 0 ∧ (st .configured 0).phase ≠ .armed) ∧
    ((rdy 0).onHost 0 ∧ (rdy 0).phase = .armed ∧ (rdy 0).din = 0) ∧
    ((rdy 1).onHost 0 ∧ (rdy 1).phase = .armed ∧ (rdy 1).din ≠ 0 ∧ (rdy 1).side.busw = .ok ∧
      ({ rdy 1 with side := { busw := .err } } : State).side.busw = .err) := by decide
theorem witness_RecalStatus :
    ((st .unconfigured 0).onHost 0 ∧ (st .unconfigured 0).phase = .unconfigured) ∧
    ((st .configured 0).onHost 0 ∧ (st .configured 0).phase ≠ .unconfigured) := by decide
theorem witness_SinkDropsRepeats :
    Report.content (.switch 0x400 true) = .inl (.switch 0x400, true) ∧
      Report.content (.touch .slider1 false) = .inl (.touch .slider1, false) ∧
      Report.content (.abs .slider0 255) = .inr (.slider0, 255) := by decide

end Sys2Proof.Tests
end

section
/-! PROOFS. FLD_SET on a host port (41_field_codec.md R165): what a set that succeeds and a set that
is refused leave, each said once; then the obligations on values that are not legal (R169) and on
LOCAL_CAP_SIZE (R159). -/

namespace Sys2Proof.Machine

/-! ### Which values a set refuses -/

/-- EB_ATI_BASE is the one field of its kind (10_state.md R44). -/
theorem fieldDesc_kind_eq_atiBase (f : RegField) (c : Chan) (d : Desc)
    (h : fieldDesc f c = some d) : d.kind = .atiBase ↔ f = .chan .ebAtiBase := by
  cases f with
  | sys g =>
    simp only [fieldDesc, Option.some.injEq] at h
    subst h
    cases g <;> simp [sysDesc]
  | chan g =>
    simp only [fieldDesc, Option.map_eq_some_iff] at h
    obtain ⟨k, hk, rfl⟩ := h
    cases g <;> simp only [chanDesc, Option.some.injEq, reduceCtorEq] at hk <;> subst hk <;> simp

/-- The status of a value that is not legal: InvalidEnum for the two enumerated fields, OutOfRange
for a field that takes a range (41_field_codec.md R154, R158, R159). -/
theorem valueFails_of_not_legal (P : Params) (f : RegField) (v : Nat) (h : ¬legalValue P f v) :
    valueFails P f v =
      some (if f = .chan .localCapSize ∨ f = .chan .ebAtiBase then 2 else 1) := by
  cases hd : fieldDesc f 0 with
  | none =>
    simp only [legalValue, hd] at h
    rw [if_pos (Or.inl ((fieldDesc_eq_none f 0).mp hd))]
    simp [valueFails, hd, h]
  | some d =>
    have hlocal : f ≠ .chan .localCapSize := fun hf => by
      simp [(fieldDesc_eq_none f 0).mpr hf] at hd
    have hbase := fieldDesc_kind_eq_atiBase f 0 d hd
    cases hk : d.kind with
    | atiBase =>
      simp only [legalValue, hd, hk] at h
      rw [if_pos (Or.inr (hbase.mp hk))]
      simp [valueFails, hd, hk, h]
    | bool | uint | mask | raw | scaled k =>
      have hne : f ≠ .chan .ebAtiBase := fun hf => by simp [hbase.mpr hf] at hk
      simp only [legalValue, hd, hk, Nat.not_le] at h
      simp [valueFails, hd, hk, h, hlocal, hne]

/-- A set of a value that is not legal is refused, whatever the image (R163). -/
theorem setField_of_not_legal (P : Params) (m : Memory) (f : RegField) (c : Chan) (v : Nat)
    (h : ¬legalValue P f v) :
    ∃ e : Status, setField P m f c v = .error e ∧
      e.code = if f = .chan .localCapSize ∨ f = .chan .ebAtiBase then 2 else 1 := by
  have ho := setField_outcome P m f c v
  rw [valueFails_of_not_legal P f v h] at ho
  obtain ⟨e, he, hcode, -⟩ := ho
  exact ⟨e, he, hcode.symm⟩

/-! ### FLD_SET on a host port -/

/-- On a host port, past Unconfigured, a command on a field that exists is not refused
(30_encoding.md R115, R116). -/
theorem State.fieldRefusal_onHost (s : State) (p : Nat) (f : RegField) (hs : s.issuer = .host p)
    (hx : fieldExists s.params f = true) (hp : s.phase ≠ .unconfigured) :
    s.fieldRefusal f = none := by
  rw [State.fieldRefusal, if_pos hx, s.hostRefusal_onHost p _ hs, Admission.refusal_configured,
    if_neg hp]

/-- A FLD_SET whose set succeeds writes IMG and STALE, HOLD_SPEC for TOUCH_HOLD, and STATUS OK
(41_field_codec.md R165). -/
theorem exec_fldSet_stored (s : State) (p : Nat) (f : RegField) (ch : Fin 16) (c : Chan)
    (m : Memory) (hs : s.issuer = .host p) (hr : s.fieldRefusal f = none)
    (hc : s.fieldChannel f ch = .ok c) (hm : setField s.params s.img f c s.din = .ok m) :
    exec (.fldSet f ch) s = .next
      { s.onlyStatus p 0 with
        img := m, stale := true,
        holdSpec := if f = .sys .touchHold then true else s.holdSpec } := by
  have hset : s.fldSetResult f ch = .ok
      { s with
        img := m, stale := true,
        holdSpec := if f = .sys .touchHold then true else s.holdSpec } := by
    simp only [State.fldSetResult, hr, unlessRefused_none, hc, State.storeField, hm]
    split <;> rfl
  rw [exec, execFldSet, hset, State.endSet_ok]
  exact congrArg _ (State.complete_onHost _ p hs)

/-- A FLD_SET whose set is refused writes STATUS and nothing else (R165, 00_scope.md R14). -/
theorem exec_fldSet_refused (s : State) (p : Nat) (f : RegField) (ch : Fin 16) (c : Chan)
    (e : Status) (hs : s.issuer = .host p) (hr : s.fieldRefusal f = none)
    (hc : s.fieldChannel f ch = .ok c) (hm : setField s.params s.img f c s.din = .error e) :
    exec (.fldSet f ch) s = .next (s.onlyStatus p e.code) := by
  have hset : s.fldSetResult f ch = .error e := by
    simp only [State.fldSetResult, hr, unlessRefused_none, hc, State.storeField, hm]
  rw [exec, execFldSet, hset, State.endSet_error, State.raise_onHost _ p e hs]

/-- Settles O28: the field's channel resolves, and the set is refused before anything is written. -/
theorem fldSetRefusalKeepsState : Obligations.FldSetRefusalKeepsState := by
  intro s p f ch c ⟨hs, _⟩ hx hp hn hv
  obtain ⟨c', hc, -, -⟩ := s.fieldChannel_of_names f ch c hn
  obtain ⟨e, he, hcode⟩ := setField_of_not_legal s.params s.img f c' s.din hv
  rw [← hcode]
  exact exec_fldSet_refused s p f ch c' e hs (s.fieldRefusal_onHost p f hs hx hp) hc he

/-! ### LOCAL_CAP_SIZE -/

/-- R159's table in one line: EN is on from size 1, DBL at size 2 alone. -/
theorem lcapEncode_of_le (v : Nat) (h : v ≤ 2) :
    lcapEncode v = .ok (decide (1 ≤ v), decide (v = 2)) := by
  interval_cases v <;> rfl

/-- A set of LOCAL_CAP_SIZE to a legal size writes its two bits (41_field_codec.md R159, R163). -/
theorem setField_localCap (P : Params) (m : Memory) (c : Chan) (v : Nat) (h : v ≤ 2) :
    setField P m (.chan .localCapSize) c v =
      .ok (writeLocalCap P m c (decide (1 ≤ v)) (decide (v = 2))) := by
  rw [setField, (fieldDesc_eq_none _ c).mpr rfl]
  simp only [lcapEncode_of_le v h]

/-- Settles O27: a legal size stores EN and DBL, whose two bits are the only ones written; any other
value is a refused set. -/
theorem fldSetLocalCap : Obligations.FldSetLocalCap := by
  intro s p ch c hs hp hn
  refine ⟨fun hle => ⟨_, ?_, bit_writeLocalCap s.params s.img c _ _⟩, fun hgt => ?_⟩
  · exact exec_fldSet_stored s p _ ch c _ hs.1 (s.fieldRefusal_onHost p _ hs.1 rfl hp)
      (s.resolveCh_of_names ch c hn) (setField_localCap s.params s.img c s.din hle)
  · exact fldSetRefusalKeepsState s p (.chan .localCapSize) ch c hs rfl hp hn
      (Nat.not_le.mpr hgt)

end Sys2Proof.Machine
end

section
/-! PROOFS. The channel accessors, CH_SEL, HALL_EN and COUNTS_READ (42_channel_accessors.md): the
word of a command as a number, admission on a host port, a set whose bits lie in one byte; what an
accessor's GET and SET end with in each case, said once for all the fields; then the obligations. -/

namespace Sys2Proof.Machine

/-! ### The word of a command -/

/-- OP, FID and CH as digits of the command word (30_encoding.md R110). -/
theorem encode_eq_ofNat (i : Instr) :
    encode i = BitVec.ofNat 32
      (0x1000000 * i.opcode.toNat + 0x10000 * i.fidByte.toNat + 0x1000 * i.channel.val) := by
  have hop := i.opcode.isLt
  have hfid := i.fidByte.isLt
  have hch := i.channel.isLt
  apply BitVec.eq_of_toNat_eq
  simp only [encode, BitVec.toNat_append, BitVec.toNat_ofFin, BitVec.toNat_ofNat, Nat.zero_mod,
    Nat.or_zero]
  rw [← Nat.shiftLeft_add_eq_or_of_lt (by omega), ← Nat.shiftLeft_add_eq_or_of_lt (by omega)]
  simp only [Nat.shiftLeft_eq]
  omega

/-! ### Admission and endings on a host port -/

/-- Unconfigured admits no accessor (10_state.md R36). -/
theorem State.hostRefusal_unconfigured (s : State) (p : Nat) (hs : s.onHost p)
    (hp : s.phase = .unconfigured) : s.hostRefusal .configured = some .notReady := by
  rw [s.hostRefusal_onHost p _ hs.1, Admission.refusal_configured, if_pos hp]

/-- Past Unconfigured an accessor is admitted (R36). -/
theorem State.hostRefusal_configured (s : State) (p : Nat) (hs : s.onHost p)
    (hp : s.phase ≠ .unconfigured) : s.hostRefusal .configured = none := by
  rw [s.hostRefusal_onHost p _ hs.1, Admission.refusal_configured, if_neg hp]

/-- While Unconfigured an accessor that reads ends with NotReady, whatever its other checks (R36,
00_scope.md R14). -/
theorem State.endGet_unconfigured (s : State) (p : Nat) (r : Except Status Nat) (hs : s.onHost p)
    (hp : s.phase = .unconfigured) :
    s.endGet (unlessRefused (s.hostRefusal .configured) r) = s.onlyStatus p 6 := by
  rw [s.hostRefusal_unconfigured p hs hp, unlessRefused_some, State.endGet_error]
  exact s.raise_onHost p .notReady hs.1

/-- So does one that writes. -/
theorem State.endSet_unconfigured (s : State) (p : Nat) (r : Except Status State) (hs : s.onHost p)
    (hp : s.phase = .unconfigured) :
    s.endSet (unlessRefused (s.hostRefusal .configured) r) = s.onlyStatus p 6 := by
  rw [s.hostRefusal_unconfigured p hs hp, unlessRefused_some, State.endSet_error]
  exact s.raise_onHost p .notReady hs.1

/-- A value of 32 bits is answered as it is (30_encoding.md R117). -/
theorem State.endGet_ok_onHost (s : State) (p v : Nat) (hs : s.onHost p) (hv : v < 2 ^ 32) :
    s.endGet (.ok v) =
      s.withHostRegs p ((s.port (.host p)).answered (BitVec.ofNat 32 v)) := by
  rw [State.endGet_ok, s.answer_onHost p v hs, s.doutOf_lt v hv]

/-! ### Field bits that lie in one byte -/

/-- The `w` bits of a byte from bit `l` on. -/
def byteMask (l w : Nat) : Byte := BitVec.ofNat 8 (2 ^ l * (2 ^ w - 1))

theorem getLsbD_byteMask (l w j : Nat) (hj : j < 8) :
    (byteMask l w).getLsbD j = decide (l ≤ j ∧ j < l + w) := by
  rw [byteMask, BitVec.getLsbD_ofNat, Nat.testBit_two_pow_mul, Nat.testBit_two_pow_sub_one,
    Bool.eq_iff_iff]
  simp only [Bool.and_eq_true, decide_eq_true_eq]
  omega

/-- The bits of a descriptor lie in byte `b`, from bit `l` on. -/
def Desc.inByte (d : Desc) (b l : Nat) : Prop :=
  match d.width with
  | .byte => b = d.off ∧ l = d.lo
  | .word => (b = d.off ∧ l + 8 = d.lo) ∨ (b = d.off + 1 ∧ l = d.lo ∧ d.hi < 8)

theorem Desc.inByte.covers_eq {d : Desc} {b l : Nat} (h : d.inByte b l) (hlo : d.lo ≤ d.hi)
    (a j : Nat) (hj : j < 8) :
    d.covers a j = decide (a = b ∧ l ≤ j ∧ j < l + (d.hi - d.lo + 1)) := by
  rw [Bool.eq_iff_iff]
  unfold Desc.inByte at h
  unfold Desc.covers
  cases hw : d.width <;> simp only [hw] at h ⊢ <;>
    simp only [Bool.or_eq_true, Bool.and_eq_true, beq_iff_eq, decide_eq_true_eq] <;> omega

theorem Desc.inByte.position_sub {d : Desc} {b l : Nat} (h : d.inByte b l) (j : Nat) :
    d.position b j - d.lo = j - l := by
  unfold Desc.inByte at h
  unfold Desc.position
  cases hw : d.width <;> simp only [hw] at h ⊢
  · omega
  · split <;> omega

/-- Storing field bits that lie in one byte replaces them in that byte and keeps every other byte
of the image (41_field_codec.md R153, R166). -/
theorem read_writeBits_inByte (P : Params) (m : Memory) (d : Desc) (b l r : Nat)
    (hd : d.inBounds) (hb : d.inByte b l) (hr : r < 2 ^ (d.hi - d.lo + 1)) (a : Nat) :
    (writeBits P m d (BitVec.ofNat 16 r)).read P a =
      if a = b then
        (m.read P a &&& ~~~byteMask l (d.hi - d.lo + 1)) ||| BitVec.ofNat 8 (2 ^ l * r)
      else m.read P a := by
  refine byte_ext _ _ fun j hj => ?_
  have hbit := bit_writeBits P m d (BitVec.ofNat 16 r) hd a j hj
  rw [hb.covers_eq hd.2.1 a j hj] at hbit
  refine hbit.trans ?_
  by_cases ha : a = b
  · subst ha
    rw [hb.position_sub, if_pos rfl, BitVec.getLsbD_or, BitVec.getLsbD_and, BitVec.getLsbD_not,
      getLsbD_byteMask l _ j hj, BitVec.getLsbD_ofNat, BitVec.getLsbD_ofNat,
      Nat.testBit_two_pow_mul]
    by_cases hin : l ≤ j ∧ j < l + (d.hi - d.lo + 1)
    · have h16 : j - l < 16 := by omega
      simp [hin, hj, h16]
    · have hout : (decide (j ≥ l) && r.testBit (j - l)) = false := by
        by_cases hlj : l ≤ j
        · have hle : 2 ^ (d.hi - d.lo + 1) ≤ 2 ^ (j - l) :=
            Nat.pow_le_pow_right (by omega) (by omega)
          simp [Nat.testBit_lt_two_pow (Nat.lt_of_lt_of_le hr hle)]
        · simp [hlj]
      simp [hin, hj, hout, Memory.bit]
  · simp [ha, Memory.bit]

/-! ### get and set of a field in one container -/

/-- get of a field in one container decodes its bits (41_field_codec.md R162). -/
theorem getField_of_desc (P : Params) (m : Memory) (f : RegField) (c : Chan) (d : Desc)
    (hd : fieldDesc f c = some d) :
    getField P m f c = .ok (decodeValue P d (m.fieldBits P d)) := by
  simp only [getField, hd, readBits_toNat P m d (fieldDesc_bounds f c d hd)]

/-- A legal value passes every check (R154). -/
theorem valueFails_of_legal (P : Params) (f : RegField) (v : Nat) (h : legalValue P f v) :
    valueFails P f v = none := by
  unfold legalValue at h
  unfold valueFails
  cases hd : fieldDesc f 0 with
  | none => simpa [hd] using h
  | some d => cases hk : d.kind <;> simpa [hd, hk] using h

/-- A set of a legal value of a channel field whose bits lie in one byte replaces them there and
keeps every other byte (R163, R166). -/
theorem setField_chan_inByte (P : Params) (m : Memory) (f : ChanField) (c : Chan) (d : Desc)
    (b l v : Nat) (hd : fieldDesc (.chan f) c = some d) (hb : d.inByte b l)
    (hv : legalValue P (.chan f) v) :
    ∃ m', setField P m (.chan f) c v = .ok m' ∧ ∀ a, m'.read P a =
      if a = b then
        (m.read P a &&& ~~~byteMask l (d.hi - d.lo + 1)) |||
          BitVec.ofNat 8 (2 ^ l * d.storedAs P v)
      else m.read P a := by
  have ho := encodeValue_outcome P (.chan f) c d v hd
  rw [valueFails_of_legal P _ v hv] at ho
  obtain ⟨r, hr⟩ := ho
  have hlt := encodeValue_lt P d v r hr (fieldDesc_atiBase _ c d hd)
  refine ⟨writeBits P m d (BitVec.ofNat 16 r), ?_, fun a => ?_⟩
  · simp only [setField, hd, hr, writable_of_ne (.chan f) d (by simp)]
  · rw [← encodeValue_eq P d v r hr]
    exact read_writeBits_inByte P m d b l r (fieldDesc_bounds _ c d hd) hb hlt a

/-! ### An accessor's GET and SET, case by case (42_channel_accessors.md R201 to R208) -/

/-- CH 8 to 14 names no channel (30_encoding.md R114). -/
theorem State.endGet_chanGet_badChannel (s : State) (p : Nat) (f : ChanField) (ch : Fin 16)
    (hs : s.onHost p) (hp : s.phase ≠ .unconfigured) (h8 : 8 ≤ ch.val) (h14 : ch.val ≤ 14) :
    s.endGet (s.chanGetResult f ch) = s.onlyStatus p 1 := by
  rw [State.chanGetResult, s.hostRefusal_configured p hs hp, s.resolveCh_bad ch h8 h14]
  exact s.raise_onHost p .outOfRange hs.1

/-- The value of a field described by `d` is answered in DOUT. -/
theorem State.endGet_chanGet_named (s : State) (p : Nat) (f : ChanField) (ch : Fin 16) (c : Chan)
    (d : Desc) (hs : s.onHost p) (hp : s.phase ≠ .unconfigured) (hn : s.namesChannel ch c)
    (hd : fieldDesc (.chan f) c = some d)
    (hv : decodeValue s.params d (s.img.fieldBits s.params d) < 2 ^ 32) :
    s.endGet (s.chanGetResult f ch) = s.withHostRegs p ((s.port (.host p)).answered
      (BitVec.ofNat 32 (decodeValue s.params d (s.img.fieldBits s.params d)))) := by
  rw [State.chanGetResult, s.hostRefusal_configured p hs hp, s.resolveCh_of_names ch c hn]
  simp only [unlessRefused_none, getField_of_desc _ _ _ c d hd]
  exact s.endGet_ok_onHost p _ hs hv

/-- `endGet_chanGet_badChannel` for a SET. -/
theorem State.endSet_chanSet_badChannel (s : State) (p : Nat) (f : ChanField) (ch : Fin 16)
    (bad : Nat → Option Status) (hs : s.onHost p) (hp : s.phase ≠ .unconfigured)
    (h8 : 8 ≤ ch.val) (h14 : ch.val ≤ 14) :
    s.endSet (s.chanSetResult f ch bad) = s.onlyStatus p 1 := by
  rw [State.chanSetResult, s.hostRefusal_configured p hs hp, s.resolveCh_bad ch h8 h14]
  exact s.raise_onHost p .outOfRange hs.1

/-- The accessor's own check of DIN comes before the set. -/
theorem State.endSet_chanSet_badValue (s : State) (p : Nat) (f : ChanField) (ch : Fin 16)
    (c : Chan) (bad : Nat → Option Status) (e : Status) (hs : s.onHost p)
    (hp : s.phase ≠ .unconfigured) (hn : s.namesChannel ch c) (hbad : bad s.din = some e) :
    s.endSet (s.chanSetResult f ch bad) = s.onlyStatus p e.code := by
  rw [State.chanSetResult, s.hostRefusal_configured p hs hp, s.resolveCh_of_names ch c hn]
  simp only [unlessRefused_none, hbad, unlessRefused_some]
  exact s.raise_onHost p e hs.1

/-- A set that succeeds writes IMG, STALE and STATUS OK (10_state.md R34). -/
theorem State.endSet_chanSet_stored (s : State) (p : Nat) (f : ChanField) (ch : Fin 16) (c : Chan)
    (bad : Nat → Option Status) (m : Memory) (hs : s.onHost p) (hp : s.phase ≠ .unconfigured)
    (hn : s.namesChannel ch c) (hbad : bad s.din = none)
    (hm : setField s.params s.img (.chan f) c s.din = .ok m) :
    s.endSet (s.chanSetResult f ch bad) =
      { s.onlyStatus p 0 with img := m, stale := true } := by
  rw [State.chanSetResult, s.hostRefusal_configured p hs hp, s.resolveCh_of_names ch c hn]
  simp only [unlessRefused_none, hbad, State.storeField, hm, State.endSet_ok]
  exact State.complete_onHost _ p hs.1

/-- An accessor's SET of a legal value whose bits lie in byte `b`: the bits of that byte outside
`keep` become those of `r`, STALE is 1, STATUS OK. -/
theorem State.endSet_chanSet_inByte (s : State) (p : Nat) (f : ChanField) (ch : Fin 16) (c : Chan)
    (bad : Nat → Option Status) (d : Desc) (b l r : Nat) (keep : Byte) (hs : s.onHost p)
    (hp : s.phase ≠ .unconfigured) (hn : s.namesChannel ch c) (hbad : bad s.din = none)
    (hd : fieldDesc (.chan f) c = some d) (hb : d.inByte b l)
    (hv : legalValue s.params (.chan f) s.din)
    (hkeep : ~~~byteMask l (d.hi - d.lo + 1) = keep)
    (hr : 2 ^ l * d.storedAs s.params s.din = r) :
    ∃ m : Memory,
      s.endSet (s.chanSetResult f ch bad) =
        { s.onlyStatus p 0 with img := m, stale := true } ∧
      ∀ a, m.read s.params a =
        if a = b then (s.byte a &&& keep) ||| BitVec.ofNat 8 r else s.byte a := by
  subst hkeep hr
  obtain ⟨m, hm, hread⟩ := setField_chan_inByte s.params s.img f c d b l s.din hd hb hv
  exact ⟨m, s.endSet_chanSet_stored p f ch c bad m hs hp hn hbad hm, hread⟩

/-! ### The containers of the four fields (10_state.md R44) -/

/-- ENGINE_A[9:8]. -/
abbrev atiModeDesc (c : Chan) : Desc := ⟨chanBase c + 2, .word, 9, 8, .uint⟩
/-- ENGINE_B[7:6]. -/
abbrev atiBaseDesc (c : Chan) : Desc := ⟨chanBase c + 4, .word, 7, 6, .atiBase⟩
/-- ENGINE_B[5:0]. -/
abbrev atiTargetDesc (c : Chan) : Desc :=
  ⟨chanBase c + 4, .word, 5, 0, .scaled (.const Config.atiTargetStep)⟩
/-- The RX_EN byte. -/
abbrev rxEnDesc (c : Chan) : Desc := ⟨chanBase c + 0, .byte, 7, 0, .mask⟩

theorem fieldDesc_atiMode (c : Chan) : fieldDesc (.chan .eaAtiMode) c = some (atiModeDesc c) := rfl
theorem fieldDesc_atiBase_chan (c : Chan) :
    fieldDesc (.chan .ebAtiBase) c = some (atiBaseDesc c) := rfl
theorem fieldDesc_atiTarget (c : Chan) :
    fieldDesc (.chan .ebAtiTarget) c = some (atiTargetDesc c) := rfl
theorem fieldDesc_rxEn (c : Chan) : fieldDesc (.chan .rxEn) c = some (rxEnDesc c) := rfl

/-! ### The four GETs -/

/-- Each of the four is an accessor's GET of one field. -/
theorem exec_accessorGet (i : Instr) (ch : Fin 16) (s : State)
    (h : i ∈ [Instr.atiModeGet ch, .atiBaseGet ch, .atiTargetGet ch, .rxEnGet ch]) :
    ∃ f, exec i s = .next (s.endGet (s.chanGetResult f ch)) := by
  simp only [List.mem_cons, List.not_mem_nil, or_false] at h
  rcases h with rfl | rfl | rfl | rfl
  · exact ⟨.eaAtiMode, rfl⟩
  · exact ⟨.ebAtiBase, rfl⟩
  · exact ⟨.ebAtiTarget, rfl⟩
  · exact ⟨.rxEn, rfl⟩

theorem fieldBits_lt (P : Params) (m : Memory) (d : Desc) :
    m.fieldBits P d < 2 ^ (d.hi - d.lo + 1) := Nat.mod_lt _ (Nat.two_pow_pos _)

/-- R158's table as a list. -/
theorem baseValue_eq_getD (r : Nat) (h : r < 4) : baseValue r = [75, 100, 150, 200].getD r 0 := by
  interval_cases r <;> rfl

theorem baseValue_le (r : Nat) : baseValue r ≤ 200 := by
  unfold baseValue
  split <;> decide

/-- Settles O34: the checks are those of every accessor's GET, and each field's bits are decoded
from its container. -/
theorem accessorGets : Obligations.AccessorGets := by
  intro s p ch hs
  refine ⟨encode_eq_ofNat _, encode_eq_ofNat _, encode_eq_ofNat _, encode_eq_ofNat _,
    fun i hi => ?_, fun c hp hn => ⟨?_, ?_, ?_, ?_⟩⟩
  · obtain ⟨f, hf⟩ := exec_accessorGet i ch s hi
    rw [hf]
    exact ⟨fun hp => congrArg _ (s.endGet_unconfigured p _ hs hp),
      fun hp h8 h14 => congrArg _ (s.endGet_chanGet_badChannel p f ch hs hp h8 h14)⟩
  · have hlt : s.img.fieldBits s.params (atiModeDesc c) < 4 := fieldBits_lt _ _ _
    exact congrArg _ (s.endGet_chanGet_named p _ ch c _ hs hp hn (fieldDesc_atiMode c)
      (Nat.lt_trans hlt (by decide)))
  · rw [← baseValue_eq_getD _ (Nat.mod_lt _ (by decide))]
    exact congrArg _ (s.endGet_chanGet_named p _ ch c _ hs hp hn (fieldDesc_atiBase_chan c)
      (Nat.lt_of_le_of_lt (baseValue_le _) (by decide)))
  · have hlt : s.img.fieldBits s.params (atiTargetDesc c) < 64 := fieldBits_lt _ _ _
    have hdout : s.img.fieldBits s.params (atiTargetDesc c) * 32 < 2 ^ 32 := by omega
    have hbits : s.img.fieldBits s.params (atiTargetDesc c) =
        s.wordAt (24 + 14 * c.val + 4) % 64 := congrArg (· % 64) (Nat.div_one _)
    rw [← hbits]
    exact congrArg _ (s.endGet_chanGet_named p _ ch c _ hs hp hn (fieldDesc_atiTarget c) hdout)
  · have hlt : s.img.fieldBits s.params (rxEnDesc c) < 256 := fieldBits_lt _ _ _
    have hbits : s.img.fieldBits s.params (rxEnDesc c) = (s.byte (24 + 14 * c.val)).toNat :=
      (congrArg (· % 256) (Nat.div_one _)).trans (Nat.mod_eq_of_lt (BitVec.isLt _))
    have hword : (s.byte (24 + 14 * c.val)).setWidth 32 =
        BitVec.ofNat 32 (s.img.fieldBits s.params (rxEnDesc c)) := by
      rw [hbits, BitVec.ofNat_toNat]
    rw [hword]
    exact congrArg _ (s.endGet_chanGet_named p _ ch c _ hs hp hn (fieldDesc_rxEn c)
      (Nat.lt_trans hlt (by decide)))

/-! ### The four SETs -/

theorem aboveMax_of_lt (max v : Nat) (h : max < v) : aboveMax max v = some .outOfRange := if_pos h
theorem aboveMax_of_le (max v : Nat) (h : v ≤ max) : aboveMax max v = none :=
  if_neg (Nat.not_lt.mpr h)

/-- R158's table lists the values ATI_BASE_SET accepts, each at its code. -/
theorem getD_mem_atiBaseValues :
    ∀ k : Fin 4, [75, 100, 150, 200].getD k.val 0 ∈ Config.atiBaseValues := by decide
theorem idxOf_atiBaseValues :
    ∀ k : Fin 4, Config.atiBaseValues.idxOf ([75, 100, 150, 200].getD k.val 0) = k.val := by
  decide

/-- Settles O35: ATI_MODE is the two low bits of ENGINE_A's high byte. -/
theorem atiModeSet : Obligations.AtiModeSet := by
  intro s p ch hs
  refine ⟨encode_eq_ofNat _,
    fun hp => congrArg _ (s.endSet_unconfigured p _ hs hp),
    fun hp h8 h14 => congrArg _ (s.endSet_chanSet_badChannel p _ ch _ hs hp h8 h14),
    fun c hp hn hv => congrArg _ (s.endSet_chanSet_badValue p _ ch c _ .outOfRange hs hp hn
      (aboveMax_of_lt 3 _ hv)),
    fun c hp hn hv => ?_⟩
  obtain ⟨m, hm, hread⟩ := s.endSet_chanSet_inByte p _ ch c _ _ (24 + 14 * c.val + 2) 0 s.din
    0xFC#8 hs hp hn (aboveMax_of_le 3 _ hv) (fieldDesc_atiMode c) (.inl ⟨rfl, rfl⟩) hv
    (show ~~~byteMask 0 2 = 0xFC#8 by decide) (Nat.one_mul _)
  exact ⟨m, congrArg _ hm, hread⟩

/-- Settles O36: ATI_BASE is the two high bits of ENGINE_B's low byte, and its code is the value's
place in R158's table. -/
theorem atiBaseSet : Obligations.AtiBaseSet := by
  intro s p ch hs
  refine ⟨encode_eq_ofNat _,
    fun hp => congrArg _ (s.endSet_unconfigured p _ hs hp),
    fun hp h8 h14 => congrArg _ (s.endSet_chanSet_badChannel p _ ch _ hs hp h8 h14),
    fun c hp hn hv => congrArg _ (s.endSet_chanSet_badValue p _ ch c _ .invalidEnum hs hp hn
      (if_neg hv)),
    fun c k hp hn hk => ?_⟩
  have hv : s.din ∈ Config.atiBaseValues := hk ▸ getD_mem_atiBaseValues k
  have hcode : Config.atiBaseValues.idxOf s.din = k.val := hk ▸ idxOf_atiBaseValues k
  obtain ⟨m, hm, hread⟩ := s.endSet_chanSet_inByte p _ ch c notAtiBase _ (24 + 14 * c.val + 5) 6
    (64 * k.val) 0x3F#8 hs hp hn (if_pos hv) (fieldDesc_atiBase_chan c)
    (.inr ⟨rfl, rfl, show 7 < 8 by decide⟩) hv
    (show ~~~byteMask 6 2 = 0x3F#8 by decide) (congrArg (64 * ·) hcode)
  exact ⟨m, congrArg _ hm, hread⟩

/-- Settles O37: ATI_TARGET is the six low bits of ENGINE_B's low byte, and 2016 is the most its
steps of 32 can hold. -/
theorem atiTargetSet : Obligations.AtiTargetSet := by
  intro s p ch hs
  refine ⟨encode_eq_ofNat _,
    fun hp => congrArg _ (s.endSet_unconfigured p _ hs hp),
    fun hp h8 h14 => congrArg _ (s.endSet_chanSet_badChannel p _ ch _ hs hp h8 h14),
    fun c hp hn hv => congrArg _ (s.endSet_chanSet_badValue p _ ch c _ .outOfRange hs hp hn
      (aboveMax_of_lt 2016 _ hv)),
    fun c hp hn hv => ?_⟩
  obtain ⟨m, hm, hread⟩ := s.endSet_chanSet_inByte p _ ch c _ _ (24 + 14 * c.val + 5) 0
    (s.din / 32) 0xC0#8 hs hp hn (aboveMax_of_le 2016 _ hv) (fieldDesc_atiTarget c)
    (.inr ⟨rfl, rfl, show 5 < 8 by decide⟩) hv (show ~~~byteMask 0 6 = 0xC0#8 by decide)
    (Nat.one_mul _)
  exact ⟨m, congrArg _ hm, hread⟩

/-- Settles O38: RX_EN is a whole byte, so none of its old bits is kept. -/
theorem rxEnSet : Obligations.RxEnSet := by
  intro s p ch hs
  refine ⟨encode_eq_ofNat _,
    fun hp => congrArg _ (s.endSet_unconfigured p _ hs hp),
    fun hp h8 h14 => congrArg _ (s.endSet_chanSet_badChannel p _ ch _ hs hp h8 h14),
    fun c hp hn hv => congrArg _ (s.endSet_chanSet_badValue p _ ch c _ .outOfRange hs hp hn
      (aboveMax_of_lt 255 _ hv)),
    fun c hp hn hv => ?_⟩
  obtain ⟨m, hm, hread⟩ := s.endSet_chanSet_inByte p _ ch c _ _ (24 + 14 * c.val) 0 s.din 0#8
    hs hp hn (aboveMax_of_le 255 _ hv) (fieldDesc_rxEn c) ⟨rfl, rfl⟩ hv
    (show ~~~byteMask 0 8 = 0#8 by decide) (Nat.one_mul _)
  refine ⟨m, congrArg _ hm, fun a => (hread a).trans ?_⟩
  rw [BitVec.and_zero, BitVec.zero_or]

/-! ### CH_SEL and HALL_EN -/

/-- Settles O39: a DIN that passes the check is a channel, and the state CH_SEL_SET makes is the old
one with CH_SEL replaced. -/
theorem channelSelector : Obligations.ChannelSelector := by
  intro s p hs
  refine ⟨by decide, by decide, fun hp => ?_, fun hp => ?_⟩
  · exact ⟨congrArg _ (s.endGet_unconfigured p _ hs hp),
      congrArg _ (s.endSet_unconfigured p _ hs hp)⟩
  · have hr := s.hostRefusal_configured p hs hp
    refine ⟨?_, fun hv => ?_, fun c hc => ?_⟩
    · rw [exec, execChSelGet, hr]
      exact congrArg _ (s.endGet_ok_onHost p _ hs (Nat.lt_trans s.chSel.isLt (by decide)))
    · rw [exec, execChSelSet, State.chSelSetResult, hr, unlessRefused_none,
        dif_neg (Nat.not_lt.mpr hv)]
      exact congrArg _ (s.raise_onHost p .outOfRange hs.1)
    · have hlt : s.din < 8 := hc ▸ c.isLt
      have hsel : (⟨s.din, hlt⟩ : Chan) = c := Fin.ext hc
      rw [exec, execChSelSet, State.chSelSetResult, hr, unlessRefused_none, dif_pos hlt, hsel]
      exact congrArg _ (State.complete_onHost _ p hs.1)

/-- Settles O40: HALL_EN is one bit, read as 0 or 1, and DIN past 1 is refused. -/
theorem hallEnable : Obligations.HallEnable := by
  intro s p hs
  refine ⟨by decide, by decide, fun hp => ?_, fun hp => ?_⟩
  · exact ⟨congrArg _ (s.endGet_unconfigured p _ hs hp),
      congrArg _ (s.endSet_unconfigured p _ hs hp)⟩
  · have hr := s.hostRefusal_configured p hs hp
    refine ⟨?_, fun hv => ?_, fun hv => ?_⟩
    · have hbit : BitVec.ofNat 32 (boolNat s.hallEn) = if s.hallEn then 1 else 0 := by
        cases s.hallEn <;> rfl
      have hlt : boolNat s.hallEn < 2 ^ 32 := by cases s.hallEn <;> decide
      rw [exec, execHallEnGet, hr, ← hbit]
      exact congrArg _ (s.endGet_ok_onHost p _ hs hlt)
    · rw [exec, execHallEnSet, State.hallEnSetResult, hr, unlessRefused_none, if_pos hv]
      exact congrArg _ (s.raise_onHost p .outOfRange hs.1)
    · rw [exec, execHallEnSet, State.hallEnSetResult, hr, unlessRefused_none,
        if_neg (Nat.not_lt.mpr hv)]
      exact congrArg _ (State.complete_onHost _ p hs.1)

/-! ### COUNTS_READ -/

/-- COUNTS_READ that fails a check writes its status alone (42_channel_accessors.md R213). -/
theorem exec_countsRead_refused (s : State) (p : Nat) (ch : Fin 16) (e : Status) (hs : s.onHost p)
    (h : s.countsChannel ch = .error e) :
    exec (.countsRead ch) s = .next (s.onlyStatus p e.code) := by
  rw [exec, execCountsRead, h]
  exact congrArg _ (s.raise_onHost p e hs.1)

/-- Once Armed, on a channel that is named, the readiness gates decide (R213). -/
theorem State.countsChannel_armed (s : State) (p : Nat) (ch : Fin 16) (c : Chan) (hs : s.onHost p)
    (hp : s.phase = .armed) (hn : s.namesChannel ch c) :
    s.countsChannel ch = unlessRefused s.countsRefusal (.ok c) := by
  rw [State.countsChannel, s.hostRefusal_onHost p _ hs.1, Admission.refusal_armed, if_pos hp,
    s.resolveCh_of_names ch c hn, unlessRefused_none]

/-- Hall mode and stale calibration are NotReady, whatever GATE is (R213). -/
theorem State.countsRefusal_notReady (s : State) (h : s.hallEn = true ∨ s.stale = true) :
    s.countsRefusal = some .notReady := by
  unfold State.countsRefusal
  rcases h with h | h <;> simp [h]

/-- Without Hall mode and with fresh calibration, GATE alone decides. -/
theorem State.countsRefusal_fresh (s : State) (hh : s.hallEn = false) (ht : s.stale = false) :
    s.countsRefusal = if s.gate ≠ .ready then some .busy else none := by
  simp [State.countsRefusal, hh, ht]

/-- The two bytes of a count, the first the low one (20_memory.md R81). -/
theorem count_toNat (b0 b1 : Byte) : (b1 ++ b0 : Half).toNat = 256 * b1.toNat + b0.toNat := by
  rw [BitVec.toNat_append, ← Nat.shiftLeft_add_eq_or_of_lt b0.isLt, Nat.shiftLeft_eq]
  omega

/-- A bus read that succeeds answers the count. -/
theorem State.readCounts_some (s : State) (p : Nat) (c : Chan) (b0 b1 : Byte) (hs : s.onHost p)
    (hb : s.side.busr = some (b0, b1)) :
    s.readCounts c =
      { s.withHostRegs p ((s.port (.host p)).answered
          (BitVec.ofNat 32 (256 * b1.toNat + b0.toNat))) with
        bus := s.bus ++ [.readCounts s.params.countsBase[c] (some (b0, b1))] } := by
  have hlt : 256 * b1.toNat + b0.toNat < 2 ^ 32 := by
    have := b0.isLt
    have := b1.isLt
    omega
  simp only [State.readCounts, hb, count_toNat]
  rw [State.answer_onHost (s.logBus _) p _ hs, State.doutOf_lt _ _ hlt]
  rfl

/-- A bus read that fails is CommunicationError. -/
theorem State.readCounts_none (s : State) (p : Nat) (c : Chan) (hs : s.onHost p)
    (hb : s.side.busr = none) :
    s.readCounts c =
      { s.onlyStatus p 3 with bus := s.bus ++ [.readCounts s.params.countsBase[c] none] } := by
  simp only [State.readCounts, hb]
  exact State.raise_onHost _ p .communicationError hs.1

/-- Settles O41: the checks in R213's order, then the bus's answer. -/
theorem countsRead : Obligations.CountsRead := by
  intro s p ch hs
  refine ⟨encode_eq_ofNat _, fun hp => ?_, fun hp h8 h14 => ?_, fun c hp hn => ?_⟩
  · refine exec_countsRead_refused s p ch .notReady hs ?_
    rw [State.countsChannel, s.hostRefusal_onHost p _ hs.1, Admission.refusal_armed, if_neg hp,
      unlessRefused_some]
  · refine exec_countsRead_refused s p ch .outOfRange hs ?_
    rw [State.countsChannel, s.hostRefusal_onHost p _ hs.1, Admission.refusal_armed, if_pos hp,
      s.resolveCh_bad ch h8 h14, unlessRefused_none]
  · have hch := s.countsChannel_armed p ch c hs hp hn
    refine ⟨fun h => ?_, fun hh ht hg => ?_, fun hh ht hg => ?_⟩
    · refine exec_countsRead_refused s p ch .notReady hs ?_
      rw [hch, s.countsRefusal_notReady h, unlessRefused_some]
    · refine exec_countsRead_refused s p ch .busy hs ?_
      rw [hch, s.countsRefusal_fresh hh ht, if_pos hg, unlessRefused_some]
    · have hread : exec (.countsRead ch) s = .next (s.readCounts c) := by
        rw [exec, execCountsRead, hch, s.countsRefusal_fresh hh ht, if_neg (not_not.mpr hg),
          unlessRefused_none]
      rw [hread]
      exact ⟨fun b0 b1 hb => congrArg _ (s.readCounts_some p c b0 b1 hs hb),
        fun hb => congrArg _ (s.readCounts_none p c hs hb)⟩

end Sys2Proof.Machine
end

section
/-! PROOFS. Configuration (43_configuration.md): a pin list's mask as the OR of its bits, the two
answers of a full-image write, then the obligations. -/

namespace Sys2Proof.Machine

/-! ### Pin lists -/

/-- The loop of listToMask ORs the entries' bits into the mask it starts from (R251). -/
theorem pinBits_of_lt (l : List Nat) (m : Byte) (h : ∀ q ∈ l, q < 8) :
    pinBits l m = .ok (m ||| l.foldr (fun q acc => (1#8 <<< q) ||| acc) 0) := by
  induction l generalizing m with
  | nil => rw [List.foldr_nil, pinBits]; exact congrArg _ BitVec.or_zero.symm
  | cons p rest ih =>
    obtain ⟨hp, hrest⟩ := List.forall_mem_cons.mp h
    rw [pinBits, if_neg (Nat.not_le.mpr hp), ih _ hrest, List.foldr_cons, BitVec.or_assoc, laneBit]

/-- At most 8 entries below 8 become the OR of their bits. -/
theorem listToMask_of_legal (l : List Nat) (hlen : l.length ≤ 8) (h : ∀ q ∈ l, q < 8) :
    listToMask l = .ok (l.foldr (fun q acc => (1#8 <<< q) ||| acc) 0) := by
  rw [listToMask, Config.pinListMax, if_neg (Nat.not_lt.mpr hlen), pinBits_of_lt l 0 h]
  exact congrArg _ BitVec.zero_or

theorem listToMask_of_too_long (l : List Nat) (hlen : 8 < l.length) :
    listToMask l = .error .outOfRange := if_pos hlen

/-- An entry of 8 or more is refused, whatever the length. -/
theorem listToMask_of_mem_ge (l : List Nat) (q : Nat) (hq : q ∈ l) (h8 : 8 ≤ q) :
    listToMask l = .error .outOfRange := by
  have hpins := pinBits_outcome l 0
  rw [if_neg fun hall => Nat.not_lt.mpr h8 (hall q hq)] at hpins
  rw [listToMask, hpins, ite_self]

/-- Settles O42: the loop is an OR of bits, and each of the two refusals is enough by itself. -/
theorem pinListMask : Obligations.PinListMask := by
  intro l
  refine ⟨fun hlen h => ?_, ?_⟩
  · have hm := listToMask_of_legal l hlen h
    exact ⟨_, hm, rfl, fun q hq => by rw [listToMask_bits l _ hm q hq, decide_eq_true_iff]⟩
  · rintro (hlen | ⟨q, hq, h8⟩)
    · exact listToMask_of_too_long l hlen
    · exact listToMask_of_mem_ge l q hq h8

/-! ### The full-image write and IMG_INIT -/

/-- A full-image write that the bus answers Ok (R281, R282). -/
theorem State.fullWrite_ok (s : State) (redo : Bool) (h : s.side.busw = .ok) :
    s.fullWrite redo =
      { s with
        img := s.forced redo, stale := staleAfterWrite redo s.stale,
        bus := s.bus ++ [.writeImage s.params.imgBase ((s.forced redo).bytes s.params) .ok] } := by
  obtain ⟨-, hw⟩ | ⟨herr, -⟩ := s.fullWrite_cases redo
  · exact hw
  · cases h.symm.trans herr

/-- One that it answers Err leaves only its bus record. -/
theorem State.fullWrite_err (s : State) (redo : Bool) (h : s.side.busw = .err) :
    s.fullWrite redo =
      { s with
        bus := s.bus ++ [.writeImage s.params.imgBase ((s.forced redo).bytes s.params) .err] } := by
  obtain ⟨hok, -⟩ | ⟨-, hw⟩ := s.fullWrite_cases redo
  · cases h.symm.trans hok
  · exact hw

/-- IMG_INIT that its phase refuses writes its status alone (10_state.md R36). -/
theorem exec_imgInit_refused (s : State) (p : Nat) (e : Status) (hs : s.onHost p)
    (h : Admission.init.refusal s.phase = some e) :
    exec .imgInit s = .next (s.onlyStatus p e.code) := by
  rw [exec, execImgInit, s.hostRefusal_onHost p _ hs.1, h]
  exact congrArg _ (s.raise_onHost p e hs.1)

/-- While Configured it is the full write with REDO_ATI = 1 and what its answer decides (R285). -/
theorem exec_imgInit_configured (s : State) (p : Nat) (hs : s.onHost p)
    (h : s.phase = .configured) : exec .imgInit s = .next (s.fullWrite true).endInit := by
  rw [exec, execImgInit, s.hostRefusal_onHost p _ hs.1, Admission.refusal_init, if_pos h]

/-- Settles O49: the phase decides whether the write is made, and the bus's answer decides between
arming the block and CommunicationError. -/
theorem imgInit : Obligations.ImgInit := by
  intro s p hs
  refine ⟨by decide, fun hp => ?_, fun hp => ?_, fun hp hb => ?_, fun hp hb => ?_⟩
  · exact exec_imgInit_refused s p .notReady hs (by rw [Admission.refusal_init, hp]; rfl)
  · exact exec_imgInit_refused s p .illegalCommand hs (by rw [Admission.refusal_init, hp]; rfl)
  · rw [exec_imgInit_configured s p hs hp, s.fullWrite_ok true hb]
    simp only [State.endInit, hb]
    exact congrArg _ (State.complete_onHost _ p hs.1)
  · rw [exec_imgInit_configured s p hs hp, s.fullWrite_err true hb]
    simp only [State.endInit, hb]
    exact congrArg _ (State.raise_onHost _ p .communicationError hs.1)

end Sys2Proof.Machine
end

section
/-! PROOFS. The classifier's commands (44_event_classifier.md): SNAP_DECODE on the interrupt input
while Armed, and what it ends with when it does not reach a full decode; SLIDER_MODE_GET; then the
obligations. -/

namespace Sys2Proof.Machine

/-! ### SNAP_DECODE that ends before a full decode -/

/-- Past its admission SNAP_DECODE is the snapshot read and what its answer decides (R324). -/
theorem exec_snapDecode_armed (s : State) (hs : s.onIrq) (hp : s.phase = .armed) :
    exec .snapDecode s = .next s.snapDecode := by
  rw [exec, execSnapDecode, s.irqRefusal_onIrq _ hs, Admission.refusal_armed, if_pos hp]

/-- A snapshot that was read is noted on the bus record and decoded (R324). -/
theorem State.snapDecode_some (s : State) (sn : Snap) (h : s.side.snap = some sn) :
    s.snapDecode = (s.logBus (.readSnap s.params.snapBase (some sn))).decodeSnap sn := by
  simp only [State.snapDecode, h]

/-- A read that failed is noted too, and raises CommunicationError (R344). -/
theorem State.snapDecode_none (s : State) (h : s.side.snap = none) :
    s.snapDecode = (s.logBus (.readSnap s.params.snapBase none)).raise .communicationError := by
  simp only [State.snapDecode, h]

/-- RESET = 1 is the recovery, whatever ATI_BUSY is (R325). -/
theorem State.decodeSnap_reset (s : State) (sn : Snap) (h : sn.sys.getLsbD 15 = true) :
    s.decodeSnap sn = (s.fullWrite s.params.redoOnRecovery).endRecovery := if_pos h

/-- RESET = 0 and ATI_BUSY = 1 answer 2 (R326). -/
theorem State.decodeSnap_busy (s : State) (sn : Snap) (hr : sn.sys.getLsbD 15 = false)
    (hb : sn.sys.getLsbD 10 = true) : s.decodeSnap sn = s.answer 2 := by
  rw [State.decodeSnap, Snap.reset, hr, if_neg Bool.false_ne_true, Snap.atiBusy, if_pos hb]

/-- On the interrupt input a value of 32 bits is answered as it is (30_encoding.md R117). -/
theorem State.answer_onIrq_lt (s : State) (v : Nat) (hs : s.onIrq) (hv : v < 2 ^ 32) :
    s.answer v = { s with irqDout := BitVec.ofNat 32 v, irqStatus := 0 } := by
  rw [s.answer_onIrq v hs, s.doutOf_lt v hv]

/-- A recovery whose rewrite the bus answers Ok: the forced image, and DOUT 1 (R325, R281). -/
theorem State.recovery_ok (s : State) (redo : Bool) (hs : s.onIrq) (h : s.side.busw = .ok) :
    (s.fullWrite redo).endRecovery =
      { s with
        irqDout := 1, irqStatus := 0,
        img := s.forced redo, stale := staleAfterWrite redo s.stale,
        bus := s.bus ++ [.writeImage s.params.imgBase ((s.forced redo).bytes s.params) .ok] } := by
  rw [s.fullWrite_ok redo h]
  simp only [State.endRecovery, h]
  exact State.answer_onIrq_lt _ 1 hs (by decide)

/-- One that it answers Err is RecoveryFailed, and the image stays (R325). -/
theorem State.recovery_err (s : State) (redo : Bool) (hs : s.onIrq) (h : s.side.busw = .err) :
    (s.fullWrite redo).endRecovery =
      { s with
        irqStatus := 4,
        bus := s.bus ++ [.writeImage s.params.imgBase ((s.forced redo).bytes s.params) .err] } := by
  rw [s.fullWrite_err redo h]
  simp only [State.endRecovery, h]
  exact State.raise_onIrq _ .recoveryFailed hs

/-- Settles O51: RESET = 1 leads to one full-image write, and the bus's answer to it decides how the
command ends. -/
theorem resetSnapshotRecovers : Obligations.ResetSnapshotRecovers := by
  intro s sn hs hp hsn hr
  rw [exec_snapDecode_armed s hs hp, s.snapDecode_some sn hsn, State.decodeSnap_reset _ sn hr]
  refine ⟨fun hb => ?_, fun hb => ?_⟩
  · rw [State.recovery_ok (s.logBus _) _ hs hb, State.logBus, List.append_assoc]
    rfl
  · rw [State.recovery_err (s.logBus _) _ hs hb, State.logBus, List.append_assoc]
    rfl

/-- Settles O52: neither end comes to the reports or the gate release of a full decode. -/
theorem busyAndFailedSnapshots : Obligations.BusyAndFailedSnapshots := by
  intro s hs hp
  rw [exec_snapDecode_armed s hs hp]
  refine ⟨fun sn hsn hr hb => ?_, fun hn => ?_⟩
  · rw [s.snapDecode_some sn hsn, State.decodeSnap_busy _ sn hr hb]
    exact congrArg _ (State.answer_onIrq_lt _ 2 hs (by decide))
  · rw [s.snapDecode_none hn]
    exact congrArg _ (State.raise_onIrq _ .communicationError hs)

/-! ### SLIDER_MODE_GET -/

/-- A slider with no channel selected, or slider 1 under OTP_HOLD, has no mode (R322). -/
theorem State.sliderMode_of_not_hasSlider (s : State) (i : SliderIx) (h : ¬s.hasSlider i) :
    s.sliderMode i = .none := by
  cases hm : s.sliderMode i with
  | none => rfl
  | key => exact absurd ((s.sliderMode_key i).mp hm).1 h
  | raw => exact absurd ((s.sliderMode_raw i).mp hm).1 h

/-- DOUT's word for the mode of a slider, from the slider's byte, OTP_HOLD and its codes (R322,
R346). -/
theorem State.ofNat_sliderMode_number (s : State) (i : SliderIx) :
    BitVec.ofNat 32 (s.sliderMode i).number =
      if (i = 1 ∧ s.params.otpHold = true) ∨ s.byte (18 + i.val) = 0 then 0
      else if ∃ g : Gesture, s.slcode[i][g] ≠ 0 then 1 else 2 := by
  by_cases hsl : s.hasSlider i
  · rw [if_neg (not_or.mpr hsl)]
    by_cases hg : s.hasGestureCode i
    · rw [(s.sliderMode_key i).mpr ⟨hsl, hg⟩, if_pos hg]
      rfl
    · rw [(s.sliderMode_raw i).mpr ⟨hsl, hg⟩, if_neg hg]
      rfl
  · rw [s.sliderMode_of_not_hasSlider i hsl, if_pos (Decidable.of_not_not (mt not_or.mp hsl))]
    rfl

theorem SliderMode.number_lt (m : SliderMode) : m.number < 2 ^ 32 := by
  cases m <;> decide

/-- A slider index of 2 or more is OutOfRange once the phase admits the command (R346). -/
theorem State.sliderModeResult_badIndex (s : State) (p : Nat) (ch : Fin 16) (hs : s.onHost p)
    (hp : s.phase ≠ .unconfigured) (h : 2 ≤ ch.val) :
    s.sliderModeResult ch = .error .outOfRange := by
  have hge : ¬ch.val < Config.numSliders := Nat.not_lt.mpr h
  rw [State.sliderModeResult, s.hostRefusal_configured p hs hp, unlessRefused_none, dif_neg hge]

/-- CH names slider i: its mode's number (R346). -/
theorem State.sliderModeResult_slider (s : State) (p : Nat) (ch : Fin 16) (i : SliderIx)
    (hs : s.onHost p) (hp : s.phase ≠ .unconfigured) (hi : ch.val = i.val) :
    s.sliderModeResult ch = .ok (s.sliderMode i).number := by
  have hlt : ch.val < Config.numSliders := hi ▸ i.isLt
  have hix : (⟨ch.val, hlt⟩ : SliderIx) = i := Fin.ext hi
  rw [State.sliderModeResult, s.hostRefusal_configured p hs hp, unlessRefused_none, dif_pos hlt,
    hix]

/-- Settles O56: the phase, then the slider index, then the slider's mode. -/
theorem sliderModeGet : Obligations.SliderModeGet := by
  intro s p ch hs
  refine ⟨encode_eq_ofNat _, fun hp => ?_, fun hp h2 => ?_, fun i hp hi => ?_⟩
  · exact congrArg _ (s.endGet_unconfigured p _ hs hp)
  · rw [exec, execSliderModeGet, s.sliderModeResult_badIndex p ch hs hp h2, State.endGet_error]
    exact congrArg _ (s.raise_onHost p .outOfRange hs.1)
  · rw [exec, execSliderModeGet, s.sliderModeResult_slider p ch i hs hp hi,
      s.endGet_ok_onHost p _ hs (SliderMode.number_lt _), s.ofNat_sliderMode_number i]

end Sys2Proof.Machine
end

section
/-! PROOFS. RECAL_STATUS on a host port (45_calibration_sync.md R385): what its bit means, the word
DOUT takes for it; then the obligation. -/

namespace Sys2Proof.Machine

/-- The bit is set exactly when the image is not stale and the gate is Ready (R385). -/
theorem State.calibrated_iff (s : State) :
    s.calibrated = true ↔ s.stale = false ∧ s.gate = .ready := by
  rw [State.calibrated, Bool.and_eq_true, Bool.not_eq_true', beq_iff_eq]

theorem boolNat_lt_two (b : Bool) : boolNat b < 2 := by
  cases b <;> decide

theorem ofNat_boolNat (b : Bool) : BitVec.ofNat 32 (boolNat b) = if b = true then 1 else 0 := by
  cases b <;> rfl

/-- Past Unconfigured RECAL_STATUS answers its bit and raises nothing (R385). -/
theorem exec_recalStatus_configured (s : State) (p : Nat) (hs : s.onHost p)
    (hp : s.phase ≠ .unconfigured) :
    exec .recalStatus s = .next (s.withHostRegs p ((s.port (.host p)).answered
      (if s.calibrated = true then 1 else 0))) := by
  have hlt : boolNat s.calibrated < 2 ^ 32 := Nat.lt_trans (boolNat_lt_two _) (by decide)
  rw [exec, execRecalStatus, s.hostRefusal_configured p hs hp, unlessRefused_none,
    s.endGet_ok_onHost p _ hs hlt, ofNat_boolNat]

/-- Settles O59: the phase decides whether the bit is read, and STALE and GATE decide the bit. -/
theorem recalStatus : Obligations.RecalStatus := by
  intro s p hs
  refine ⟨by decide, fun hp => ?_, fun hp => ?_⟩
  · exact congrArg _ (s.endGet_unconfigured p _ hs hp)
  · rw [exec_recalStatus_configured s p hs hp]
    simp only [s.calibrated_iff]

end Sys2Proof.Machine
end

section
/-! PROOFS. The command word (30_encoding.md): the four fields of a word as numbers, what each row of
the opcode map reads and admits, said once for its three forms; then the obligations. -/

namespace Sys2Proof

/-! ### The fields of a word -/

theorem opOf_toNat (w : Word) : (opOf w).toNat = w.toNat / 0x1000000 := by
  have hw := w.isLt
  rw [opOf, BitVec.extractLsb'_toNat, Nat.shiftRight_eq_div_pow]
  omega

theorem fidOf_toNat (w : Word) : (fidOf w).toNat = w.toNat / 0x10000 % 0x100 := by
  rw [fidOf, BitVec.extractLsb'_toNat, Nat.shiftRight_eq_div_pow]

theorem chOf_val (w : Word) : (chOf w).val = w.toNat / 0x1000 % 0x10 := by
  rw [chOf, BitVec.val_toFin, BitVec.extractLsb'_toNat, Nat.shiftRight_eq_div_pow]

theorem rsvOf_toNat (w : Word) : (rsvOf w).toNat = w.toNat % 0x1000 := by
  rw [rsvOf, BitVec.extractLsb'_toNat, Nat.shiftRight_zero]

/-- The reserved bits as a number (R115(b)). -/
theorem rsvOf_eq_zero (w : Word) : rsvOf w = 0 ↔ w.toNat % 0x1000 = 0 := by
  rw [← BitVec.toNat_inj, rsvOf_toNat]
  rfl

/-- A byte is 0 exactly when its number is. -/
theorem fidOf_eq_zero (w : Word) : fidOf w = 0 ↔ w.toNat / 0x10000 % 0x100 = 0 := by
  rw [← BitVec.toNat_inj, fidOf_toNat]
  rfl

theorem chOf_eq_zero (w : Word) : chOf w = 0 ↔ w.toNat / 0x1000 % 0x10 = 0 := by
  rw [Fin.ext_iff, chOf_val]
  rfl

/-- A word is the command word of a command with its four fields (R110). -/
theorem encode_of_fields (i : Instr) (w : Word) (hop : i.opcode = opOf w)
    (hfid : i.fidByte = fidOf w) (hch : i.channel = chOf w) (hrsv : rsvOf w = 0) :
    encode i = w := by
  have hw := w.isLt
  have hr := (rsvOf_eq_zero w).mp hrsv
  rw [Machine.encode_eq_ofNat, hop, hfid, hch, opOf_toNat, fidOf_toNat, chOf_val]
  apply BitVec.eq_of_toNat_eq
  rw [BitVec.toNat_ofNat]
  omega

/-! ### FIDs -/

/-- Each field is the one its FID names (10_state.md R43, R44). -/
theorem RegField.ofFid_fid (f : RegField) : RegField.ofFid f.fid = some f := by
  cases f with
  | sys g => cases g <;> rfl
  | chan g => cases g <;> rfl

theorem RegField.fid_of_ofFid (n : Byte) (f : RegField) (h : RegField.ofFid n = some f) :
    f.fid = n := by
  simpa using List.find?_some h

/-- Whether a field is a channel field. -/
def RegField.isChan : RegField → Bool
  | .sys _ => false
  | .chan _ => true

/-- Which FIDs name a field: the system fields up to 0x25, the channel fields from 0x40 to 0x55
(R113). -/
theorem RegField.ofFid_range : ∀ n : Byte, (RegField.ofFid n).map RegField.isChan =
    if n.toNat ≤ 0x25 then some false
    else if 0x40 ≤ n.toNat ∧ n.toNat ≤ 0x55 then some true else none := by
  decide +kernel

/-- A FID and CH that FLD_GET and FLD_SET take, as numbers (R113, R114). -/
theorem RegField.ofFid_takesChannel (n : Byte) (ch : Fin 16) :
    (∃ f, RegField.ofFid n = some f ∧ f.takesChannel ch = true) ↔
      (n.toNat ≤ 0x25 ∧ ch = 0) ∨ (0x40 ≤ n.toNat ∧ n.toNat ≤ 0x55) := by
  have hr := RegField.ofFid_range n
  by_cases hsys : n.toNat ≤ 0x25
  · obtain ⟨f, hf, hk⟩ := Option.map_eq_some_iff.mp (hr.trans (if_pos hsys))
    have hlow : ¬0x40 ≤ n.toNat := by omega
    cases f with
    | sys g => simp [hf, RegField.takesChannel, hsys, hlow]
    | chan g => cases hk
  · rw [if_neg hsys] at hr
    by_cases hchan : 0x40 ≤ n.toNat ∧ n.toNat ≤ 0x55
    · obtain ⟨f, hf, hk⟩ := Option.map_eq_some_iff.mp (hr.trans (if_pos hchan))
      cases f with
      | sys g => cases hk
      | chan g => simp [hf, RegField.takesChannel, hchan]
    · have hf := Option.map_eq_none_iff.mp (hr.trans (if_neg hchan))
      simp [hf, hsys, hchan]

/-! ### The three forms of a row -/

/-- A form's row of the opcode map is the row of its commands: opcode, FID, CH and well-formedness
are what the FID and CH columns say (R112). -/
def Form.rowOf (op : Byte) : Form → Prop
  | .field mk => ∀ f ch, (mk f ch).opcode = op ∧ (mk f ch).fidByte = f.fid ∧
      (mk f ch).channel = ch ∧ (mk f ch).wellFormed = f.takesChannel ch
  | .channel mk => ∀ ch, (mk ch).opcode = op ∧ (mk ch).fidByte = 0 ∧ (mk ch).channel = ch ∧
      (mk ch).wellFormed = true
  | .plain i => i.opcode = op ∧ i.fidByte = 0 ∧ i.channel = 0 ∧ i.wellFormed = true

theorem opcodeTable_rows : ∀ r ∈ opcodeTable, r.2.rowOf r.1 := by
  simp only [opcodeTable, List.forall_mem_cons, Form.rowOf]
  simp [Instr.opcode, Instr.fidByte, Instr.channel, Instr.wellFormed]

/-- The command a form reads from a word, if it reads one. -/
def Form.read (w : Word) : Form → Except DecodeError Instr
  | .field mk => fieldCommand w mk
  | .channel mk => channelCommand w mk
  | .plain i => plainCommand w i

/-- The row of a command in the opcode map (R112). -/
def Instr.form : Instr → Form
  | .fldGet _ _ => .field .fldGet
  | .fldSet _ _ => .field .fldSet
  | .atiModeGet _ => .channel .atiModeGet
  | .atiModeSet _ => .channel .atiModeSet
  | .atiBaseGet _ => .channel .atiBaseGet
  | .atiBaseSet _ => .channel .atiBaseSet
  | .atiTargetGet _ => .channel .atiTargetGet
  | .atiTargetSet _ => .channel .atiTargetSet
  | .rxEnGet _ => .channel .rxEnGet
  | .rxEnSet _ => .channel .rxEnSet
  | .chSelGet => .plain .chSelGet
  | .chSelSet => .plain .chSelSet
  | .hallEnGet => .plain .hallEnGet
  | .hallEnSet => .plain .hallEnSet
  | .recalStatus => .plain .recalStatus
  | .recalTrigger => .plain .recalTrigger
  | .countsRead _ => .channel .countsRead
  | .cfgBuild => .plain .cfgBuild
  | .imgInit => .plain .imgInit
  | .snapDecode => .plain .snapDecode
  | .sliderModeGet _ => .channel .sliderModeGet
  | .calWait => .plain .calWait

theorem lookup_opcode (i : Instr) : opcodeTable.lookup i.opcode = some i.form := by
  cases i <;> rfl

theorem fieldCommand_ok (w : Word) (mk : RegField → Fin 16 → Instr) (i : Instr) :
    fieldCommand w mk = .ok i ↔
      ∃ f, (RegField.ofFid (fidOf w) = some f ∧ f.takesChannel (chOf w) = true) ∧
        mk f (chOf w) = i := by
  unfold fieldCommand
  rcases RegField.ofFid (fidOf w) with _ | (g | g)
  · simp
  · by_cases hc : chOf w = 0 <;> simp [hc, RegField.takesChannel]
  · simp [RegField.takesChannel]

theorem channelCommand_ok (w : Word) (mk : Fin 16 → Instr) (i : Instr) :
    channelCommand w mk = .ok i ↔ fidOf w = 0 ∧ mk (chOf w) = i := by
  unfold channelCommand
  by_cases hf : fidOf w = 0
  · rw [if_neg (not_not.mpr hf), Except.ok.injEq]
    exact (and_iff_right hf).symm
  · rw [if_pos hf]
    exact ⟨nofun, fun h => absurd h.1 hf⟩

theorem plainCommand_ok (w : Word) (j i : Instr) :
    plainCommand w j = .ok i ↔ (fidOf w = 0 ∧ chOf w = 0) ∧ j = i := by
  unfold plainCommand
  by_cases hf : fidOf w = 0
  · by_cases hc : chOf w = 0
    · rw [if_neg (not_not.mpr hf), if_neg (not_not.mpr hc), Except.ok.injEq]
      exact (and_iff_right ⟨hf, hc⟩).symm
    · rw [if_neg (not_not.mpr hf), if_pos hc]
      exact ⟨nofun, fun h => absurd h.1.2 hc⟩
  · rw [if_pos hf]
    exact ⟨nofun, fun h => absurd h.1.1 hf⟩

/-- A word decodes to a command exactly when its reserved bits are 0 and its opcode's row reads the
command. -/
theorem decode_ok (w : Word) (i : Instr) :
    decode w = .ok i ↔
      rsvOf w = 0 ∧ ∃ fm, opcodeTable.lookup (opOf w) = some fm ∧ fm.read w = .ok i := by
  unfold decode decodeOp
  by_cases hr : rsvOf w = 0
  · rw [if_neg (not_not.mpr hr), and_iff_right hr]
    rcases opcodeTable.lookup (opOf w) with _ | (mk | mk | j) <;> simp [Form.read]
  · rw [if_pos hr]
    exact ⟨nofun, fun h => absurd h.1 hr⟩

/-- What a row reads is a command with the word's own fields, and well formed. -/
theorem Form.read_fields (op : Byte) (fm : Form) (w : Word) (i : Instr) (hrow : fm.rowOf op)
    (h : fm.read w = .ok i) :
    i.opcode = op ∧ i.fidByte = fidOf w ∧ i.channel = chOf w ∧ i.wellFormed = true := by
  cases fm with
  | field mk =>
    obtain ⟨f, ⟨hf, hc⟩, rfl⟩ := (fieldCommand_ok w mk i).mp h
    obtain ⟨hop, hfid, hch, hwf⟩ := hrow f (chOf w)
    exact ⟨hop, hfid.trans (RegField.fid_of_ofFid _ f hf), hch, hwf.trans hc⟩
  | channel mk =>
    obtain ⟨hf, rfl⟩ := (channelCommand_ok w mk i).mp h
    obtain ⟨hop, hfid, hch, hwf⟩ := hrow (chOf w)
    exact ⟨hop, hfid.trans hf.symm, hch, hwf⟩
  | plain j =>
    obtain ⟨⟨hf, hc⟩, rfl⟩ := (plainCommand_ok w j i).mp h
    obtain ⟨hop, hfid, hch, hwf⟩ := hrow
    exact ⟨hop, hfid.trans hf.symm, hch.trans hc.symm, hwf⟩

/-- A word with a well-formed command's FID and CH is read as that command by the command's row. -/
theorem Instr.form_read (i : Instr) (w : Word) (hwf : i.wellFormed = true)
    (hfid : fidOf w = i.fidByte) (hch : chOf w = i.channel) : i.form.read w = .ok i := by
  cases i with
  | fldGet f ch | fldSet f ch =>
    refine (fieldCommand_ok w _ _).mpr ⟨f, ⟨?_, ?_⟩, by rw [hch]; rfl⟩
    · exact hfid ▸ RegField.ofFid_fid f
    · exact hch ▸ hwf
  | atiModeGet ch | atiModeSet ch | atiBaseGet ch | atiBaseSet ch | atiTargetGet ch
  | atiTargetSet ch | rxEnGet ch | rxEnSet ch | countsRead ch | sliderModeGet ch =>
    exact (channelCommand_ok w _ _).mpr ⟨hfid, by rw [hch]; rfl⟩
  | chSelGet | chSelSet | hallEnGet | hallEnSet | recalStatus | recalTrigger | cfgBuild | imgInit
  | snapDecode | calWait => exact (plainCommand_ok w _ _).mpr ⟨⟨hfid, hch⟩, rfl⟩

/-- The word of a command has the command's fields, and reserved bits 0 (R110, R119). -/
theorem encode_fields (i : Instr) :
    opOf (encode i) = i.opcode ∧ fidOf (encode i) = i.fidByte ∧ chOf (encode i) = i.channel ∧
      rsvOf (encode i) = 0 :=
  Laws.EncodedReserved.fields _ _ _

/-- Settles O1: the row of the command's opcode reads the command back from the word's fields. -/
theorem encodeThenDecode : Obligations.EncodeThenDecode := by
  intro i hwf
  obtain ⟨hop, hfid, hch, hrsv⟩ := encode_fields i
  exact (decode_ok _ i).mpr
    ⟨hrsv, i.form, hop ▸ lookup_opcode i, i.form_read _ hwf hfid hch⟩

/-- Settles O3: the row that reads the command fixes all four fields of the word. -/
theorem decodeThenEncode : Obligations.DecodeThenEncode := by
  intro w i h
  obtain ⟨hrsv, fm, hl, hread⟩ := (decode_ok w i).mp h
  obtain ⟨l₁, l₂, htable, -⟩ := List.lookup_eq_some_iff.mp hl
  have hrow : (opOf w, fm) ∈ opcodeTable := htable ▸ List.mem_append_right l₁ List.mem_cons_self
  obtain ⟨hop, hfid, hch, hwf⟩ := fm.read_fields _ w i (opcodeTable_rows _ hrow) hread
  exact ⟨hwf, encode_of_fields i w hop hfid hch hrsv⟩

/-! ### Which words decode -/

/-- The FID and CH a form takes (R112). -/
def Form.admits (w : Word) : Form → Prop
  | .field _ => (w.toNat / 0x10000 % 0x100 ≤ 0x25 ∧ w.toNat / 0x1000 % 0x10 = 0) ∨
      (0x40 ≤ w.toNat / 0x10000 % 0x100 ∧ w.toNat / 0x10000 % 0x100 ≤ 0x55)
  | .channel _ => w.toNat / 0x10000 % 0x100 = 0
  | .plain _ => w.toNat / 0x10000 % 0x100 = 0 ∧ w.toNat / 0x1000 % 0x10 = 0

theorem Form.exists_read (fm : Form) (w : Word) : (∃ i, fm.read w = .ok i) ↔ fm.admits w := by
  cases fm with
  | field mk =>
    simp only [Form.read, fieldCommand_ok, Form.admits, ← fidOf_toNat, ← chOf_eq_zero,
      ← RegField.ofFid_takesChannel]
    exact ⟨fun ⟨i, f, h, _⟩ => ⟨f, h⟩, fun ⟨f, h⟩ => ⟨_, f, h, rfl⟩⟩
  | channel mk =>
    simp only [Form.read, channelCommand_ok, Form.admits, ← fidOf_eq_zero]
    exact ⟨fun ⟨i, h, _⟩ => h, fun h => ⟨_, h, rfl⟩⟩
  | plain j =>
    simp only [Form.read, plainCommand_ok, Form.admits, ← fidOf_eq_zero, ← chOf_eq_zero]
    exact ⟨fun ⟨i, h, _⟩ => h, fun h => ⟨_, h, rfl⟩⟩

/-- Whether a form takes a FID, and whether it takes CH: its columns in the opcode map (R112). -/
def Form.columns : Form → Bool × Bool
  | .field _ => (true, true)
  | .channel _ => (false, true)
  | .plain _ => (false, false)

/-- The opcodes of each form (R112). -/
theorem lookup_columns : ∀ op : Byte, (opcodeTable.lookup op).map Form.columns =
    if op.toNat ∈ [0x01, 0x02] then some (true, true)
    else if op.toNat ∈ [0x10, 0x11, 0x12, 0x13, 0x14, 0x15, 0x16, 0x17, 0x26, 0x41] then
      some (false, true)
    else if op.toNat ∈ [0x20, 0x21, 0x22, 0x23, 0x24, 0x25, 0x30, 0x31, 0x40, 0x50] then
      some (false, false)
    else none := by
  decide +kernel

/-- No opcode stands in two of the three lists. -/
theorem opcodes_apart (n : Nat) :
    (n ∈ [0x01, 0x02] →
      n ∉ [0x10, 0x11, 0x12, 0x13, 0x14, 0x15, 0x16, 0x17, 0x26, 0x41] ∧
      n ∉ [0x20, 0x21, 0x22, 0x23, 0x24, 0x25, 0x30, 0x31, 0x40, 0x50]) ∧
    (n ∈ [0x10, 0x11, 0x12, 0x13, 0x14, 0x15, 0x16, 0x17, 0x26, 0x41] →
      n ∉ [0x20, 0x21, 0x22, 0x23, 0x24, 0x25, 0x30, 0x31, 0x40, 0x50]) := by
  simp only [List.mem_cons, List.not_mem_nil, or_false]
  omega

/-- Settles O2: the opcode picks the row, and the row's form says which FID and CH it takes. -/
theorem decodableWords : Obligations.DecodableWords := by
  intro w
  have hdec : (∃ i, decode w = .ok i) ↔
      rsvOf w = 0 ∧ ∃ fm, opcodeTable.lookup (opOf w) = some fm ∧ fm.admits w := by
    simp only [decode_ok, ← Form.exists_read]
    exact ⟨fun ⟨i, hr, fm, hl, h⟩ => ⟨hr, fm, hl, i, h⟩,
      fun ⟨hr, fm, hl, i, h⟩ => ⟨i, hr, fm, hl, h⟩⟩
  rw [hdec, rsvOf_eq_zero]
  refine and_congr_right fun _ => ?_
  have hcols := lookup_columns (opOf w)
  obtain ⟨hfield, hchannel⟩ := opcodes_apart (w.toNat / 0x1000000)
  rw [opOf_toNat] at hcols
  have row : ∀ cols, (opcodeTable.lookup (opOf w)).map Form.columns = some cols →
      ∃ fm, opcodeTable.lookup (opOf w) = some fm ∧ fm.columns = cols := fun _ =>
    Option.map_eq_some_iff.mp
  split at hcols
  · rename_i hop
    obtain ⟨fm, hl, hk⟩ := row _ hcols
    cases fm <;> cases hk
    simp only [hl, Option.some.injEq, exists_eq_left', Form.admits, hop, hfield hop, true_and,
      false_and, or_false]
  · rename_i hfield'
    split at hcols
    · rename_i hop
      obtain ⟨fm, hl, hk⟩ := row _ hcols
      cases fm <;> cases hk
      simp only [hl, Option.some.injEq, exists_eq_left', Form.admits, hfield', hop, hchannel hop,
        true_and, false_and, or_false, false_or]
    · rename_i hchannel'
      split at hcols
      · rename_i hop
        obtain ⟨fm, hl, hk⟩ := row _ hcols
        cases fm <;> cases hk
        simp only [hl, Option.some.injEq, exists_eq_left', Form.admits, hfield', hchannel', hop, true_and,
          false_and, false_or]
      · rename_i hplain'
        simp only [Option.map_eq_none_iff.mp hcols, reduceCtorEq, false_and, exists_false, hfield',
          hchannel', hplain', or_self]

/-- Settles O4: each word decodes by computation. -/
theorem wordsOfTheSpecDecode : Obligations.WordsOfTheSpecDecode := by
  unfold Obligations.WordsOfTheSpecDecode
  decide

end Sys2Proof
end

section
/-! PROOFS. The code tables of a build (43_configuration.md R258): what an event, a channel and a
record write into KEYCODE and SWCODE, said once for the two tables; then the obligation. -/

namespace Sys2Proof.Machine

/-- A code written over an old one: code 0 writes nothing (R258). -/
def codeOver (v old : Code) : Code := if v ≠ 0 then v else old

@[simp] theorem codeOver_zero (old : Code) : codeOver 0#16 old = old :=
  if_neg (not_not.mpr rfl)
@[simp] theorem codeOver_zero_right (v : Code) : codeOver v 0#16 = v := by
  unfold codeOver; split <;> simp_all
theorem codeOver_assoc (u v w : Code) : codeOver u (codeOver v w) = codeOver (codeOver u v) w := by
  unfold codeOver; split <;> simp_all
@[simp] theorem codeOver_self (v : Code) : codeOver v v = v := ite_self v

/-- A code table gains the codes `w`: each nonzero one replaces the entry, and the rest is kept. -/
def Gains (t t' : CodeTable) (w : Event → Chan → Code) : Prop :=
  ∀ (e : Event) (c : Chan), t'[e.id][c] = codeOver (w e c) t[e.id][c]

theorem Gains.trans {t t' t'' : CodeTable} {w w' : Event → Chan → Code} (h : Gains t t' w)
    (h' : Gains t' t'' w') : Gains t t'' (fun e c => codeOver (w' e c) (w e c)) := fun e c => by
  rw [h' e c, h e c, codeOver_assoc]

/-- Nothing gained. -/
theorem Gains.refl (t : CodeTable) : Gains t t (fun _ _ => 0) := fun _ _ => (codeOver_zero _).symm

theorem Gains.congr {t t' : CodeTable} {w w' : Event → Chan → Code} (h : Gains t t' w)
    (hw : ∀ e c, w e c = w' e c) : Gains t t' w' := fun e c => hw e c ▸ h e c

/-- The codes some events of channel c give, by `get` of their configurations. -/
def eventCodes (es : List Event) (c : Chan) (h : ChCfg) (get : EvCfg → Code) (e' : Event)
    (c' : Chan) : Code :=
  if e' ∈ es ∧ c' = c then get h.ev[e'.id] else 0

/-- The codes the channels of a list give, by `get` of their configurations: 0 for a channel the
record does not hold. -/
def recordCodes (cfg : Cfg) (cs : List Chan) (get : EvCfg → Code) (e : Event) (c : Chan) : Code :=
  if c ∈ cs then (match cfg.ch[c] with | some h => get h.ev[e.id] | none => 0) else 0

/-- One event gives its two tables its two codes (R258). -/
theorem buildEvent_gains (P : Params) (c : Chan) (h : ChCfg) (b b' : Build) (e : Event)
    (hb : buildEvent P c h b e = .ok b') :
    Gains b.key b'.key (eventCodes [e] c h EvCfg.key) ∧
    Gains b.sw b'.sw (eventCodes [e] c h EvCfg.sw) ∧ (h.ev[e.id].sw ≠ 0 → c = 7) := by
  obtain ⟨hkey, hsw, h7⟩ := buildEvent_codes P c h b b' e hb
  have one : ∀ (get : EvCfg → Code) (old : Code) (e' : Event) (c' : Chan),
      (if e' = e ∧ c' = c ∧ get h.ev[e.id] ≠ 0 then get h.ev[e.id] else old) =
        codeOver (eventCodes [e] c h get e' c') old := by
    intro get old e' c'
    unfold eventCodes codeOver
    by_cases he : e' = e
    · subst he
      by_cases hc : c' = c <;> simp [hc]
    · simp [he]
  exact ⟨fun e' c' => (hkey e' c').trans (one _ _ e' c'),
    fun e' c' => (hsw e' c').trans (one _ _ e' c'), h7⟩

/-- Events in order give the codes of all of them. -/
theorem eventCodes_cons (e : Event) (es : List Event) (c : Chan) (h : ChCfg) (get : EvCfg → Code)
    (e' : Event) (c' : Chan) :
    codeOver (eventCodes es c h get e' c') (eventCodes [e] c h get e' c') =
      eventCodes (e :: es) c h get e' c' := by
  unfold eventCodes
  by_cases he : e' = e
  · subst he
    by_cases hc : c' = c <;> by_cases hes : e' ∈ es <;> simp [hc, hes]
  · simp [he]

theorem buildEvents_gains (P : Params) (c : Chan) (h : ChCfg) (es : List Event) (b b' : Build)
    (hb : buildEvents P c h b es = .ok b') :
    Gains b.key b'.key (eventCodes es c h EvCfg.key) ∧
    Gains b.sw b'.sw (eventCodes es c h EvCfg.sw) ∧ (∀ e ∈ es, h.ev[e.id].sw ≠ 0 → c = 7) := by
  induction es generalizing b with
  | nil =>
    cases hb
    have none : ∀ get e' c', (0 : Code) = eventCodes [] c h get e' c' := fun get e' c' => by
      simp [eventCodes]
    exact ⟨(Gains.refl _).congr (none _), (Gains.refl _).congr (none _), by simp⟩
  | cons e rest ih =>
    simp only [buildEvents] at hb
    split at hb
    · cases hb
    · rename_i n hn
      obtain ⟨hkey, hsw, h7⟩ := buildEvent_gains P c h b n e hn
      obtain ⟨ihkey, ihsw, ih7⟩ := ih n hb
      exact ⟨(hkey.trans ihkey).congr (eventCodes_cons e rest c h _),
        (hsw.trans ihsw).congr (eventCodes_cons e rest c h _), List.forall_mem_cons.mpr ⟨h7, ih7⟩⟩

theorem mem_event_all (e : Event) : e ∈ Event.all := by cases e <;> decide

/-- One channel of a record gives its codes, and switch codes only on channel 7 (R258). -/
theorem buildChannel_gains (P : Params) (c : Chan) (h : ChCfg) (b b' : Build)
    (hb : buildChannel P c h b = .ok b') :
    Gains b.key b'.key (eventCodes Event.all c h EvCfg.key) ∧
    Gains b.sw b'.sw (eventCodes Event.all c h EvCfg.sw) ∧
    (∀ e : Event, h.ev[e.id].sw ≠ 0 → c = 7) := by
  obtain ⟨_, _, _, m, -, -, -, -, he⟩ := buildChannel_ok P c h b b' hb
  obtain ⟨hkey, hsw, h7⟩ := buildEvents_gains P c h Event.all _ b' he
  exact ⟨hkey, hsw, fun e => h7 e (mem_event_all e)⟩

theorem recordCodes_none (cfg : Cfg) (c : Chan) (cs : List Chan) (get : EvCfg → Code)
    (hc : cfg.ch[c] = none) (e' : Event) (c' : Chan) :
    recordCodes cfg cs get e' c' = recordCodes cfg (c :: cs) get e' c' := by
  unfold recordCodes
  by_cases h : c' = c
  · subst h; simp [hc]
  · simp [h]

theorem recordCodes_some (cfg : Cfg) (c : Chan) (h : ChCfg) (cs : List Chan) (get : EvCfg → Code)
    (hc : cfg.ch[c] = some h) (e' : Event) (c' : Chan) :
    codeOver (recordCodes cfg cs get e' c') (eventCodes Event.all c h get e' c') =
      recordCodes cfg (c :: cs) get e' c' := by
  unfold recordCodes eventCodes
  by_cases hcc : c' = c
  · subst hcc
    by_cases hcs : c' ∈ cs <;> simp [hc, hcs, mem_event_all]
  · simp [hcc]

theorem buildChannels_gains (P : Params) (cfg : Cfg) (cs : List Chan) (b b' : Build)
    (hb : buildChannels P cfg b cs = .ok b') :
    Gains b.key b'.key (recordCodes cfg cs EvCfg.key) ∧
    Gains b.sw b'.sw (recordCodes cfg cs EvCfg.sw) ∧
    (∀ c ∈ cs, ∀ h, cfg.ch[c] = some h → ∀ e : Event, h.ev[e.id].sw ≠ 0 → c = 7) := by
  induction cs generalizing b with
  | nil =>
    cases hb
    have none : ∀ get e' c', (0 : Code) = recordCodes cfg [] get e' c' := fun get e' c' => by
      simp [recordCodes]
    exact ⟨(Gains.refl _).congr (none _), (Gains.refl _).congr (none _), by simp⟩
  | cons c rest ih =>
    simp only [buildChannels] at hb
    split at hb
    · rename_i hc
      obtain ⟨ihkey, ihsw, ih7⟩ := ih b hb
      exact ⟨ihkey.congr (recordCodes_none cfg c rest _ hc),
        ihsw.congr (recordCodes_none cfg c rest _ hc),
        List.forall_mem_cons.mpr ⟨fun h hh => (nomatch hc.symm.trans hh), ih7⟩⟩
    · rename_i h hc
      split at hb
      · cases hb
      · rename_i n hn
        obtain ⟨hkey, hsw, h7⟩ := buildChannel_gains P c h b n hn
        obtain ⟨ihkey, ihsw, ih7⟩ := ih n hb
        refine ⟨(hkey.trans ihkey).congr (recordCodes_some cfg c h rest _ hc),
          (hsw.trans ihsw).congr (recordCodes_some cfg c h rest _ hc),
          List.forall_mem_cons.mpr ⟨fun h' hh => ?_, ih7⟩⟩
        cases hc.symm.trans hh
        exact h7

theorem mem_channels (c : Chan) : c ∈ channels := (by decide : ∀ c : Chan, c ∈ channels) c

/-- The zero table takes exactly the codes it gains. -/
theorem Gains.of_zero {t : CodeTable} {w : Event → Chan → Code}
    (h : Gains (.replicate 6 (.replicate 8 0)) t w) (e : Event) (c : Chan) :
    t[e.id][c] = w e c := by
  have hz : (Vector.replicate 6 (Vector.replicate 8 (0 : Code)))[e.id][c] = 0 := by simp
  rw [h e c, hz]
  exact codeOver_zero_right _

/-- Settles O46: the tables start at zero and gain each configured channel's codes. -/
theorem builtCodeTables : Obligations.BuiltCodeTables := by
  intro P img cfg b hb e c
  obtain ⟨m, b₁, -, hch, rfl⟩ := cfgBuild_ok P img cfg b hb
  obtain ⟨hkey, hsw, h7⟩ := buildChannels_gains P cfg channels _ b₁ hch
  have codes : ∀ get, recordCodes cfg channels get e c =
      (match cfg.ch[c] with | some h => get h.ev[e.id] | none => 0) := fun _ =>
    if_pos (mem_channels c)
  refine ⟨(hkey.of_zero e c).trans (codes _), (hsw.of_zero e c).trans (codes _), fun hc => ?_⟩
  refine (hsw.of_zero e c).trans ((codes _).trans ?_)
  cases hh : cfg.ch[c] with
  | none => rfl
  | some h => exact not_not.mp fun hne => hc (h7 c (mem_channels c) h hh e hne)

end Sys2Proof.Machine
end

section
/-! PROOFS. The invariant of the block (`State.Inv`): reset meets it; a write to a port and each
update of the block keep it; so does every command, and so every step. -/

namespace Sys2Proof.Machine

/-! ### Reset -/

theorem Config.params_valid : Config.params.valid = true := by
  simp [Params.valid, Config.params]

/-- Settles O13: every clause is about a reset value. -/
theorem resetMeetsInvariant : Obligations.ResetMeetsInvariant where
  params_valid := Config.params_valid
  ports_length := List.length_replicate
  img_wf := rfl
  gate_idle := by simp [State.reset, State.resetWith]
  wait_armed r hr := by
    rw [List.eq_of_mem_replicate hr]
    simp
  status_code r hr := by
    rw [List.eq_of_mem_replicate hr]
    decide
  irq_status_code := by decide
  switch_channel e c _ := by simp [State.reset, State.resetWith]
  hold_otp h := by cases h
  stale_until_armed _ := rfl
  reports_armed _ := rfl
  image_initial _ := rfl

/-! ### Writing a port -/

/-- A port's registers are those of a host port, of PORT[IRQ], or the reset ones. -/
theorem State.port_host_cases (s : State) (p : Nat) :
    s.port (.host p) ∈ s.ports ∨ s.port (.host p) = {} := by
  rw [State.port]
  cases h : s.ports[p]? with
  | none => exact .inr rfl
  | some r => exact .inl (List.mem_of_getElem? h)

/-- A port waits only while Armed. -/
theorem State.Inv.port_armed {s : State} (h : s.Inv) (q : PortId) (hq : (s.port q).pending = true) :
    s.phase = .armed := by
  cases q with
  | irq => cases hq
  | host p =>
    rcases s.port_host_cases p with hp | hp
    · exact h.wait_armed _ hp hq
    · rw [hp] at hq; cases hq

/-- A port's STATUS is a code. -/
theorem State.Inv.port_status {s : State} (h : s.Inv) (q : PortId) : (s.port q).status ≤ 8#8 := by
  cases q with
  | irq => exact h.irq_status_code
  | host p =>
    rcases s.port_host_cases p with hp | hp
    · exact h.status_code _ hp
    · rw [hp]; decide

/-- A write to a port keeps the invariant when the registers written meet its two clauses on ports. -/
theorem State.Inv.setPort {s : State} (h : s.Inv) (q : PortId) (r : PortRegs)
    (hwait : r.pending = true → s.phase = .armed) (hstatus : r.status ≤ 8#8) :
    (s.setPort q r).Inv := by
  have ports : ∀ x ∈ (s.setPort q r).ports,
      (x.pending = true → s.phase = .armed) ∧ x.status ≤ 8#8 := by
    intro x hx
    rcases s.mem_setPort_ports q r x hx with rfl | hx
    · exact ⟨hwait, hstatus⟩
    · exact ⟨h.wait_armed x hx, h.status_code x hx⟩
  exact {
    params_valid := by simpa using h.params_valid
    ports_length := by simpa using h.ports_length
    img_wf := by simpa using h.img_wf
    gate_idle := by simpa using h.gate_idle
    wait_armed := fun x hx => by simpa using (ports x hx).1
    status_code := fun x hx => (ports x hx).2
    irq_status_code := by
      cases q with
      | irq => exact hstatus
      | host p => exact h.irq_status_code
    switch_channel := by simpa using h.switch_channel
    hold_otp := by simpa using h.hold_otp
    stale_until_armed := by simpa using h.stale_until_armed
    reports_armed := by simpa using h.reports_armed
    image_initial := by simpa using h.image_initial }

theorem Status.code_le (e : Status) : e.code ≤ 8#8 := by cases e <;> decide

theorem State.Inv.setStatus {s : State} (h : s.Inv) (q : PortId) (e : Status) :
    (s.setStatus q e.code).Inv := h.setPort q _ (h.port_armed q) e.code_le

theorem State.Inv.setDout {s : State} (h : s.Inv) (q : PortId) (v : Word) : (s.setDout q v).Inv :=
  h.setPort q _ (h.port_armed q) (h.port_status q)

theorem State.Inv.setPending {s : State} (h : s.Inv) (q : PortId) (b : Bool)
    (hb : b = true → s.phase = .armed) : (s.setPending q b).Inv :=
  h.setPort q _ hb (h.port_status q)

theorem State.Inv.raise {s : State} (h : s.Inv) (e : Status) : (s.raise e).Inv := h.setStatus _ e
theorem State.Inv.complete {s : State} (h : s.Inv) : s.complete.Inv := h.setStatus _ .ok
theorem State.Inv.answer {s : State} (h : s.Inv) (v : Nat) : (s.answer v).Inv :=
  (h.setDout _ _).complete
theorem State.Inv.beginWait {s : State} (h : s.Inv) (hp : s.phase = .armed) : s.beginWait.Inv :=
  h.setPending _ true fun _ => hp
theorem State.Inv.completeWait {s : State} (h : s.Inv) (q : PortId) : (s.completeWait q).Inv :=
  (h.setPending q false nofun).setStatus q .ok
theorem State.Inv.timeoutWait {s : State} (h : s.Inv) (q : PortId) : (s.timeoutWait q).Inv :=
  (h.setPending q false nofun).setStatus q .timeout

/-! ### Writing the block's own fields -/

/-- The fields no clause speaks of may be anything. -/
theorem State.Inv.unrelated {s : State} (h : s.Inv) (chSel : Chan) (hallEn : Bool)
    (agenda : List Turn) (issuer : PortId) (side : SidePorts) (bus : List BusTxn) (draws : Nat) :
    State.Inv { s with chSel, hallEn, agenda, issuer, side, bus, draws } := { h with }

theorem State.Inv.nextTurn {s : State} (h : s.Inv) (rest : List Turn) : (s.nextTurn rest).Inv :=
  h.unrelated _ _ rest _ _ _ _
theorem State.Inv.issue {s : State} (h : s.Inv) (q : PortId) (side : SidePorts) :
    (s.issue q side).Inv := h.unrelated _ _ _ q side _ _
theorem State.Inv.logBus {s : State} (h : s.Inv) (x : BusTxn) : (s.logBus x).Inv :=
  h.unrelated _ _ _ _ _ _ _

theorem State.Inv.markStale {s : State} (h : s.Inv) : s.markStale.Inv :=
  { h with stale_until_armed := fun _ => rfl }

/-- A stored image in its canonical form, past Unconfigured. -/
theorem State.Inv.setImg {s : State} (h : s.Inv) (m : Memory) (hm : m.wf s.params = true)
    (hp : s.phase ≠ .unconfigured) : State.Inv { s with img := m } :=
  { h with img_wf := hm, image_initial := fun hp' => absurd hp' hp }

theorem State.Inv.setHoldSpec {s : State} (h : s.Inv) (b : Bool)
    (hb : b = true → s.params.otpHold = true) : State.Inv { s with holdSpec := b } :=
  { h with hold_otp := hb }

/-- STALE may clear once Armed (10_state.md R34). -/
theorem State.Inv.setStale {s : State} (h : s.Inv) (b : Bool) (hp : s.phase = .armed) :
    State.Inv { s with stale := b } :=
  { h with stale_until_armed := fun hp' => absurd hp hp' }

/-- Once Armed reports may go out (44_event_classifier.md R324). -/
theorem State.Inv.emit {s : State} (h : s.Inv) (rs : List Report) (hp : s.phase = .armed) :
    (s.emit rs).Inv :=
  { h with reports_armed := fun hp' => absurd hp hp' }

/-- Once Armed GATE may be anything but Idle (45_calibration_sync.md R380). -/
theorem State.Inv.setGate {s : State} (h : s.Inv) (g : Gate) (hg : g ≠ .idle)
    (hp : s.phase = .armed) : State.Inv { s with gate := g } :=
  { h with gate_idle := ⟨fun hg' => absurd hg' hg, fun hp' => absurd hp hp'⟩ }

theorem State.Inv.releaseGate {s : State} (h : s.Inv) (hp : s.phase = .armed) :
    s.releaseGate.Inv := by
  unfold State.releaseGate
  split
  · exact h
  · exact h.setGate .ready (by decide) hp
  · exact h

theorem State.Inv.armGate {s : State} (h : s.Inv) (hp : s.phase = .armed) : s.armGate.Inv :=
  h.setGate .calibrating (by decide) hp

/-- A full-image write once Armed (43_configuration.md R281). -/
theorem State.Inv.fullWrite {s : State} (h : s.Inv) (redo : Bool) (hp : s.phase = .armed) :
    (s.fullWrite redo).Inv := by
  have hwf : (s.forced redo).wf s.params = true := wf_forceImage _ _ _ _ _ h.img_wf
  rcases s.fullWrite_cases redo with ⟨-, hw⟩ | ⟨-, hw⟩ <;> rw [hw]
  · exact ((h.setImg _ hwf (by simp [hp])).setStale _ hp).unrelated _ _ _ _ _ _ _
  · exact h.unrelated _ _ _ _ _ _ _

theorem Event.id_surjective (e : Fin 6) : ∃ e' : Event, e'.id = e := by
  have h : ∀ e : Fin 6, ∃ e' ∈ Event.all, e'.id = e := by decide
  obtain ⟨e', -, he⟩ := h e
  exact ⟨e', he⟩

/-- The commit of a build (R264): STALE is 1, PHASE Configured, SWCODE off channel 7 is 0. -/
theorem State.Inv.commitBuild {s : State} (h : s.Inv) (cfg : Cfg) (b : Build)
    (hp : s.phase = .unconfigured) (hb : cfgBuild s.params s.img cfg = .ok b) :
    (s.commitBuild cfg b).Inv := by
  have hidle : s.gate = .idle := h.gate_idle.mpr (by simp [hp])
  exact { h with
    img_wf := wf_cfgBuild s.params s.img cfg b hb h.img_wf
    gate_idle := ⟨fun _ => nofun, fun _ => hidle⟩
    wait_armed := fun r hr hw => by
      have := h.wait_armed r hr hw
      simp [hp] at this
    switch_channel := fun e c hc => by
      obtain ⟨e', rfl⟩ := Event.id_surjective e
      exact (builtCodeTables s.params s.img cfg b hb e' c).2.2 hc
    hold_otp := fun hh => ((Bool.and_eq_true _ _).mp hh).1
    stale_until_armed := fun _ => rfl
    reports_armed := fun _ => h.reports_armed (by simp [hp])
    image_initial := nofun }

/-- IMG_INIT while Configured (R285): on Ok the block is Armed, with its gate calibrating. -/
theorem State.Inv.init {s : State} (h : s.Inv) :
    (s.fullWrite true).endInit.Inv := by
  have hwf : (s.forced true).wf s.params = true := wf_forceImage _ _ _ _ _ h.img_wf
  rcases s.fullWrite_cases true with ⟨hb, hw⟩ | ⟨hb, hw⟩
  · rw [hw, State.endInit]
    simp only [hb]
    refine State.Inv.complete { h with
      img_wf := hwf
      gate_idle := ⟨nofun, fun hp' => absurd rfl hp'⟩
      wait_armed := fun _ _ _ => rfl
      stale_until_armed := fun hp' => absurd rfl hp'
      reports_armed := fun hp' => absurd rfl hp'
      image_initial := nofun }
  · rw [hw, State.endInit]
    simp only [hb]
    exact State.Inv.raise (h.logBus _) _

/-- RECAL_TRIGGER with a nonzero DIN while Armed (45_calibration_sync.md R384). -/
theorem State.Inv.recal {s : State} (h : s.Inv) (hp : s.phase = .armed) :
    (s.armGate.fullWrite true).endRecal.Inv := by
  have hw := (h.armGate hp).fullWrite true hp
  have hp' : (s.armGate.fullWrite true).phase = .armed := by
    rcases s.armGate.fullWrite_cases true with ⟨-, h⟩ | ⟨-, h⟩ <;> rw [h] <;> exact hp
  unfold State.endRecal
  split
  · exact hw.beginWait hp'
  · exact hw.raise _

/-- SNAP_DECODE while Armed (44_event_classifier.md R324). -/
theorem State.Inv.snapDecode {s : State} (h : s.Inv) (hp : s.phase = .armed) :
    s.snapDecode.Inv := by
  rcases s.snapDecode_cases with ⟨-, hd⟩ | ⟨sn, -, ⟨-, hd⟩ | ⟨-, -, hd⟩ | ⟨-, -, hd⟩⟩ <;> rw [hd]
  · exact (h.logBus _).raise _
  · have hw := (h.logBus (.readSnap s.params.snapBase (some sn))).fullWrite
      s.params.redoOnRecovery hp
    unfold State.endRecovery
    split
    · exact hw.answer 1
    · exact hw.raise _
  · exact (h.logBus _).answer 2
  · exact (((h.logBus _).emit _ hp).releaseGate hp).answer 0

/-! ### Commands and steps -/

/-- Every command keeps the invariant. -/
theorem Ran.keeps_inv {s t : State} {i : Instr} (h : Ran s i t) (hs : s.Inv) : t.Inv := by
  cases h with
  | error _ e => exact hs.raise e
  | result _ v => exact hs.answer v
  | nothing => exact hs.complete
  | stored _ f c v m b hp hm hh =>
    have hb : b = true → s.params.otpHold = true := by
      rcases hh with rfl | ⟨-, ho⟩
      · exact hs.hold_otp
      · exact fun _ => ho
    exact ((hs.setImg m (wf_setField _ _ _ _ _ _ hm hs.img_wf) hp).markStale.setHoldSpec b
      hb).complete
  | selected c => exact (hs.unrelated c _ _ _ _ _ _).complete
  | hall b => exact (hs.unrelated _ b _ _ _ _ _).markStale.complete
  | counts ch c v x => exact (hs.logBus _).answer v
  | countsError ch c x => exact (hs.logBus _).raise _
  | built b p hi hp hb => exact (hs.commitBuild _ b hp hb).complete
  | notBuilt x hp hb => exact (hs.setDout _ _).raise _
  | init p hi hp => exact hs.init
  | recal p hi hp => exact hs.recal hp
  | waits p hi hp => exact hs.beginWait hp
  | decoded hi hp => exact hs.snapDecode hp

/-- A port's command word keeps it, decodable or not (30_encoding.md R115). -/
theorem runWord_keeps_inv (w : Word) (s t : State) (h : runWord w s = .next t) (hs : s.Inv) :
    t.Inv := by
  unfold runWord at h
  split at h
  · cases h; exact hs.raise _
  · exact (exec_ran _ s t h).keeps_inv hs

/-- Settles O14: each kind of turn writes a port or runs a command. -/
theorem stepKeepsInvariant : Obligations.StepKeepsInvariant := by
  intro s t hs h
  rcases step_cases s t h with ⟨-, rfl⟩ | ⟨turn, rest, -, ht⟩
  · exact hs
  · have hn := hs.nextTurn rest
    rcases takeTurn_cases turn _ t ht with ⟨p, v, -, -, rfl⟩ | ⟨p, v, -, -, rfl⟩ |
      ⟨p, side, -, -, -, hr⟩ | ⟨side, -, hr⟩ | ⟨p, -, -, -, -, rfl⟩ | ⟨p, -, -, -, rfl⟩
    · exact hn.setPort (.host p) _ (hn.port_armed _) (hn.port_status _)
    · exact hn.setPort (.host p) _ (hn.port_armed _) (hn.port_status _)
    · exact runWord_keeps_inv _ _ t hr (hn.issue _ _)
    · exact (exec_ran _ _ t hr).keeps_inv (hn.issue _ _)
    · exact hn.completeWait _
    · exact hn.timeoutWait _

end Sys2Proof.Machine
end

section
/-! PROOFS. What a step moves: PHASE, GATE, the reports sent and the bus record, said once for every
command (`Ran`) and every turn; then the whole-machine obligations. -/

namespace Sys2Proof.Machine

/-! ### Image writes on the bus record -/

theorem imageWrites_append (xs ys : List BusTxn) :
    imageWrites (xs ++ ys) = imageWrites xs ++ imageWrites ys := List.filterMap_append

@[simp] theorem imageWrites_append_readSnap (xs : List BusTxn) (off : Nat) (x : Option Snap) :
    imageWrites (xs ++ [.readSnap off x]) = imageWrites xs := by
  rw [imageWrites_append]; exact List.append_nil _

@[simp] theorem imageWrites_append_readCounts (xs : List BusTxn) (off : Nat)
    (x : Option (Byte × Byte)) : imageWrites (xs ++ [.readCounts off x]) = imageWrites xs := by
  rw [imageWrites_append]; exact List.append_nil _

theorem imageWrites_append_writeImage (xs : List BusTxn) (off : Nat) (bytes : List Byte)
    (x : BusAnswer) : imageWrites (xs ++ [.writeImage off bytes x]) = imageWrites xs ++ [bytes] :=
  imageWrites_append _ _

/-- A step's one image write (43_configuration.md R281, R282): 136 bytes, and IMG holds them where
the record ends with that write answered Ok. -/
def OneImageWrite (s t : State) : Prop :=
  ∃ bytes, imageWrites t.bus = imageWrites s.bus ++ [bytes] ∧ bytes.length = 136 ∧
    (t.bus.getLast? = some (.writeImage s.params.imgBase bytes .ok) → bytes = t.img.bytes t.params)

/-- Nothing of what the whole-machine rules speak of moved. -/
structure Quiet (s t : State) : Prop where
  params : t.params = s.params
  phase : t.phase = s.phase
  gate : t.gate = s.gate
  evt : t.evt = s.evt
  writes : imageWrites t.bus = imageWrites s.bus

/-- What a command can move: nothing; PHASE by a build; PHASE and GATE, or neither, by IMG_INIT's
write; GATE by RECAL_TRIGGER's; nothing by a recovery's write; GATE and the reports by a decode. -/
inductive Moves (s : State) (i : Instr) (t : State) : Prop where
  | quiet (h : Quiet s t)
  | built (hi : i = .cfgBuild) (hp : s.phase = .unconfigured) (params : t.params = s.params)
      (phase : t.phase = .configured) (gate : t.gate = s.gate) (evt : t.evt = s.evt)
      (writes : imageWrites t.bus = imageWrites s.bus)
  | armed (hi : i = .imgInit) (hp : s.phase = .configured) (hb : s.side.busw = .ok)
      (params : t.params = s.params) (phase : t.phase = .armed) (gate : t.gate = .calibrating)
      (evt : t.evt = s.evt) (writes : OneImageWrite s t)
  | notArmed (hi : i = .imgInit) (hp : s.phase = .configured) (params : t.params = s.params)
      (phase : t.phase = s.phase) (gate : t.gate = s.gate) (evt : t.evt = s.evt)
      (writes : OneImageWrite s t)
  | recal (hi : i = .recalTrigger) (hp : s.phase = .armed) (hd : s.din ≠ 0)
      (params : t.params = s.params) (phase : t.phase = s.phase) (gate : t.gate = .calibrating)
      (evt : t.evt = s.evt) (writes : OneImageWrite s t)
  | recovered (sn : Snap) (hi : s.issuer = .irq) (hp : s.phase = .armed)
      (hs : s.side.snap = some sn) (hr : sn.sys.getLsbD 15 = true) (params : t.params = s.params)
      (phase : t.phase = s.phase) (gate : t.gate = s.gate) (evt : t.evt = s.evt)
      (writes : OneImageWrite s t)
  | decoded (sn : Snap) (hi : s.issuer = .irq) (hp : s.phase = .armed)
      (hs : s.side.snap = some sn) (hr : sn.sys.getLsbD 15 = false)
      (hb : sn.sys.getLsbD 10 = false) (params : t.params = s.params) (phase : t.phase = s.phase)
      (gate : t.gate = if s.gate = .calibrating then .ready else s.gate)
      (evt : t.evt = s.evt ++ s.decodeReports sn)
      (writes : imageWrites t.bus = imageWrites s.bus)

/-! ### Commands that end on their port alone -/

theorem quiet_raise (s : State) (e : Status) : Quiet s (s.raise e) := by constructor <;> simp
theorem quiet_answer (s : State) (v : Nat) : Quiet s (s.answer v) := by constructor <;> simp
theorem quiet_complete (s : State) : Quiet s s.complete := by constructor <;> simp
theorem quiet_beginWait (s : State) : Quiet s s.beginWait := by constructor <;> simp

theorem Quiet.trans {s t u : State} (h : Quiet s t) (h' : Quiet t u) : Quiet s u :=
  ⟨h'.params.trans h.params, h'.phase.trans h.phase, h'.gate.trans h.gate, h'.evt.trans h.evt,
    h'.writes.trans h.writes⟩

theorem quiet_logBus_readSnap (s : State) (off : Nat) (x : Option Snap) :
    Quiet s (s.logBus (.readSnap off x)) := ⟨rfl, rfl, rfl, rfl, imageWrites_append_readSnap _ _ _⟩

theorem quiet_logBus_readCounts (s : State) (off : Nat) (x : Option (Byte × Byte)) :
    Quiet s (s.logBus (.readCounts off x)) :=
  ⟨rfl, rfl, rfl, rfl, imageWrites_append_readCounts _ _ _⟩

/-! ### Commands that write the image to the device -/

/-- The frame of a full-image write: parameters, PHASE, GATE and reports stay, and one image write
goes on the bus record. -/
theorem State.fullWrite_frame (s : State) (redo : Bool) :
    (s.fullWrite redo).params = s.params ∧ (s.fullWrite redo).phase = s.phase ∧
    (s.fullWrite redo).gate = s.gate ∧ (s.fullWrite redo).evt = s.evt ∧
    OneImageWrite s (s.fullWrite redo) := by
  rcases s.fullWrite_cases redo with ⟨-, hw⟩ | ⟨-, hw⟩ <;> rw [hw] <;>
    refine ⟨rfl, rfl, rfl, rfl, _, imageWrites_append_writeImage _ _ _ _,
      Memory.bytes_length _ _, fun h => ?_⟩
  · rfl
  · simp at h

/-- How a command ends does not touch its image write. -/
theorem OneImageWrite.congr {s t u : State} (h : OneImageWrite s t) (hbus : u.bus = t.bus)
    (himg : u.img = t.img) (hparams : u.params = t.params) : OneImageWrite s u := by
  unfold OneImageWrite at *
  rwa [hbus, himg, hparams]

theorem moves_init (s : State) (hp : s.phase = .configured) :
    Moves s .imgInit (s.fullWrite true).endInit := by
  obtain ⟨hparams, hphase, hgate, hevt, hw⟩ := s.fullWrite_frame true
  have hside : (s.fullWrite true).side = s.side := by
    rcases s.fullWrite_cases true with ⟨-, h⟩ | ⟨-, h⟩ <;> rw [h]
  unfold State.endInit
  split
  · rename_i hb
    exact .armed rfl hp (hside ▸ hb) (by simpa using hparams) (by simp) (by simp [State.armGate])
      (by simpa using hevt) (hw.congr (by simp) (by simp) (by simp))
  · exact .notArmed rfl hp (by simpa using hparams) (by simpa using hphase) (by simpa using hgate)
      (by simpa using hevt) (hw.congr (by simp) (by simp) (by simp))

theorem moves_recal (s : State) (hp : s.phase = .armed) (hd : s.din ≠ 0) :
    Moves s .recalTrigger (s.armGate.fullWrite true).endRecal := by
  obtain ⟨hparams, hphase, hgate, hevt, hw⟩ := s.armGate.fullWrite_frame true
  have hw : OneImageWrite s (s.armGate.fullWrite true) := hw
  unfold State.endRecal
  split <;>
    exact .recal rfl hp hd (by simpa using hparams) (by simpa using hphase) (by simpa using hgate)
      (by simpa using hevt) (hw.congr (by simp) (by simp) (by simp))

theorem moves_snapDecode (s : State) (hi : s.issuer = .irq) (hp : s.phase = .armed) :
    Moves s .snapDecode s.snapDecode := by
  rcases s.snapDecode_cases with ⟨-, hd⟩ | ⟨sn, hs, ⟨hr, hd⟩ | ⟨hr, hb, hd⟩ | ⟨hr, hb, hd⟩⟩ <;>
    rw [hd]
  · exact .quiet ((quiet_logBus_readSnap s _ _).trans (quiet_raise _ _))
  · have hlog := quiet_logBus_readSnap s s.params.snapBase (some sn)
    obtain ⟨hparams, hphase, hgate, hevt, hw⟩ :=
      (s.logBus (.readSnap s.params.snapBase (some sn))).fullWrite_frame s.params.redoOnRecovery
    have hw : OneImageWrite s ((s.logBus (.readSnap s.params.snapBase (some sn))).fullWrite
        s.params.redoOnRecovery) := by
      unfold OneImageWrite at *
      rwa [hlog.writes, hlog.params] at hw
    unfold State.endRecovery
    split <;>
      exact .recovered sn hi hp hs hr (by simpa using hparams) (by simpa using hphase)
        (by simpa using hgate) (by simpa using hevt) (hw.congr (by simp) (by simp) (by simp))
  · exact .quiet ((quiet_logBus_readSnap s _ _).trans (quiet_answer _ _))
  · exact .decoded sn hi hp hs hr hb (by simp) (by simp)
      (by rw [State.answer_gate, State.releaseGate_gate]; rfl) (by simp [State.emit, State.logBus])
      (by simp [State.logBus])

/-- What each command can move. -/
theorem Ran.moves {s t : State} {i : Instr} (h : Ran s i t) : Moves s i t := by
  cases h with
  | error _ e => exact .quiet (quiet_raise s e)
  | result _ v => exact .quiet (quiet_answer s v)
  | nothing => exact .quiet (quiet_complete s)
  | stored | selected | hall => exact .quiet (by constructor <;> simp)
  | counts ch c v x => exact .quiet ((quiet_logBus_readCounts s _ _).trans (quiet_answer _ _))
  | countsError ch c x => exact .quiet ((quiet_logBus_readCounts s _ _).trans (quiet_raise _ _))
  | built b p hi hp hb =>
    exact .built rfl hp (by simp [State.commitBuild]) (by simp [State.commitBuild])
      (by simp [State.commitBuild]) (by simp [State.commitBuild]) (by simp [State.commitBuild])
  | notBuilt x => exact .quiet (by constructor <;> simp [State.endBuild])
  | init p hi hp => exact moves_init s hp
  | recal p hi hp hd => exact moves_recal s hp hd
  | waits => exact .quiet (quiet_beginWait s)
  | decoded hi hp => exact moves_snapDecode s hi hp

/-! ### Steps -/

/-- A step is quiet, or a command turn whose port's CMD decodes, or an interrupt. -/
theorem step_moves (s t : State) (h : step s = .next t) :
    Quiet s t ∨
    (∃ p side rest i, s.agenda = .command p side :: rest ∧ decode (s.port (.host p)).cmd = .ok i ∧
      Moves ((s.nextTurn rest).issue (.host p) side) i t) ∨
    (∃ side rest, s.agenda = .interrupt side :: rest ∧
      Moves ((s.nextTurn rest).issue .irq side) .snapDecode t) := by
  rcases step_cases s t h with ⟨-, rfl⟩ | ⟨turn, rest, ha, ht⟩
  · exact .inl ⟨rfl, rfl, rfl, rfl, rfl⟩
  · rcases takeTurn_cases turn _ t ht with ⟨p, v, -, -, rfl⟩ | ⟨p, v, -, -, rfl⟩ |
      ⟨p, side, rfl, -, -, hr⟩ | ⟨side, rfl, hr⟩ | ⟨p, -, -, -, -, rfl⟩ | ⟨p, -, -, -, rfl⟩
    · exact .inl ⟨rfl, rfl, rfl, rfl, rfl⟩
    · exact .inl ⟨rfl, rfl, rfl, rfl, rfl⟩
    · unfold runWord at hr
      split at hr
      · cases hr
        have hq := quiet_raise ((s.nextTurn rest).issue (.host p) side) .illegalCommand
        exact .inl ⟨hq.params, hq.phase, hq.gate, hq.evt, hq.writes⟩
      · rename_i i hd
        exact .inr (.inl ⟨p, side, rest, i, ha, hd, (exec_ran i _ t hr).moves⟩)
    · exact .inr (.inr ⟨side, rest, ha, (exec_ran _ _ t hr).moves⟩)
    · exact .inl (by constructor <;> simp)
    · exact .inl (by constructor <;> simp)

/-- Settles O15: of the commands only a build and IMG_INIT move PHASE. -/
theorem phaseOnlyAdvances : Obligations.PhaseOnlyAdvances := by
  intro s t h
  rcases step_moves s t h with hq | ⟨p, side, rest, i, ha, hd, hm⟩ | ⟨side, rest, ha, hm⟩
  · exact ⟨hq.params, .inl hq.phase⟩
  · cases hm with
    | quiet hq => exact ⟨hq.params, .inl hq.phase⟩
    | built hi hp params phase =>
      exact ⟨params, .inr ⟨p, side, rest, ha, .inl ⟨hp, phase, hi ▸ hd⟩⟩⟩
    | armed hi hp hb params phase =>
      exact ⟨params, .inr ⟨p, side, rest, ha, .inr ⟨hp, phase, hi ▸ hd⟩⟩⟩
    | notArmed hi hp params phase => exact ⟨params, .inl phase⟩
    | recal hi hp hdin params phase => exact ⟨params, .inl phase⟩
    | recovered sn hi => cases hi
    | decoded sn hi => cases hi
  · cases hm with
    | quiet hq => exact ⟨hq.params, .inl hq.phase⟩
    | built hi | armed hi | notArmed hi | recal hi => cases hi
    | recovered sn hi hp hs hr params phase => exact ⟨params, .inl phase⟩
    | decoded sn hi hp hs hr hb params phase => exact ⟨params, .inl phase⟩

/-- DIN of the port a command turn names. -/
theorem din_ne_zero_of_command (s : State) (p : Nat) (side : SidePorts) (rest : List Turn)
    (h : ((s.nextTurn rest).issue (.host p) side).din ≠ 0) : (s.port (.host p)).din ≠ 0 := by
  intro hd
  apply h
  have hdin : ((s.nextTurn rest).issue (.host p) side).din = (s.port (.host p)).din.toNat := rfl
  rw [hdin, hd]
  rfl

/-- Settles O16: GATE moves by IMG_INIT's write, RECAL_TRIGGER's, or a decode's release. -/
theorem gateMovesOnlyByTheTable : Obligations.GateMovesOnlyByTheTable := by
  intro s t h hne
  rcases step_moves s t h with hq | ⟨p, side, rest, i, ha, hd, hm⟩ | ⟨side, rest, ha, hm⟩
  · exact absurd hq.gate hne
  · cases hm with
    | quiet hq => exact absurd hq.gate hne
    | built hi hp params phase gate => exact absurd gate hne
    | armed hi hp hb params phase gate =>
      exact .inr ⟨gate, phase, p, side, rest, ha, .inl ⟨hp, hb, hi ▸ hd⟩⟩
    | notArmed hi hp params phase gate => exact absurd gate hne
    | recal hi hp hdin params phase gate =>
      exact .inr ⟨gate, phase.trans hp, p, side, rest, ha,
        .inr ⟨hp, din_ne_zero_of_command s p side rest hdin, hi ▸ hd⟩⟩
    | recovered sn hi => cases hi
    | decoded sn hi => cases hi
  · cases hm with
    | quiet hq => exact absurd hq.gate hne
    | built hi | armed hi | notArmed hi | recal hi => cases hi
    | recovered sn hi hp hs hr params phase gate => exact absurd gate hne
    | decoded sn hi hp hs hr hb params phase gate =>
      have hg : s.gate = .calibrating := by
        by_contra hg
        exact hne (gate.trans (if_neg hg))
      exact .inl ⟨hg, gate.trans (if_pos hg), hp, side, rest, sn, ha, hs, hr, hb⟩

/-- Settles O19: only a decode adds reports, those of its snapshot. -/
theorem onlyCleanSnapshotsSendReports : Obligations.OnlyCleanSnapshotsSendReports := by
  intro s t h
  rcases step_moves s t h with hq | ⟨p, side, rest, i, ha, hd, hm⟩ | ⟨side, rest, ha, hm⟩
  · exact .inl hq.evt
  · cases hm with
    | quiet hq => exact .inl hq.evt
    | built hi hp params phase gate evt => exact .inl evt
    | armed hi hp hb params phase gate evt => exact .inl evt
    | notArmed hi hp params phase gate evt => exact .inl evt
    | recal hi hp hdin params phase gate evt => exact .inl evt
    | recovered sn hi => cases hi
    | decoded sn hi => cases hi
  · cases hm with
    | quiet hq => exact .inl hq.evt
    | built hi | armed hi | notArmed hi | recal hi => cases hi
    | recovered sn hi hp hs hr params phase gate evt => exact .inl evt
    | decoded sn hi hp hs hr hb params phase gate evt =>
      exact .inr ⟨side, rest, sn, ha, hp, hs, hr, hb, evt⟩

/-- Settles O20: the three commands that write the image to the device make one write each. -/
theorem atMostOneImageWritePerStep : Obligations.AtMostOneImageWritePerStep := by
  intro s t h
  rcases step_moves s t h with hq | ⟨p, side, rest, i, ha, hd, hm⟩ | ⟨side, rest, ha, hm⟩
  · exact .inl hq.writes
  · cases hm with
    | quiet hq => exact .inl hq.writes
    | built hi hp params phase gate evt writes => exact .inl writes
    | armed hi hp hb params phase gate evt writes =>
      obtain ⟨bytes, hw, hlen, himg⟩ := writes
      exact .inr ⟨bytes, hw, hlen, himg, .inl ⟨p, side, rest, ha, .inl ⟨hp, hi ▸ hd⟩⟩⟩
    | notArmed hi hp params phase gate evt writes =>
      obtain ⟨bytes, hw, hlen, himg⟩ := writes
      exact .inr ⟨bytes, hw, hlen, himg, .inl ⟨p, side, rest, ha, .inl ⟨hp, hi ▸ hd⟩⟩⟩
    | recal hi hp hdin params phase gate evt writes =>
      obtain ⟨bytes, hw, hlen, himg⟩ := writes
      exact .inr ⟨bytes, hw, hlen, himg, .inl ⟨p, side, rest, ha,
        .inr ⟨hp, din_ne_zero_of_command s p side rest hdin, hi ▸ hd⟩⟩⟩
    | recovered sn hi => cases hi
    | decoded sn hi => cases hi
  · cases hm with
    | quiet hq => exact .inl hq.writes
    | built hi | armed hi | notArmed hi | recal hi => cases hi
    | recovered sn hi hp hs hr params phase gate evt writes =>
      obtain ⟨bytes, hw, hlen, himg⟩ := writes
      exact .inr ⟨bytes, hw, hlen, himg, .inr ⟨side, rest, sn, ha, hp, hs, hr⟩⟩
    | decoded sn hi hp hs hr hb params phase gate evt writes => exact .inl writes

end Sys2Proof.Machine
end

section
/-! PROOFS. The turns of the model (60_exceptions.md R420) one by one, what reset leaves, and the
commands that end on their first checks: absent fields, wrong issuers and phases; CAL_WAIT and
RECAL_TRIGGER; then the statuses a command can end with. -/

namespace Sys2Proof.Machine

/-! ### Turns -/

/-- A command turn of a port that does not wait runs the port's word. -/
theorem step_command (s : State) (p : Nat) (side : SidePorts) (rest : List Turn)
    (ha : s.agenda = .command p side :: rest) (hp : p < s.ports.length)
    (hw : (s.port (.host p)).pending = false) :
    step s = runWord (s.port (.host p)).cmd ((s.nextTurn rest).issue (.host p) side) :=
  (step_cons s _ rest ha).trans (takeTurn_command (s.nextTurn rest) p side hp hw)

/-- Settles O5: the word is run, and it decodes. -/
theorem stepRunsDecodedCommand : Obligations.StepRunsDecodedCommand := by
  intro s p side rest i ha hp hw hd
  rw [step_command s p side rest ha hp hw, runWord, hd]
  rfl

/-- Settles O6: PORT[IRQ]'s word is SNAP_DECODE's. -/
theorem stepRunsInterrupt : Obligations.StepRunsInterrupt := fun s side rest ha =>
  (step_cons s _ rest ha).trans (takeTurn_interrupt (s.nextTurn rest) side)

/-- Settles O7: the word is run, and it does not decode. -/
theorem undecodableWordChangesOnlyStatus : Obligations.UndecodableWordChangesOnlyStatus := by
  intro s p side rest e ha hp hw hd
  rw [step_command s p side rest ha hp hw, runWord, hd]
  exact congrArg Host.Outcome.next (State.raise_onHost _ p .illegalCommand rfl)

/-- Settles O9: a register write is its turn; a command turn asks first whether the port waits. -/
theorem waitingPortIssuesNothing : Obligations.WaitingPortIssuesNothing := by
  refine ⟨fun s p v rest ha hp => ?_, fun s p v rest ha hp => ?_, fun s p side rest ha hp hw => ?_⟩
  · rw [step_cons s _ rest ha]
    exact if_pos hp
  · rw [step_cons s _ rest ha]
    exact if_pos hp
  · rw [step_cons s _ rest ha]
    exact (if_pos hp).trans (if_pos hw)

/-- Settles O10: the two conditions of the turn, then what completion writes. -/
theorem completionStep : Obligations.CompletionStep := by
  intro s p rest ha hp
  rw [step_cons s _ rest ha]
  refine ⟨fun hw hg => ?_, fun hno => (if_pos hp).trans (if_neg hno)⟩
  exact (if_pos hp).trans ((if_pos ⟨hw, hg⟩).trans
    (congrArg _ ((s.nextTurn rest).completeWait_host p hp)))

/-- Settles O11: the one condition of the turn, then what a timeout writes. -/
theorem timeoutStep : Obligations.TimeoutStep := by
  intro s p rest ha hp
  rw [step_cons s _ rest ha]
  refine ⟨fun hw => ?_, fun hw => (if_pos hp).trans (if_neg (ne_true_of_eq_false hw))⟩
  exact (if_pos hp).trans ((if_pos hw).trans (congrArg _ ((s.nextTurn rest).timeoutWait_host p hp)))

/-! ### Reset -/

theorem State.byte_resetWith (P : Params) (a : Fin 136) :
    (State.resetWith P).byte a.val = P.initImage[a] := by
  have hread : (State.resetWith P).byte a.val = P.initByte a.val := rfl
  rw [hread, Params.initByte, dif_pos a.isLt]
  rfl

/-- Settles O12: every register has a reset value, and a port past the last reads as one. -/
theorem resetLeaves : Obligations.ResetLeaves := by
  intro P
  refine ⟨fun p => ?_, List.length_replicate, rfl, rfl, State.byte_resetWith P, rfl, rfl, rfl, rfl,
    rfl, fun e c => ⟨?_, ?_⟩, fun i g => ?_⟩
  · rcases (State.resetWith P).port_host_cases p with h | h
    · exact List.eq_of_mem_replicate h
    · exact h
  all_goals simp [State.resetWith]

/-! ### Absent fields and wrong issuers -/

/-- A field that OTP_HOLD removes is refused in every phase (30_encoding.md R115(e)). -/
theorem State.fieldRefusal_absent (s : State) (f : RegField)
    (h : (f = .sys .slider1Sel ∧ s.params.otpHold = true) ∨
      (f = .sys .touchHold ∧ s.params.otpHold = false)) :
    s.fieldRefusal f = some .illegalCommand := by
  rw [State.fieldRefusal, if_neg]
  rcases h with ⟨rfl, ho⟩ | ⟨rfl, ho⟩ <;> simp [fieldExists, ho]

theorem exec_fldGet_refused (s : State) (p : Nat) (f : RegField) (ch : Fin 16) (e : Status)
    (hs : s.issuer = .host p) (h : s.fieldRefusal f = some e) :
    exec (.fldGet f ch) s = .next (s.onlyStatus p e.code) := by
  rw [exec, execFldGet, State.fldGetResult, h, unlessRefused_some, State.endGet_error,
    s.raise_onHost p e hs]

theorem exec_fldSet_fieldRefused (s : State) (p : Nat) (f : RegField) (ch : Fin 16) (e : Status)
    (hs : s.issuer = .host p) (h : s.fieldRefusal f = some e) :
    exec (.fldSet f ch) s = .next (s.onlyStatus p e.code) := by
  rw [exec, execFldSet, State.fldSetResult, h, unlessRefused_some, State.endSet_error,
    s.raise_onHost p e hs]

/-- The row of the admission table a host command is in (10_state.md R36). -/
def admissionOf : Instr → Admission
  | .countsRead _ | .recalTrigger | .calWait | .snapDecode => .armed
  | .cfgBuild => .build
  | .imgInit => .init
  | .fldGet _ _ | .fldSet _ _ | .atiModeGet _ | .atiModeSet _ | .atiBaseGet _ | .atiBaseSet _
  | .atiTargetGet _ | .atiTargetSet _ | .rxEnGet _ | .rxEnSet _ | .chSelGet | .chSelSet
  | .hallEnGet | .hallEnSet | .recalStatus | .sliderModeGet _ => .configured

theorem State.endGet_refused (s : State) (k : Admission) (e : Status) (r : Except Status Nat)
    (h : s.hostRefusal k = some e) :
    s.endGet (unlessRefused (s.hostRefusal k) r) = s.raise e := by
  rw [h]; rfl

theorem State.endSet_refused (s : State) (k : Admission) (e : Status) (r : Except Status State)
    (h : s.hostRefusal k = some e) :
    s.endSet (unlessRefused (s.hostRefusal k) r) = s.raise e := by
  rw [h]; rfl

/-- A host command that the first checks refuse raises their status and does nothing else, where
its field exists (30_encoding.md R116). -/
theorem exec_refused (s : State) (i : Instr) (e : Status) (hi : i ≠ .snapDecode)
    (hf : ∀ f ch, i = .fldGet f ch ∨ i = .fldSet f ch → fieldExists s.params f = true)
    (h : s.hostRefusal (admissionOf i) = some e) : exec i s = .next (s.raise e) := by
  cases i with
  | fldGet f ch =>
    rw [exec, execFldGet, State.fldGetResult, State.fieldRefusal, if_pos (hf f ch (.inl rfl))]
    exact congrArg Host.Outcome.next (s.endGet_refused _ e _ h)
  | fldSet f ch =>
    rw [exec, execFldSet, State.fldSetResult, State.fieldRefusal, if_pos (hf f ch (.inr rfl))]
    exact congrArg Host.Outcome.next (s.endSet_refused _ e _ h)
  | snapDecode => exact absurd rfl hi
  | countsRead ch =>
    have hc : s.countsChannel ch = .error e := congrArg (unlessRefused · _) h
    rw [exec, execCountsRead, hc]
  | calWait | recalTrigger | cfgBuild | imgInit =>
    simp only [admissionOf] at h
    simp only [exec, execCalWait, execRecalTrigger, execCfgBuild, execImgInit, h]
  | chSelGet | hallEnGet | recalStatus | atiModeGet | atiBaseGet | atiTargetGet | rxEnGet
  | sliderModeGet => exact congrArg Host.Outcome.next (s.endGet_refused _ e _ h)
  | chSelSet | hallEnSet | atiModeSet | atiBaseSet | atiTargetSet | rxEnSet =>
    exact congrArg Host.Outcome.next (s.endSet_refused _ e _ h)

/-- The same on the interrupt input, where every command but SNAP_DECODE is refused. -/
theorem exec_onIrq (s : State) (i : Instr) (hs : s.onIrq) (hi : i ≠ .snapDecode) :
    exec i s = .next { s with irqStatus := 8 } := by
  have hr : ∀ k, s.hostRefusal k = some .illegalCommand := fun k => s.hostRefusal_onIrq k hs
  have hraise : s.raise .illegalCommand = { s with irqStatus := 8 } := s.raise_onIrq _ hs
  rw [← hraise]
  by_cases hf : ∀ f ch, i = .fldGet f ch ∨ i = .fldSet f ch → fieldExists s.params f = true
  · exact exec_refused s i .illegalCommand hi hf (hr _)
  · push Not at hf
    obtain ⟨f, ch, h, hx⟩ := hf
    have hfr : s.fieldRefusal f = some .illegalCommand := if_neg hx
    rcases h with rfl | rfl
    · rw [exec, execFldGet, State.fldGetResult, hfr]; rfl
    · rw [exec, execFldSet, State.fldSetResult, hfr]; rfl

/-- SNAP_DECODE that a check refuses, from either issuer. -/
theorem exec_snapDecode_refused (s : State) (e : Status) (h : s.irqRefusal .armed = some e) :
    exec .snapDecode s = .next (s.raise e) := by
  rw [exec, execSnapDecode, h]

/-- Settles O8: a field that is absent, SNAP_DECODE from a host, any other command from the
interrupt input. -/
theorem wrongFormsAreIllegal : Obligations.WrongFormsAreIllegal := by
  refine ⟨fun s p f ch hs h => ?_, fun s p hs => ?_, exec_onIrq⟩
  · have hr := s.fieldRefusal_absent f h
    exact ⟨exec_fldGet_refused s p f ch _ hs.1 hr, exec_fldSet_fieldRefused s p f ch _ hs.1 hr⟩
  · rw [exec_snapDecode_refused s _ (s.irqRefusal_onHost p _ hs.1), s.raise_onHost p _ hs.1]
    rfl

/-! ### Admission by phase -/

/-- A host command its phase refuses writes the table's status alone (10_state.md R36). -/
theorem exec_notAdmitted (s : State) (p : Nat) (i : Instr) (e : Status) (hs : s.onHost p)
    (hi : i ≠ .snapDecode)
    (hf : ∀ f ch, i = .fldGet f ch ∨ i = .fldSet f ch → fieldExists s.params f = true)
    (h : (admissionOf i).refusal s.phase = some e) :
    exec i s = .next (s.onlyStatus p e.code) := by
  rw [exec_refused s i e hi hf ((s.hostRefusal_onHost p _ hs.1).trans h), s.raise_onHost p e hs.1]

/-- While Unconfigured only CFG_BUILD is admitted. -/
theorem refusal_unconfigured (i : Instr) (hi : i ≠ .cfgBuild) :
    (admissionOf i).refusal .unconfigured = some .notReady := by
  cases i with
  | cfgBuild => exact absurd rfl hi
  | _ => rfl

/-- Settles O21: the table's rows, read at each phase that refuses them. -/
theorem admissionByPhase : Obligations.AdmissionByPhase := by
  have named : ∀ {i : Instr} {P : Params}, (∀ f ch, i ≠ .fldGet f ch ∧ i ≠ .fldSet f ch) →
      ∀ f ch, i = .fldGet f ch ∨ i = .fldSet f ch → fieldExists P f = true := fun hi f ch h =>
    absurd h (not_or.mpr (hi f ch))
  refine ⟨fun s p i hs hp hb hd hf => ?_, fun s p ch hs hp => ⟨?_, ?_, ?_, ?_⟩,
    fun s p hs hp => ⟨?_, ?_⟩, fun s hs hp => ?_⟩
  · exact exec_notAdmitted s p i .notReady hs hd hf (hp ▸ refusal_unconfigured i hb)
  · exact exec_notAdmitted s p _ .notReady hs (by simp) (named (by simp)) (hp ▸ rfl)
  · exact exec_notAdmitted s p _ .notReady hs (by simp) (named (by simp)) (hp ▸ rfl)
  · exact exec_notAdmitted s p _ .notReady hs (by simp) (named (by simp)) (hp ▸ rfl)
  · exact exec_notAdmitted s p _ .illegalCommand hs (by simp) (named (by simp)) (hp ▸ rfl)
  · exact exec_notAdmitted s p _ .illegalCommand hs (by simp) (named (by simp)) (hp ▸ rfl)
  · exact exec_notAdmitted s p _ .illegalCommand hs (by simp) (named (by simp)) (hp ▸ rfl)
  · have hr : s.irqRefusal .armed = some .notReady := by
      rw [s.irqRefusal_onIrq _ hs, Admission.refusal_armed, if_neg hp]
    rw [exec_snapDecode_refused s _ hr, s.raise_onIrq _ hs]
    rfl

/-! ### Calibration -/

/-- While not Armed a calibration command is NotReady (45_calibration_sync.md R381, R384). -/
theorem exec_notArmed (s : State) (p : Nat) (i : Instr) (hs : s.onHost p)
    (hi : i = .calWait ∨ i = .recalTrigger) (hp : s.phase ≠ .armed) :
    exec i s = .next (s.onlyStatus p 6) := by
  have hr : Admission.armed.refusal s.phase = some .notReady := by
    rw [Admission.refusal_armed, if_neg hp]
  rcases hi with rfl | rfl <;>
    exact exec_notAdmitted s p _ .notReady hs (by simp) (by simp) hr

theorem exec_calWait_armed (s : State) (p : Nat) (hs : s.onHost p) (hp : s.phase = .armed) :
    exec .calWait s = .next (if s.gate = .ready then s.complete else s.beginWait) := by
  rw [exec, execCalWait, s.hostRefusal_onHost p _ hs.1, Admission.refusal_armed, if_pos hp]

theorem exec_recalTrigger_armed (s : State) (p : Nat) (hs : s.onHost p) (hp : s.phase = .armed) :
    exec .recalTrigger s =
      .next (if s.din = 0 then s.complete else (s.armGate.fullWrite true).endRecal) := by
  rw [exec, execRecalTrigger, s.hostRefusal_onHost p _ hs.1, Admission.refusal_armed, if_pos hp]

/-- Settles O57: the phase, then the gate. -/
theorem calWait : Obligations.CalWait := by
  intro s p hs
  refine ⟨by decide, exec_notArmed s p _ hs (.inl rfl), fun hp hg => ?_, fun hp hg => ?_⟩
  · rw [exec_calWait_armed s p hs hp, if_pos hg, s.complete_onHost p hs.1]
  · rw [exec_calWait_armed s p hs hp, if_neg hg, s.beginWait_onHost p hs.1]

/-- Settles O58: the phase, then DIN, then the bus's answer to the write with REDO_ATI = 1. -/
theorem recalTrigger : Obligations.RecalTrigger := by
  intro s p hs
  refine ⟨by decide, exec_notArmed s p _ hs (.inr rfl), fun hp hd => ?_, fun hp hd hb => ?_,
    fun hp hd hb => ?_⟩
  · rw [exec_recalTrigger_armed s p hs hp, if_pos hd, s.complete_onHost p hs.1]
  · rw [exec_recalTrigger_armed s p hs hp, if_neg hd, s.armGate.fullWrite_ok true hb]
    simp only [State.endRecal, State.armGate_side, hb]
    exact congrArg Host.Outcome.next (State.beginWait_onHost _ p hs.1)
  · rw [exec_recalTrigger_armed s p hs hp, if_neg hd, s.armGate.fullWrite_err true hb]
    simp only [State.endRecal, State.armGate_side, hb]
    exact congrArg Host.Outcome.next (State.raise_onHost _ p .communicationError hs.1)

end Sys2Proof.Machine
end

section
/-! PROOFS. How a host's command ends (60_exceptions.md R411, R412): the status each ending leaves
on the port, the statuses a set can fail with, and what a failed command changed; then the selected
channel (30_encoding.md R114). -/

namespace Sys2Proof.Machine

/-! ### The port after an ending -/

theorem State.port_withHostRegs (s : State) (p : Nat) (r : PortRegs) (hp : p < s.ports.length) :
    (s.withHostRegs p r).port (.host p) = r := s.port_setPort_host p r hp

theorem State.status_raise (s : State) (p : Nat) (e : Status) (hs : s.onHost p) :
    ((s.raise e).port (.host p)).status = e.code := by
  rw [s.raise_onHost p e hs.1, State.onlyStatus, s.port_withHostRegs p _ hs.2]

theorem State.status_complete (s : State) (p : Nat) (hs : s.onHost p) :
    (s.complete.port (.host p)).status = 0 := by
  rw [s.complete_onHost p hs.1, State.onlyStatus, s.port_withHostRegs p _ hs.2]

theorem State.status_answer (s : State) (p : Nat) (v : Nat) (hs : s.onHost p) :
    ((s.answer v).port (.host p)).status = 0 := by
  rw [s.answer_onHost p v hs, s.port_withHostRegs p _ hs.2]
  rfl

theorem State.status_onlyStatus_mem (s : State) (p : Nat) (c : Byte) (l : List Byte)
    (hp : p < s.ports.length) (hc : c ∈ l) : ((s.onlyStatus p c).port (.host p)).status ∈ l := by
  rw [State.onlyStatus, s.port_withHostRegs p _ hp]
  exact hc

theorem State.pending_beginWait (s : State) (p : Nat) (hs : s.onHost p) :
    (s.beginWait.port (.host p)).pending = true := by
  rw [s.beginWait_onHost p hs.1, s.port_withHostRegs p _ hs.2]

/-! ### What a failed command changed -/

/-- A command on a host port wrote DOUT and STATUS of the port, GATE and the bus record, and nothing
else. -/
structure WroteOnly (s t : State) (p : Nat) (dout : Word) (status : Byte) (gate : Gate)
    (bus : List BusTxn) : Prop where
  eq : t = { s.withHostRegs p { s.port (.host p) with dout, status } with gate, bus }

/-- The error endings. -/
theorem wroteOnly_raise (s : State) (p : Nat) (e : Status) (gate : Gate) (bus : List BusTxn)
    (hs : s.issuer = .host p) :
    WroteOnly s (State.raise { s with gate, bus } e) p (s.port (.host p)).dout e.code gate bus :=
  ⟨State.raise_onHost _ p e hs⟩

/-- A host's command that ended without waiting and with a status other than OK: what it wrote
(R411). -/
theorem Ran.failed {s t : State} {i : Instr} {p : Nat} (h : Ran s i t) (hs : s.onHost p)
    (hw : (t.port (.host p)).pending = false) (hst : (t.port (.host p)).status ≠ 0) :
    ∃ dout status gate bus, WroteOnly s t p dout status gate bus ∧
      (i ≠ .cfgBuild → dout = (s.port (.host p)).dout) ∧ (i ≠ .recalTrigger → gate = s.gate) := by
  cases h with
  | error _ e =>
    exact ⟨_, _, _, _, wroteOnly_raise s p e s.gate s.bus hs.1, fun _ => rfl, fun _ => rfl⟩
  | result _ v => exact absurd (s.status_answer p v hs) hst
  | nothing => exact absurd (s.status_complete p hs) hst
  | stored | selected | hall => exact (hst (State.status_complete _ p hs)).elim
  | counts ch c v x => exact (hst (State.status_answer _ p v hs)).elim
  | countsError ch c x =>
    exact ⟨_, _, _, _, wroteOnly_raise s p .communicationError s.gate _ hs.1, fun _ => rfl,
      fun _ => rfl⟩
  | built b => exact (hst (State.status_complete _ p hs)).elim
  | notBuilt x =>
    exact ⟨x.context, x.status.code, s.gate, s.bus,
      ⟨s.endBuild_error_onHost p s.side.cfg x hs⟩, fun h => absurd rfl h, fun _ => rfl⟩
  | init q hi hp =>
    cases hb : s.side.busw with
    | ok =>
      rw [s.fullWrite_ok true hb, State.endInit] at hst
      simp only [hb] at hst
      exact (hst (State.status_complete _ p hs)).elim
    | err =>
      rw [s.fullWrite_err true hb, State.endInit]
      simp only [hb]
      exact ⟨_, _, _, _, wroteOnly_raise s p .communicationError s.gate _ hs.1, fun _ => rfl,
        fun _ => rfl⟩
  | recal q hi hp hd =>
    cases hb : s.side.busw with
    | ok =>
      rw [s.armGate.fullWrite_ok true hb, State.endRecal] at hw
      simp only [State.armGate_side, hb] at hw
      cases hw.symm.trans (State.pending_beginWait _ p hs)
    | err =>
      rw [s.armGate.fullWrite_err true hb, State.endRecal]
      simp only [State.armGate_side, hb]
      exact ⟨_, _, _, _, wroteOnly_raise s p .communicationError .calibrating _ hs.1, fun _ => rfl,
        fun h => absurd rfl h⟩
  | waits q hi hp hg =>
    rw [s.pending_beginWait p hs] at hw
    cases hw
  | decoded hi => cases hs.1.symm.trans hi

/-- SNAP_DECODE that ended with a status other than OK: what it wrote (R411). -/
theorem State.snapDecode_failed (s : State) (hs : s.onIrq) (h : s.snapDecode.irqStatus ≠ 0) :
    s.snapDecode = { s with irqStatus := s.snapDecode.irqStatus, bus := s.snapDecode.bus } := by
  rcases s.snapDecode_cases with ⟨-, hd⟩ | ⟨sn, -, ⟨-, hd⟩ | ⟨-, -, hd⟩ | ⟨-, -, hd⟩⟩ <;>
    rw [hd] at h ⊢
  · rw [State.raise_onIrq (s.logBus _) _ hs]
    rfl
  · cases hb : s.side.busw with
    | ok =>
      rw [State.recovery_ok (s.logBus _) _ hs hb] at h
      exact absurd rfl h
    | err =>
      rw [State.recovery_err (s.logBus _) _ hs hb]
      rfl
  · rw [State.answer_onIrq (s.logBus _) _ hs] at h
    exact absurd rfl h
  · rw [State.answer_onIrq _ _ (by simpa using hs)] at h
    exact absurd rfl h

/-- Settles O17: an error ending writes STATUS; a failed build DOUT too, and a failed recalibration
GATE. -/
theorem failedCommandChangesOnlyStatus : Obligations.FailedCommandChangesOnlyStatus := by
  refine ⟨fun i s t p hs h hw hst _ => ?_, fun i s t hs h hst => ?_⟩
  · obtain ⟨dout, status, gate, bus, ⟨rfl⟩, hdout, hgate⟩ := (exec_ran i s t h).failed hs hw hst
    have hport : State.port { s.withHostRegs p { s.port (.host p) with dout, status } with
        gate, bus } (.host p) = { s.port (.host p) with dout, status } :=
      s.port_withHostRegs p _ hs.2
    rw [hport]
    exact ⟨rfl, hdout, hgate⟩
  · by_cases hi : i = .snapDecode
    · subst hi
      cases hr : s.irqRefusal .armed with
      | some e =>
        rw [exec_snapDecode_refused s e hr, s.raise_onIrq e hs] at h
        cases h
        rfl
      | none =>
        rw [exec, execSnapDecode, hr] at h
        cases h
        exact s.snapDecode_failed hs hst
    · rw [exec_onIrq s i hs hi] at h
      cases h
      rfl

/-! ### The statuses of each command -/

/-- A set fails with InvalidEnum for the two enumerated fields, and OutOfRange for any other (R169). -/
theorem setField_error_code (P : Params) (m : Memory) (f : RegField) (c : Chan) (v : Nat)
    (e : Status) (h : setField P m f c v = .error e) :
    e.code = if f = .chan .localCapSize ∨ f = .chan .ebAtiBase then 2 else 1 := by
  by_cases hv : legalValue P f v
  · have ho := setField_outcome P m f c v
    rw [valueFails_of_legal P f v hv] at ho
    obtain ⟨m', hm⟩ := ho
    cases h.symm.trans hm
  · obtain ⟨e', he, hcode⟩ := setField_of_not_legal P m f c v hv
    cases h.symm.trans he
    exact hcode

/-- A command that reads ends with STATUS 0 or the code of its error. -/
theorem State.status_endGet (s : State) (p : Nat) (r : Except Status Nat) (l : List Byte)
    (hs : s.onHost p) (h0 : 0 ∈ l) (hl : ∀ e, r = .error e → e.code ∈ l) :
    ((s.endGet r).port (.host p)).status ∈ l := by
  rcases s.endGet_cases r with ⟨v, -, hr⟩ | ⟨e, he, hr⟩ <;> rw [hr]
  · rw [s.status_answer p v hs]; exact h0
  · rw [s.status_raise p e hs]; exact hl e he

/-- So does a command that writes the block's own fields. -/
theorem State.status_endSet (s : State) (p : Nat) (r : Except Status State) (l : List Byte)
    (hs : s.onHost p) (h0 : 0 ∈ l) (hok : ∀ t, r = .ok t → t.issuer = s.issuer ∧ t.ports = s.ports)
    (hl : ∀ e, r = .error e → e.code ∈ l) : ((s.endSet r).port (.host p)).status ∈ l := by
  rcases s.endSet_cases r with ⟨t, ht, hr⟩ | ⟨e, he, hr⟩ <;> rw [hr]
  · obtain ⟨hi, hports⟩ := hok t ht
    rw [t.status_complete p ⟨hi.trans hs.1, hports ▸ hs.2⟩]
    exact h0
  · rw [s.status_raise p e hs]; exact hl e he

/-- The first checks refuse with NotReady or IllegalCommand; then come the command's own. -/
theorem code_mem_of_hostRefusal {α : Type} (s : State) (k : Admission) (r : Except Status α)
    (l : List Byte) (h6 : 6 ∈ l) (h8 : 8 ∈ l) (hl : ∀ e, r = .error e → e.code ∈ l) (e : Status)
    (h : unlessRefused (s.hostRefusal k) r = .error e) : e.code ∈ l := by
  rcases unlessRefused_error _ _ _ h with h | ⟨-, h⟩
  · rcases s.hostRefusal_some k e h with rfl | rfl
    · exact h6
    · exact h8
  · exact hl e h

theorem State.chanGetResult_code (s : State) (f : ChanField) (ch : Fin 16) (e : Status)
    (hf : f ≠ .localCapSize) (h : s.chanGetResult f ch = .error e) :
    e.code ∈ ([0, 1, 6, 8] : List Byte) := by
  rcases s.chanGetResult_error f ch e hf h with rfl | rfl | rfl <;> decide

/-- An accessor SET fails with 1, 6, 8 or as its own check and the codec say. -/
theorem State.chanSetResult_code (s : State) (f : ChanField) (ch : Fin 16)
    (bad : Nat → Option Status) (c : Byte) (e : Status)
    (hbad : ∀ v e, bad v = some e → e.code = c)
    (hf : c = if f = .localCapSize ∨ f = .ebAtiBase then 2 else 1)
    (h : s.chanSetResult f ch bad = .error e) : e.code ∈ ([0, 1, c, 6, 8] : List Byte) := by
  rcases s.chanSetResult_error f ch bad e h with rfl | rfl | rfl | h | ⟨-, c', h⟩
  · simp [Status.code]
  · simp [Status.code]
  · simp [Status.code]
  · simp [hbad _ _ h]
  · have hcode := setField_error_code _ _ _ _ _ _ h
    simp only [RegField.chan.injEq] at hcode
    simp [hcode, hf]

theorem aboveMax_code (max v : Nat) (e : Status) (h : aboveMax max v = some e) : e.code = 1 := by
  unfold aboveMax at h
  split at h <;> cases h
  rfl

theorem notAtiBase_code (v : Nat) (e : Status) (h : notAtiBase v = some e) : e.code = 2 := by
  unfold notAtiBase at h
  split at h <;> cases h
  rfl

/-- The three accessor SETs of a range end with OutOfRange as their own failure. -/
theorem State.status_chanSet (s : State) (p : Nat) (f : ChanField) (ch : Fin 16)
    (bad : Nat → Option Status) (c : Byte) (hs : s.onHost p)
    (hbad : ∀ v e, bad v = some e → e.code = c)
    (hf : c = if f = .localCapSize ∨ f = .ebAtiBase then 2 else 1) :
    ((s.endSet (s.chanSetResult f ch bad)).port (.host p)).status ∈
      ([0, 1, c, 6, 8] : List Byte) := by
  refine s.status_endSet p _ _ hs (by simp) (fun t ht => ?_)
    (fun e he => s.chanSetResult_code f ch bad c e hbad hf he)
  obtain ⟨-, _, m, -, -, -, rfl⟩ := s.chanSetResult_ok t f ch bad ht
  exact ⟨rfl, rfl⟩

theorem State.status_chanGet (s : State) (p : Nat) (f : ChanField) (ch : Fin 16)
    (hs : s.onHost p) (hf : f ≠ .localCapSize) :
    ((s.endGet (s.chanGetResult f ch)).port (.host p)).status ∈ ([0, 1, 6, 8] : List Byte) :=
  s.status_endGet p _ _ hs (by decide) fun e he => s.chanGetResult_code f ch e hf he

/-- A command that only reads one of the block's registers. -/
theorem State.status_registerGet (s : State) (p v : Nat) (hs : s.onHost p) :
    ((s.endGet (unlessRefused (s.hostRefusal .configured) (.ok v))).port (.host p)).status ∈
      ([0, 6, 8] : List Byte) :=
  s.status_endGet p _ _ hs (by decide) fun e he =>
    code_mem_of_hostRefusal s _ _ _ (by decide) (by decide) (fun _ h => by cases h) e he

/-- A command that writes one of them, and refuses a DIN out of its range. -/
theorem State.status_registerSet (s : State) (p : Nat) (r : Except Status State) (hs : s.onHost p)
    (hok : ∀ t, r = .ok t → t.issuer = s.issuer ∧ t.ports = s.ports)
    (hl : ∀ e, r = .error e → e = .outOfRange) :
    ((s.endSet (unlessRefused (s.hostRefusal .configured) r)).port (.host p)).status ∈
      ([0, 1, 6, 8] : List Byte) :=
  s.status_endSet p _ _ hs (by decide) (fun t ht => hok t (unlessRefused_ok _ _ _ ht).2)
    fun e he => code_mem_of_hostRefusal s _ _ _ (by decide) (by decide)
      (fun e he => by rw [hl e he]; decide) e he

theorem State.status_fldGet (s : State) (p : Nat) (f : RegField) (ch : Fin 16) (hs : s.onHost p) :
    ((s.endGet (s.fldGetResult f ch)).port (.host p)).status ∈ ([0, 1, 2, 6, 8] : List Byte) := by
  refine s.status_endGet p _ _ hs (by decide) fun e he => ?_
  rcases s.fldGetResult_error f ch e he with rfl | rfl | rfl | rfl <;> decide

theorem State.status_fldSet (s : State) (p : Nat) (f : RegField) (ch : Fin 16) (hs : s.onHost p) :
    ((s.endSet (s.fldSetResult f ch)).port (.host p)).status ∈ ([0, 1, 2, 6, 8] : List Byte) := by
  refine s.status_endSet p _ _ hs (by decide) (fun t ht => ?_) fun e he => ?_
  · obtain ⟨-, _, m, -, -, rfl⟩ := s.fldSetResult_ok t f ch ht
    exact ⟨rfl, rfl⟩
  · rcases s.fldSetResult_error f ch e he with rfl | rfl | rfl | rfl <;> decide

theorem State.status_sliderModeGet (s : State) (p : Nat) (ch : Fin 16) (hs : s.onHost p) :
    ((s.endGet (s.sliderModeResult ch)).port (.host p)).status ∈ ([0, 1, 6, 8] : List Byte) := by
  refine s.status_endGet p _ _ hs (by decide) fun e he => ?_
  refine code_mem_of_hostRefusal s _ _ _ (by decide) (by decide) (fun e he => ?_) e he
  split at he <;> cases he
  decide

/-- CFG_BUILD is never NotReady: the phases that refuse it give IllegalCommand (10_state.md
R36). -/
theorem State.status_cfgBuild (s t : State) (p : Nat) (hs : s.onHost p)
    (h : exec .cfgBuild s = .next t) :
    (t.port (.host p)).status ∈ ([0, 1, 2, 8] : List Byte) := by
  rw [exec, execCfgBuild, s.hostRefusal_onHost p _ hs.1, Admission.refusal_build] at h
  split at h <;> rename_i hp
  · split at hp <;> cases hp
    cases h
    rw [s.status_raise p _ hs]
    decide
  · cases h
    cases hb : cfgBuild s.params s.img s.side.cfg with
    | ok b =>
      have hc : ((s.endBuild s.side.cfg (.ok b)).port (.host p)).status = 0 :=
        (s.commitBuild s.side.cfg b).status_complete p hs
      rw [hc]
      decide
    | error x =>
      rw [s.endBuild_error_onHost p _ x hs, s.port_withHostRegs p _ hs.2]
      have hx : x.status = .outOfRange ∨ x.status = .invalidEnum := by
        rcases cfgBuild_error _ _ _ x hb with hfit | ⟨_, hfit⟩ <;> exact hfit.1
      rcases hx with hx | hx <;> simp [hx, Status.code]

theorem State.status_imgInit (s t : State) (p : Nat) (hs : s.onHost p)
    (h : exec .imgInit s = .next t) :
    (t.port (.host p)).status ∈ ([0, 3, 6, 8] : List Byte) := by
  obtain ⟨-, hunconf, harmed, hok, herr⟩ := imgInit s p hs
  cases hp : s.phase with
  | unconfigured =>
    cases h.symm.trans (hunconf hp)
    exact s.status_onlyStatus_mem p 6 _ hs.2 (by decide)
  | configured =>
    cases hb : s.side.busw with
    | ok =>
      cases h.symm.trans (hok hp hb)
      exact s.status_onlyStatus_mem p 0 _ hs.2 (by decide)
    | err =>
      cases h.symm.trans (herr hp hb)
      exact s.status_onlyStatus_mem p 3 _ hs.2 (by decide)
  | armed =>
    cases h.symm.trans (harmed hp)
    exact s.status_onlyStatus_mem p 8 _ hs.2 (by decide)

/-- CAL_WAIT that found its port as it left it: it ended, or the port already waited. -/
theorem State.status_calWait (s t : State) (p : Nat) (hs : s.onHost p)
    (h : exec .calWait s = .next t)
    (hw : (t.port (.host p)).pending = (s.port (.host p)).pending) :
    (t.port (.host p)).status ∈ ([0, 6, 8] : List Byte) ∨ (s.port (.host p)).pending = true := by
  obtain ⟨-, hnot, hready, hwait⟩ := calWait s p hs
  by_cases hp : s.phase = .armed
  · by_cases hg : s.gate = .ready
    · cases h.symm.trans (hready hp hg)
      exact .inl (s.status_onlyStatus_mem p 0 _ hs.2 (by decide))
    · cases h.symm.trans (hwait hp hg)
      rw [s.port_withHostRegs p _ hs.2] at hw
      exact .inr hw.symm
  · cases h.symm.trans (hnot hp)
    exact .inl (s.status_onlyStatus_mem p 6 _ hs.2 (by decide))

/-- So does RECAL_TRIGGER. -/
theorem State.status_recalTrigger (s t : State) (p : Nat) (hs : s.onHost p)
    (h : exec .recalTrigger s = .next t)
    (hw : (t.port (.host p)).pending = (s.port (.host p)).pending) :
    (t.port (.host p)).status ∈ ([0, 3, 6, 8] : List Byte) ∨
      (s.port (.host p)).pending = true := by
  obtain ⟨-, hnot, hzero, hok, herr⟩ := recalTrigger s p hs
  by_cases hp : s.phase = .armed
  · by_cases hd : s.din = 0
    · cases h.symm.trans (hzero hp hd)
      exact .inl (s.status_onlyStatus_mem p 0 _ hs.2 (by decide))
    · cases hb : s.side.busw with
      | ok =>
        cases h.symm.trans (hok hp hd hb)
        have hport := s.port_withHostRegs p { s.port (.host p) with pending := true } hs.2
        exact .inr (hw.symm.trans (congrArg PortRegs.pending hport))
      | err =>
        cases h.symm.trans (herr hp hd hb)
        exact .inl (s.status_onlyStatus_mem p 3 _ hs.2 (by decide))
  · cases h.symm.trans (hnot hp)
    exact .inl (s.status_onlyStatus_mem p 6 _ hs.2 (by decide))

theorem State.status_countsRead (s t : State) (p : Nat) (ch : Fin 16) (hs : s.onHost p)
    (h : exec (.countsRead ch) s = .next t) :
    (t.port (.host p)).status ∈ ([0, 1, 3, 6, 7, 8] : List Byte) := by
  rw [exec, execCountsRead] at h
  split at h <;> rename_i e hr <;> cases h
  · rw [s.status_raise p e hs]
    rcases s.countsChannel_error ch e hr with rfl | rfl | rfl | rfl <;> decide
  · unfold State.readCounts
    split
    · rw [State.status_raise (s.logBus _) p _ hs]
      decide
    · rw [State.status_answer (s.logBus _) p _ hs]
      decide

/-- Settles O18: each command's ending gives 0 or the code of one of its checks. -/
theorem statusesOfEachCommand : Obligations.StatusesOfEachCommand := by
  intro i s t p hs h hw
  cases i with
  | fldGet f ch => cases h; exact .inl (s.status_fldGet p f ch hs)
  | fldSet f ch => cases h; exact .inl (s.status_fldSet p f ch hs)
  | atiModeGet ch => cases h; exact .inl (s.status_chanGet p _ ch hs (by decide))
  | atiBaseGet ch => cases h; exact .inl (s.status_chanGet p _ ch hs (by decide))
  | atiTargetGet ch => cases h; exact .inl (s.status_chanGet p _ ch hs (by decide))
  | rxEnGet ch => cases h; exact .inl (s.status_chanGet p _ ch hs (by decide))
  | atiModeSet ch =>
    cases h
    exact .inl (by simpa using s.status_chanSet p .eaAtiMode ch _ 1 hs (aboveMax_code _) rfl)
  | atiTargetSet ch =>
    cases h
    exact .inl (by simpa using s.status_chanSet p .ebAtiTarget ch _ 1 hs (aboveMax_code _) rfl)
  | rxEnSet ch =>
    cases h
    exact .inl (by simpa using s.status_chanSet p .rxEn ch _ 1 hs (aboveMax_code _) rfl)
  | atiBaseSet ch => cases h; exact .inl (s.status_chanSet p .ebAtiBase ch _ 2 hs notAtiBase_code rfl)
  | chSelGet => cases h; exact .inl (s.status_registerGet p _ hs)
  | hallEnGet => cases h; exact .inl (s.status_registerGet p _ hs)
  | recalStatus => cases h; exact .inl (s.status_registerGet p _ hs)
  | chSelSet =>
    cases h
    refine .inl (s.status_registerSet p _ hs (fun t ht => ?_) fun e he => ?_)
    · split at ht <;> cases ht
      exact ⟨rfl, rfl⟩
    · split at he <;> cases he
      rfl
  | hallEnSet =>
    cases h
    refine .inl (s.status_registerSet p _ hs (fun t ht => ?_) fun e he => ?_)
    · split at ht <;> cases ht
      exact ⟨rfl, rfl⟩
    · split at he <;> cases he
      rfl
  | countsRead ch => exact .inl (s.status_countsRead t p ch hs h)
  | cfgBuild => exact .inl (s.status_cfgBuild t p hs h)
  | imgInit => exact .inl (s.status_imgInit t p hs h)
  | snapDecode =>
    rw [exec_snapDecode_refused s _ (s.irqRefusal_onHost p _ hs.1)] at h
    cases h
    rw [s.status_raise p _ hs]
    exact .inl (by decide)
  | sliderModeGet ch => cases h; exact .inl (s.status_sliderModeGet p ch hs)
  | calWait => exact (s.status_calWait t p hs h hw).imp_right fun hp => ⟨.inl rfl, hp⟩
  | recalTrigger => exact (s.status_recalTrigger t p hs h hw).imp_right fun hp => ⟨.inr rfl, hp⟩

/-! ### The selected channel -/

theorem State.resolveCh_selected (s : State) (ch : Fin 16) (h : ch.val = s.chSel.val) :
    s.resolveCh 15 = s.resolveCh ch := by
  rw [s.resolveCh_of_names 15 s.chSel (.inr ⟨rfl, rfl⟩), s.resolveCh_of_names ch s.chSel (.inl h)]

/-- Settles O22: every such command reads its CH through resolveCh alone. -/
theorem selectedChannel : Obligations.SelectedChannel := by
  intro s ch h
  have hr := s.resolveCh_selected ch h
  have hf : ∀ f, s.fieldChannel (.chan f) 15 = s.fieldChannel (.chan f) ch := fun _ => hr
  have hget : ∀ f, s.chanGetResult f 15 = s.chanGetResult f ch := fun f => by
    rw [State.chanGetResult, hr, State.chanGetResult]
  have hset : ∀ f bad, s.chanSetResult f 15 bad = s.chanSetResult f ch bad := fun f bad => by
    rw [State.chanSetResult, hr, State.chanSetResult]
  have hcounts : s.countsChannel 15 = s.countsChannel ch := by
    rw [State.countsChannel, hr, State.countsChannel]
  refine ⟨fun f => ⟨?_, ?_⟩, ?_⟩
  · simp only [exec, execFldGet, State.fldGetResult, hf]
  · simp only [exec, execFldSet, State.fldSetResult, hf]
  · simp only [exec, execAtiModeGet, execAtiModeSet, execAtiBaseGet, execAtiBaseSet,
      execAtiTargetGet, execAtiTargetSet, execRxEnGet, execRxEnSet, execCountsRead, hget, hset,
      hcounts, and_self]

end Sys2Proof.Machine
end

section
/-! PROOFS. The field codec (41_field_codec.md): what storing field bits leaves in the field, FLD_GET
and FLD_SET on a host port, and the laws of get and set (R166 to R168). -/

namespace Sys2Proof.Machine

/-! ### Storing field bits -/

/-- Only the low bits of what is inserted count (41_field_codec.md R153). -/
theorem insertBits_mod (v : Half) (hi lo r : Nat) (hlo : lo ≤ hi) :
    insertBits v hi lo (BitVec.ofNat 16 r) =
      insertBits v hi lo (BitVec.ofNat 16 (r % 2 ^ (hi - lo + 1))) := by
  ext i hi'
  rw [← BitVec.getLsbD_eq_getElem, ← BitVec.getLsbD_eq_getElem, getLsbD_insertBits _ _ _ _ _ hlo hi',
    getLsbD_insertBits _ _ _ _ _ hlo hi']
  split
  · rw [BitVec.getLsbD_ofNat, BitVec.getLsbD_ofNat, Nat.testBit_mod_two_pow]
    have : i - lo < hi - lo + 1 := by omega
    simp [this]
  · rfl

/-- A field holds the low bits of what was stored in it (R153). -/
theorem fieldBits_writeBits (P : Params) (m : Memory) (d : Desc) (r : Nat) (hd : d.inBounds) :
    (writeBits P m d (BitVec.ofNat 16 r)).fieldBits P d = r % 2 ^ (d.hi - d.lo + 1) := by
  have hlt : r % 2 ^ (d.hi - d.lo + 1) < 2 ^ (d.hi - d.lo + 1) := Nat.mod_lt _ (Nat.two_pow_pos _)
  have hn := toNat_ofNat_half _ _ hd.width_le hlt
  rw [writeBits, insertBits_mod _ _ _ _ hd.2.1, ← writeBits, ← readBits_toNat P _ d hd,
    readBits_writeBits P m d _ hd (by rw [hn]; exact hlt), hn]

/-- Storing in some of a field's low bits what the field holds changes no bit. -/
theorem bit_writeBits_low (P : Params) (m : Memory) (d k : Desc) (hd : d.inBounds)
    (hk : k.inBounds) (hoff : k.off = d.off) (hwidth : k.width = d.width) (hlo : k.lo = d.lo)
    (hhi : k.hi ≤ d.hi) (a j : Nat) (hj : j < 8) :
    (writeBits P m k (readBits P m d)).bit P a j = m.bit P a j := by
  rw [bit_writeBits P m k _ hk a j hj]
  split
  · rename_i hc
    have hcov : d.covers a j = true := by
      unfold Desc.covers at hc ⊢
      rw [hoff, hwidth, hlo] at hc
      cases hw : d.width <;> simp only [hw] at hc ⊢ <;>
        simp only [Bool.or_eq_true, Bool.and_eq_true, beq_iff_eq, decide_eq_true_eq] at hc ⊢ <;>
        omega
    have hpos : k.position a j - k.lo = d.position a j - d.lo := by
      simp only [Desc.position, hoff, hwidth, hlo]
    rw [hpos, ← bit_writeBits_readBits P m d hd a j hj, bit_writeBits P m d _ hd a j hj, if_pos hcov]
  · rfl

/-! ### FLD_GET on a host port -/

/-- An admitted FLD_GET ends with what get answers (R164). -/
theorem exec_fldGet_admitted (s : State) (f : RegField) (ch : Fin 16) (c : Chan)
    (hr : s.fieldRefusal f = none) (hc : s.fieldChannel f ch = .ok c) :
    exec (.fldGet f ch) s = .next (s.endGet (getField s.params s.img f c)) := by
  simp only [exec, execFldGet, State.fldGetResult, hr, unlessRefused_none, hc]

/-- CH 8 to 14 names no channel for a channel field (30_encoding.md R114). -/
theorem exec_fldGet_badChannel (s : State) (p : Nat) (f : ChanField) (ch : Fin 16)
    (hs : s.onHost p) (hp : s.phase ≠ .unconfigured) (h8 : 8 ≤ ch.val) (h14 : ch.val ≤ 14) :
    exec (.fldGet (.chan f) ch) s = .next (s.onlyStatus p 1) := by
  have hc : s.fieldChannel (.chan f) ch = .error .outOfRange := s.resolveCh_bad ch h8 h14
  have hr : s.fieldRefusal (.chan f) = none := s.fieldRefusal_onHost p (.chan f) hs.1 rfl hp
  simp only [exec, execFldGet, State.fldGetResult, hr, unlessRefused_none, hc, State.endGet_error,
    s.raise_onHost p _ hs.1]
  rfl

theorem exec_fldSet_badChannel (s : State) (p : Nat) (f : ChanField) (ch : Fin 16)
    (hs : s.onHost p) (hp : s.phase ≠ .unconfigured) (h8 : 8 ≤ ch.val) (h14 : ch.val ≤ 14) :
    exec (.fldSet (.chan f) ch) s = .next (s.onlyStatus p 1) := by
  have hc : s.fieldChannel (.chan f) ch = .error .outOfRange := s.resolveCh_bad ch h8 h14
  have hr : s.fieldRefusal (.chan f) = none := s.fieldRefusal_onHost p (.chan f) hs.1 rfl hp
  simp only [exec, execFldSet, State.fldSetResult, hr, unlessRefused_none, hc, State.endSet_error,
    s.raise_onHost p _ hs.1]
  rfl

/-- Settles O24: get decodes the field's bits, and DOUT takes the value where it fits. -/
theorem fldGetReadsTheField : Obligations.FldGetReadsTheField := by
  refine ⟨fun s p f ch c d hs hx hp hn hd => ?_, exec_fldGet_badChannel⟩
  obtain ⟨c', hc, hdesc, -⟩ := s.fieldChannel_of_names f ch c hn
  refine ⟨s.doutOf (decodeValue s.params d (s.containerAt d / 2 ^ d.lo % 2 ^ (d.hi - d.lo + 1))),
    ?_, fun hv => ?_⟩
  · rw [exec_fldGet_admitted s f ch c' (s.fieldRefusal_onHost p f hs.1 hx hp) hc,
      getField_of_desc _ _ f c' d (hdesc.trans hd), State.endGet_ok, s.answer_onHost p _ hs]
    rfl
  · rw [s.doutOf_lt _ hv, BitVec.toNat_ofNat]
    exact Nat.mod_eq_of_lt hv

/-- Settles O25: the two bits of LOCAL_CAP_SIZE, and the one pattern that stands for no size. -/
theorem fldGetLocalCap : Obligations.FldGetLocalCap := by
  intro s p ch c hs hp hn
  have hget : getField s.params s.img (.chan .localCapSize) c =
      lcapDecode ((s.byte (24 + 14 * c.val + 4)).getLsbD 5)
        ((s.byte (24 + 14 * c.val + 2)).getLsbD 4) := getLocalCap_eq s.params s.img c
  have hc : s.fieldChannel (.chan .localCapSize) ch = .ok c := s.resolveCh_of_names ch c hn
  rw [exec_fldGet_admitted s _ ch c (s.fieldRefusal_onHost p _ hs.1 rfl hp) hc, hget]
  cases (s.byte (24 + 14 * c.val + 4)).getLsbD 5 <;>
    cases (s.byte (24 + 14 * c.val + 2)).getLsbD 4
  · exact congrArg Host.Outcome.next (s.endGet_ok_onHost p 0 hs (by decide))
  · exact congrArg Host.Outcome.next (s.raise_onHost p .invalidEnum hs.1)
  · exact congrArg Host.Outcome.next (s.endGet_ok_onHost p 1 hs (by decide))
  · exact congrArg Host.Outcome.next (s.endGet_ok_onHost p 2 hs (by decide))

/-! ### FLD_SET on a host port -/

/-- A set of a legal value of a field in one container stores the value's code in the bits a set of
the field may store (R163). -/
theorem setField_of_legal (P : Params) (m : Memory) (f : RegField) (c : Chan) (d : Desc) (v : Nat)
    (hd : fieldDesc f c = some d) (hv : legalValue P f v) :
    setField P m f c v =
      .ok (writeBits P m (writable f d) (BitVec.ofNat 16 (d.storedAs P v))) := by
  have ho := encodeValue_outcome P f c d v hd
  rw [valueFails_of_legal P f v hv] at ho
  obtain ⟨r, hr⟩ := ho
  simp only [setField, hd, hr, encodeValue_eq P d v r hr]

/-- The low bits of a field that a set may store, read through the field's own descriptor. -/
theorem fieldBits_writable (P : Params) (m : Memory) (f : RegField) (d : Desc) (w : Nat)
    (hw : (writable f d).hi - d.lo + 1 = w) :
    m.containerAt P d / 2 ^ d.lo % 2 ^ w = m.fieldBits P (writable f d) := by
  obtain ⟨hoff, hwidth, hlo, -⟩ := writable_shape f d
  have hcont : m.containerAt P (writable f d) = m.containerAt P d := by
    simp only [Memory.containerAt, hwidth, hoff]
  rw [Memory.fieldBits, hcont, hlo, hw]

/-- How many bits a set of a field stores: all of the field's, but four for EVENT_MASK. -/
theorem writable_width (f : RegField) (c : Chan) (d : Desc) (hd : fieldDesc f c = some d) :
    (writable f d).hi - d.lo + 1 = if f = .sys .eventMask then 4 else d.hi - d.lo + 1 := by
  unfold writable
  split
  · rename_i hf
    subst hf
    cases hd
    rfl
  · rfl

/-- Settles O26: the set succeeds, stores the value's code in the field's bits, and the command
writes IMG, STALE, HOLD_SPEC and STATUS alone. -/
theorem fldSetWritesTheField : Obligations.FldSetWritesTheField := by
  refine ⟨fun s p f ch c d hs hx hp hn hd hv => ?_, exec_fldSet_badChannel⟩
  obtain ⟨c', hc, hdesc, hchan⟩ := s.fieldChannel_of_names f ch c hn
  have hd' := hdesc.trans hd
  have hset := setField_of_legal s.params s.img f c' d s.din hd' hv
  refine ⟨_, _, rfl, exec_fldSet_stored s p f ch c' _ hs.1
    (s.fieldRefusal_onHost p f hs.1 hx hp) hc hset, rfl, ?_, fun a j hj hb => ?_⟩
  · have hw := writable_width f c' d hd'
    obtain ⟨-, -, hlo, -⟩ := writable_shape f d
    have hbits := fieldBits_writeBits s.params s.img (writable f d) (d.storedAs s.params s.din)
      (writable_bounds f c' d hd').1
    rw [hlo, hw] at hbits
    exact (fieldBits_writable s.params _ f d _ hw).trans hbits
  · refine bit_setField_other s.params s.img _ f c' s.din hset a j hj ?_
    rwa [fieldBit_of_desc f c' d hd', ← fieldBit_of_desc f c d hd]

/-! ### The laws of get and set -/

/-- Settles O31: the frame of a set. -/
theorem setTouchesOnlyItsBits : Obligations.SetTouchesOnlyItsBits := bit_setField_other

/-- Settles O32: each set writes bits of its own, always the same ones, whatever the image. -/
theorem disjointSetsCommute : Obligations.DisjointSetsCommute := by
  intro P m m₁ m₂ f g c e v w hdis hf hg
  obtain ⟨fbits, hfset⟩ := setField_bits P f c v m m₁ hf
  obtain ⟨gbits, hgset⟩ := setField_bits P g e w m₁ m₂ hg
  obtain ⟨x₁, hx₁, fx⟩ := hfset m
  cases hf.symm.trans hx₁
  obtain ⟨x₂, hx₂, gx⟩ := hgset m₁
  cases hg.symm.trans hx₂
  obtain ⟨n₁, hn₁, gn⟩ := hgset m
  obtain ⟨n₂, hn₂, fn⟩ := hfset n₁
  refine ⟨n₁, n₂, hn₁, hn₂, fun a => Memory.read_ext P n₂ m₂ a fun j hj => ?_⟩
  rw [fn a j hj, gn a j hj, gx a j hj, fx a j hj]
  have hd := hdis a j hj
  by_cases h1 : fieldBit f c a j = true
  · have h2 : ¬fieldBit g e a j = true := fun h2 => hd ⟨h1, h2⟩
    rw [if_pos h1, if_neg h2, if_pos h1]
  · rw [if_neg h1, if_neg h1]

/-- The hysteresis byte from its two fields (10_state.md R44). -/
theorem hystByte_eq (P : Params) (m : Memory) (c : Chan) :
    (m.read P (24 + 14 * c.val + 11)).toNat =
      16 * m.stored P (.chan .hystDeep) c + m.stored P (.chan .hystTouch) c := by
  have hdeep : m.stored P (.chan .hystDeep) c =
      (m.read P (24 + 14 * c.val + 11)).toNat / 2 ^ 4 % 2 ^ 4 := rfl
  have htouch : m.stored P (.chan .hystTouch) c =
      (m.read P (24 + 14 * c.val + 11)).toNat / 2 ^ 0 % 2 ^ 4 := rfl
  have := (m.read P (24 + 14 * c.val + 11)).isLt
  omega

/-- Settles O33: the two nibbles are fields that lie apart, and the byte is made of them. -/
theorem hysteresisNibblesMerge : Obligations.HysteresisNibblesMerge := by
  intro P m c v w hv hw
  have sets : ∀ (f : ChanField) (d : Desc) (n : Memory) (x : Nat), chanDesc f = some d →
      legalValue P (.chan f) x → ∃ n', setField P n (.chan f) c x = .ok n' := fun f d n x hf hx =>
    ⟨_, setField_of_legal P n (.chan f) c _ x (by rw [fieldDesc, hf]; rfl) hx⟩
  have hv' : legalValue P (.chan .hystTouch) v := Nat.le_of_lt_succ hv
  have hw' : legalValue P (.chan .hystDeep) w := Nat.le_of_lt_succ hw
  have hapart := disjoint_chan .hystTouch .hystDeep c c rfl rfl (by decide)
  obtain ⟨m₁, hm₁⟩ := sets .hystTouch _ m v rfl hv'
  obtain ⟨m₂, hm₂⟩ := sets .hystDeep _ m₁ w rfl hw'
  obtain ⟨n₁, hn₁⟩ := sets .hystDeep _ m w rfl hw'
  obtain ⟨n₂, hn₂⟩ := sets .hystTouch _ n₁ v rfl hv'
  refine ⟨m₁, m₂, n₁, n₂, hm₁, hm₂, hn₁, hn₂, ?_, ?_⟩
  · rw [hystByte_eq, stored_setField P _ _ _ _ _ (by simp) hm₂,
      stored_setField_other P _ _ _ _ _ _ _ (by simp) (disjointFields_symm _ _ _ _ hapart) hm₂,
      stored_setField P _ _ _ _ _ (by simp) hm₁]
    rfl
  · rw [hystByte_eq, stored_setField P _ _ _ _ _ (by simp) hn₂,
      stored_setField_other P _ _ _ _ _ _ _ (by simp) hapart hn₂,
      stored_setField P _ _ _ _ _ (by simp) hn₁]
    rfl

end Sys2Proof.Machine
end

section
/-! PROOFS. Get after set and set after get (41_field_codec.md R157, R168). -/

namespace Sys2Proof.Machine

/-! ### A get after a set -/

/-- The decode of a value's code: the value, floored to the divisor of a scaled field (R157). -/
theorem decodeValue_encodeValue (P : Params) (m : Memory) (f : RegField) (c : Chan) (d : Desc)
    (v r : Nat) (hf : f ≠ .sys .eventMask) (hd : fieldDesc f c = some d)
    (he : encodeValue P d v = .ok r) : decodeValue P d r = readBack P m f v := by
  obtain ⟨d', h0, hk, -, -, -⟩ := fieldDesc_channel f c 0 d hd
  have hr := encodeValue_eq P d v r he
  rw [readBack, if_neg hf, h0]
  cases hkind : d.kind with
  | scaled k =>
    simp only [decodeValue, hk, hkind, hr, Desc.storedAs]
    have := Nat.div_add_mod' v (k.value P)
    omega
  | atiBase =>
    simp only [encodeValue, hkind] at he
    simp only [decodeValue, hk, hkind]
    unfold baseCode at he
    split at he <;> cases he <;> rfl
  | bool | uint | mask | raw => simp only [decodeValue, hk, hkind, hr, Desc.storedAs]

/-- Two bytes that agree from bit 4 on have the same high nibble. -/
theorem highNibble_congr (x y : Byte) (h : ∀ j, 4 ≤ j → j < 8 → x.getLsbD j = y.getLsbD j) :
    x.toNat / 16 = y.toNat / 16 := by
  have hshift : x >>> 4 = y >>> 4 := byte_ext _ _ fun j hj => by
    rw [BitVec.getLsbD_ushiftRight, BitVec.getLsbD_ushiftRight]
    by_cases h4 : 4 + j < 8
    · exact h _ (by omega) h4
    · rw [BitVec.getLsbD_of_ge x _ (by omega), BitVec.getLsbD_of_ge y _ (by omega)]
  have := congrArg BitVec.toNat hshift
  rwa [BitVec.toNat_ushiftRight, BitVec.toNat_ushiftRight, Nat.shiftRight_eq_div_pow,
    Nat.shiftRight_eq_div_pow] at this

/-- What a set of EVENT_MASK leaves in its byte: the value's low four bits, under the reserved bits
as they were (10_state.md R45; notes/assumptions/16.md). -/
theorem eventMaskByte_setField (P : Params) (m m' : Memory) (c : Chan) (v : Nat)
    (h : setField P m (.sys .eventMask) c v = .ok m') :
    (m'.read P 5).toNat = (m.read P 5).toNat / 16 * 16 + v % 16 := by
  have hhigh : (m'.read P 5).toNat / 16 = (m.read P 5).toNat / 16 :=
    highNibble_congr _ _ fun j h4 hj => bit_setField_other P m m' _ c v h 5 j hj (by
      have hlow : ∀ i < 8, 4 ≤ i → fieldBit (.sys .eventMask) 0 5 i = false := by decide
      exact hlow j hj h4)
  have hlow : (m'.read P 5).toNat / 2 ^ 0 % 2 ^ 4 = v % 2 ^ 4 := by
    rcases setField_cases P m m' _ c v h with ⟨hf, -⟩ | ⟨d, r, hd, he, -, rfl⟩
    · cases hf
    · cases hd
      rw [encodeValue_eq P _ v r he]
      exact fieldBits_writeBits P m _ _ (writable_bounds (.sys .eventMask) c _ rfl).1
  omega

/-- Settles O29: a field in one container reads the code it stored; LOCAL_CAP_SIZE reads its two
bits; EVENT_MASK's byte is pieced together. -/
theorem setThenGet : Obligations.SetThenGet := by
  intro P m m' f c v h
  by_cases hf : f = .sys .eventMask
  · subst hf
    have hbyte := eventMaskByte_setField P m m' c v h
    have hread : m'.fieldBits P (sysDesc .eventMask) =
        (m'.read P 5).toNat / 2 ^ 0 % 2 ^ 8 := rfl
    have := (m'.read P 5).isLt
    have hval : decodeValue P (sysDesc .eventMask) (m'.fieldBits P (sysDesc .eventMask)) =
        readBack P m (.sys .eventMask) v := by
      rw [readBack, if_pos rfl, ← hbyte, hread]
      exact (Nat.mod_eq_of_lt (by omega)).trans (Nat.div_one _)
    rw [getField_of_desc P m' _ c _ rfl, hval]
  · rcases setField_cases P m m' f c v h with ⟨rfl, en, dbl, he, rfl⟩ | ⟨d, r, hd, he, hr, rfl⟩
    · have hen := bit_writeLocalCap P m c en dbl (engineB c) 5 (by omega)
      have hdbl := bit_writeLocalCap P m c en dbl (engineA c) 4 (by omega)
      rw [if_pos ⟨rfl, rfl⟩] at hen
      rw [if_neg (by omega), if_pos ⟨rfl, rfl⟩] at hdbl
      refine (getLocalCap_eq P _ c).trans ?_
      rw [hen, hdbl]
      unfold lcapEncode at he
      split at he <;> cases he <;> rfl
    · have hb := fieldDesc_bounds f c d hd
      rw [writable_of_ne f d hf, getField_of_desc P _ f c d hd, fieldBits_writeBits P m d r hb,
        Nat.mod_eq_of_lt hr, decodeValue_encodeValue P m f c d v r hf hd he]

/-! ### A set of what a get read -/

/-- No constant divisor of the field tables is 0 (41_field_codec.md R156). -/
theorem constDivisor_pos (f : RegField) (c : Chan) (d : Desc) (n : Nat)
    (hd : fieldDesc f c = some d) (hk : d.kind = .scaled (.const n)) : 0 < n := by
  cases f with
  | sys g =>
    cases hd
    cases g <;> cases hk <;> decide
  | chan g =>
    obtain ⟨d', hg, rfl⟩ := Option.map_eq_some_iff.mp hd
    cases g <;> cases hg <;> cases hk
    decide

/-- With valid parameters no divisor is 0 (R9, R156). -/
theorem divisor_pos (P : Params) (hP : P.valid = true) (f : RegField) (c : Chan) (d : Desc)
    (k : Divisor) (hd : fieldDesc f c = some d) (hk : d.kind = .scaled k) : 0 < k.value P := by
  simp only [Params.valid, Bool.and_eq_true, decide_eq_true_eq] at hP
  obtain ⟨⟨⟨⟨-, htOld⟩, htNew⟩, hsOld⟩, hsNew⟩ := hP
  cases k with
  | const n => exact constDivisor_pos f c d n hd hk
  | stepT =>
    simp only [Divisor.value, Params.stepT]
    split <;> omega
  | stepS =>
    simp only [Divisor.value, Params.stepS]
    split <;> omega

/-- The code of a decoded field is the field's bits (R155, R156). -/
theorem encodeValue_decodeValue (P : Params) (d : Desc) (r : Nat)
    (hr : r < 2 ^ (d.hi - d.lo + 1)) (hpos : ∀ k, d.kind = .scaled k → 0 < k.value P)
    (hbase : d.kind = .atiBase → r < 4) : encodeValue P d (decodeValue P d r) = .ok r := by
  have hmax : r ≤ d.fmax := Nat.le_sub_one_of_lt hr
  cases hk : d.kind with
  | scaled k =>
    have hle : ¬r * k.value P > d.fmax * k.value P := Nat.not_lt.mpr (Nat.mul_le_mul_right _ hmax)
    simp only [encodeValue, decodeValue, hk, if_neg hle, Nat.mul_div_cancel r (hpos k hk)]
  | atiBase =>
    simp only [encodeValue, decodeValue, hk]
    have h4 := hbase hk
    interval_cases r <;> rfl
  | bool | uint | mask | raw =>
    simp only [encodeValue, decodeValue, hk, if_neg (Nat.not_lt.mpr hmax)]

/-- The size LOCAL_CAP_SIZE's two bits stand for is coded by those bits (R159, R160). -/
theorem lcapEncode_of_decode (en dbl : Bool) (v : Nat) (h : lcapDecode en dbl = .ok v) :
    lcapEncode v = .ok (en, dbl) := by
  cases en <;> cases dbl <;> cases h <;> rfl

/-- Settles O30: get then set stores the field's own bits. -/
theorem getThenSet : Obligations.GetThenSet := by
  intro P m f c v hP hget
  cases hd : fieldDesc f c with
  | none =>
    cases (fieldDesc_eq_none f c).mp hd
    have hdec := (getLocalCap_eq P m c).symm.trans hget
    refine ⟨writeLocalCap P m c (m.bit P (engineB c) 5) (m.bit P (engineA c) 4), ?_, fun a =>
      Memory.read_ext P _ _ a fun j hj => ?_⟩
    · simp only [setField, hd, lcapEncode_of_decode _ _ v hdec]
    · rw [bit_writeLocalCap P m c _ _ a j hj]
      split
      · rename_i h
        rw [h.1, h.2]
      · split
        · rename_i h
          rw [h.1, h.2]
        · rfl
  | some d =>
    have hb := fieldDesc_bounds f c d hd
    have hlt := readBits_lt P m d
    rw [getField, hd] at hget
    cases hget
    have he := encodeValue_decodeValue P d _ hlt (fun k => divisor_pos P hP f c d k hd)
      fun hk => by rw [fieldDesc_atiBase f c d hd hk] at hlt; exact hlt
    obtain ⟨hoff, hwidth, hlo, -⟩ := writable_shape f d
    obtain ⟨hwb, hhi⟩ := writable_bounds f c d hd
    refine ⟨writeBits P m (writable f d) (readBits P m d), ?_, fun a =>
      Memory.read_ext P _ _ a (bit_writeBits_low P m d _ hb hwb hoff hwidth hlo hhi a)⟩
    simp only [setField, hd, he, BitVec.ofNat_toNat, BitVec.setWidth_eq]

end Sys2Proof.Machine
end

section
/-! PROOFS. The field tables (10_state.md R43 to R45): each row, and which fields lie apart. -/

namespace Sys2Proof.Machine

/-- What a field's bits decode to, kind by kind (41_field_codec.md R155, R158). -/
theorem decodeValue_eq (P : Params) (d : Desc) (r : Nat) (h : r < 4 ∨ d.kind ≠ .atiBase) :
    decodeValue P d r =
      (match d.kind with
        | .scaled k => r * k.value P
        | .atiBase => [75, 100, 150, 200].getD r 0
        | .bool | .uint | .mask | .raw => r) := by
  unfold decodeValue
  cases hk : d.kind with
  | atiBase =>
    have h4 : r < 4 := h.resolve_right fun hne => hne hk
    interval_cases r <;> rfl
  | scaled k => rfl
  | bool | uint | mask | raw => rfl

/-- A 16-bit container starts at an even offset (20_memory.md R83). -/
theorem fieldDesc_word_even (f : RegField) (c : Chan) (d : Desc) (hd : fieldDesc f c = some d)
    (hw : d.width = .word) : d.off % 2 = 0 := by
  cases f with
  | sys g =>
    cases hd
    cases g <;> cases hw <;> rfl
  | chan g =>
    obtain ⟨d', hg, rfl⟩ := Option.map_eq_some_iff.mp hd
    have heven : d'.off % 2 = 0 := by
      cases g <;> cases hg <;> cases hw <;> rfl
    simp only [chanBase]
    omega

/-- Two different named fields share no bit, but for byte 19's two readings. -/
theorem disjoint_fields (f g : RegField) (c e : Chan) (hf : isRawField f = false)
    (hg : isRawField g = false) (hne : f ≠ g)
    (h1 : ¬(f = .sys .slider1Sel ∧ g = .sys .touchHold))
    (h2 : ¬(f = .sys .touchHold ∧ g = .sys .slider1Sel)) : disjointFields f c g e := by
  cases f with
  | sys f =>
    cases g with
    | sys g =>
      refine disjoint_sys f g c e hf hg (fun h => hne (congrArg _ h)) (fun h => h1 ?_)
        (fun h => h2 ?_)
      · rw [h.1, h.2]; exact ⟨rfl, rfl⟩
      · rw [h.1, h.2]; exact ⟨rfl, rfl⟩
    | chan g => exact disjoint_sys_chan f g c e
  | chan f =>
    cases g with
    | sys g => exact disjointFields_symm _ _ _ _ (disjoint_sys_chan g f e c)
    | chan g => exact disjoint_chan f g c e hf hg fun h => hne (congrArg _ h)

/-- No set of a named system field stores into a reserved bit (10_state.md R45). -/
theorem reservedBit_not_sys (f : SysField) (c : Chan) (a j : Nat) (hf : isRawField (.sys f) = false)
    (hj : j < 8) (hr : reservedBit a j = true) : fieldBit (.sys f) c a j = false := by
  have key : ∀ f ∈ SysField.all, isRawField (.sys f) = false → ∀ a < 24, ∀ j < 8,
      reservedBit a j = true → fieldBit (.sys f) 0 a j = false := by decide +kernel
  by_cases ha : a < 24
  · exact key f (mem_sysField_all f) hf a ha j hj hr
  · by_contra hb
    exact ha (below_of_fieldBit_sys f c a j hj (by simpa using hb))

/-- No set of a named channel field stores into a reserved bit (R45). -/
theorem reservedBit_not_chan (f : ChanField) (c : Chan) (a j : Nat)
    (hf : isRawField (.chan f) = false) (hj : j < 8) (hr : reservedBit a j = true) :
    fieldBit (.chan f) c a j = false := by
  have key : ∀ f ∈ ChanField.all, isRawField (.chan f) = false → ∀ c : Chan, ∀ k < 14, ∀ j < 8,
      reservedBit (24 + 14 * c.val + k) j = true →
      fieldBit (.chan f) c (24 + 14 * c.val + k) j = false := by decide +kernel
  by_contra hb
  obtain ⟨hlo, hhi⟩ := inBlock_of_fieldBit f c a j hj (by simpa using hb)
  obtain ⟨k, rfl⟩ := Nat.exists_eq_add_of_le hlo
  exact hb (key f (mem_chanField_all f) hf c k (by omega) j hj hr)

/-- Settles O23: the rows are read off the tables, the ranges from the descriptors. -/
theorem fieldLayout : Obligations.FieldLayout := by
  refine ⟨fun r hr => ?_, fun r hr => ?_, ⟨by decide, fun c a j => ?_⟩, fun P => ?_,
    fun f c d hd => ?_, disjoint_fields, fun f c e h => disjoint_channels f f c e h,
    fun f c a j hf hj hr => ?_⟩
  · have row : RegField.ofFid r.1 = some (.sys r.2.1) ∧ sysDesc r.2.1 = r.2.2 := by
      revert r hr
      decide +kernel
    exact ⟨row.1, fun _ => congrArg some row.2⟩
  · have row : RegField.ofFid r.1 = some (.chan r.2.1) ∧ chanDesc r.2.1 = some r.2.2 := by
      revert r hr
      decide +kernel
    exact ⟨row.1, fun c => by rw [fieldDesc, row.2]; rfl⟩
  · rw [fieldBit_localCap, decide_eq_true_eq]
    rfl
  · exact ⟨fun _ => rfl, rfl, rfl, decodeValue_eq P⟩
  · obtain ⟨h1, h2, h3⟩ := fieldDesc_bounds f c d hd
    exact ⟨h1, h2, h3, fieldDesc_word_even f c d hd⟩
  · cases f with
    | sys f => exact reservedBit_not_sys f c a j hf hj hr
    | chan f => exact reservedBit_not_chan f c a j hf hj hr

end Sys2Proof.Machine
end

section
/-! PROOFS. CFG_BUILD of legal and illegal records (43_configuration.md R262 to R264): a record is
legal exactly when no check of its list fails, and the build stops at the first that does. -/

namespace Sys2Proof.Machine

/-! ### A check fails exactly on the values that are not legal -/

theorem valueFails_eq_none (P : Params) (f : RegField) (v : Nat) :
    valueFails P f v = none ↔ legalValue P f v := by
  refine ⟨fun h => ?_, valueFails_of_legal P f v⟩
  by_contra hv
  rw [valueFails_of_not_legal P f v hv] at h
  split at h <;> cases h

theorem failsAbove_eq_none (max : Nat) (v : Option Nat) :
    failsAbove max v = none ↔ ∀ x, v = some x → x ≤ max := by
  cases v <;> simp [failsAbove]

theorem failsOutside_nil_eq_none (v : Option Nat) : failsOutside [] v = none ↔ ∀ x, v ≠ some x := by
  cases v <;> simp [failsOutside]

theorem failsPins_eq_none (pins : Option (List Nat)) : failsPins pins = none ↔ legalPins pins := by
  cases pins <;> simp [failsPins, legalPins]

/-- No check of a list fails. -/
def Passes (ks : List RecordCheck) : Prop := ks.find? RecordCheck.failing = none

theorem passes_iff (ks : List RecordCheck) : Passes ks ↔ ∀ k ∈ ks, k.fails = none := by
  simp [Passes, List.find?_eq_none]

theorem passes_append (ks ls : List RecordCheck) : Passes (ks ++ ls) ↔ Passes ks ∧ Passes ls := by
  simp only [passes_iff, List.forall_mem_append]

theorem passes_cons (k : RecordCheck) (ks : List RecordCheck) :
    Passes (k :: ks) ↔ k.fails = none ∧ Passes ks := by
  simp only [passes_iff, List.forall_mem_cons]

theorem passes_nil : Passes [] := rfl

theorem passes_flatMap {α : Type} (l : List α) (f : α → List RecordCheck) :
    Passes (l.flatMap f) ↔ ∀ a ∈ l, Passes (f a) := by
  simp only [passes_iff, List.mem_flatMap]
  exact ⟨fun h a ha k hk => h k ⟨a, ha, hk⟩, fun h k ⟨a, ha, hk⟩ => h a ha k hk⟩

/-- A property list passes exactly when its present values are legal. -/
theorem passes_properties (P : Params) (scope : Nat) (ps : List Property) :
    Passes (ps.map (·.check P scope)) ↔ legalProperties P ps := by
  rw [passes_iff, legalProperties, List.forall_mem_map]
  refine forall₂_congr fun q _ => ?_
  rw [Property.check, Option.bind_eq_none_iff]
  exact forall₂_congr fun v _ => valueFails_eq_none P q.field v

theorem passes_systemChecks (P : Params) (y : SysCfg) :
    Passes (systemChecks P y) ↔ legalProperties P (sysProperties P y) := by
  rw [← passes_properties P sysScope, Passes, Passes, find_system]

theorem passes_propertyChecks (P : Params) (c : Chan) (h : ChCfg) :
    Passes (propertyChecks c h) ↔ legalProperties P (chanProperties h) := by
  rw [← passes_properties P c.val, Passes, Passes, find_chanProperties]

theorem passes_eventChecks (c : Chan) (e : Event) (v : EvCfg) :
    Passes (eventChecks c e v) ↔ legalEvent c e v := by
  have hhyst : (if e.kind = .prox then failsOutside [] v.hyst else failsAbove 15 v.hyst) = none ↔
      ∀ y, v.hyst = some y → e.kind ≠ .prox ∧ y ≤ 15 := by
    split
    · rename_i hk
      simp [failsOutside_nil_eq_none, hk]
    · rename_i hk
      simp [failsAbove_eq_none, hk]
  have hsw : (if v.sw ≠ 0 ∧ c ≠ 7 then some 2 else none : Option Byte) = none ↔
      (v.sw ≠ 0 → c = 7) := by
    simp
  simp only [eventChecks, passes_cons, passes_nil, failsAbove_eq_none, hhyst, hsw, legalEvent,
    and_true]

/-- The checks of a channel, in four parts. -/
theorem channelChecks_eq (P : Params) (c : Chan) (h : ChCfg) :
    channelChecks P c h =
      ⟨c.val, 3, if h.slider1 ∧ P.otpHold then some 2 else none⟩ ::
      ⟨c.val, 4, failsPins h.rxPins⟩ :: ⟨c.val, 5, failsPins h.txPins⟩ ::
      (propertyChecks c h ++ Event.all.flatMap (fun e => eventChecks c e h.ev[e.id])) := rfl

theorem passes_channelChecks (P : Params) (c : Chan) (h : ChCfg) :
    Passes (channelChecks P c h) ↔ legalChannel P c h := by
  have hslider : (if h.slider1 ∧ P.otpHold then some 2 else none : Option Byte) = none ↔
      (h.slider1 = true → P.otpHold = false) := by
    simp
  simp only [channelChecks_eq, passes_cons, passes_append, passes_flatMap, passes_propertyChecks P,
    passes_eventChecks, failsPins_eq_none, hslider, legalChannel, mem_event_all, forall_const]

/-- A record has no failing check exactly when it is legal (43_configuration.md R262). -/
theorem passes_recordChecks (P : Params) (cfg : Cfg) :
    Passes (recordChecks P cfg) ↔ legalCfg P cfg := by
  rw [recordChecks, passes_append, passes_systemChecks, passes_flatMap, legalCfg]
  refine and_congr_right fun _ => forall_congr' fun c => ?_
  cases hc : cfg.ch[c] with
  | none => simp [passes_nil]
  | some h => simp [mem_channels, passes_channelChecks]

/-! ### Where a check stands -/

/-- A check's context is that of a system property, or a channel's (R263). -/
def RecordCheck.placed (k : RecordCheck) : Prop :=
  k.scope = 0xFF ∧ k.idx ≤ 21 ∨ k.scope ≤ 7 ∧ k.idx ≤ 55

theorem systemChecks_placed (P : Params) (y : SysCfg) : ∀ k ∈ systemChecks P y, k.placed := by
  simp [systemChecks, RecordCheck.placed]

theorem placed_channel (c : Chan) (idx : Nat) (fails : Option Byte) (h : idx ≤ 55) :
    RecordCheck.placed ⟨c.val, idx, fails⟩ := .inr ⟨Nat.le_of_lt_succ c.isLt, h⟩

theorem channelChecks_placed (P : Params) (c : Chan) (h : ChCfg) :
    ∀ k ∈ channelChecks P c h, k.placed := by
  have hev : ∀ e : Event, ∀ k ∈ eventChecks c e h.ev[e.id], k.placed := fun e => by
    have he := e.id.isLt
    simp only [eventChecks, List.forall_mem_cons]
    exact ⟨placed_channel c _ _ (by omega), placed_channel c _ _ (by omega),
      placed_channel c _ _ (by omega), nofun⟩
  rw [channelChecks_eq]
  simp only [List.forall_mem_cons, List.forall_mem_append, propertyChecks]
  refine ⟨placed_channel c 3 _ (by decide), placed_channel c 4 _ (by decide),
    placed_channel c 5 _ (by decide), by simp [placed_channel], fun k hk => ?_⟩
  obtain ⟨e, -, hk⟩ := List.mem_flatMap.mp hk
  exact hev e k hk

theorem recordChecks_placed (P : Params) (cfg : Cfg) : ∀ k ∈ recordChecks P cfg, k.placed := by
  rw [recordChecks, List.forall_mem_append]
  refine ⟨systemChecks_placed P cfg.sys, fun k hk => ?_⟩
  obtain ⟨c, -, hk⟩ := List.mem_flatMap.mp hk
  split at hk
  · exact channelChecks_placed P c _ k hk
  · cases hk

/-! ### The command -/

/-- CFG_BUILD on a host port while Unconfigured ends as its build does (R264). -/
theorem exec_cfgBuild_unconfigured (s : State) (p : Nat) (hs : s.onHost p)
    (hp : s.phase = .unconfigured) :
    exec .cfgBuild s = .next (s.endBuild s.side.cfg (cfgBuild s.params s.img s.side.cfg)) := by
  have hr : s.hostRefusal .build = none := by
    rw [State.hostRefusal, hs.1, hp]
    rfl
  rw [exec, execCfgBuild, hr]

/-- Settles O43: no check of a legal record fails, so the build succeeds and is committed. -/
theorem legalRecordIsCommitted : Obligations.LegalRecordIsCommitted := by
  intro s p hs hp _ hlegal
  have hfollows := follows_cfgBuild s.params s.img s.side.cfg
  have hpasses := (passes_recordChecks s.params s.side.cfg).mpr hlegal
  rw [Follows, hpasses] at hfollows
  obtain ⟨b, hb⟩ := hfollows
  refine ⟨b, hb, ?_⟩
  rw [exec_cfgBuild_unconfigured s p hs hp, hb]
  exact congrArg Host.Outcome.next
    ((s.commitBuild s.side.cfg b).complete_onHost p hs.1)

/-- Settles O44: the build stops at the record's first failing check, in that check's context. -/
theorem illegalRecordCommitsNothing : Obligations.IllegalRecordCommitsNothing := by
  refine ⟨fun P cfg => (passes_recordChecks P cfg).symm, fun s p k hs hp hk => ?_⟩
  have hfind : (recordChecks s.params s.side.cfg).find? RecordCheck.failing = some k := hk
  have hplaced := recordChecks_placed s.params s.side.cfg k (List.mem_of_find?_eq_some hfind)
  have hfollows := follows_cfgBuild s.params s.img s.side.cfg
  rw [Follows, hfind] at hfollows
  obtain ⟨e, hb, hfails, he⟩ := hfollows
  have hscope : k.scope < 256 ∧ k.idx < 256 := by
    rcases hplaced with ⟨h1, h2⟩ | ⟨h1, h2⟩ <;> omega
  refine ⟨e.code, hfails, ?_, hplaced, ?_⟩
  · rcases he with rfl | rfl
    · exact .inl rfl
    · exact .inr rfl
  · rw [exec_cfgBuild_unconfigured s p hs hp, hb, s.endBuild_error_onHost p _ _ hs,
      contextWord_eq _ _ hscope.2 hscope.1]

end Sys2Proof.Machine
end

section
/-! PROOFS. The forcing of every full-image write, bit by bit (43_configuration.md R280, R281, R283). -/

namespace Sys2Proof.Machine

/-- Storing a one-bit field of the general word's low byte, bit by bit. -/
theorem bit_setSysBits_flag (P : Params) (m : Memory) (f : SysField) (r : Half) (k : Nat) (kd : Kind)
    (hf : sysDesc f = ⟨0, .word, k, k, kd⟩) (hk : k < 8) (a j : Nat) (hj : j < 8) :
    (setSysBits P m f r).bit P a j = if a = 1 ∧ j = k then r.getLsbD 0 else m.bit P a j := by
  rw [bit_setSysBits _ _ _ _ _ _ hj, hf]
  by_cases hb : a = 1 ∧ j = k
  · obtain ⟨rfl, rfl⟩ := hb
    simp [Desc.covers, Desc.position]
  · have hcov : (⟨0, .word, k, k, kd⟩ : Desc).covers a j = false := by
      rw [Bool.eq_false_iff]
      simp only [Desc.covers, ne_eq, Bool.or_eq_true, Bool.and_eq_true, beq_iff_eq,
        decide_eq_true_eq]
      omega
    rw [hcov, if_neg hb]
    rfl

/-- Byte 2 as the bits of ACTIVE. -/
theorem getLsbD_active (P : Params) (m : Memory) (j : Nat) (hj : j < 8) :
    (sysBits P m .active).getLsbD j = m.bit P 2 j := by
  rw [← getLsbD_maskOf P m .active 2 _ rfl j hj, maskOf, BitVec.getLsbD_setWidth]
  simp [hj]

/-- A single flag as field bits. -/
theorem getLsbD_boolNat (b : Bool) : (BitVec.ofNat 16 (boolNat b)).getLsbD 0 = b := by
  cases b <;> rfl

/-- The flags the forcing assigns in the general word, in its order (R280). -/
def forcedFlags (P : Params) (m : Memory) (lp redo : Bool) : Memory :=
  setSysBits P (setSysBits P (setSysBits P (setSysBits P m .genEventMode 1)
    .genEventModeLp (BitVec.ofNat 16 (boolNat lp))) .genAckReset 1)
    .genRedoAti (BitVec.ofNat 16 (boolNat redo))

theorem bit_forcedFlags (P : Params) (m : Memory) (lp redo : Bool) (a j : Nat) (hj : j < 8) :
    (forcedFlags P m lp redo).bit P a j =
      if a = 1 ∧ j = 5 then true
      else if a = 1 ∧ j = 4 then lp
      else if a = 1 ∧ j = 2 then redo
      else if a = 1 ∧ j = 0 then true
      else m.bit P a j := by
  rw [forcedFlags,
    bit_setSysBits_flag _ _ .genRedoAti _ 2 _ rfl (by decide) a j hj,
    bit_setSysBits_flag _ _ .genAckReset _ 0 _ rfl (by decide) a j hj,
    bit_setSysBits_flag _ _ .genEventModeLp _ 4 _ rfl (by decide) a j hj,
    bit_setSysBits_flag _ _ .genEventMode _ 5 _ rfl (by decide) a j hj,
    getLsbD_boolNat, getLsbD_boolNat]
  by_cases h5 : a = 1 ∧ j = 5
  · obtain ⟨rfl, rfl⟩ := h5
    rfl
  · by_cases h4 : a = 1 ∧ j = 4
    · obtain ⟨rfl, rfl⟩ := h4
      rfl
    · rw [if_neg h5, if_neg h4, if_neg h5, if_neg h4]
      rfl

/-- The forcing: the flags, the redo mask, and the touch-hold default where it is re-applied (R280).
Whether a slider is raw does not depend on the flags. -/
theorem forceImage_eq (P : Params) (codes : SliderCodes) (m : Memory) (redo hs : Bool) :
    forceImage P codes m redo hs =
      let n := forcedFlags P m (anyRaw P codes m) redo
      let k := setSysBits P n .redoAtiMask (sysBits P n .active)
      if reappliesHold P hs then k.write P 19 P.touchHoldDefault else k := by
  have hread : ∀ a, a ≠ 1 → (setSysBits P m .genEventMode 1).read P a = m.read P a := fun a ha =>
    Memory.read_ext P _ _ a fun j hj => by
      rw [bit_setSysBits_flag _ _ .genEventMode _ 5 _ rfl (by decide) a j hj, if_neg fun h => ha h.1]
  have hraw : anyRaw P codes (setSysBits P m .genEventMode 1) = anyRaw P codes m := by
    rw [Bool.eq_iff_iff, anyRaw_iff, anyRaw_iff, hread 18 (by decide), hread 19 (by decide)]
  simp only [forceImage, hraw]
  rfl

theorem reappliesHold_iff (P : Params) (hs : Bool) :
    reappliesHold P hs = true ↔ P.otpHold = true ∧ hs = false ∧ P.fwRev < P.fwHoldFixMin := by
  simp [reappliesHold, and_assoc]

/-- The forcing, bit by bit: the last assignment to a bit is the one that stands. -/
theorem bit_forceImage (P : Params) (codes : SliderCodes) (m : Memory) (redo hs : Bool) (a k : Nat)
    (hk : k < 8) :
    (forceImage P codes m redo hs).bit P a k =
      if a = 1 ∧ k = 5 then true
      else if a = 1 ∧ k = 4 then anyRaw P codes m
      else if a = 1 ∧ k = 2 then redo
      else if a = 1 ∧ k = 0 then true
      else if a = 23 then m.bit P 2 k
      else if a = 19 ∧ reappliesHold P hs = true then P.touchHoldDefault.getLsbD k
      else m.bit P a k := by
  have hactive : ∀ n : Memory, (setSysBits P n .redoAtiMask (sysBits P n .active)).bit P a k =
      if a = 23 then n.bit P 2 k else n.bit P a k := fun n => by
    rw [bit_setSysBits_byte _ _ _ _ 23 _ rfl a k hk, getLsbD_active P n k hk]
  have hhold : ∀ n : Memory,
      (if reappliesHold P hs then n.write P 19 P.touchHoldDefault else n).bit P a k =
      if a = 19 ∧ reappliesHold P hs = true then P.touchHoldDefault.getLsbD k
      else n.bit P a k := fun n => by
    cases reappliesHold P hs with
    | true =>
      rw [if_pos rfl, Memory.bit, Memory.read_write _ _ _ _ _ (by decide)]
      by_cases ha : a = 19 <;> simp [ha, Memory.bit]
    | false => simp
  rw [forceImage_eq]
  simp only
  rw [hhold, hactive, bit_forcedFlags _ _ _ _ _ _ hk, bit_forcedFlags _ _ _ _ _ _ hk]
  by_cases h1 : a = 1
  · subst h1
    rfl
  · simp only [h1, false_and, if_false]
    by_cases h23 : a = 23
    · subst h23
      rfl
    · simp only [h23, if_false]

/-- Settles O47: the bits of the forcing, with anyRaw and the re-applied default written out. -/
theorem forcedImage : Obligations.ForcedImage := by
  intro P codes m redo hs a k hk
  simp only [bit_forceImage P codes m redo hs a k hk, ← anyRaw_iff, ← reappliesHold_iff,
    Bool.decide_eq_true]

/-- The selection bytes decide which sliders are raw, and the forcing keeps them: byte 19 changes
only where it is no selection (R280, R283). -/
theorem anyRaw_forceImage (P : Params) (codes : SliderCodes) (m : Memory) (redo hs : Bool) :
    anyRaw P codes (forceImage P codes m redo hs) = anyRaw P codes m := by
  have h18 : (forceImage P codes m redo hs).read P 18 = m.read P 18 :=
    Memory.read_ext P _ _ 18 fun j hj => bit_forceImage_other P codes m redo hs 18 j hj rfl
  have h19 : P.otpHold = false → (forceImage P codes m redo hs).read P 19 = m.read P 19 :=
    fun ho => Memory.read_ext P _ _ 19 fun j hj => by
      rw [bit_forceImage_other P codes m redo hs 19 j hj rfl, if_neg]
      rw [reappliesHold_iff, ho]
      simp
  rw [Bool.eq_iff_iff, anyRaw_iff, anyRaw_iff, h18]
  cases ho : P.otpHold with
  | true => simp
  | false => rw [h19 ho]

/-- Settles O48: every bit a second forcing writes is what the first one left there. -/
theorem forcingIsIdempotent : Obligations.ForcingIsIdempotent := by
  intro P codes m redo hs a
  refine Memory.read_ext P _ _ a fun j hj => ?_
  have hactive : (forceImage P codes m redo hs).bit P 2 j = m.bit P 2 j :=
    bit_forceImage_other P codes m redo hs 2 j hj rfl
  rw [bit_forceImage P codes _ redo hs a j hj, anyRaw_forceImage, hactive,
    bit_forceImage P codes m redo hs a j hj]
  split_ifs <;> rfl

end Sys2Proof.Machine
end

section
/-! PROOFS. The full decode of a clean snapshot: gestures, raw sliders, keypad, and the order of their
reports (44_event_classifier.md R324, R330, R335, R340). -/

namespace Sys2Proof.Machine

/-! ### Gestures and raw sliders -/

/-- The reports of some gestures, with the mapped ones picked out (R323). -/
theorem gestureLevels_eq (codes : SliderCodes) (i : SliderIx) (gs : List Gesture)
    (level : Gesture → Bool) :
    gestureLevels codes i gs level = (gs.filter (fun g => codes[i][g] ≠ 0)).map
      (fun g => .key (sliderDev i) codes[i][g] (level g)) := by
  unfold gestureLevels
  congr 2
  funext g
  simp [bne, beq_eq_decide]

/-- The gesture reports of a slider in Key mode (R330). -/
theorem keySliderReports_eq (codes : SliderCodes) (sn : Snap) (i : SliderIx) :
    keySliderReports codes sn i =
      gestureLevels codes i gestures (sn.gestureBit i) ++
      (if ∃ g ∈ momentary, sn.gestureBit i g = true then
        gestureLevels codes i momentary (fun _ => false) else []) := by
  simp only [keySliderReports, List.any_eq_true]

/-- The gate release of a full decode (R343). -/
theorem State.releaseGate_eq (s : State) :
    s.releaseGate =
      { s with gate := if s.gate = .calibrating then .ready else s.gate } := by
  unfold State.releaseGate
  split
  · rename_i hg
    rw [if_neg (by rw [hg]; decide)]
  · rename_i hg
    rw [if_pos hg]
  · rename_i hg
    rw [if_neg (by rw [hg]; decide)]

/-- RESET = 0 and ATI_BUSY = 0 lead to the full decode (R324). -/
theorem State.decodeSnap_clean (s : State) (sn : Snap) (hr : sn.sys.getLsbD 15 = false)
    (hb : sn.sys.getLsbD 10 = false) :
    s.decodeSnap sn = (s.emit (s.decodeReports sn)).releaseGate.answer 0 := by
  rw [State.decodeSnap, Snap.reset, hr, if_neg Bool.false_ne_true, Snap.atiBusy, hb,
    if_neg Bool.false_ne_true]

/-- Settles O50: the two flags are 0, so the decode sends its three lists and releases the gate; the
lists are read off the modes of the two sliders. -/
theorem cleanSnapshotDecodes : Obligations.CleanSnapshotDecodes := by
  intro s sn hs hp hsn hr hb
  refine ⟨?_, ?_, ?_⟩
  · rw [exec_snapDecode_armed s hs hp, s.snapDecode_some sn hsn, State.decodeSnap_clean _ sn hr hb,
      State.releaseGate_eq]
    exact congrArg Host.Outcome.next (State.answer_onIrq_lt _ 0 hs (by decide))
  · refine congrArg (List.flatMap · sliders) (funext fun i => ?_)
    by_cases hk : s.hasSlider i ∧ s.hasGestureCode i
    · rw [if_pos hk, if_pos ((s.sliderMode_key i).mpr hk), keySliderReports_eq, gestureLevels_eq,
        gestureLevels_eq]
      rfl
    · rw [if_neg hk, if_neg (fun h => hk ((s.sliderMode_key i).mp h))]
  · refine congrArg (List.flatMap · sliders) (funext fun i => ?_)
    by_cases hraw : s.hasSlider i ∧ ¬s.hasGestureCode i
    · rw [if_pos hraw, if_pos ((s.sliderMode_raw i).mpr hraw), s.rawSliderReports_eq]
      rfl
    · rw [if_neg hraw, if_neg (fun h => hraw ((s.sliderMode_raw i).mp h))]

/-! ### The keypad -/

/-- The report of one event and channel (R340, R341). -/
theorem mem_keypadReport (s : State) (sn : Snap) (e : Event) (c : Chan) (r : Report) :
    r ∈ s.keypadReport sn e c ↔
      (s.keycode[e.id][c] ≠ 0 ∧ ¬(s.hallEn = true ∧ 6 ≤ c.val) ∧
          r = .key .keypad s.keycode[e.id][c] ((sn.eventMask e).getLsbD c.val)) ∨
        (s.swcode[e.id][c] ≠ 0 ∧ s.hallEn = true ∧ c = 7 ∧
          r = .switch s.swcode[e.id][c] ((sn.eventMask e).getLsbD c.val)) := by
  have hpair : 6 ≤ c.val ↔ c = 6 ∨ c = 7 := by
    revert c
    decide
  unfold State.keypadReport
  by_cases h6 : s.hallEn = true ∧ c = 6
  · obtain ⟨hh, rfl⟩ := h6
    simp [hh]
  · by_cases h7 : s.hallEn = true ∧ c = 7
    · obtain ⟨hh, rfl⟩ := h7
      by_cases h0 : s.swcode[e.id][(7 : Chan)] = 0 <;> simp [hh]
    · have hpair' : ¬(s.hallEn = true ∧ 6 ≤ c.val) := by tauto
      by_cases h0 : s.keycode[e.id][c] = 0 <;> simp [h6, h7, hpair'] <;> tauto

/-- Settles O53: the two loops over the event table and the channels, and what a member of their
list is. -/
theorem keypadReports : Obligations.KeypadReports := by
  refine ⟨fun s sn => ?_, fun s sn r => ?_⟩
  · have htable : ([(0, 0, false), (1, 0, true), (2, 2, false), (3, 2, true), (4, 3, false),
        (5, 3, true)] : List (Fin 6 × Fin 4 × Bool)) =
        Event.all.map (fun e => (e.id, e.kind.stateIndex, e.up)) := rfl
    rw [htable, List.flatMap_map]
    refine congrArg (List.flatMap · Event.all) (funext fun e => ?_)
    refine congrArg (List.flatMap · channels) (funext fun c => ?_)
    simp only [State.keypadReport, Snap.getLsbD_eventMask]
    by_cases h7 : c = 7
    · subst h7
      simp only [ne_eq, ite_not]
    · simp only [h7, and_false, if_false, ne_eq, ite_not]
  · simp only [State.keypadReports, List.mem_flatMap, mem_event_all, mem_channels, true_and,
      mem_keypadReport, Snap.getLsbD_eventMask, exists_eq_left]

/-- Settles O54: one direction bit is in one variant's mask and its complement in the other's. -/
theorem upAndDownExclude : Obligations.UpAndDownExclude := by
  intro sn d u c hkind hd hu
  simp only [Snap.getLsbD_eventMask, hkind, hd, hu, if_true, Bool.false_eq_true, if_false]
  cases sn.states[u.kind.stateIndex].getLsbD c.val <;>
    cases sn.states[(1 : Fin 4)].getLsbD c.val <;> decide

end Sys2Proof.Machine
end

section
/-! PROOFS. Where the levels of a slider's gesture codes end in one decode (44_event_classifier.md
R330, R331), and the event sink (R345). -/

namespace Sys2Proof.Machine

/-! ### The reports of one slider and code -/

theorem sliderDev_injective : ∀ i k : SliderIx, sliderDev i = sliderDev k → i = k := by decide

/-- A report is the key report of a slider and a code. -/
def Report.isGesture (i : SliderIx) (code : Code) : Report → Bool
  | .key dev c _ => dev == sliderDev i && c == code
  | .switch _ _ => false
  | .touch _ _ => false
  | .abs _ _ => false

/-- Every gesture report of a slider is a key report of its device (R330). -/
theorem mem_gestureLevels (codes : SliderCodes) (i : SliderIx) (gs : List Gesture)
    (level : Gesture → Bool) (r : Report) (h : r ∈ gestureLevels codes i gs level) :
    ∃ g, codes[i][g] ≠ 0 ∧ r = .key (sliderDev i) codes[i][g] (level g) := by
  rw [gestureLevels_eq, List.mem_map] at h
  obtain ⟨g, hg, rfl⟩ := h
  exact ⟨g, by simpa using (List.mem_filter.mp hg).2, rfl⟩

theorem mem_keySliderReports (codes : SliderCodes) (sn : Snap) (i : SliderIx) (r : Report)
    (h : r ∈ keySliderReports codes sn i) : ∃ code v, r = .key (sliderDev i) code v := by
  rw [keySliderReports_eq, List.mem_append] at h
  rcases h with h | h
  · obtain ⟨g, -, rfl⟩ := mem_gestureLevels _ _ _ _ _ h
    exact ⟨_, _, rfl⟩
  · split at h
    · obtain ⟨g, -, rfl⟩ := mem_gestureLevels _ _ _ _ _ h
      exact ⟨_, _, rfl⟩
    · cases h

/-- Of the reports of some gestures, those with a given gesture's code. -/
theorem filter_gestureLevels (codes : SliderCodes) (i : SliderIx) (gs : List Gesture)
    (level : Gesture → Bool) (code : Code) (h : code ≠ 0) :
    (gestureLevels codes i gs level).filter (Report.isGesture i code) =
      (gs.filter (fun g => codes[i][g] = code)).map
        (fun g => .key (sliderDev i) code (level g)) := by
  rw [gestureLevels_eq, List.filter_map, List.filter_filter]
  have hpred : gs.filter (fun g => (Report.isGesture i code ∘
      fun g => Report.key (sliderDev i) codes[i][g] (level g)) g && decide (codes[i][g] ≠ 0)) =
      gs.filter (fun g => codes[i][g] = code) := List.filter_congr fun g _ => by
    simp only [Function.comp_apply, Report.isGesture]
    generalize codes[i][g] = x
    by_cases hx : x = code
    · simp only [hx, beq_self_eq_true, Bool.and_self, Bool.true_and, decide_eq_decide, iff_true]
      exact h
    · simp [hx]
  rw [hpred]
  refine List.map_congr_left fun g hg => ?_
  rw [of_decide_eq_true (List.mem_filter.mp hg).2]

/-- The gesture reports of one slider and a code of its: those of that slider alone. -/
theorem filter_gestureReports (s : State) (sn : Snap) (i : SliderIx) (code : Code)
    (hk : s.sliderMode i = .key) :
    (s.gestureReports sn).filter (Report.isGesture i code) =
      (keySliderReports s.slcode sn i).filter (Report.isGesture i code) := by
  have hother : ∀ k, k ≠ i → (if s.sliderMode k = .key then keySliderReports s.slcode sn k
      else []).filter (Report.isGesture i code) = [] := fun k hne => by
    rw [List.filter_eq_nil_iff]
    intro r hr
    split at hr
    · obtain ⟨c, v, rfl⟩ := mem_keySliderReports _ _ _ _ hr
      have hdev : sliderDev k ≠ sliderDev i := fun h => hne (sliderDev_injective k i h)
      simp [Report.isGesture, hdev]
    · cases hr
  rw [State.gestureReports, List.filter_flatMap]
  simp only [sliders, List.flatMap_cons, List.flatMap_nil, List.append_nil]
  have hi : i = 0 ∨ i = 1 := (by decide : ∀ k : SliderIx, k = 0 ∨ k = 1) i
  rcases hi with rfl | rfl
  · rw [hother 1 (by decide), List.append_nil, if_pos hk]
  · rw [hother 0 (by decide), List.nil_append, if_pos hk]

/-- A nonempty list of one element over and over ends with it. -/
theorem getLast?_of_forall_eq {α : Type} (l : List α) (x : α) (hne : l ≠ []) (h : ∀ y ∈ l, y = x) :
    l.getLast? = some x := by
  rw [List.getLast?_eq_some_getLast hne, h _ (List.getLast_mem hne)]

/-- A gesture with a code of its own is the one that code picks out. -/
theorem filter_code_unique (codes : SliderCodes) (i : SliderIx) (g : Gesture) (gs : List Gesture)
    (h : ∀ g' : Gesture, g' ≠ g → codes[i][g'] ≠ codes[i][g]) :
    gs.filter (fun g' => codes[i][g'] = codes[i][g]) = gs.filter (fun g' => g' = g) := by
  refine List.filter_congr fun g' _ => ?_
  by_cases hg : g' = g
  · subst hg
    rw [decide_eq_true rfl, decide_eq_true rfl]
  · rw [decide_eq_false (h g' hg), decide_eq_false hg]

/-- The reports of one gesture's code in one decode: the levels of the gestures that share it, then
the releases of the momentary ones. -/
theorem filter_gesture (s : State) (sn : Snap) (i : SliderIx) (g : Gesture)
    (hk : s.sliderMode i = .key) (hcode : s.slcode[i][g] ≠ 0) :
    (s.gestureReports sn).filter (Report.isGesture i s.slcode[i][g]) =
      (gestures.filter (fun g' => s.slcode[i][g'] = s.slcode[i][g])).map
        (fun g' => .key (sliderDev i) s.slcode[i][g] (sn.gestureBit i g')) ++
      if ∃ g' ∈ momentary, sn.gestureBit i g' = true then
        (momentary.filter (fun g' => s.slcode[i][g'] = s.slcode[i][g])).map
          (fun _ => .key (sliderDev i) s.slcode[i][g] false)
      else [] := by
  rw [filter_gestureReports s sn i _ hk, keySliderReports_eq, List.filter_append,
    apply_ite (List.filter _), filter_gestureLevels _ _ _ _ _ hcode,
    filter_gestureLevels _ _ _ _ _ hcode, List.filter_nil]

/-- Settles O55: in Key mode the levels come first and the releases after them; only the key reports
of the slider and the code count. -/
theorem gestureCodesEnd : Obligations.GestureCodesEnd := by
  refine ⟨fun s sn i g hslider hcode => ?_, fun s sn i hmode code v hmem => ?_⟩
  · have hk : s.sliderMode i = .key := (s.sliderMode_key i).mpr ⟨hslider, g, hcode⟩
    intro fired final
    have hfinal : final =
        ((s.gestureReports sn).filter (Report.isGesture i s.slcode[i][g])).getLast? :=
      congrArg (fun p => (List.filter p (s.gestureReports sn)).getLast?)
        (funext fun r => by cases r <;> rfl)
    have hfired : (∃ g' ∈ momentary, sn.gestureBit i g' = true) ↔ fired = true := by
      simp [momentary, or_assoc, fired]
    rw [hfinal, filter_gesture s sn i g hk hcode]
    simp only [hfired]
    refine ⟨fun hg hf => ?_, fun hunique hf => ?_⟩
    · have hmem : g ∈ momentary := (by decide : ∀ g : Gesture, g ≠ 1 → g ∈ momentary) g hg
      rw [List.getLast?_append, if_pos hf, getLast?_of_forall_eq _
        (.key (sliderDev i) s.slcode[i][g] false) ?_ ?_, Option.some_or]
      · exact List.ne_nil_of_mem (List.mem_map_of_mem (List.mem_filter.mpr ⟨hmem, decide_eq_true rfl⟩))
      · intro y hy
        obtain ⟨-, -, rfl⟩ := List.mem_map.mp hy
        rfl
    · rw [filter_code_unique _ _ _ _ hunique, filter_code_unique _ _ _ _ hunique]
      have hone : gestures.filter (fun g' => g' = g) = [g] :=
        (by decide : ∀ g : Gesture, gestures.filter (fun g' => g' = g) = [g]) g
      rcases hf with rfl | hf
      · have hnone : momentary.filter (fun g' => g' = 1) = [] := by decide
        rw [hone, hnone, List.map_nil, ite_self, List.append_nil]
        rfl
      · rw [hone, hf, if_neg Bool.false_ne_true, List.append_nil]
        rfl
  · rw [State.gestureReports, List.mem_flatMap] at hmem
    obtain ⟨k, -, hr⟩ := hmem
    split at hr
    · rename_i hk
      obtain ⟨c, w, heq⟩ := mem_keySliderReports _ _ _ _ hr
      cases sliderDev_injective i k (Report.key.inj heq).1
      exact hmode ((s.sliderMode_key i).mp hk)
    · cases hr

/-! ### The event sink -/

theorem Sink.level_setLevel (k : Sink) (l l' : Level) (v : Bool) :
    (k.setLevel l v).level l' = if l' = l then v else k.level l' := by
  by_cases h : l' = l
  · subst h
    cases v <;> simp [Sink.level, Sink.setLevel]
  · cases v <;> simp [Sink.level, Sink.setLevel, h]

/-- Leaving out one key of an association list leaves what every other key has. -/
theorem lookup_filter_ne (l : List (Dev × Byte)) (d d' : Dev) (h : d' ≠ d) :
    (l.filter (fun x => x.1 != d)).lookup d' = l.lookup d' := by
  induction l with
  | nil => rfl
  | cons x rest ih =>
    obtain ⟨e, p⟩ := x
    by_cases he : e = d
    · subst he
      simp [List.lookup_cons, beq_false_of_ne h, ih]
    · simp [List.lookup_cons, he, ih]

theorem Sink.lookup_setAbs (k : Sink) (d d' : Dev) (p : Byte) :
    (k.setAbs d p).lastAbs.lookup d' = if d' = d then some p else k.lastAbs.lookup d' := by
  rw [Sink.setAbs, List.lookup_cons]
  by_cases h : d' = d
  · simp [h]
  · simp [h, beq_false_of_ne h, lookup_filter_ne]

theorem Sink.passes_level (k : Sink) (r : Report) (l : Level) (v : Bool)
    (h : r.content = .inl (l, v)) : k.passes r = true ↔ v ≠ k.level l := by
  simp only [Sink.passes, h, bne_iff_ne]

theorem Sink.passes_abs (k : Sink) (r : Report) (d : Dev) (p : Byte)
    (h : r.content = .inr (d, p)) : k.passes r = true ↔ k.lastAbs.lookup d ≠ some p := by
  simp only [Sink.passes, h, bne_iff_ne]

theorem Sink.take_level (k : Sink) (r : Report) (l : Level) (v : Bool)
    (h : r.content = .inl (l, v)) : k.take r = k.setLevel l v := by
  simp only [Sink.take, h]

theorem Sink.take_abs (k : Sink) (r : Report) (d : Dev) (p : Byte)
    (h : r.content = .inr (d, p)) : k.take r = k.setAbs d p := by
  simp only [Sink.take, h]

/-- Settles O60: a report sets the level or the coordinate it carries, and the sink compares with
what it held before. -/
theorem sinkDropsRepeats : Obligations.SinkDropsRepeats := by
  refine ⟨⟨fun _ => rfl, fun _ => rfl⟩, fun _ _ _ _ => ⟨rfl, rfl, rfl, rfl⟩, fun k r l v h => ?_,
    fun k r d p h => ?_, fun _ => rfl, fun k r rest => ?_⟩
  · rw [k.take_level r l v h]
    exact ⟨k.passes_level r l v h, fun l' => k.level_setLevel l l' v, fun _ => rfl⟩
  · rw [k.take_abs r d p h]
    exact ⟨k.passes_abs r d p h, fun d' => k.lookup_setAbs d d' p, fun _ => rfl⟩
  · rw [Sink.view]
    split <;> rfl

end Sys2Proof.Machine
end

section
/-! PROOFS. What a build leaves in the bytes below the channel blocks (43_configuration.md R253, R255,
R258, R259): the shared masks lane by lane, and the event kinds of EVENT_MASK. -/

namespace Sys2Proof.Machine

/-! ### One event -/

/-- A channel field has no bit below the channel blocks. -/
theorem fieldBit_chan_low (f : ChanField) (c : Chan) (a j : Nat) (hj : j < 8) (ha : a < 24) :
    fieldBit (.chan f) c a j = false := by
  by_contra h
  have := (inBlock_of_fieldBit f c a j hj (by simpa using h)).1
  omega

/-- An event's configuration gives a code of either kind. -/
def EvCfg.coded (v : EvCfg) : Prop := v.key ≠ 0 ∨ v.sw ≠ 0

theorem bit_eventThresh_low (P : Params) (c : Chan) (e : Event) (v : EvCfg) (m m' : Memory)
    (h : eventThresh P c e v m = .ok m') (a j : Nat) (hj : j < 8) (ha : a < 24) :
    m'.bit P a j = m.bit P a j := by
  unfold eventThresh at h
  split at h
  · cases h; rfl
  · exact bit_setField_other P _ _ _ _ _ h a j hj (fieldBit_chan_low _ c a j hj ha)

theorem bit_eventHyst_low (P : Params) (c : Chan) (e : Event) (v : EvCfg) (m m' : Memory)
    (h : eventHyst P c e v m = .ok m') (a j : Nat) (hj : j < 8) (ha : a < 24) :
    m'.bit P a j = m.bit P a j := by
  unfold eventHyst at h
  split at h
  · cases h; rfl
  · split at h
    · cases h
    · exact bit_setField_other P _ _ _ _ _ h a j hj (fieldBit_chan_low _ c a j hj ha)

/-- A key code clears its kind's bit of EVENT_MASK (R258). -/
theorem bit_eventKey (P : Params) (c : Chan) (e : Event) (v : EvCfg) (b : Build) (a j : Nat)
    (hj : j < 8) :
    (eventKey P c e v b).img.bit P a j =
      if v.key ≠ 0 ∧ a = 5 ∧ j = e.kind.bit then false else b.img.bit P a j := by
  unfold eventKey
  split
  · rename_i h0
    rw [if_neg fun h => h.1 h0]
  · rename_i h0
    simp only [bit_setLane P _ .eventMask 5 _ rfl _ _ a j hj, ne_eq, h0, not_false_eq_true, true_and]

/-- So does a switch code. -/
theorem bit_eventSwitch (P : Params) (c : Chan) (e : Event) (v : EvCfg) (b b' : Build)
    (h : eventSwitch P c e v b = .ok b') (a j : Nat) (hj : j < 8) :
    b'.img.bit P a j = if v.sw ≠ 0 ∧ a = 5 ∧ j = e.kind.bit then false else b.img.bit P a j := by
  unfold eventSwitch at h
  split at h
  · rename_i h0
    cases h
    rw [if_neg fun h => h.1 h0]
  · rename_i h0
    split at h
    · cases h
    · cases h
      simp only [bit_setLane P _ .eventMask 5 _ rfl _ _ a j hj, ne_eq, h0, not_false_eq_true,
        true_and]

/-- Below the channel blocks an event clears its kind's bit of EVENT_MASK, if it gives a code. -/
theorem bit_buildEvent_low (P : Params) (c : Chan) (h : ChCfg) (b b' : Build) (e : Event)
    (hb : buildEvent P c h b e = .ok b') (a j : Nat) (hj : j < 8) (ha : a < 24) :
    (b'.img.bit P a j = true ↔
      b.img.bit P a j = true ∧ ¬(a = 5 ∧ j = e.kind.bit ∧ h.ev[e.id].coded)) := by
  obtain ⟨m₁, m₂, e1, e2, e3⟩ := buildEvent_ok P c h b b' e hb
  rw [bit_eventSwitch P c e _ _ b' e3 a j hj, bit_eventKey P c e _ _ a j hj,
    bit_eventHyst_low P c e _ m₁ m₂ e2 a j hj ha, bit_eventThresh_low P c e _ _ m₁ e1 a j hj ha]
  generalize h.ev[e.id] = v
  constructor
  · split
    · nofun
    · split
      · nofun
      · rename_i hs hk
        refine fun hbit => ⟨hbit, ?_⟩
        rintro ⟨h5, hbit', hk' | hs'⟩
        · exact hk ⟨hk', h5, hbit'⟩
        · exact hs ⟨hs', h5, hbit'⟩
  · rintro ⟨hbit, hn⟩
    rw [if_neg fun h => hn ⟨h.2.1, h.2.2, .inr h.1⟩, if_neg fun h => hn ⟨h.2.1, h.2.2, .inl h.1⟩]
    exact hbit

/-! ### One channel -/

/-- Some event of a list, of the kind with bit j, has a code in a channel's configuration. -/
def ChCfg.gives (h : ChCfg) (es : List Event) (j : Nat) : Prop :=
  ∃ e ∈ es, j = e.kind.bit ∧ h.ev[e.id].coded

theorem bit_buildEvents_low (P : Params) (c : Chan) (h : ChCfg) (es : List Event) (b b' : Build)
    (hb : buildEvents P c h b es = .ok b') (a j : Nat) (hj : j < 8) (ha : a < 24) :
    (b'.img.bit P a j = true ↔ b.img.bit P a j = true ∧ ¬(a = 5 ∧ h.gives es j)) := by
  induction es generalizing b with
  | nil =>
    cases hb
    simp [ChCfg.gives]
  | cons e rest ih =>
    simp only [buildEvents] at hb
    split at hb
    · cases hb
    · rename_i n hn
      have hgives : h.gives (e :: rest) j ↔
          (j = e.kind.bit ∧ h.ev[e.id].coded) ∨ h.gives rest j := List.exists_mem_cons_iff ..
      rw [ih n hb, bit_buildEvent_low P c h b n e hn a j hj ha, hgives]
      tauto

/-- What a channel's configuration leaves in its lane of byte a, over what the lane held (R255). -/
def ChCfg.lane (h : ChCfg) (a : Nat) (old : Bool) : Bool :=
  if a = 2 then true
  else if a = 4 then !h.reseedDisable
  else if a = 16 then h.blocking || old
  else if a = 18 then h.slider0 || old
  else if a = 19 then h.slider1 || old
  else old

/-- A flag that sets its lane when it is given and leaves it otherwise. -/
theorem bit_setLane_if (P : Params) (m : Memory) (f : SysField) (off : Nat) (k : Kind)
    (hf : sysDesc f = ⟨off, .byte, 7, 0, k⟩) (c : Nat) (on : Bool) (a j : Nat) (hj : j < 8) :
    (if on then setLane P m f c true else m).bit P a j =
      if a = off ∧ j = c then on || m.bit P a j else m.bit P a j := by
  cases on with
  | true => simp [bit_setLane P m f off k hf c true a j hj]
  | false => simp

theorem channelSlider1_ok (P : Params) (c : Chan) (h : ChCfg) (m m' : Memory)
    (hm : channelSlider1 P c h m = .ok m') :
    m' = if h.slider1 then setLane P m .slider1Sel c true else m := by
  unfold channelSlider1 at hm
  split at hm
  · rename_i hs
    split at hm
    · cases hm
    · cases hm
      rw [if_pos hs]
  · rename_i hs
    cases hm
    rw [if_neg hs]

/-- The presence flags and the slider-1 flag, lane by lane (R255). -/
theorem bit_channelFlags (P : Params) (c : Chan) (h : ChCfg) (m m' : Memory)
    (hm : channelSlider1 P c h (channelMasks P c h m) = .ok m') (a j : Nat) (hj : j < 8) :
    m'.bit P a j = if j = c.val then h.lane a (m.bit P a j) else m.bit P a j := by
  rw [channelSlider1_ok P c h _ m' hm, bit_setLane_if P _ .slider1Sel 19 _ rfl _ _ a j hj,
    channelMasks, bit_setLane_if P _ .slider0Sel 18 _ rfl _ _ a j hj,
    bit_setLane_if P _ .blocking 16 _ rfl _ _ a j hj, bit_setLane P _ .reseed 4 _ rfl _ _ a j hj,
    bit_setLane P _ .active 2 _ rfl _ _ a j hj]
  by_cases hc : j = c.val
  · simp only [hc, and_true, if_true, ChCfg.lane]
    by_cases h19 : a = 19
    · subst h19; rfl
    · by_cases h18 : a = 18
      · subst h18; rfl
      · by_cases h16 : a = 16
        · subst h16; rfl
        · by_cases h4 : a = 4
          · subst h4; rfl
          · simp only [h19, h18, h16, h4, if_false]
  · simp only [hc, and_false, if_false]

/-- Pin lists write no bit below the channel blocks. -/
theorem bit_channelPins_low (P : Params) (c : Chan) (f : ChanField) (off : Nat)
    (hf : chanDesc f = some ⟨off, .byte, 7, 0, .mask⟩) (pins : Option (List Nat)) (m m' : Memory)
    (h : channelPins P c f pins m = .ok m') (a j : Nat) (hj : j < 8) (ha : a < 24) :
    m'.bit P a j = m.bit P a j := by
  have hne : a ≠ chanBase c + off := by simp only [chanBase]; omega
  rw [bit_channelPins P c f off hf pins m m' h a j hj]
  cases pins with
  | none => rfl
  | some l => exact if_neg hne

/-- Below the channel blocks, one channel writes its lanes and the kinds it gives codes to. -/
theorem bit_buildChannel_low (P : Params) (c : Chan) (h : ChCfg) (b b' : Build)
    (hb : buildChannel P c h b = .ok b') (a j : Nat) (hj : j < 8) (ha : a < 24) :
    (b'.img.bit P a j = true ↔
      (if j = c.val then h.lane a (b.img.bit P a j) else b.img.bit P a j) = true ∧
        ¬(a = 5 ∧ h.gives Event.all j)) := by
  obtain ⟨m₁, m₂, m₃, m₄, e1, e2, e3, e4, e5⟩ := buildChannel_ok P c h b b' hb
  have hprops : m₄.bit P a j = m₃.bit P a j :=
    bit_applyProperties_other P _ c _ m₃ m₄ e4 a j hj fun q hq => by
      obtain ⟨f, hf, -⟩ := chanProperties_mem h q hq
      rw [hf, fieldBit_chan_low f c a j hj ha]
  rw [bit_buildEvents_low P c h _ _ b' e5 a j hj ha, hprops,
    bit_channelPins_low P c .txEn 1 rfl _ m₂ m₃ e3 a j hj ha,
    bit_channelPins_low P c .rxEn 0 rfl _ m₁ m₂ e2 a j hj ha,
    bit_channelFlags P c h b.img m₁ e1 a j hj]

/-! ### All channels -/

/-- What a record leaves in lane c of byte a: an absent channel leaves it as it is (R255). -/
def Cfg.lane (cfg : Cfg) (a : Nat) (c : Chan) (old : Bool) : Bool :=
  match cfg.ch[c] with
  | some h => h.lane a old
  | none => old

/-- Of the masks other than EVENT_MASK a channel writes its own lane alone. -/
theorem bit_buildChannel_lane (P : Params) (c : Chan) (h : ChCfg) (b b' : Build)
    (hb : buildChannel P c h b = .ok b') (a j : Nat) (hj : j < 8) (ha : a < 24) (h5 : a ≠ 5) :
    b'.img.bit P a j = if j = c.val then h.lane a (b.img.bit P a j) else b.img.bit P a j := by
  rw [Bool.eq_iff_iff, bit_buildChannel_low P c h b b' hb a j hj ha]
  exact and_iff_left fun hx => h5 hx.1

theorem bit_buildChannels_lane_other (P : Params) (cfg : Cfg) (cs : List Chan) (b b' : Build)
    (hb : buildChannels P cfg b cs = .ok b') (c : Chan) (hc : c ∉ cs) (a : Nat) (ha : a < 24)
    (h5 : a ≠ 5) : b'.img.bit P a c.val = b.img.bit P a c.val := by
  refine buildChannels_keeps P cfg (fun n => n.img.bit P a c.val = b.img.bit P a c.val) cs b b'
    (fun x hx h n n' _ hn hq => ?_) hb rfl
  have hne : c.val ≠ x.val := fun h => hc (Fin.ext h ▸ hx)
  rw [bit_buildChannel_lane P x h n n' hn a _ c.isLt ha h5, if_neg hne, hq]

theorem bit_buildChannels_lane (P : Params) (cfg : Cfg) (cs : List Chan) (hnd : cs.Nodup)
    (b b' : Build) (hb : buildChannels P cfg b cs = .ok b') (c : Chan) (hc : c ∈ cs) (a : Nat)
    (ha : a < 24) (h5 : a ≠ 5) :
    b'.img.bit P a c.val = cfg.lane a c (b.img.bit P a c.val) := by
  induction cs generalizing b with
  | nil => cases hc
  | cons x rest ih =>
    obtain ⟨hx, hrest⟩ := List.nodup_cons.mp hnd
    simp only [buildChannels] at hb
    by_cases hcx : c = x
    · subst hcx
      cases hh : cfg.ch[c] with
      | none =>
        simp only [hh] at hb
        rw [bit_buildChannels_lane_other P cfg rest b b' hb c hx a ha h5, Cfg.lane, hh]
      | some h =>
        simp only [hh] at hb
        split at hb
        · cases hb
        · rename_i n hn
          rw [bit_buildChannels_lane_other P cfg rest n b' hb c hx a ha h5,
            bit_buildChannel_lane P c h b n hn a _ c.isLt ha h5, if_pos rfl, Cfg.lane, hh]
    · have hc' : c ∈ rest := (List.mem_cons.mp hc).resolve_left hcx
      have hne : c.val ≠ x.val := fun h => hcx (Fin.ext h)
      split at hb
      · exact ih hrest b hb hc'
      · split at hb
        · cases hb
        · rename_i h _ _ n hn
          rw [ih hrest n hb hc', bit_buildChannel_lane P x h b n hn a _ c.isLt ha h5, if_neg hne]

/-- Some channel of a list gives a code to an event of the kind with bit j. -/
def Cfg.gives (cfg : Cfg) (cs : List Chan) (j : Nat) : Prop :=
  ∃ c ∈ cs, ∃ h, cfg.ch[c] = some h ∧ h.gives Event.all j

theorem bit_buildChannels_eventMask (P : Params) (cfg : Cfg) (cs : List Chan) (b b' : Build)
    (hb : buildChannels P cfg b cs = .ok b') (j : Nat) (hj : j < 8) :
    (b'.img.bit P 5 j = true ↔ b.img.bit P 5 j = true ∧ ¬cfg.gives cs j) := by
  induction cs generalizing b with
  | nil =>
    cases hb
    simp [Cfg.gives]
  | cons x rest ih =>
    have hgives : cfg.gives (x :: rest) j ↔
        (∃ h, cfg.ch[x] = some h ∧ h.gives Event.all j) ∨ cfg.gives rest j :=
      List.exists_mem_cons_iff ..
    simp only [buildChannels] at hb
    cases hh : cfg.ch[x] with
    | none =>
      simp only [hh] at hb
      rw [ih b hb, hgives]
      simp [hh]
    | some h =>
      simp only [hh] at hb
      split at hb
      · cases hb
      · rename_i n hn
        have hlane : (if j = x.val then h.lane 5 (b.img.bit P 5 j) else b.img.bit P 5 j) =
            b.img.bit P 5 j := ite_self _
        rw [ih n hb, hgives, bit_buildChannel_low P x h b n hn 5 j hj (by decide), hlane]
        simp only [hh, Option.some.injEq, exists_eq_left', true_and]
        tauto

/-! ### Before the channels: the clears and the system properties -/

/-- The masks cleared first (R253). -/
def clearedMasks (P : Params) (m : Memory) : Memory :=
  let m := setSysBits P (setSysBits P (setSysBits P m .active 0) .blocking 0) .slider0Sel 0
  if P.otpHold then m else setSysBits P m .slider1Sel 0

/-- The bytes of the masks cleared first. -/
abbrev clearedByte (P : Params) (a : Nat) : Prop :=
  a = 2 ∨ a = 16 ∨ a = 18 ∨ (a = 19 ∧ P.otpHold = false)

theorem bit_clearedMasks (P : Params) (m : Memory) (a j : Nat) (hj : j < 8) :
    (clearedMasks P m).bit P a j = if clearedByte P a then false else m.bit P a j := by
  have hthree : (setSysBits P (setSysBits P (setSysBits P m .active 0) .blocking 0)
      .slider0Sel 0).bit P a j = if a = 2 ∨ a = 16 ∨ a = 18 then false else m.bit P a j := by
    rw [bit_setSysBits_byte _ _ _ _ 18 _ rfl a j hj, bit_setSysBits_byte _ _ _ _ 16 _ rfl a j hj,
      bit_setSysBits_byte _ _ _ _ 2 _ rfl a j hj]
    by_cases h2 : a = 2 <;> by_cases h16 : a = 16 <;> by_cases h18 : a = 18 <;> simp [h2, h16, h18]
  simp only [clearedMasks]
  by_cases ho : P.otpHold = true
  · rw [if_pos ho, hthree]
    simp [ho]
  · rw [if_neg ho, bit_setSysBits_byte _ _ _ _ 19 _ rfl a j hj, hthree]
    by_cases h19 : a = 19 <;> simp [h19, ho]

/-- The initial clears (R253): the masks are 0, and every kind of EVENT_MASK is suppressed. -/
theorem bit_initialClears (P : Params) (m : Memory) (a j : Nat) (hj : j < 8) :
    (initialClears P m).bit P a j =
      if a = 5 ∧ j < 4 then true
      else if clearedByte P a then false
      else m.bit P a j := by
  have heq : initialClears P m = setSysBits P (clearedMasks P m) .eventMask
      ((maskOf P (clearedMasks P m) .eventMask ||| 0x0F#8).setWidth 16) := rfl
  rw [heq, bit_setSysBits_byte _ _ _ _ 5 _ rfl a j hj, bit_clearedMasks P m a j hj]
  by_cases ha : a = 5
  · subst ha
    have hlow : ∀ i < 8, (0x0F#8).getLsbD i = decide (i < 4) := by decide
    rw [if_pos rfl, BitVec.getLsbD_setWidth, BitVec.getLsbD_or, getLsbD_maskOf _ _ _ 5 _ rfl j hj,
      bit_clearedMasks P m 5 j hj, hlow j hj]
    by_cases h4 : j < 4 <;> simp [h4, show j < 16 by omega]
  · simp [ha]

/-- The system fields a record's properties set (R254). -/
def propertyFields : List SysField :=
  [.filtLpLta, .filtLpCnt, .filtNpLta, .filtNpCnt, .rateNp, .rateLp, .rateUlp, .timeoutPwr,
   .timeoutLta, .touchHold, .timeoutTap, .timeoutSwipe, .threshSwipe, .genPwrMode, .genClkDiv,
   .maAtiBandDisable, .maAtiLpOnly, .maAtiBandTighten, .maFiltDisable, .maTxFreq, .maGlobalCap,
   .mbReseedSel]

theorem sysProperties_fields (P : Params) (y : SysCfg) (q : Property)
    (hq : q ∈ sysProperties P y) : ∃ f ∈ propertyFields, q.field = .sys f := by
  have hl : (sysProperties P y).map Property.field = propertyFields.map RegField.sys := rfl
  obtain ⟨f, hf, he⟩ := List.mem_map.mp (hl ▸ List.mem_map_of_mem hq)
  exact ⟨f, hf, he.symm⟩

/-- Without OTP_HOLD the touch-hold property has no value (R254). -/
theorem touchHold_value (P : Params) (y : SysCfg) (q : Property) (hq : q ∈ sysProperties P y)
    (hf : q.field = .sys .touchHold) : q.value = if P.otpHold then y.touchHold else none := by
  revert q
  simp [sysProperties]

/-- The bytes that are shared masks, byte 19 among them. -/
def maskByte (a : Nat) : Bool := [2, 4, 5, 16, 18, 19].contains a

theorem maskByte_of_sharedBit (P : Params) (a j : Nat) (h : sharedBit P a j = true) :
    maskByte a = true := by
  simp only [sharedBit, Bool.or_eq_true, Bool.and_eq_true, beq_iff_eq] at h
  simp only [maskByte, List.contains_eq_mem, decide_eq_true_eq, List.mem_cons]
  tauto

/-- But for TOUCH_HOLD no system property has a bit in a shared mask, or a forced bit. -/
theorem propertyFields_apart (f : SysField) (hf : f ∈ propertyFields) (hne : f ≠ .touchHold)
    (a j : Nat) (hj : j < 8) (h : fieldBit (.sys f) 0 a j = true) :
    maskByte a = false ∧ forcedBit a j = false := by
  have key : ∀ f ∈ propertyFields, f ≠ .touchHold → ∀ a < 24, ∀ j < 8,
      fieldBit (.sys f) 0 a j = true → maskByte a = false ∧ forcedBit a j = false := by
    decide +kernel
  exact key f hf hne a (below_of_fieldBit_sys f 0 a j hj h) j hj h

/-- The system properties leave the shared bits (R254). -/
theorem bit_sysProperties_shared (P : Params) (y : SysCfg) (m m' : Memory)
    (h : applyProperties P sysScope 0 m (sysProperties P y) = .ok m') (a j : Nat) (hj : j < 8)
    (hs : sharedBit P a j = true) : m'.bit P a j = m.bit P a j := by
  refine applyProperties_keeps P sysScope 0 (fun n => n.bit P a j = m.bit P a j) _ m m'
    (fun q hq v n n' hv hset hn => (bit_setField_other P n n' q.field 0 v hset a j hj ?_).trans hn)
    h rfl
  obtain ⟨f, hf, he⟩ := sysProperties_fields P y q hq
  rw [he, Bool.eq_false_iff]
  intro hbit
  by_cases hne : f = .touchHold
  · subst hne
    have hotp : P.otpHold = true := by
      rw [touchHold_value P y q hq he] at hv
      cases ho : P.otpHold with
      | true => rfl
      | false => simp [ho] at hv
    have h19 : a = 19 := by
      rw [fieldBit_of_desc _ 0 _ rfl, writable_of_ne _ _ (by simp)] at hbit
      have hrange := Desc.covers_range _ a j hbit
      simp only [sysDesc, Width.bytes] at hrange
      omega
    subst h19
    simp [sharedBit, hotp] at hs
  · have := (propertyFields_apart f hf hne a j hj hbit).1
    rw [maskByte_of_sharedBit P a j hs] at this
    cases this

/-! ### The build -/

/-- The image of a build before its gestures and the forcing, with the memory its channels start
from. -/
theorem cfgBuild_img (P : Params) (img : Memory) (cfg : Cfg) (b : Build)
    (hb : cfgBuild P img cfg = .ok b) :
    ∃ b₀ b₁ : Build, buildChannels P cfg b₀ channels = .ok b₁ ∧
      (∀ a j, j < 8 → sharedBit P a j = true →
        b₀.img.bit P a j = (initialClears P img).bit P a j) ∧
      b.img = forceImage P cfg.slCode (buildGestures P cfg b₁.img) true (holdSpecified P cfg) := by
  obtain ⟨m, b₁, hm, hch, rfl⟩ := cfgBuild_ok P img cfg b hb
  exact ⟨_, b₁, hch, fun a j hj hs => bit_sysProperties_shared P _ _ m hm a j hj hs, rfl⟩

/-- The forcing leaves the shared bits. -/
theorem bit_forceImage_shared (P : Params) (codes : SliderCodes) (m : Memory) (redo hs : Bool)
    (a j : Nat) (hj : j < 8) (h : sharedBit P a j = true) :
    (forceImage P codes m redo hs).bit P a j = m.bit P a j := by
  have hforced : forcedBit a j = false := by
    have hmask := maskByte_of_sharedBit P a j h
    simp only [maskByte, List.contains_eq_mem, decide_eq_true_eq, List.mem_cons, List.not_mem_nil,
      or_false] at hmask
    rcases hmask with rfl | rfl | rfl | rfl | rfl | rfl <;> rfl
  rw [bit_forceImage_other P codes m redo hs a j hj hforced, if_neg]
  rintro ⟨rfl, hr⟩
  obtain ⟨hotp, -⟩ := (reappliesHold_iff P hs).mp hr
  simp [sharedBit, hotp] at h

/-- Gesture codes un-suppress gestures (R259). -/
theorem bit_buildGestures (P : Params) (cfg : Cfg) (m : Memory) (a j : Nat) (hj : j < 8) :
    (buildGestures P cfg m).bit P a j =
      if (a = 5 ∧ j = 3) ∧ ∃ (i : SliderIx) (g : Gesture), cfg.slCode[i][g] ≠ 0 then false
      else m.bit P a j := by
  have hany : sliders.any (anyGestureCode cfg.slCode) = true ↔
      ∃ (i : SliderIx) (g : Gesture), cfg.slCode[i][g] ≠ 0 := by
    simp only [List.any_eq_true, anyGestureCode_iff]
    exact ⟨fun ⟨i, _, h⟩ => ⟨i, h⟩,
      fun ⟨i, h⟩ => ⟨i, (by decide : ∀ i : SliderIx, i ∈ sliders) i, h⟩⟩
  unfold buildGestures
  by_cases hc : sliders.any (anyGestureCode cfg.slCode) = true
  · rw [if_pos hc, bit_setLane P m .eventMask 5 _ rfl 3 false a j hj]
    simp only [hany.mp hc, and_true]
  · rw [if_neg hc, if_neg fun h => hc (hany.mpr h.2)]

/-- A shared mask other than EVENT_MASK after a build: each lane as the clears left it, and then as
its channel's configuration says (R253, R255). -/
theorem bit_cfgBuild_lane (P : Params) (img : Memory) (cfg : Cfg) (b : Build)
    (hb : cfgBuild P img cfg = .ok b) (c : Chan) (a : Nat) (h5 : a ≠ 5)
    (hs : sharedBit P a c.val = true) :
    b.img.bit P a c.val =
      cfg.lane a c (if clearedByte P a then false else img.bit P a c.val) := by
  obtain ⟨b₀, b₁, hch, hstart, himg⟩ := cfgBuild_img P img cfg b hb
  have ha : a < 24 := by
    have hmask := maskByte_of_sharedBit P a c.val hs
    simp only [maskByte, List.contains_eq_mem, decide_eq_true_eq, List.mem_cons, List.not_mem_nil,
      or_false] at hmask
    omega
  rw [himg, bit_forceImage_shared P _ _ _ _ a _ c.isLt hs, bit_buildGestures P cfg _ a _ c.isLt,
    if_neg fun h => h5 h.1.1, bit_buildChannels_lane P cfg channels (by decide) b₀ b₁ hch c
      (mem_channels c) a ha h5, hstart a _ c.isLt hs, bit_initialClears P img a _ c.isLt,
    if_neg fun h => h5 h.1]

/-- A bit of EVENT_MASK after a build: 1 (suppressed) unless some code of the kind is given (R253,
R258, R259). -/
theorem bit_cfgBuild_eventMask (P : Params) (img : Memory) (cfg : Cfg) (b : Build)
    (hb : cfgBuild P img cfg = .ok b) (j : Nat) (hj : j < 4) :
    (b.img.bit P 5 j = false ↔ cfg.gives channels j ∨
      (j = 3 ∧ ∃ (i : SliderIx) (g : Gesture), cfg.slCode[i][g] ≠ 0)) := by
  obtain ⟨b₀, b₁, hch, hstart, himg⟩ := cfgBuild_img P img cfg b hb
  have hj8 : j < 8 := by omega
  have hs : sharedBit P 5 j = true := by simp [sharedBit, hj]
  have hstart5 : b₀.img.bit P 5 j = true := by
    rw [hstart 5 j hj8 hs, bit_initialClears P img 5 j hj8, if_pos ⟨rfl, hj⟩]
  have hmask := bit_buildChannels_eventMask P cfg channels b₀ b₁ hch j hj8
  rw [hstart5] at hmask
  rw [himg, bit_forceImage_shared P _ _ _ _ 5 j hj8 hs, bit_buildGestures P cfg _ 5 j hj8]
  by_cases hg : (5 = 5 ∧ j = 3) ∧ ∃ (i : SliderIx) (g : Gesture), cfg.slCode[i][g] ≠ 0
  · rw [if_pos hg]
    exact iff_of_true rfl (.inr ⟨hg.1.2, hg.2⟩)
  · rw [if_neg hg, ← Bool.not_eq_true, hmask, eq_self, true_and, not_not]
    exact (or_iff_left fun h => hg ⟨⟨rfl, h.1⟩, h.2⟩).symm

end Sys2Proof.Machine
end

section
/-! PROOFS. What a build stores in the fields of the image (43_configuration.md R254 to R258, R280):
system properties, channel properties and events, pin lists, and the bits it keeps. -/

namespace Sys2Proof.Machine

/-! ### The value a property list gives a field -/

/-- The value the first property of a field gives it, if it gives one. -/
def propertyValue (ps : List Property) (f : RegField) : Option Nat :=
  (ps.find? (fun q => q.field == f)).bind Property.value

/-- A property list of fields that lie apart stores in a field the value it gives it. -/
theorem stored_applyProperties_value (P : Params) (scope : Nat) (c : Chan) (ps : List Property)
    (m m' : Memory) (h : applyProperties P scope c m ps = .ok m')
    (hm : ∀ q ∈ ps, q.field ≠ .sys .eventMask)
    (hp : ps.Pairwise (fun x y => disjointFields x.field c y.field c)) (f : RegField)
    (hf : f ≠ .sys .eventMask) (hd : ∀ q ∈ ps, q.field ≠ f → disjointFields q.field c f c) :
    m'.stored P f c = afterProperty P f (propertyValue ps f) (m.stored P f c) := by
  cases hq : ps.find? (fun q => q.field == f) with
  | none =>
    have hne : ∀ q ∈ ps, q.field ≠ f := by simpa using hq
    rw [propertyValue, hq]
    exact stored_applyProperties_other P scope c c ps m m' h f hf fun q hq' =>
      hd q hq' (hne q hq')
  | some q =>
    have hfield : q.field = f := by simpa using List.find?_some hq
    subst hfield
    rw [propertyValue, hq]
    exact stored_applyProperties P scope c ps m m' h hm hp q (List.mem_of_find?_eq_some hq)

/-- One property over another: the later one's value wins. -/
theorem afterProperty_or (P : Params) (f : RegField) (u v : Option Nat) (old : Nat) :
    afterProperty P f u (afterProperty P f v old) = afterProperty P f (u.or v) old := by
  cases u <;> rfl

/-- A field that stores its value over a divisor. -/
theorem afterProperty_eq_builtValue (P : Params) (f : RegField) (v : Option Nat) (d old : Nat)
    (hd : ∀ x, storedValue P f x = x / d) : afterProperty P f v old = builtValue v d old := by
  cases v with
  | none => rfl
  | some x => exact hd x

theorem flag_eq (b : Option Bool) : flag b = b.map Bool.toNat := by
  cases b with
  | none => rfl
  | some x => cases x <;> rfl

/-! ### System fields -/

/-- A bit outside the shared masks and the forced bits, in no block of a channel the record holds and
of no system property, is kept. -/
theorem bit_cfgBuild_kept (P : Params) (img : Memory) (cfg : Cfg) (b : Build)
    (hb : cfgBuild P img cfg = .ok b) (a j : Nat) (hj : j < 8) (hs : sharedBit P a j = false)
    (hf : forcedBit a j = false) (h19 : a ≠ 19)
    (hblock : ∀ c h, cfg.ch[c] = some h → ¬inBlock c a)
    (hsys : ∀ f ∈ propertyFields, fieldBit (.sys f) 0 a j = false) :
    b.img.bit P a j = img.bit P a j := by
  obtain ⟨m, hm, hout⟩ := bit_cfgBuild_outside P img cfg b hb
  rw [hout a j hj hs hf hblock, if_neg fun h => h19 h.1,
    bit_applyProperties_other P _ 0 _ _ m hm a j hj, bit_initialClears_other P img a j hj hs]
  intro q hq
  obtain ⟨f, hf', he⟩ := sysProperties_fields P _ q hq
  rw [he, hsys f hf']

theorem maskByte_eq_false (P : Params) (a j : Nat) (h : maskByte a = false) :
    sharedBit P a j = false := by
  rw [Bool.eq_false_iff]
  intro hs
  rw [maskByte_of_sharedBit P a j hs] at h
  cases h

/-- A system field that a property sets holds, after a build, the value the record gives it (R254). -/
theorem stored_cfgBuild_sys (P : Params) (img : Memory) (cfg : Cfg) (b : Build)
    (hb : cfgBuild P img cfg = .ok b) (f : SysField) (hf : f ∈ propertyFields)
    (hne : f ≠ .touchHold) :
    b.img.stored P (.sys f) 0 =
      afterProperty P (.sys f) (propertyValue (sysProperties P cfg.sys) (.sys f))
        (img.stored P (.sys f) 0) := by
  obtain ⟨m, hm, hout⟩ := bit_cfgBuild_outside P img cfg b hb
  have hplain : isRawField (.sys f) = false ∧ f ≠ .eventMask ∧ f ≠ .slider1Sel :=
    (by decide : ∀ g ∈ propertyFields, isRawField (.sys g) = false ∧ g ≠ .eventMask ∧
      g ≠ .slider1Sel) f hf
  obtain ⟨hraw, hmask, hslider⟩ := hplain
  have hmask' : RegField.sys f ≠ .sys .eventMask := fun h => hmask (RegField.sys.inj h)
  obtain ⟨happart, hpairs⟩ := sysProperties_apart P cfg.sys
  have hbuilt : b.img.stored P (.sys f) 0 = m.stored P (.sys f) 0 :=
    stored_congr P _ _ _ 0 hmask' fun a j hj hbit => by
      obtain ⟨hbyte, hforced⟩ := propertyFields_apart f hf hne a j hj hbit
      have hlow := below_of_fieldBit_sys f 0 a j hj hbit
      have h19 : a ≠ 19 := fun h => by subst h; cases hbyte
      rw [hout a j hj (maskByte_eq_false P a j hbyte) hforced (fun c _ _ hin => by omega),
        if_neg fun h => h19 h.1]
  have hclears : (initialClears P img).stored P (.sys f) 0 = img.stored P (.sys f) 0 :=
    stored_congr P _ _ _ 0 hmask' fun a j hj hbit =>
      bit_initialClears_other P img a j hj
        (maskByte_eq_false P a j (propertyFields_apart f hf hne a j hj hbit).1)
  rw [hbuilt, ← hclears]
  refine stored_applyProperties_value P _ 0 _ _ m hm happart hpairs _ hmask' fun q hq hq' => ?_
  obtain ⟨g, hg, he⟩ := sysProperties_fields P _ q hq
  rw [he] at hq' ⊢
  exact disjoint_sys g f 0 0 ((by decide : ∀ g ∈ propertyFields, isRawField (.sys g) = false) g hg)
    hraw (fun h => hq' (congrArg _ h)) (fun h => hne h.2) (fun h => hslider h.2)

/-- The divisor of a system field: 1 where its value is stored as it is (41_field_codec.md R156). -/
def fieldDivisor (P : Params) (f : SysField) : Nat :=
  match (sysDesc f).kind with
  | .scaled k => k.value P
  | .bool | .uint | .mask | .raw | .atiBase => 1

theorem storedValue_sys (P : Params) (f : SysField) (x : Nat) :
    storedValue P (.sys f) x = x / fieldDivisor P f := by
  have hbase : (sysDesc f).kind ≠ .atiBase := by cases f <;> nofun
  simp only [storedValue, fieldDesc, Desc.storedAs, fieldDivisor]
  cases hk : (sysDesc f).kind with
  | scaled k => rfl
  | atiBase => exact absurd hk hbase
  | bool | uint | mask | raw => exact (Nat.div_one x).symm

/-- TOUCH_HOLD is the whole of byte 19. -/
theorem stored_touchHold (P : Params) (m : Memory) :
    m.stored P (.sys .touchHold) 0 = (m.read P 19).toNat := by
  have hbits : m.stored P (.sys .touchHold) 0 = (m.read P 19).toNat / 2 ^ 0 % 2 ^ 8 := rfl
  have := (m.read P 19).isLt
  omega

/-- What the system properties leave in byte 19, while it is TOUCH_HOLD (R254). -/
theorem read_sysProperties_touchHold (P : Params) (img m : Memory) (y : SysCfg)
    (hm : applyProperties P sysScope 0 (initialClears P img) (sysProperties P y) = .ok m)
    (ho : P.otpHold = true) :
    m.read P 19 =
      (match y.touchHold with
        | some v => BitVec.ofNat 8 (v / 256)
        | none => img.read P 19) := by
  have hclears : (initialClears P img).read P 19 = img.read P 19 :=
    Memory.read_ext P _ _ 19 fun j hj => bit_initialClears_other P img 19 j hj (by
      simp [sharedBit, ho])
  obtain ⟨happart, hpairs⟩ := sysProperties_apart P y
  have hq : (⟨9, .sys .touchHold, y.touchHold⟩ : Property) ∈ sysProperties P y := by
    simp [sysProperties, ho]
  have hstored := stored_applyProperties P _ 0 _ _ m hm happart hpairs _ hq
  simp only [stored_touchHold, hclears] at hstored
  apply BitVec.eq_of_toNat_eq
  rw [hstored]
  have hlt := (m.read P 19).isLt
  cases hv : y.touchHold with
  | none => rfl
  | some v =>
    have hcode : (m.read P 19).toNat = v / 256 := by
      rw [hstored, hv]
      rfl
    simp only [BitVec.toNat_ofNat]
    rw [Nat.mod_eq_of_lt (hcode ▸ hlt)]
    rfl

/-- Byte 19 after a build, while it is TOUCH_HOLD (R254, R280). -/
theorem read_cfgBuild_touchHold (P : Params) (img : Memory) (cfg : Cfg) (b : Build)
    (hb : cfgBuild P img cfg = .ok b) (ho : P.otpHold = true) :
    b.img.read P 19 =
      (match cfg.sys.touchHold with
        | some v => BitVec.ofNat 8 (v / 256)
        | none => if P.fwRev < P.fwHoldFixMin then P.touchHoldDefault else img.read P 19) := by
  obtain ⟨m, hm, hout⟩ := bit_cfgBuild_outside P img cfg b hb
  have hm19 := read_sysProperties_touchHold P img m cfg.sys hm ho
  have hbit : ∀ j, j < 8 → b.img.bit P 19 j =
      if 19 = 19 ∧ reappliesHold P (holdSpecified P cfg) = true then P.touchHoldDefault.getLsbD j
      else m.bit P 19 j := fun j hj =>
    hout 19 j hj (by simp [sharedBit, ho]) rfl fun c _ _ hin => by omega
  have hreapply : reappliesHold P (holdSpecified P cfg) = true ↔
      cfg.sys.touchHold = none ∧ P.fwRev < P.fwHoldFixMin := by
    rw [reappliesHold_iff, holdSpecified, ho]
    simp
  by_cases hr : cfg.sys.touchHold = none ∧ P.fwRev < P.fwHoldFixMin
  · rw [hr.1]
    simp only [if_pos hr.2]
    exact byte_ext _ _ fun j hj => (hbit j hj).trans (if_pos ⟨rfl, hreapply.mpr hr⟩)
  · have hread : b.img.read P 19 = m.read P 19 := Memory.read_ext P _ _ 19 fun j hj =>
      (hbit j hj).trans (if_neg fun h => hr (hreapply.mp h.2))
    rw [hread, hm19]
    cases hv : cfg.sys.touchHold with
    | some v => rfl
    | none => simp only [if_neg fun h => hr ⟨hv, h⟩]

end Sys2Proof.Machine
end

section
/-! PROOFS. What a build stores in a channel's block (43_configuration.md R255 to R258): engine, ATI
and association properties, thresholds and hysteresis, pin lists. -/

namespace Sys2Proof.Machine

/-! ### The value a channel's configuration gives a field -/

/-- The value a channel's events give a field: the last event that gives one wins (R258). -/
def ChCfg.eventValue (h : ChCfg) (es : List Event) (f : ChanField) (start : Option Nat) :
    Option Nat :=
  es.foldl (fun v e => (h.ev[e.id].writes e f).or v) start

/-- The value a channel's configuration gives a field (R256 to R258). -/
def ChCfg.value (h : ChCfg) (f : ChanField) : Option Nat :=
  (h.eventValue Event.all f none).or (propertyValue (chanProperties h) (.chan f))

/-- Events one over another are one property with the last event's value. -/
theorem foldl_afterProperty (P : Params) (h : ChCfg) (f : ChanField) (es : List Event)
    (v : Option Nat) (old : Nat) :
    es.foldl (fun x e => afterProperty P (.chan f) (h.ev[e.id].writes e f) x)
      (afterProperty P (.chan f) v old) = afterProperty P (.chan f) (h.eventValue es f v) old := by
  induction es generalizing v with
  | nil => rfl
  | cons e rest ih =>
    rw [List.foldl_cons, afterProperty_or, ih]
    rfl

/-! ### One channel -/

/-- A channel's flags and pin lists leave what the image holds for its other fields (R255). -/
theorem stored_channelFlags (P : Params) (c : Chan) (h : ChCfg) (m m' : Memory)
    (hm : channelSlider1 P c h (channelMasks P c h m) = .ok m') (f : ChanField) :
    m'.stored P (.chan f) c = m.stored P (.chan f) c :=
  stored_congr P _ _ _ c (by simp) fun a j hj hbit => by
    have hs := not_sharedBit_of_chan P f c a j hj hbit
    rw [bit_channelSlider1_other P c h _ m' hm a j hj hs, bit_channelMasks_other P c h m a j hj hs]

theorem stored_channelPins_other (P : Params) (c : Chan) (g : ChanField) (pins : Option (List Nat))
    (m m' : Memory) (hm : channelPins P c g pins m = .ok m') (f : ChanField)
    (hg : isRawField (.chan g) = false) (hf : isRawField (.chan f) = false) (hne : g ≠ f) :
    m'.stored P (.chan f) c = m.stored P (.chan f) c := by
  unfold channelPins at hm
  split at hm
  · cases hm; rfl
  · split at hm
    · cases hm
    · exact stored_setField_other P _ _ _ _ c c _ (by simp) (disjoint_chan g f c c hg hf hne) hm

/-- A field of a channel holds, after the channel's step, the value its configuration gives it. -/
theorem stored_buildChannel (P : Params) (c : Chan) (h : ChCfg) (b b' : Build)
    (hb : buildChannel P c h b = .ok b') (f : ChanField) (hf : isRawField (.chan f) = false)
    (hrx : ChanField.rxEn ≠ f) (htx : ChanField.txEn ≠ f) :
    b'.img.stored P (.chan f) c =
      afterProperty P (.chan f) (h.value f) (b.img.stored P (.chan f) c) := by
  obtain ⟨m₁, m₂, m₃, m₄, e1, e2, e3, e4, e5⟩ := buildChannel_ok P c h b b' hb
  obtain ⟨happart, hpairs⟩ := chanProperties_apart h c
  have hprops : m₄.stored P (.chan f) c =
      afterProperty P (.chan f) (propertyValue (chanProperties h) (.chan f))
        (m₃.stored P (.chan f) c) := by
    refine stored_applyProperties_value P _ c _ m₃ m₄ e4 happart hpairs _ (by simp) fun q hq hq' => ?_
    obtain ⟨g, he, hg, -⟩ := chanProperties_mem h q hq
    rw [he] at hq' ⊢
    exact disjoint_chan g f c c hg hf fun h => hq' (congrArg _ h)
  rw [stored_buildEvents P c h _ _ b' e5 f hf, ChCfg.value, ← afterProperty_or,
    ← foldl_afterProperty, ← stored_channelFlags P c h b.img m₁ e1 f,
    ← stored_channelPins_other P c .rxEn _ m₁ m₂ e2 f rfl hf hrx,
    ← stored_channelPins_other P c .txEn _ m₂ m₃ e3 f rfl hf htx, ← hprops]
  rfl

/-- The pin masks of a channel after its step (R251, R255). -/
theorem bit_buildChannel_pins (P : Params) (c : Chan) (h : ChCfg) (b b' : Build)
    (hb : buildChannel P c h b = .ok b') (q : Nat) (hq : q < 8) :
    b'.img.bit P (24 + 14 * c.val) q =
      (match h.rxPins with
        | some l => decide (q ∈ l) | none => b.img.bit P (24 + 14 * c.val) q) ∧
    b'.img.bit P (24 + 14 * c.val + 1) q =
      (match h.txPins with
        | some l => decide (q ∈ l) | none => b.img.bit P (24 + 14 * c.val + 1) q) := by
  obtain ⟨m₁, m₂, m₃, m₄, e1, e2, e3, e4, e5⟩ := buildChannel_ok P c h b b' hb
  have hfields : ∀ f ∈ builtFields, f ≠ .rxEn → f ≠ .txEn → ∀ c : Chan, ∀ o < 2, ∀ j < 8,
      fieldBit (.chan f) c (24 + 14 * c.val + o) j = false := by decide +kernel
  have hkept : ∀ o < 2, b'.img.bit P (24 + 14 * c.val + o) q = m₃.bit P (24 + 14 * c.val + o) q := by
    intro o ho
    have hin : inBlock c (24 + 14 * c.val + o) := ⟨by omega, by omega⟩
    rw [bit_buildEvents_other P c h _ _ b' e5 _ q hq (not_sharedBit_of_inBlock P c _ q hin),
      bit_applyProperties_other P _ c _ m₃ m₄ e4 _ q hq]
    · intro p hp
      obtain ⟨f, he, -, hmem⟩ := chanProperties_mem h p hp
      rw [he]
      obtain ⟨hbuilt, hrx, htx⟩ := (by decide : ∀ g ∈ ([.eaMeasCap, .localCapSize, .eaPolarity,
        .eaSenseMode, .ebSenseFreq, .eaBias, .eaAtiMode, .ebAtiBase, .ebAtiTarget, .assocSel,
        .assocWeight] : List ChanField), g ∈ builtFields ∧ g ≠ .rxEn ∧ g ≠ .txEn) f hmem
      exact hfields f hbuilt hrx htx c o ho q hq
    · intro f hmem
      obtain ⟨hbuilt, hrx, htx⟩ := (by decide : ∀ g ∈ ([.threshProx, .threshTouch, .threshDeep,
        .hystTouch, .hystDeep] : List ChanField), g ∈ builtFields ∧ g ≠ .rxEn ∧ g ≠ .txEn) f hmem
      exact hfields f hbuilt hrx htx c o ho q hq
  have hflags : ∀ o < 2, m₁.bit P (24 + 14 * c.val + o) q = b.img.bit P (24 + 14 * c.val + o) q := by
    intro o ho
    have hin : inBlock c (24 + 14 * c.val + o) := ⟨by omega, by omega⟩
    have hs := not_sharedBit_of_inBlock P c _ q hin
    rw [bit_channelSlider1_other P c h _ m₁ e1 _ q hq hs, bit_channelMasks_other P c h _ _ q hq hs]
  have hrx := fun a => bit_channelPins P c .rxEn 0 rfl h.rxPins m₁ m₂ e2 a q hq
  have htx := fun a => bit_channelPins P c .txEn 1 rfl h.txPins m₂ m₃ e3 a q hq
  constructor
  · have h0 := hkept 0 (by decide)
    have f0 := hflags 0 (by decide)
    simp only [Nat.add_zero] at h0 f0
    rw [h0, htx, hrx, f0]
    cases h.rxPins <;> cases h.txPins <;> simp [chanBase]
  · rw [hkept 1 (by decide), htx, hrx, hflags 1 (by decide)]
    cases h.rxPins <;> cases h.txPins <;> simp [chanBase]

/-! ### A channel of a build -/

/-- A field of a channel the record holds, after a build (R255 to R258). -/
theorem stored_cfgBuild_chan (P : Params) (img : Memory) (cfg : Cfg) (b : Build)
    (hb : cfgBuild P img cfg = .ok b) (c : Chan) (h : ChCfg) (hc : cfg.ch[c] = some h)
    (f : ChanField) (hf : isRawField (.chan f) = false) (hrx : ChanField.rxEn ≠ f)
    (htx : ChanField.txEn ≠ f) :
    b.img.stored P (.chan f) c =
      afterProperty P (.chan f) (h.value f) (img.stored P (.chan f) c) := by
  obtain ⟨n, n', hn, hbits⟩ := cfgBuild_block P img cfg b hb c h hc
  have hbefore : n.img.stored P (.chan f) c = img.stored P (.chan f) c :=
    stored_congr P _ _ _ c (by simp) fun a j hj hbit =>
      (hbits a j hj (inBlock_of_fieldBit f c a j hj hbit)).1
  have hafter : b.img.stored P (.chan f) c = n'.img.stored P (.chan f) c :=
    stored_congr P _ _ _ c (by simp) fun a j hj hbit =>
      (hbits a j hj (inBlock_of_fieldBit f c a j hj hbit)).2
  rw [hafter, stored_buildChannel P c h n n' hn f hf hrx htx, hbefore]

/-- The pin masks of a channel the record holds, after a build (R251, R255). -/
theorem bit_cfgBuild_pins (P : Params) (img : Memory) (cfg : Cfg) (b : Build)
    (hb : cfgBuild P img cfg = .ok b) (c : Chan) (h : ChCfg) (hc : cfg.ch[c] = some h) (q : Nat)
    (hq : q < 8) :
    b.img.bit P (24 + 14 * c.val) q =
      (match h.rxPins with
        | some l => decide (q ∈ l) | none => img.bit P (24 + 14 * c.val) q) ∧
    b.img.bit P (24 + 14 * c.val + 1) q =
      (match h.txPins with
        | some l => decide (q ∈ l) | none => img.bit P (24 + 14 * c.val + 1) q) := by
  obtain ⟨n, n', hn, hbits⟩ := cfgBuild_block P img cfg b hb c h hc
  have h0 := hbits (24 + 14 * c.val) q hq ⟨by omega, by omega⟩
  have h1 := hbits (24 + 14 * c.val + 1) q hq ⟨by omega, by omega⟩
  rw [h0.2, h1.2, ← h0.1, ← h1.1]
  exact bit_buildChannel_pins P c h n n' hn q hq

/-! ### What a build keeps -/

/-- A bit of a channel block is no bit of a system field. -/
theorem fieldBit_sys_inBlock (f : SysField) (c e : Chan) (a j : Nat) (hj : j < 8)
    (ha : inBlock c a) : fieldBit (.sys f) e a j = false := by
  rw [Bool.eq_false_iff]
  intro hbit
  have := below_of_fieldBit_sys f e a j hj hbit
  omega

/-- A channel the record does not hold keeps its block (R255). -/
theorem bit_cfgBuild_absent (P : Params) (img : Memory) (cfg : Cfg) (b : Build)
    (hb : cfgBuild P img cfg = .ok b) (c : Chan) (hc : cfg.ch[c] = none) (a j : Nat) (hj : j < 8)
    (ha : inBlock c a) : b.img.bit P a j = img.bit P a j := by
  refine bit_cfgBuild_kept P img cfg b hb a j hj (not_sharedBit_of_inBlock P c a j ha)
    (not_forcedBit_of_inBlock c a j ha) (by omega) (fun e h he => ?_)
    fun f _ => fieldBit_sys_inBlock f c 0 a j hj ha
  refine not_inBlock_of_ne c e a (fun hce => ?_) ha
  subst hce
  cases hc.symm.trans he

/-- A reserved bit is in no shared mask, and is not forced (10_state.md R45). -/
theorem reservedBit_apart (P : Params) (a j : Nat) (hj : j < 8) (hr : reservedBit a j = true) :
    sharedBit P a j = false ∧ forcedBit a j = false ∧ a ≠ 19 := by
  have keyMask : ∀ a < 24, ∀ j < 8, reservedBit a j = true → maskByte a = false ∨ a = 5 ∧ 4 ≤ j := by
    decide
  have keyForced : ∀ a < 24, ∀ j < 8, reservedBit a j = true → forcedBit a j = false ∧ a ≠ 19 := by
    decide
  by_cases ha : a < 24
  · obtain ⟨hforced, h19⟩ := keyForced a ha j hj hr
    have hmask := keyMask a ha j hj hr
    refine ⟨?_, hforced, h19⟩
    rcases hmask with hmask | ⟨rfl, h4⟩
    · exact maskByte_eq_false P a j hmask
    · simp [sharedBit, h4]
  · have hne : ∀ n, n < 24 → (a == n) = false := fun n hn => beq_false_of_ne (by omega)
    exact ⟨by simp [sharedBit, hne], by simp [forcedBit, hne], by omega⟩

/-- Every reserved bit is kept (R45). -/
theorem bit_cfgBuild_reserved (P : Params) (img : Memory) (cfg : Cfg) (b : Build)
    (hb : cfgBuild P img cfg = .ok b) (a j : Nat) (hj : j < 8) (hr : reservedBit a j = true) :
    b.img.bit P a j = img.bit P a j := by
  obtain ⟨hshared, hforced, h19⟩ := reservedBit_apart P a j hj hr
  by_cases hin : ∃ c h, cfg.ch[c] = some h ∧ inBlock c a
  · obtain ⟨c, h, hc, ha⟩ := hin
    obtain ⟨n, n', hn, hbits⟩ := cfgBuild_block P img cfg b hb c h hc
    obtain ⟨hbefore, hafter⟩ := hbits a j hj ha
    have hnamed : ∀ f ∈ builtFields, isRawField (.chan f) = false := by decide
    rw [hafter, ← hbefore]
    exact bit_buildChannel_other P c h n n' hn a j hj hshared fun f hf =>
      reservedBit_not_chan f c a j (hnamed f hf) hj hr
  · have hnamed : ∀ f ∈ propertyFields, isRawField (.sys f) = false := by decide
    exact bit_cfgBuild_kept P img cfg b hb a j hj hshared hforced h19
      (fun c h hc ha => hin ⟨c, h, hc, ha⟩) fun f hf =>
        reservedBit_not_sys f 0 a j (hnamed f hf) hj hr

end Sys2Proof.Machine
end

section
/-! PROOFS. The image of a build, put together (43_configuration.md R253 to R259, R261, R280). -/

namespace Sys2Proof.Machine

/-- The shared masks' lanes of a channel (R253, R255). -/
theorem cfgBuild_lanes (P : Params) (img : Memory) (cfg : Cfg) (b : Build)
    (hb : cfgBuild P img cfg = .ok b) (c : Chan) :
    b.img.bit P 2 c.val = cfg.ch[c].isSome ∧
    b.img.bit P 4 c.val =
      (match cfg.ch[c] with | some h => !h.reseedDisable | none => img.bit P 4 c.val) ∧
    b.img.bit P 16 c.val = (match cfg.ch[c] with | some h => h.blocking | none => false) ∧
    b.img.bit P 18 c.val = (match cfg.ch[c] with | some h => h.slider0 | none => false) ∧
    (P.otpHold = false →
      b.img.bit P 19 c.val = (match cfg.ch[c] with | some h => h.slider1 | none => false)) := by
  have lane := fun a h5 hs => bit_cfgBuild_lane P img cfg b hb c a h5 hs
  have h2 := lane 2 (by decide) rfl
  have h4 := lane 4 (by decide) rfl
  have h16 := lane 16 (by decide) rfl
  have h18 := lane 18 (by decide) rfl
  rw [h2, h4, h16, h18]
  refine ⟨?_, ?_, ?_, ?_, fun ho => ?_⟩
  · cases hc : cfg.ch[c] <;> simp [Cfg.lane, hc, ChCfg.lane]
  · cases hc : cfg.ch[c] <;> simp [Cfg.lane, hc, ChCfg.lane]
  · cases hc : cfg.ch[c] <;> simp [Cfg.lane, hc, ChCfg.lane]
  · cases hc : cfg.ch[c] <;> simp [Cfg.lane, hc, ChCfg.lane]
  · rw [lane 19 (by decide) (by simp [sharedBit, ho])]
    cases hc : cfg.ch[c] <;> simp [Cfg.lane, hc, ChCfg.lane, ho]

/-- An event kind is not suppressed exactly when some channel gives one of its events a code
(R258). -/
theorem bit_cfgBuild_kind (P : Params) (img : Memory) (cfg : Cfg) (b : Build)
    (hb : cfgBuild P img cfg = .ok b) (k : EventKind) :
    b.img.bit P 5 k.bit = false ↔
      ∃ (c : Chan) (h : ChCfg) (e : Event), cfg.ch[c] = some h ∧ e.kind = k ∧
        (h.ev[e.id].key ≠ 0 ∨ h.ev[e.id].sw ≠ 0) := by
  have hk : k.bit < 3 := by cases k <;> decide
  have hinj : ∀ e : Event, k.bit = e.kind.bit ↔ e.kind = k := fun e => by
    cases k <;> cases e <;> decide
  rw [bit_cfgBuild_eventMask P img cfg b hb k.bit (by omega), or_iff_left fun h => by omega]
  simp only [Cfg.gives, ChCfg.gives, EvCfg.coded, mem_channels, mem_event_all, true_and, hinj]
  exact exists_congr fun c => exists_congr fun h => exists_and_left.symm

/-- Gestures are not suppressed exactly when some gesture has a code (R259). -/
theorem bit_cfgBuild_gestures (P : Params) (img : Memory) (cfg : Cfg) (b : Build)
    (hb : cfgBuild P img cfg = .ok b) :
    b.img.bit P 5 3 = false ↔ ∃ (i : Fin 2) (g : Fin 4), cfg.slCode[i][g] ≠ 0 := by
  have hkind : ∀ e : Event, 3 ≠ e.kind.bit := fun e => by cases e <;> decide
  have hnone : ¬cfg.gives channels 3 := fun ⟨_, _, _, _, e, _, h3, _⟩ => hkind e h3
  rw [bit_cfgBuild_eventMask P img cfg b hb 3 (by decide), or_iff_right hnone]
  exact and_iff_right rfl

/-- The forced bits of a build (R261, R280). -/
theorem cfgBuild_forced (P : Params) (img : Memory) (cfg : Cfg) (b : Build)
    (hb : cfgBuild P img cfg = .ok b) :
    (∀ j, j < 8 → b.img.bit P 23 j = b.img.bit P 2 j) ∧
    b.img.bit P 1 5 = true ∧ b.img.bit P 1 2 = true ∧ b.img.bit P 1 0 = true ∧
    b.img.bit P 1 4 = anyRaw P cfg.slCode b.img := by
  obtain ⟨b₀, b₁, -, -, himg⟩ := cfgBuild_img P img cfg b hb
  rw [himg, anyRaw_forceImage]
  refine ⟨fun j hj => ?_, ?_, ?_, ?_, ?_⟩
  · rw [bit_forceImage_other P _ _ _ _ 2 j hj rfl, bit_forceImage P _ _ _ _ 23 j hj]
    rfl
  all_goals rw [bit_forceImage P _ _ _ _ 1 _ (by decide)]; rfl

/-- The system fields of a build, row by row (R254). -/
theorem cfgBuild_sysFields (P : Params) (img : Memory) (cfg : Cfg) (b : Build)
    (hb : cfgBuild P img cfg = .ok b) (f : SysField) (v : Option Nat) (d : Nat)
    (hf : f ∈ propertyFields.erase .touchHold)
    (hv : propertyValue (sysProperties P cfg.sys) (.sys f) = v) (hd : fieldDivisor P f = d) :
    b.img.stored P (.sys f) 0 = builtValue v d (img.stored P (.sys f) 0) := by
  obtain ⟨hmem, hne⟩ := (by decide : ∀ g ∈ propertyFields.erase .touchHold,
    g ∈ propertyFields ∧ g ≠ .touchHold) f hf
  rw [stored_cfgBuild_sys P img cfg b hb f hmem hne, hv]
  exact afterProperty_eq_builtValue P _ v d _ fun x => hd ▸ storedValue_sys P f x

/-- The fields of a channel the record holds, row by row (R256 to R258). -/
theorem cfgBuild_chanFields (P : Params) (img : Memory) (cfg : Cfg) (b : Build)
    (hb : cfgBuild P img cfg = .ok b) (c : Chan) (h : ChCfg) (hc : cfg.ch[c] = some h) :
    ∀ r ∈ ([(.eaMeasCap, h.measCap.map Bool.toNat, 1), (.localCapSize, h.localCap, 1),
        (.eaPolarity, h.polarity.map Bool.toNat, 1), (.eaSenseMode, h.senseMode, 1),
        (.ebSenseFreq, h.senseFreq, 1), (.eaBias, h.bias, 1), (.eaAtiMode, h.atiMode, 1),
        (.ebAtiBase, h.atiBase.map ([75, 100, 150, 200].idxOf ·), 1),
        (.ebAtiTarget, h.atiTarget, 32), (.assocSel, h.assocSelect, 1),
        (.assocWeight, h.assocWeight, 1),
        (.threshProx, h.ev[1].thresh.or h.ev[0].thresh, 1),
        (.threshTouch, h.ev[3].thresh.or h.ev[2].thresh, 1),
        (.threshDeep, h.ev[5].thresh.or h.ev[4].thresh, 1),
        (.hystTouch, h.ev[3].hyst.or h.ev[2].hyst, 1),
        (.hystDeep, h.ev[5].hyst.or h.ev[4].hyst, 1)] :
          List (ChanField × Option Nat × Nat)),
      b.img.stored P (.chan r.1) c = builtValue r.2.1 r.2.2 (img.stored P (.chan r.1) c) := by
  have stored := fun f hf hrx htx => stored_cfgBuild_chan P img cfg b hb c h hc f hf hrx htx
  have row : ∀ (f : ChanField) (v : Option Nat) (d : Nat),
      isRawField (.chan f) = false ∧ ChanField.rxEn ≠ f ∧ ChanField.txEn ≠ f → h.value f = v →
      (∀ x, storedValue P (.chan f) x = x / d) →
      b.img.stored P (.chan f) c = builtValue v d (img.stored P (.chan f) c) :=
    fun f v d hf hv hd => by
      rw [stored f hf.1 hf.2.1 hf.2.2, hv, afterProperty_eq_builtValue P _ v d _ hd]
  have one := fun f v hf hv (hd : ∀ x, storedValue P (.chan f) x = x) =>
    row f v 1 hf hv fun x => (hd x).trans (Nat.div_one x).symm
  have two : ∀ u v : Option Nat, (u.or (v.or none)).or none = u.or v := fun u v => by
    rw [Option.or_none, Option.or_none]
  simp only [List.forall_mem_cons]
  refine ⟨one .eaMeasCap _ (by decide) (flag_eq _) fun _ => rfl,
    one .localCapSize _ (by decide) rfl fun _ => rfl,
    one .eaPolarity _ (by decide) (flag_eq _) fun _ => rfl,
    one .eaSenseMode _ (by decide) rfl fun _ => rfl,
    one .ebSenseFreq _ (by decide) rfl fun _ => rfl,
    one .eaBias _ (by decide) rfl fun _ => rfl,
    one .eaAtiMode _ (by decide) rfl fun _ => rfl,
    ?_,
    row .ebAtiTarget _ 32 (by decide) rfl fun _ => rfl,
    one .assocSel _ (by decide) rfl fun _ => rfl,
    one .assocWeight _ (by decide) rfl fun _ => rfl,
    one .threshProx _ (by decide) (two _ _) fun _ => rfl,
    one .threshTouch _ (by decide) (two _ _) fun _ => rfl,
    one .threshDeep _ (by decide) (two _ _) fun _ => rfl,
    one .hystTouch _ (by decide) (two _ _) fun _ => rfl,
    one .hystDeep _ (by decide) (two _ _) fun _ => rfl, nofun⟩
  have hbase : h.value .ebAtiBase = h.atiBase := rfl
  rw [stored .ebAtiBase rfl (by decide) (by decide), hbase]
  cases h.atiBase with
  | none => rfl
  | some x => exact (Nat.div_one _).symm

/-- Settles O45: the masks lane by lane, the fields by the values their properties and events give,
and what no step of the build writes. -/
theorem builtMasks : Obligations.BuiltMasks := by
  intro P img cfg b hb
  obtain ⟨hredo, hmode, hredoBit, hack, hlp⟩ := cfgBuild_forced P img cfg b hb
  refine ⟨fun c => ?_, bit_cfgBuild_kind P img cfg b hb, bit_cfgBuild_gestures P img cfg b hb,
    fun r hr => ?_, read_cfgBuild_touchHold P img cfg b hb,
    fun c h hc => ⟨?_, bit_cfgBuild_pins P img cfg b hb c h hc⟩, fun c a hc hlo hhi => ?_, ?_,
    fun c => ?_, bit_cfgBuild_reserved P img cfg b hb, hmode, hredoBit, hack, ?_⟩
  · obtain ⟨hactive, hreseed, hblocking, hslider0, hslider1⟩ := cfgBuild_lanes P img cfg b hb c
    exact ⟨hactive, (hredo _ c.isLt).trans hactive, hreseed, hblocking, hslider0, hslider1⟩
  · refine cfgBuild_sysFields P img cfg b hb r.1 r.2.1 r.2.2 ?_ ?_ ?_
    · exact List.mem_map_of_mem (f := fun r : SysField × Option Nat × Nat => r.1) hr
    · simp only [← flag_eq] at hr
      exact (List.map_inj_left (f := fun r => propertyValue (sysProperties P cfg.sys) (.sys r.1))
        (g := fun r => r.2.1)).mp rfl r hr
    · exact (List.map_inj_left (f := fun r => fieldDivisor P r.1) (g := fun r => r.2.2)).mp rfl r hr
  · exact cfgBuild_chanFields P img cfg b hb c h hc
  · exact Memory.read_ext P _ _ a fun j hj =>
      bit_cfgBuild_absent P img cfg b hb c hc a j hj ⟨hlo, hhi⟩
  · exact Memory.read_ext P _ _ 10 fun j hj =>
      bit_cfgBuild_kept P img cfg b hb 10 j hj rfl rfl (by decide) (fun _ _ _ hin => by omega)
        fun f hf => (by decide : ∀ g ∈ propertyFields, ∀ i < 8, fieldBit (.sys g) 0 10 i = false)
          f hf j hj
  · cases hc : cfg.ch[c] with
    | none => exact stored_congr P _ _ _ c (by simp) fun a j hj hbit =>
        bit_cfgBuild_absent P img cfg b hb c hc a j hj (inBlock_of_fieldBit _ c a j hj hbit)
    | some h => exact stored_cfgBuild_chan P img cfg b hb c h hc .atiComp rfl (by decide) (by decide)
  · rw [hlp, anyRaw_iff]

end Sys2Proof.Machine
end
